-- ==== Sys2Proof/Word.lean ====
section
/-! DEFINITION. Word types and index types of the Zajlor 4640 (00_scope.md, Conventions). -/

namespace Sys2Proof

/-- One byte of a frame, an envelope, a record or the profile flash. -/
abbrev Byte := BitVec 8

/-- A TT nanosecond count, and every stamp taken from it (R1, R4). -/
abbrev Stamp := BitVec 64

/-- An ET tick count (R1). -/
abbrev Ticks := BitVec 64

/-- A tally: 32 bits, wrapping (00_scope.md, "Tallies"). -/
abbrev Count := BitVec 32

/-- A route, and the lane of the same number (00_scope.md, "Indices"). -/
abbrev RouteIx := Fin 16

/-- A peer P0-P3. -/
abbrev PeerIx := Fin 4

/-- A tenant port T0-T5. -/
abbrev PortIx := Fin 6

/-- A circuit C0-C63. -/
abbrev CircIx := Fin 64

end Sys2Proof
end

