-- ==== Sys2Proof/Config.lean ====
section
/-! DEFINITION. The constants the part fixes (00_scope.md, "Principal quantities", and the rules named at each), and the one
value that no state of the part gives, which has no body (log entry 26). -/

namespace Sys2Proof.Config

/-- Ticks of ET in one millisecond (R3). -/
abbrev ticksPerMs : Nat := 125000

/-- Nanoseconds in one tick of ET (R3). -/
abbrev nsPerTick : Nat := 8

/-- One nominal tick of 8 ns in units of 2^-32 ns (R2). -/
abbrev nominalInc : Nat := 34359738368

/-- Nanoseconds in one second (R13, R14). -/
abbrev nsPerSecond : Nat := 1000000000

/-- The glitch spacing of PPS edges, in ticks (R12). -/
abbrev ppsSpacing : Nat := 62500000

/-- The interval of a PPS offset, in microseconds (R6). -/
abbrev ppsIntervalUs : Nat := 1000000

/-- Good offsets in a row that lock the time base (R9). -/
abbrev lockRun : Nat := 8

/-- Frame memory slots (R154). -/
abbrev slotCount : Nat := 1024

/-- Bytes a slot stores (R154). -/
abbrev slotBytes : Nat := 2048

/-- HOLD is asserted when the free count falls below this (R159). -/
abbrev holdBelow : Nat := 64

/-- HOLD is released when the free count reaches this (R159). -/
abbrev holdUntil : Nat := 96

/-- Copies a waiting queue holds (R100, R117). -/
abbrev queueMax : Nat := 48

/-- ECHO entries of a control queue (R118). -/
abbrev echoMax : Nat := 4

/-- Outstanding probe records per route (R39). -/
abbrev outstandingMax : Nat := 8

/-- Samples in a route's ring (R47). -/
abbrev sampleMax : Nat := 8

/-- RSL values in a lane's ring (R28). -/
abbrev rslMax : Nat := 8

/-- Frames in a delivery queue (R149). -/
abbrev deliveryMax : Nat := 64

/-- Answers waiting at which a directive is not taken (R166). -/
abbrev answerMax : Nat := 16

/-- Sequence numbers in a duplicate window (R141). -/
abbrev windowSize : Nat := 64

/-- The longest tenant payload (R164). -/
abbrev payloadMax : Nat := 1500

/-- Bytes a CARGO frame adds to its payload (R195). -/
abbrev cargoOverhead : Nat := 32

/-- The longest trunk frame (R24). -/
abbrev trunkMax : Nat := 1532

/-- Pattern bytes of a TEST (R68). -/
abbrev patternLen : Nat := 256

/-- The value at which an expected arrival saturates (R101). -/
abbrev expectedMax : Nat := 4294967295

/-- The value at which a lateness sum saturates (R145). -/
abbrev latenessMax : Nat := 281474976710655

/-- Consecutive misses at which a link goes DOWN (R193). -/
abbrev missMax : Nat := 8

/-- Fill words in a row, with no miss between them, that bring a link UP (R193). -/
abbrev fillRun : Nat := 16

/-- The ticks with no byte received after which a link goes DOWN: 100 µs (R193). -/
abbrev silenceTicks : Nat := 12500

/-- Bytes of an envelope before its body: marker, status byte, body length (R193). -/
abbrev envelopeHead : Nat := 4

/-- FREE VALUE (log entry 26): how many bytes of the DELIVER under way on port `p` have left at the RESTART of number
`draw` (R153). The rules time no byte of a tenant link, so nothing is known of it. -/
opaque cutPoint : (draw : Nat) → (p : PortIx) → Nat

/-- Bytes of the profile flash (00_scope.md, Ports). -/
abbrev flashBytes : Nat := 65536

/-- Bytes of the image area (R180). -/
abbrev imageArea : Nat := 16384

/-- First byte of the save marker (R198). -/
abbrev markerBase : Nat := 65280

/-- Bytes of the save marker (R198). -/
abbrev markerBytes : Nat := 256

/-- Bytes of the marker that step 1 of a SAVE programs to 0 (R198). -/
abbrev markerSet : Nat := 16

/-- Bytes of the image header (R198). -/
abbrev headerBytes : Nat := 10

/-- The format number of this part's image (R180). -/
abbrev formatNumber : Nat := 1

/-- The longest a SAVE runs, in ticks: 400 ms (R186). -/
abbrev saveLimit : Nat := 50000000

end Sys2Proof.Config
end

