-- ==== Sys2Proof/Syntax.lean ====
section
/-! DEFINITION. The commands of the terminal: one constructor of `Instr` for each row of spec/opcode_table.json. A command
is one whole, indivisible step of the part (95_what_each_step_holds.md); its operands are what arrives from outside with it:
the lane or the tenant port, the bytes received, and what an external flash has left behind. -/

namespace Sys2Proof

/-- A DIRECTIVE envelope (R193) but for its directive code, which the row names: the port it came in on, the status byte,
the request number, the code-present byte, the operator code field, the argument bytes and the CRC field received. -/
structure Directive where
  port    : PortIx
  status  : Byte
  request : Byte
  present : Byte
  code    : BitVec 16
  args    : List Byte
  crc     : BitVec 32
deriving DecidableEq, Repr

/-- Where an interrupted or failed SAVE stood (R187, R188): the step 1-5 under way, and the bytes the external flash holds
in the area that step works on. Step 1: the first bytes of the save marker. Steps 2 to 4: the image area, from its first
byte, erased beyond the list. Step 5: the first bytes of the save marker. -/
structure FlashLeft where
  step  : Fin 5
  bytes : List Byte
deriving DecidableEq, Repr

/-- How a SAVE completes (R187): every step succeeded, or a step failed and left this behind. -/
inductive SaveResult where
  | done
  | failed (left : FlashLeft)
deriving DecidableEq, Repr

/-- The commands. -/
inductive Instr where
  /-- COLD_RESET (R20): `left` says what a SAVE in flight leaves in the flash (R188); without one it is not read. -/
  | coldReset (left : FlashLeft)
  /-- LOAD_END (R185): `answers` is off when the flash does not answer on the port (R183). -/
  | loadEnd (answers : Bool)
  /-- ADVANCE (R1): one tick of 8 ns. -/
  | advance
  /-- PPS_OUT_FIRE (R14). -/
  | ppsOutFire
  /-- HOLDOVER_EXPIRY (R10). -/
  | holdoverExpiry
  /-- PPS_EDGE (R12). -/
  | ppsEdge
  /-- SET_TIME (R17). -/
  | setTime (d : Directive)
  /-- READ_TIME (R19). -/
  | readTime (d : Directive)
  /-- LANE_BYTE_TAKEN (R119). -/
  | laneByteTaken (r : RouteIx)
  /-- TRANSMIT_END (R126). -/
  | transmitEnd (r : RouteIx)
  /-- FRAME_START (R136): `first` is the frame's first byte, its kind. -/
  | frameStart (r : RouteIx) (first : Byte)
  /-- LENGTH_LIMIT_END (R24). -/
  | lengthLimitEnd (r : RouteIx)
  /-- FRAME_END (R137): `rest` is the frame after its first byte. -/
  | frameEnd (r : RouteIx) (rest : List Byte)
  /-- LOS_ASSERT (R25). -/
  | losAssert (r : RouteIx)
  /-- LOS_RELEASE (R26). -/
  | losRelease (r : RouteIx)
  /-- LANE_REPORT (R28): `record` is the record's bytes. -/
  | laneReport (r : RouteIx) (record : List Byte)
  /-- SILENCE_EXPIRY (R31). -/
  | silenceExpiry (r : RouteIx)
  /-- PROBE_REQUEST (R37). -/
  | probeRequest (r : RouteIx)
  /-- PROBE_TIMEOUT (R39). -/
  | probeTimeout (r : RouteIx)
  /-- TEST_REQUEST (R67). -/
  | testRequest (r : RouteIx)
  /-- OFFER (R120). -/
  | offer (r : RouteIx)
  /-- SEND_START (R156). -/
  | sendStart (p : PortIx)
  /-- SEND_END (R164): the status byte, the body and the CRC field of the SEND envelope (R193). -/
  | sendEnd (p : PortIx) (status : Byte) (body : List Byte) (crc : BitVec 32)
  /-- OUTBOUND_TURN (R174). -/
  | outboundTurn (p : PortIx)
  /-- OUTBOUND_FRAME_END (R174). -/
  | outboundFrameEnd (p : PortIx)
  /-- LINK_DOWN (R162). -/
  | linkDown (p : PortIx)
  /-- LINK_UP (R163). -/
  | linkUp (p : PortIx)
  /-- BAD_INBOUND_ENVELOPE (R193). -/
  | badInboundEnvelope (p : PortIx)
  /-- UNKNOWN_DIRECTIVE (R167): the status byte, the whole body and the CRC field of the DIRECTIVE envelope (R193). -/
  | unknownDirective (p : PortIx) (status : Byte) (body : List Byte) (crc : BitVec 32)
  /-- READ_TABLE (R170). -/
  | readTable (d : Directive)
  /-- WATCH (R172). -/
  | watch (d : Directive)
  /-- PAUSE (R88). -/
  | pause (d : Directive)
  /-- RESUME (R88). -/
  | resume (d : Directive)
  /-- CLEAR_COUNTS (R95). -/
  | clearCounts (d : Directive)
  /-- SET_IDENTITY (R169). -/
  | setIdentity (d : Directive)
  /-- SET_PEER (R74). -/
  | setPeer (d : Directive)
  /-- SET_ROUTE (R72). -/
  | setRoute (d : Directive)
  /-- SET_LANE (R33). -/
  | setLane (d : Directive)
  /-- SET_HEALTH (R77). -/
  | setHealth (d : Directive)
  /-- SET_PROBE (R56). -/
  | setProbe (d : Directive)
  /-- SET_CALENDAR (R131). -/
  | setCalendar (d : Directive)
  /-- OPEN_CIRCUIT (R83). -/
  | openCircuit (d : Directive)
  /-- CLOSE_CIRCUIT (R85). -/
  | closeCircuit (d : Directive)
  /-- FORCE_ROUTE (R112). -/
  | forceRoute (d : Directive)
  /-- RELEASE_ROUTE (R113). -/
  | releaseRoute (d : Directive)
  /-- TEST_ROUTE (R71). -/
  | testRoute (d : Directive)
  /-- SAVE_PROFILE (R186). -/
  | saveProfile (d : Directive)
  /-- SAVE_COMPLETE (R187). -/
  | saveComplete (result : SaveResult)
  /-- RESTART (R189). -/
  | restart (d : Directive)
  /-- MISS (R193): `first` is on when a marker was found since the port's last miss, so that the run of misses begins anew. -/
  | miss (p : PortIx) (first : Bool)
deriving DecidableEq, Repr

end Sys2Proof
end

