-- ==== Sys2Proof/WellFormed.lean ====
section
/-! DEFINITION. Which commands an event of the terminal can carry. Indices are bounded by their types; what is left are
lengths that the formats bound (R24, R193), the flash that a SAVE may leave behind (R187), and the names an unknown
directive may not have (R193). -/

namespace Sys2Proof

/-- The directive code a body names: bodies of fewer than 5 bytes name directive 0 (R193). -/
def directiveNamed (body : List Byte) : Byte :=
  if body.length < 5 then 0 else body.getD 0 0

/-- The codes 1 to 21 name directives (R193). -/
def knownDirective (code : Byte) : Bool :=
  decide (1 ≤ code.toNat) && decide (code.toNat ≤ 21)

/-- A DIRECTIVE body's length is held in two bytes, and its fixed part is 5 bytes (R193). -/
def Directive.wf (d : Directive) : Bool :=
  decide (d.args.length ≤ 65530)

/-- What a step of a SAVE can leave (R187): at steps 1 and 5 some of the 16 marker bytes that step 1 programs, and at step 5
a marker that still reads set; at steps 2 to 4 no more than the image area. -/
def FlashLeft.wf (l : FlashLeft) : Bool :=
  match l.step with
  | 0 => decide (l.bytes.length ≤ Config.markerSet)
  | 4 => decide (l.bytes.length ≤ Config.markerSet) && l.bytes.any (· != 0xFF)
  | _ => decide (l.bytes.length ≤ Config.imageArea)

/-- A completion is possible when what it leaves is. -/
def SaveResult.wf : SaveResult → Bool
  | .done => true
  | .failed l => l.wf

/-- The commands an event of the terminal can carry. -/
def Instr.wf : Instr → Bool
  | .coldReset left => left.wf
  | .saveComplete result => result.wf
  | .frameEnd _ rest => decide (rest.length + 1 ≤ Config.trunkMax)
  | .sendEnd _ _ body _ => decide (body.length ≤ 65535)
  | .unknownDirective _ _ body _ => decide (body.length ≤ 65535) && !knownDirective (directiveNamed body)
  | .setTime d => d.wf
  | .readTime d => d.wf
  | .readTable d => d.wf
  | .watch d => d.wf
  | .pause d => d.wf
  | .resume d => d.wf
  | .clearCounts d => d.wf
  | .setIdentity d => d.wf
  | .setPeer d => d.wf
  | .setRoute d => d.wf
  | .setLane d => d.wf
  | .setHealth d => d.wf
  | .setProbe d => d.wf
  | .setCalendar d => d.wf
  | .openCircuit d => d.wf
  | .closeCircuit d => d.wf
  | .forceRoute d => d.wf
  | .releaseRoute d => d.wf
  | .testRoute d => d.wf
  | .saveProfile d => d.wf
  | .restart d => d.wf
  | .loadEnd _ => true
  | .advance => true
  | .ppsOutFire => true
  | .holdoverExpiry => true
  | .ppsEdge => true
  | .laneByteTaken _ => true
  | .transmitEnd _ => true
  | .frameStart _ _ => true
  | .lengthLimitEnd _ => true
  | .losAssert _ => true
  | .losRelease _ => true
  | .laneReport _ _ => true
  | .silenceExpiry _ => true
  | .probeRequest _ => true
  | .probeTimeout _ => true
  | .testRequest _ => true
  | .offer _ => true
  | .sendStart _ => true
  | .outboundTurn _ => true
  | .outboundFrameEnd _ => true
  | .linkDown _ => true
  | .linkUp _ => true
  | .badInboundEnvelope _ => true
  | .miss _ _ => true

end Sys2Proof
end

