-- ==== Sys2Proof/Machine/Types.lean ====
section
/-! DEFINITION. The records of the eleven blocks (00_scope.md, "Blocks") and the values they hold after cold reset. -/

namespace Sys2Proof.Machine

/-! ### State sets (00_scope.md, "State sets") -/

/-- Time states (R9). -/
inductive TimeState where
  | free | acquiring | locked | holdover
deriving DecidableEq, Repr

/-- The role in the network's time base (R17). -/
inductive Role where
  | reference | follower
deriving DecidableEq, Repr

/-- Lane types (R22). -/
inductive LaneType where
  | unused | radio | fiber
deriving DecidableEq, Repr

/-- RSL trends (R30). -/
inductive Trend where
  | steady | falling | rising
deriving DecidableEq, Repr

/-- Route states (R64). -/
inductive RouteState where
  | disabled | proving | up | fading | down
deriving DecidableEq, Repr

/-- Circuit states (R81). -/
inductive CircState where
  | closed | opened | paused
deriving DecidableEq, Repr

/-- Circuit classes (R104). -/
inductive TrafficClass where
  | fast | sure
deriving DecidableEq, Repr

/-- Load states (R183). -/
inductive LoadState where
  | loading | running
deriving DecidableEq, Repr

/-- Load outcomes (R184). -/
inductive LoadOutcome where
  | loaded | empty | checksumError | formatError
deriving DecidableEq, Repr

/-- The part of an image that failed (R181, R184). -/
inductive ImagePart where
  | header | identity | peers | lanes | routes | health | probe | time | calendars | circuits
deriving DecidableEq, Repr

/-- Answer statuses (10_tenant_ports_directives_and_notices.md, "Directives"). -/
inductive Status where
  | done | denied | badArg | busy | notFound | notOwner | inUse | starting | unknown | flashError
deriving DecidableEq, Repr

/-- Refusal reasons of a SEND (R164). -/
inductive RefusalReason where
  | notOpen | notOwner | paused | tooLong | noRoute | notReady
deriving DecidableEq, Repr

/-- Discard reasons of a frame (R92). -/
inductive DiscardReason where
  | expired | noRoute | flushed | relayFailed | withdrawn
deriving DecidableEq, Repr

/-! ### Settings (R182) -/

/-- The settings of a peer (R74). -/
structure PeerSettings where
  enabled : Bool
  termId  : Byte
deriving DecidableEq, Repr

/-- The settings of a lane (R33): TXC and RXC in ns, the report interval in ms. -/
structure LaneSettings where
  type     : LaneType
  txc      : Nat
  rxc      : Nat
  interval : Nat
deriving DecidableEq, Repr

/-- The settings of a route (R72): A in ns. -/
structure RouteSettings where
  enable : Bool
  peer   : PeerIx
  a      : Int
deriving DecidableEq, Repr

/-- The health thresholds (R77). -/
structure HealthSettings where
  warn         : Nat
  cut          : Nat
  rslFade      : Int
  rslCut       : Int
  hyst         : Nat
  slope        : Nat
  proveWindows : Nat
deriving DecidableEq, Repr

/-- The probe settings (R56): interval and timeout in ms, GATE in ns. -/
structure ProbeSettings where
  interval : Nat
  timeout  : Nat
  gate     : Nat
deriving DecidableEq, Repr

/-- The time settings (R17): limits in ns, HOLDOVER_TIME in ms. -/
structure TimeSettings where
  role      : Role
  followed  : PeerIx
  ppsEnable : Bool
  stepLimit : Nat
  lockLimit : Nat
  ki        : Nat
  kp        : Nat
  holdover  : Nat
deriving DecidableEq, Repr

/-- A route's calendar: sixteen slots, each a port or FREE (R122). -/
abbrev Calendar := Vector (Option PortIx) 16

/-- The settings the profile holds, but for the circuits, whose definitions stand in their records (R180). -/
structure Settings where
  termId    : Byte
  opCode    : BitVec 16
  peers     : Vector PeerSettings 4
  lanes     : Vector LaneSettings 16
  routes    : Vector RouteSettings 16
  health    : HealthSettings
  probe     : ProbeSettings
  time      : TimeSettings
  calendars : Vector Calendar 16
deriving DecidableEq, Repr

/-- The default calendar: T0 to T5 in slots 0 to 5, again in slots 6 to 11, and slots 12 to 15 FREE (R134). -/
def Calendar.default : Calendar :=
  ⟨#[some 0, some 1, some 2, some 3, some 4, some 5, some 0, some 1, some 2, some 3, some 4, some 5,
     none, none, none, none], rfl⟩

/-- The SAFE time settings (R17). -/
def TimeSettings.safe : TimeSettings :=
  { role := .reference, followed := 0, ppsEnable := false, stepLimit := 100000, lockLimit := 500, ki := 4, kp := 1,
    holdover := 1000 }

/-- The SAFE lane settings (R33). -/
def LaneSettings.safe : LaneSettings := { type := .unused, txc := 0, rxc := 0, interval := 10 }

/-- The SAFE health thresholds (R77). -/
def HealthSettings.safe : HealthSettings :=
  { warn := 32, cut := 96, rslFade := -550, rslCut := -700, hyst := 30, slope := 30, proveWindows := 32 }

/-- The SAFE probe settings (R56). -/
def ProbeSettings.safe : ProbeSettings := { interval := 2, timeout := 16, gate := 2000 }

/-- The SAFE settings (R182). -/
def Settings.safe : Settings :=
  { termId := 0
    opCode := 0
    peers := Vector.replicate 4 { enabled := false, termId := 0 }
    lanes := Vector.replicate 16 LaneSettings.safe
    routes := Vector.replicate 16 { enable := false, peer := 0, a := 0 }
    health := HealthSettings.safe
    probe := ProbeSettings.safe
    time := TimeSettings.safe
    calendars := Vector.replicate 16 Calendar.default }

/-! ### Time base unit (01_terminal_time.md) -/

/-- The time base unit. `ppsEdgesOut` is the MODEL's own: the rising edges given at the PPS output pin since cold reset. -/
structure TimeBase where
  tt          : BitVec 64
  frac        : BitVec 32
  et          : Ticks
  fc          : Int
  sl          : Int
  p           : Int
  inc         : Nat
  state       : TimeState
  good        : Nat
  lastOffset  : Option Ticks
  capture     : Option Stamp
  accepted    : Count
  glitches    : Count
  lastEdge    : Option Ticks
  lastFired   : Nat
  timeRoute   : Option RouteIx
  ppsEdgesOut : Nat
deriving DecidableEq, Repr

/-- The time base after cold reset (R20). -/
def TimeBase.coldReset : TimeBase :=
  { tt := 0, frac := 0, et := 0, fc := 0, sl := 0, p := 0, inc := Config.nominalInc, state := .free, good := 0,
    lastOffset := none, capture := none, accepted := 0, glitches := 0, lastEdge := none, lastFired := 0,
    timeRoute := none, ppsEdgesOut := 0 }

/-! ### Lane unit (02_lanes_and_modem_reports.md) -/

/-- A lane report as taken (R28): RSL in tenths of dBm, quality in tenths of a dB, and the three alarms. -/
structure Report where
  rsl     : Int
  step    : Nat
  quality : Nat
  fault   : Bool
  temp    : Bool
  mute    : Bool
deriving DecidableEq, Repr

/-- Where the bytes of a frame being received go (R136). -/
inductive RxStore where
  | unreceived
  | slot (k : Nat)
  | buffer
deriving DecidableEq, Repr

/-- The frame a lane is receiving (R136): its arrival stamp and ET, its first byte and its store. -/
structure Rx where
  stamp : Stamp
  et    : Ticks
  first : Byte
  store : RxStore
deriving DecidableEq, Repr

/-- The counts of a lane (R35). -/
structure LaneCounts where
  reports   : Count := 0
  clamped   : Count := 0
  ignored   : Count := 0
  bad       : Count := 0
  silences  : Count := 0
  los       : Count := 0
  oversize  : Count := 0
  abandoned : Count := 0
deriving DecidableEq, Repr

/-- A lane: its LOS level, latest report, RSL ring (oldest first), trend, SILENT, the ET its silence timer last started at
when one runs, the frame being received, and the counts. -/
structure Lane where
  los    : Bool
  latest : Option Report
  ring   : List Int
  trend  : Trend
  silent : Bool
  timer  : Option Ticks
  rx     : Option Rx
  counts : LaneCounts
deriving DecidableEq, Repr

/-- A lane after cold reset, its LOS level as sensed (R36). -/
def Lane.coldReset (los : Bool) : Lane :=
  { los := los, latest := none, ring := [], trend := .steady, silent := false, timer := none, rx := none, counts := {} }

/-! ### Probe engine (03_probe_exchange_and_route_delay.md) -/

/-- The record of a PROBE sent and not yet resolved (R39). -/
structure Outstanding where
  number : Byte
  t1     : Stamp
  sentAt : Ticks
deriving DecidableEq, Repr

/-- A sample (R46): RTT is 0 or more, D is signed. -/
structure Sample where
  number : Byte
  rtt    : Nat
  d      : Int
  at_    : Ticks
deriving DecidableEq, Repr

/-- The peer's view of a route (R48): the state byte and pattern-error count of its latest ECHO, and the ET of it. -/
structure PeerView where
  state  : Byte
  errors : Byte
  at_    : Ticks
deriving DecidableEq, Repr

/-- The counts of the probe engine for a route (R58). -/
structure ProbeCounts where
  sent          : Count := 0
  fullSkips     : Count := 0
  replacedSkips : Count := 0
  echoesSent    : Count := 0
  echoesDropped : Count := 0
  good          : Count := 0
  badSample     : Count := 0
  lost          : Count := 0
  lateEcho      : Count := 0
  offsetsHanded : Count := 0
deriving DecidableEq, Repr

/-- The probe state of a route: `due` is the ET at which the next PROBE request is due, absent when stopped; M and F are
computed from the ring (R49, R50). -/
structure Probe where
  due         : Option Ticks
  nextNumber  : Byte
  outstanding : List Outstanding
  ring        : List Sample
  errorsToTell : Nat
  peerView    : Option PeerView
  counts      : ProbeCounts
deriving DecidableEq, Repr

/-- The probe state of a route after cold reset and after RESTART (R59). -/
def Probe.blank : Probe :=
  { due := none, nextNumber := 0, outstanding := [], ring := [], errorsToTell := 0, peerView := none, counts := {} }

/-! ### Route health unit (04_route_health_and_rain_fallback.md) -/

/-- The counts of the route health unit for a route (R79). -/
structure HealthCounts where
  changes       : Count := 0
  crcFailures   : Count := 0
  testsSent     : Count := 0
  testSkips     : Count := 0
  testsChecked  : Count := 0
  testsFailed   : Count := 0
deriving DecidableEq, Repr

/-- The health of a route: `testDue` is the ET at which the next TEST request falls due, absent when stopped. -/
structure Health where
  state      : RouteState
  error      : Nat
  good       : Nat
  seed       : BitVec 16
  testDue    : Option Ticks
  lastChange : Option Ticks
  counts     : HealthCounts
deriving DecidableEq, Repr

/-- The health of a route after cold reset (R80). -/
def Health.coldReset : Health :=
  { state := .disabled, error := 0, good := 0, seed := 0, testDue := none, lastChange := none, counts := {} }

/-! ### Circuit table (05_circuits.md) -/

/-- The fields of a circuit that belong to one direction (05_circuits.md, the table of fields): max age in microseconds. -/
inductive Flow where
  | out (far : CircIx) (cls : TrafficClass) (maxAge : Nat)
  | inn (relay : Option CircIx)
deriving DecidableEq, Repr

/-- The fields a circuit takes at OPEN_CIRCUIT (R84). -/
structure CircuitDef where
  port : PortIx
  peer : PeerIx
  flow : Flow
deriving DecidableEq, Repr

/-- A seen entry of a window (R141). -/
structure WinEntry where
  route : RouteIx
  stamp : Stamp
deriving DecidableEq, Repr

/-- A duplicate window (R141): `entries` holds the entry of the sequence number H - b at position b, 0 to 63. -/
structure Window where
  valid   : Bool
  h       : BitVec 16
  entries : List (Option WinEntry)
deriving DecidableEq, Repr

/-- An invalid window, every entry unseen (R141). -/
def Window.invalid : Window := { valid := false, h := 0, entries := List.replicate Config.windowSize none }

/-- The OUT tallies (R91, R105). -/
structure OutTallies where
  accepted     : Count := 0
  sent         : Count := 0
  expired      : Count := 0
  noRoute      : Count := 0
  flushed      : Count := 0
  held         : Count := 0
  shadowMissed : Count := 0
deriving DecidableEq, Repr

/-- The IN tallies (R93). -/
structure InTallies where
  accepted      : Count := 0
  duplicates    : Count := 0
  stale         : Count := 0
  overrun       : Count := 0
  relayed       : Count := 0
  relayFailures : Count := 0
  withdrawn     : Count := 0
deriving DecidableEq, Repr

/-- A circuit record: `closing` is the close pending field; `defn` is absent in a record never opened. -/
structure Circuit where
  state   : CircState
  closing : Option Nat
  defn    : Option CircuitDef
  nextSeq : BitVec 16
  window  : Window
  out     : OutTallies
  inn     : InTallies
deriving DecidableEq, Repr

/-- A circuit record after cold reset (R97). -/
def Circuit.blank : Circuit :=
  { state := .closed, closing := none, defn := none, nextSeq := 0, window := Window.invalid, out := {}, inn := {} }

/-! ### Route selector (06_route_choice_and_shadowing.md) -/

/-- What the selector holds for a peer (R111, R115). -/
structure PeerSel where
  forced  : Option RouteIx
  noRoute : Count
deriving DecidableEq, Repr

/-- What the selector counts for a route (R115). -/
structure RouteSel where
  primaries   : Count := 0
  shadows     : Count := 0
  resteeredIn : Count := 0
deriving DecidableEq, Repr

/-! ### Transmit unit (07_route_queues_and_the_transmit_calendar.md) -/

/-- A copy record: the frame's slot, circuit, sequence number, payload length, age origin and the port charged. -/
structure Copy where
  slot    : Nat
  circuit : CircIx
  seq     : BitVec 16
  len     : Nat
  origin  : Ticks
  port    : PortIx
deriving DecidableEq, Repr

/-- An ECHO entry (R42). -/
structure EchoEntry where
  number : Byte
  t1     : Stamp
  t2     : Stamp
  errors : Nat
  state  : RouteState
deriving DecidableEq, Repr

/-- Trunk frame kinds (R195). -/
inductive TrunkKind where
  | cargo | probe | echo | test
deriving DecidableEq, Repr

/-- The frame a lane is taking: its kind, for CARGO its copy record, its bytes as they leave (R195), and how many of them
the lane has not yet taken. -/
structure Current where
  kind    : TrunkKind
  copy    : Option Copy
  bytes   : List Byte
  untaken : Nat
deriving DecidableEq, Repr

/-- The counts of the transmit unit for a route (R133). -/
structure TxCounts where
  expiredAtStart    : Count := 0
  releasedResteer   : Count := 0
  expiredResteer    : Count := 0
  noRouteResteer    : Count := 0
  resteeredOut      : Count := 0
  abandoned         : Count := 0
  unslotted         : Count := 0
deriving DecidableEq, Repr

/-- The queues of a route (head first), the current frame of its lane, the calendar pointer, the CARGO-sent figure of its
scoreboard and the counts; the backlog Q is computed from the queue and the current frame (R119). -/
structure Tx where
  queue      : List Copy
  echoes     : List EchoEntry
  probeEntry : Bool
  testEntry  : Bool
  current    : Option Current
  pointer    : Fin 16
  cargoSent  : Count
  counts     : TxCounts
deriving DecidableEq, Repr

/-- The transmit state of a route after cold reset and after RESTART (R134, R135). -/
def Tx.blank : Tx :=
  { queue := [], echoes := [], probeEntry := false, testEntry := false, current := none, pointer := 0, cargoSent := 0,
    counts := {} }

/-! ### Arrival unit (08_arrival_duplicate_suppression_and_delivery.md) -/

/-- The arrival figures of a route's scoreboard and its arrival counts (R148). -/
structure Score where
  firsts         : Count := 0
  lates          : Count := 0
  lateness       : Nat := 0
  probes         : Count := 0
  echoes         : Count := 0
  tests          : Count := 0
  noBuffer       : Count := 0
  badKind        : Count := 0
  misdirected    : Count := 0
  malformed      : Count := 0
  unknownCircuit : Count := 0
deriving DecidableEq, Repr

/-! ### Frame memory (09_frame_memory.md) -/

/-- Where the frame of a slot came from (R154). -/
inductive Source where
  | send (p : PortIx)
  | cargo (r : RouteIx)
deriving DecidableEq, Repr

/-- A taken slot: the frame's source, the stamp and ET of its first byte, its bytes once received, its reference count, and
whether a copy of it has started transmission on its OUT circuit, after which it is no longer held (R91). -/
structure Frame where
  source  : Source
  stamp   : Stamp
  et      : Ticks
  bytes   : List Byte
  refs    : Nat
  started : Bool
deriving DecidableEq, Repr

/-- Frame memory: the taken slots by number, rising; HOLD; the low-water mark; the counts (R160). The free count is
computed from the taken slots. -/
structure Pool where
  slots     : List (Nat × Frame)
  hold      : Bool
  lowWater  : Nat
  holds     : Count
  underHold : Count
  sendNoBuffer    : Count
  arrivalNoBuffer : Count
deriving DecidableEq, Repr

/-- Frame memory after cold reset (R161). -/
def Pool.coldReset : Pool :=
  { slots := [], hold := false, lowWater := Config.slotCount, holds := 0, underHold := 0, sendNoBuffer := 0,
    arrivalNoBuffer := 0 }

/-! ### Tenant port unit (10_tenant_ports_directives_and_notices.md) -/

/-- A notice: its kind with its subject and detail (R173). -/
inductive Notice where
  | timeStep (theta : Int)
  | routeState (r : RouteIx) (old new : RouteState)
  | timeState (new old : TimeState)
  | rslTrend (r : RouteIx) (trend : Trend)
  | sendRefused (circuit : Byte) (reason : RefusalReason) (tag : BitVec 32)
  | circuitDiscard (circuit : CircIx) (reason : DiscardReason) (seq : BitVec 16)
  | deliveryOverrun (circuit : CircIx) (seq : BitVec 16)
  | holdIgnored (free : Nat)
deriving DecidableEq, Repr

/-- The pending record of a kind (R173): its count, and the latest notice with its subject and detail. -/
structure PendingRecord where
  count  : Nat
  latest : Option Notice
deriving DecidableEq, Repr

/-- A pending record cleared (R162, R175). -/
def PendingRecord.clear : PendingRecord := { count := 0, latest := none }

/-- An ANSWER: the request number, the status and the results (R194). -/
structure Answer where
  request : Byte
  status  : Status
  results : List Byte
deriving DecidableEq, Repr

/-- An entry of a delivery queue (R149). -/
structure DeliveryEntry where
  slot    : Nat
  circuit : CircIx
  seq     : BitVec 16
deriving DecidableEq, Repr

/-- The latest DELIVER of a port (R150). -/
structure LastDelivery where
  circuit : CircIx
  seq     : BitVec 16
  stamp   : Stamp
deriving DecidableEq, Repr

/-- The kinds of frame an outbound link carries (R174). -/
inductive OutKind where
  | notice | answer | deliver
deriving DecidableEq, Repr

/-- The outbound frame under way: its kind, its envelope as its bytes leave (R193), and whether RESTART has cut it off
(R153). -/
structure Outbound where
  kind  : OutKind
  bytes : List Byte
  cut   : Bool
deriving DecidableEq, Repr

/-- The SEND a port is receiving (R156): none, one in a slot, or one discarded NO_BUFFER whose bytes are ignored. -/
inductive Inbound where
  | idle
  | slot (k : Nat)
  | ignored
deriving DecidableEq, Repr

/-- The counts of a port (R171). -/
structure PortCounts where
  accepted  : Count := 0
  refused   : Count := 0
  notOpen   : Count := 0
  notOwner  : Count := 0
  paused    : Count := 0
  tooLong   : Count := 0
  noRoute   : Count := 0
  notReady  : Count := 0
  noBuffer  : Count := 0
  badFrames : Count := 0
  taken     : Count := 0
  overflow  : Count := 0
  denied    : Count := 0
  linkFlush : Count := 0
  linkUp    : Count := 0
  linkDown  : Count := 0
deriving DecidableEq, Repr

/-- The receiver of a tenant link (R193): the bytes of the unit it reads, from its marker; the fill words received in a row
while the link is DOWN; the byte at the last boundary was a miss, so that it hunts; and the ET at which a byte was last
received, absent while none has been since power-up. -/
structure Receiver where
  unit     : List Byte
  fills    : Nat
  hunting  : Bool
  lastByte : Option Ticks
deriving DecidableEq, Repr

/-- A receiver at a boundary, with no run (log entries 1 and 11). -/
def Receiver.fresh (lastByte : Option Ticks) : Receiver :=
  { unit := [], fills := 0, hunting := false, lastByte := lastByte }

/-- A tenant port. `up` is the link state; `misses` is the run of consecutive misses (R193); the watch set has the bit of
weight 2^(k-1) for the kind of priority k (R193); the pending records stand in order of priority. -/
structure Port where
  up           : Bool
  misses       : Nat
  receiver     : Receiver
  inbound      : Inbound
  delivery     : List DeliveryEntry
  answers      : List Answer
  saveOwed     : Option Byte
  watch        : BitVec 8
  records      : Vector PendingRecord 8
  lastDelivery : Option LastDelivery
  lastRequest  : Option Byte
  outbound     : Option Outbound
  counts       : PortCounts
deriving DecidableEq, Repr

/-- A port after cold reset, its link state as sensed (R178). -/
def Port.coldReset (up : Bool) : Port :=
  { up := up, misses := 0, receiver := Receiver.fresh none, inbound := .idle, delivery := [], answers := [], saveOwed := none,
    watch := 0xFF, records := Vector.replicate 8 PendingRecord.clear, lastDelivery := none, lastRequest := none,
    outbound := none, counts := {} }

/-! ### Profile unit (11_profile_store_and_start_up.md) -/

/-- A circuit definition of the profile (R180): the circuit number, whether it is PAUSED, and its fields. -/
structure SavedCircuit where
  number : CircIx
  paused : Bool
  defn   : CircuitDef
deriving DecidableEq, Repr

/-- What a profile image holds (R180). -/
structure Image where
  settings : Settings
  circuits : List SavedCircuit
deriving DecidableEq, Repr

/-- A SAVE in flight (R186): its snapshot and the ET of its acceptance. -/
structure SaveJob where
  snapshot : Image
  started  : Ticks
deriving DecidableEq, Repr

/-- How a SAVE ended (R187): DONE, or FLASH_ERROR with the step, 0 standing for step 1. -/
inductive SaveOutcome where
  | done
  | flashError (step : Fin 5)
deriving DecidableEq, Repr

/-- The profile unit. A SAVE is in flight when `save` is present. `restarts` is the MODEL's own: the RESTARTs accepted since
power-up, which number the draws of Config.cutPoint (log entry 26). -/
structure Profile where
  load        : LoadState
  outcome     : Option LoadOutcome
  failing     : Option ImagePart
  save        : Option SaveJob
  restartOwed : Option (PortIx × Byte)
  lastSave    : Option SaveOutcome
  loads       : Count
  savesDone   : Count
  savesFailed : Count
  restarts    : Nat
deriving DecidableEq, Repr

/-- The profile unit after cold reset (R191). -/
def Profile.coldReset : Profile :=
  { load := .loading, outcome := none, failing := none, save := none, restartOwed := none, lastSave := none, loads := 0,
    savesDone := 0, savesFailed := 0, restarts := 0 }

end Sys2Proof.Machine
end

