-- ==== Sys2Proof/Machine/Bytes.lean ====
section
/-! DEFINITION. Byte order, the CRC-32, the test pattern and the code tables (12_frame_and_record_formats.md). -/

namespace Sys2Proof.Machine

/-! ### Byte order (12: "Multi-byte fields are sent most significant byte first") -/

/-- `v` modulo 256^n in `n` bytes, most significant first. -/
def bytesOf : (n : Nat) → (v : Nat) → List Byte
  | 0, _ => []
  | n + 1, v => BitVec.ofNat 8 (v / 256 ^ n) :: bytesOf n v

/-- A signed value in two's complement in `n` bytes, most significant first. -/
def bytesOfInt (n : Nat) (v : Int) : List Byte := bytesOf n (v % (256 ^ n : Nat)).toNat

/-- The unsigned field of `len` bytes at offset `off`; a missing byte is read as 0 (R193). -/
def field (bs : List Byte) (off len : Nat) : Nat :=
  (List.range len).foldl (fun v i => 256 * v + (bs.getD (off + i) 0).toNat) 0

/-- A field of `len` bytes read in two's complement. -/
def signedField (bs : List Byte) (off len : Nat) : Int :=
  let v := field bs off len
  if 2 * v < 256 ^ len then (v : Int) else (v : Int) - (256 ^ len : Nat)

/-! ### The CRC-32 (R192) -/

/-- One shift of the CRC register (R192, step 3). -/
def crcShift (c : BitVec 32) : BitVec 32 :=
  if c.getLsbD 0 then (c >>> 1) ^^^ 0xEDB88320#32 else c >>> 1

/-- One byte into the CRC register (R192, steps 2 and 3). -/
def crcByte (c : BitVec 32) (b : Byte) : BitVec 32 :=
  let c := c ^^^ b.setWidth 32
  crcShift (crcShift (crcShift (crcShift (crcShift (crcShift (crcShift (crcShift c)))))))

/-- The CRC-32 over `bs` (R192). -/
def crc32 (bs : List Byte) : BitVec 32 := ~~~ (bs.foldl crcByte 0xFFFFFFFF#32)

/-- `bs` with its CRC-32 behind it, most significant byte first (R192). -/
def withCrc (bs : List Byte) : List Byte := bs ++ bytesOf 4 (crc32 bs).toNat

/-! ### The test pattern (R196) -/

/-- One shift of the pattern register (R196). -/
def patternShift (x : BitVec 16) : BitVec 16 :=
  if x.getLsbD 0 then (x >>> 1) ^^^ 0xB400#16 else x >>> 1

/-- Eight shifts of the pattern register (R196). -/
def patternStep (x : BitVec 16) : BitVec 16 :=
  patternShift (patternShift (patternShift (patternShift (patternShift (patternShift (patternShift (patternShift x)))))))

/-- The next `n` pattern bytes from the register `x` (R196). -/
def patternFrom : (n : Nat) → (x : BitVec 16) → List Byte
  | 0, _ => []
  | n + 1, x => (patternStep x).setWidth 8 :: patternFrom n (patternStep x)

/-- The 256 pattern bytes of a seed; the register starts at 0xFFFF for seed 0 (R196). -/
def pattern (seed : BitVec 16) : List Byte :=
  patternFrom Config.patternLen (if seed = 0 then 0xFFFF#16 else seed)

/-! ### Codes (R192, the table of codes) -/

/-- On/off, yes/no, asserted/released. -/
def boolCode (b : Bool) : Nat := if b then 1 else 0

def TimeState.code : TimeState → Nat
  | .free => 0 | .acquiring => 1 | .locked => 2 | .holdover => 3

def Role.code : Role → Nat
  | .reference => 0 | .follower => 1

def LaneType.code : LaneType → Nat
  | .unused => 0 | .radio => 1 | .fiber => 2

def Trend.code : Trend → Nat
  | .steady => 0 | .falling => 1 | .rising => 2

def RouteState.code : RouteState → Nat
  | .disabled => 0 | .proving => 1 | .up => 2 | .fading => 3 | .down => 4

def CircState.code : CircState → Nat
  | .closed => 0 | .opened => 1 | .paused => 2

def TrafficClass.code : TrafficClass → Nat
  | .fast => 0 | .sure => 1

def LoadState.code : LoadState → Nat
  | .loading => 0 | .running => 1

/-- Load outcome codes, absent 0. -/
def outcomeCode : Option LoadOutcome → Nat
  | none => 0 | some .loaded => 1 | some .empty => 2 | some .checksumError => 3 | some .formatError => 4

/-- Failing section codes: absent 0, HEADER 1, and IDENTITY to CIRCUITS as their section tags plus 1. -/
def failingCode : Option ImagePart → Nat
  | none => 0 | some .header => 1 | some .identity => 2 | some .peers => 3 | some .lanes => 4 | some .routes => 5
  | some .health => 6 | some .probe => 7 | some .time => 8 | some .calendars => 9 | some .circuits => 10

def Status.code : Status → Nat
  | .done => 0 | .denied => 1 | .badArg => 2 | .busy => 3 | .notFound => 4 | .notOwner => 5 | .inUse => 6 | .starting => 7
  | .unknown => 8 | .flashError => 9

def RefusalReason.code : RefusalReason → Nat
  | .notOpen => 1 | .notOwner => 2 | .paused => 3 | .tooLong => 4 | .noRoute => 5 | .notReady => 6

def DiscardReason.code : DiscardReason → Nat
  | .expired => 1 | .noRoute => 2 | .flushed => 3 | .relayFailed => 4 | .withdrawn => 5

def TrunkKind.code : TrunkKind → Nat
  | .cargo => 1 | .probe => 2 | .echo => 3 | .test => 4

/-- Calendar slots: T0-T5 as 0-5, FREE as 255. -/
def slotCode : Option PortIx → Nat
  | none => 255
  | some p => p.val

/-! ### Notices as they are sent (R173, R194) -/

/-- The position of a notice's kind in order of priority, 0 for priority 1 (R173). -/
def Notice.kind : Notice → Fin 8
  | .timeStep _ => 0
  | .routeState _ _ _ => 1
  | .timeState _ _ => 2
  | .rslTrend _ _ => 3
  | .sendRefused _ _ _ => 4
  | .circuitDiscard _ _ _ => 5
  | .deliveryOverrun _ _ => 6
  | .holdIgnored _ => 7

/-- The subject of a notice; TIME_STEP and HOLD_IGNORED have none (R173). -/
def Notice.subject : Notice → Option Nat
  | .timeStep _ => none
  | .routeState r _ _ => some r.val
  | .timeState new _ => some new.code
  | .rslTrend r _ => some r.val
  | .sendRefused c _ _ => some c.toNat
  | .circuitDiscard c _ _ => some c.val
  | .deliveryOverrun c _ => some c.val
  | .holdIgnored _ => none

/-- The detail field of a notice, filled from offset 0 to 8 bytes (R194). -/
def Notice.detail : Notice → List Byte
  | .timeStep θ => bytesOfInt 8 θ
  | .routeState _ old new => bytesOf 1 old.code ++ bytesOf 1 new.code ++ bytesOf 6 0
  | .timeState _ old => bytesOf 1 old.code ++ bytesOf 7 0
  | .rslTrend _ t => bytesOf 1 t.code ++ bytesOf 7 0
  | .sendRefused _ reason tag => bytesOf 1 reason.code ++ bytesOf 4 tag.toNat ++ bytesOf 3 0
  | .circuitDiscard _ reason seq => bytesOf 1 reason.code ++ bytesOf 2 seq.toNat ++ bytesOf 5 0
  | .deliveryOverrun _ seq => bytesOf 2 seq.toNat ++ bytesOf 6 0
  | .holdIgnored free => bytesOf 2 free ++ bytesOf 6 0

/-! ### The link envelope (R193) -/

/-- An envelope: marker, status byte, body length, body, and the CRC-32 over all of them (R193). -/
def envelope (marker status : Byte) (body : List Byte) : List Byte :=
  withCrc ([marker, status] ++ bytesOf 2 body.length ++ body)

/-- A fill word (R193). -/
def fillWord (status : Byte) : List Byte := [0x5A, status]

/-- The envelope `bytes` cut off after its first `n` bytes: the rest, to the body length it announced, leaves as bytes of 0,
and its CRC bytes as the complement of the CRC formed over it (R153). The four bytes before the body leave whole, and at
least the last byte of the CRC is still to leave (log entry 12). -/
def cutEnvelope (bytes : List Byte) (n : Nat) : List Byte :=
  let sent := min (max n Config.envelopeHead) (bytes.length - 1)
  let body := bytes.length - 4
  let zeroed := bytes.take (min sent body) ++ List.replicate (body - sent) 0
  bytes.take sent ++ (zeroed ++ bytesOf 4 (~~~ crc32 zeroed).toNat).drop sent

/-- The bytes of an inbound envelope that its CRC covers (R193). -/
def covered (marker status : Byte) (body : List Byte) : List Byte :=
  [marker, status] ++ bytesOf 2 body.length ++ body

/-- The body of the DIRECTIVE envelope `d` whose directive code is `name` (R193). -/
def directiveBody (name : Nat) (d : Directive) : List Byte :=
  bytesOf 1 name ++ [d.request, d.present] ++ bytesOf 2 d.code.toNat ++ d.args

end Sys2Proof.Machine
end

