-- ==== Sys2Proof/Machine/Operands.lean ====
section
/-! DEFINITION. The arguments of directives: their fields as the formats chapter lays them out (R193), and the ranges and
consistency checks of the directive that takes them. The records of a profile image reuse these layouts and these checks
(R181, R198). Each reader answers nothing where its owner answers BAD_ARG. -/

namespace Sys2Proof.Machine

/-- An index below `n`, or nothing. -/
def index? (n v : Nat) : Option (Fin n) := if h : v < n then some ⟨v, h⟩ else none

/-- On or off; a value that names no code is neither (R192). -/
def onOff? : Nat → Option Bool
  | 0 => some false
  | 1 => some true
  | _ => none

/-- A role (R192). -/
def role? : Nat → Option Role
  | 0 => some .reference
  | 1 => some .follower
  | _ => none

/-- A lane type (R192). -/
def laneType? : Nat → Option LaneType
  | 0 => some .unused
  | 1 => some .radio
  | 2 => some .fiber
  | _ => none

/-- A class (R192). -/
def class? : Nat → Option TrafficClass
  | 0 => some .fast
  | 1 => some .sure
  | _ => none

/-- A calendar slot (R192). -/
def slot? (v : Nat) : Option (Option PortIx) :=
  if v = 255 then some none else (index? 6 v).map some

/-- The ranges of R17. -/
def TimeSettings.ok (t : TimeSettings) : Bool :=
  decide (1000 ≤ t.stepLimit) && decide (t.stepLimit ≤ 1000000000) && decide (10 ≤ t.lockLimit) &&
  decide (t.lockLimit ≤ 100000) && decide (t.lockLimit < t.stepLimit) && decide (t.ki ≤ 7) && decide (t.kp ≤ 4) &&
  decide (100 ≤ t.holdover) && decide (t.holdover ≤ 10000)

/-- SET_TIME's fifteen bytes (R17, R193). -/
def timeArgs? (bs : List Byte) : Option TimeSettings :=
  match role? (field bs 0 1), index? 4 (field bs 1 1), onOff? (field bs 2 1) with
  | some role, some followed, some pps =>
    let t : TimeSettings :=
      { role := role, followed := followed, ppsEnable := pps, stepLimit := field bs 3 4, lockLimit := field bs 7 4,
        ki := field bs 11 1, kp := field bs 12 1, holdover := field bs 13 2 }
    if t.ok then some t else none
  | _, _, _ => none

/-- SET_LANE's six bytes after the lane (R33, R193). -/
def laneArgs? (bs : List Byte) : Option LaneSettings :=
  match laneType? (field bs 0 1) with
  | some ty =>
    let interval := field bs 5 1
    if 1 ≤ interval ∧ interval ≤ 100 then
      some { type := ty, txc := field bs 1 2, rxc := field bs 3 2, interval := interval }
    else none
  | none => none

/-- SET_ROUTE's six bytes after the route (R72, R193). -/
def routeArgs? (bs : List Byte) : Option RouteSettings :=
  match onOff? (field bs 0 1), index? 4 (field bs 1 1) with
  | some enable, some peer =>
    let a := signedField bs 2 4
    if -1000000 ≤ a ∧ a ≤ 1000000 then some { enable := enable, peer := peer, a := a } else none
  | _, _ => none

/-- SET_PEER's two bytes after the peer (R74, R193); an enabled value that names no code is BAD_ARG (log entry 13). -/
def peerArgs? (bs : List Byte) : Option PeerSettings :=
  match onOff? (field bs 0 1) with
  | some enabled => some { enabled := enabled, termId := bs.getD 1 0 }
  | none => none

/-- The ranges and checks of R77. -/
def HealthSettings.ok (h : HealthSettings) : Bool :=
  decide (1 ≤ h.warn) && decide (h.warn ≤ 255) && decide (1 ≤ h.cut) && decide (h.cut ≤ 255) && decide (h.warn < h.cut) &&
  decide (-1000 ≤ h.rslFade) && decide (h.rslFade ≤ 0) && decide (-1000 ≤ h.rslCut) && decide (h.rslCut ≤ 0) &&
  decide (h.rslCut < h.rslFade) && decide (h.hyst ≤ 200) && decide (1 ≤ h.slope) && decide (h.slope ≤ 200) &&
  decide (8 ≤ h.proveWindows) && decide (h.proveWindows ≤ 255) && decide (h.rslFade + h.hyst ≤ 0)

/-- SET_HEALTH's nine bytes (R77, R193). -/
def healthArgs? (bs : List Byte) : Option HealthSettings :=
  let h : HealthSettings :=
    { warn := field bs 0 1, cut := field bs 1 1, rslFade := signedField bs 2 2, rslCut := signedField bs 4 2,
      hyst := field bs 6 1, slope := field bs 7 1, proveWindows := field bs 8 1 }
  if h.ok then some h else none

/-- The ranges and checks of R56. -/
def ProbeSettings.ok (p : ProbeSettings) : Bool :=
  [1, 2, 5, 10].contains p.interval && decide (2 ≤ p.timeout) && decide (p.timeout ≤ 80) &&
  decide (p.timeout ≤ 8 * p.interval) && decide (p.gate ≤ 65535)

/-- SET_PROBE's four bytes (R56, R193). -/
def probeArgs? (bs : List Byte) : Option ProbeSettings :=
  let p : ProbeSettings := { interval := field bs 0 1, timeout := field bs 1 1, gate := field bs 2 2 }
  if p.ok then some p else none

/-- SET_CALENDAR's sixteen slot values after the route (R131, R193). -/
def calendarArgs? (bs : List Byte) : Option Calendar :=
  if (List.range 16).all (fun i => (slot? (field bs i 1)).isSome) then
    some (Vector.ofFn fun i => (slot? (field bs i.val 1)).getD none)
  else none

/-- The relay target of an IN circuit `n`: absent, or a circuit other than itself; nothing where R83 answers BAD_ARG. -/
def relay? (n : CircIx) (present target : Nat) : Option (Option CircIx) :=
  match onOff? present, index? 64 target with
  | some false, _ => some none
  | some true, some c => if c = n then none else some (some c)
  | _, _ => none

/-- OPEN_CIRCUIT's nine bytes after the circuit `n` (R83, R193): an OUT circuit with a relay target is BAD_ARG, and an IN
circuit's far circuit, class and max age are not read. -/
def circuitArgs? (n : CircIx) (bs : List Byte) : Option CircuitDef :=
  match onOff? (field bs 0 1), index? 6 (field bs 1 1), index? 4 (field bs 2 1) with
  | some false, some port, some peer =>
    match index? 64 (field bs 3 1), class? (field bs 4 1) with
    | some far, some cls =>
      if 1 ≤ field bs 5 2 ∧ field bs 7 1 = 0 then
        some { port := port, peer := peer, flow := .out far cls (field bs 5 2) }
      else none
    | _, _ => none
  | some true, some port, some peer =>
    match relay? n (field bs 7 1) (field bs 8 1) with
    | some relay => some { port := port, peer := peer, flow := .inn relay }
    | none => none
  | _, _, _ => none

/-- WATCH's kind set: a bit above the eight kinds names no kind (R172, R193). -/
def watchArgs? (bs : List Byte) : Option (BitVec 8) :=
  let v := field bs 0 2
  if v < 256 then some (BitVec.ofNat 8 v) else none

end Sys2Proof.Machine
end

