-- ==== Sys2Proof/Machine/State.lean ====
section
/-! DEFINITION. The state of the terminal, its reset value, and the two ways a command can stop. -/

namespace Sys2Proof.Machine

/-- What comes from outside, in the order in which it comes: a command of another agent, or a byte on the link of port `p`
(R193), which the port's receiver takes. -/
inductive Arrival where
  | command (c : Instr)
  | byte (p : PortIx) (b : Byte)
deriving DecidableEq, Repr

/-- Everything the spec gives the terminal, block by block (00_scope.md, "Blocks"), the profile flash behind its port
(R180), the queue of commands that wait, first in, first out, and what is still to come from outside. -/
structure State where
  /-- The live settings (R182). -/
  cfg      : Settings
  /-- The time base unit (01_terminal_time.md). -/
  time     : TimeBase
  /-- The lane unit, by lane (02_lanes_and_modem_reports.md). -/
  lanes    : Vector Lane 16
  /-- The probe engine, by route (03_probe_exchange_and_route_delay.md). -/
  probes   : Vector Probe 16
  /-- The route health unit, by route (04_route_health_and_rain_fallback.md). -/
  health   : Vector Health 16
  /-- The circuit table (05_circuits.md). -/
  circuits : Vector Circuit 64
  /-- The route selector, by peer (R111, R115). -/
  peers    : Vector PeerSel 4
  /-- The route selector's counts, by route (R115). -/
  sel      : Vector RouteSel 16
  /-- The transmit unit, by route (07_route_queues_and_the_transmit_calendar.md). -/
  tx       : Vector Tx 16
  /-- The arrival counts, by route (R148). -/
  score    : Vector Score 16
  /-- Frame memory (09_frame_memory.md). -/
  pool     : Pool
  /-- The tenant port unit, by port (10_tenant_ports_directives_and_notices.md). -/
  ports    : Vector Port 6
  /-- The profile unit (11_profile_store_and_start_up.md). -/
  profile  : Profile
  /-- The profile flash: addresses rising, no byte listed that reads as erased (R180, 12: "Erased flash reads 0xFF"). -/
  flash    : List Host.Cell
  /-- The commands that wait. -/
  pending  : List Instr
  /-- What is still to come from outside, taken when no command waits (DESIGN CHOICE, log entry 11). -/
  arriving : List Arrival
deriving DecidableEq, Repr

/-- The reasons a step stops with a fault: none. No command of the spec stops the terminal, and no address the model
forms lies outside the 64 KiB of the profile flash. -/
inductive Fault where
deriving DecidableEq, Repr

/-- The reasons a command has no meaning. -/
inductive Refusal where
  /-- Raised by an arm of `exec` for a command that has no meaning yet. Safe: the model stops. -/
  | notModelled (mnemonic : String)
  /-- Raised by COLD_RESET and SAVE_COMPLETE whose operand is no state a SAVE can leave the flash in (R187), and by
  UNKNOWN_DIRECTIVE whose body names a directive (R193): no event of the terminal carries such a command
  (`Instr.wf` refuses it). Safe: the model stops. -/
  | illFormed
deriving DecidableEq, Repr

/-- The terminal right after cold reset at power-up (R20, R36, R59, R80, R97, R116, R134, R153, R161, R178, R191), every LOS
line released, every tenant link DOWN, the flash erased, and no command waiting or to come (DESIGN CHOICE, log entries 1 and 2). -/
def State.reset : State :=
  { cfg := Settings.safe
    time := TimeBase.coldReset
    lanes := Vector.replicate 16 (Lane.coldReset false)
    probes := Vector.replicate 16 Probe.blank
    health := Vector.replicate 16 Health.coldReset
    circuits := Vector.replicate 64 Circuit.blank
    peers := Vector.replicate 4 { forced := none, noRoute := 0 }
    sel := Vector.replicate 16 {}
    tx := Vector.replicate 16 Tx.blank
    score := Vector.replicate 16 {}
    pool := Pool.coldReset
    ports := Vector.replicate 6 (Port.coldReset false)
    profile := Profile.coldReset
    flash := []
    pending := []
    arriving := [] }

end Sys2Proof.Machine
end

