-- ==== Sys2Proof/Machine/Flags.lean ====
section
/-! DEFINITION. The conditions the blocks judge by: ages, the lane facts, the route conditions CUT, FADE, CLEAR and RECOVER,
delays and byte times, readiness, and which route is the time route. -/

namespace Sys2Proof.Machine

/-! ### Ages (R3) -/

/-- Ticks from `since` to `now`, modulo 2^64. -/
def ticksSince (now since : Ticks) : Nat := (now - since).toNat

/-- An age in ns (R3). -/
def ageNs (now since : Ticks) : Nat := ticksSince now since * Config.nsPerTick

/-- A schedule whose next request is due at `due` and whose interval is `iv` ticks has come to it: ET has advanced by `iv`
since the ET at which the previous request fell due (R37, R67). -/
def dueReached (now due : Ticks) (iv : Nat) : Bool := decide (iv ≤ ticksSince now (due - BitVec.ofNat 64 iv))

/-- The probe interval in ticks (R37). -/
def State.probeTicks (s : State) : Nat := s.cfg.probe.interval * Config.ticksPerMs

/-- The difference of two stamps, modulo 2^64, read as a signed value (R4). -/
def stampDiff (a b : Stamp) : Int := (a - b).toInt

/-! ### Lane facts (R27, R32) -/

/-- The effective rate step of a RADIO lane (R27). -/
def Lane.effectiveStep (l : Lane) : Nat :=
  match l.latest with
  | none => 0
  | some rep => if rep.fault then 0 else rep.step

/-- The RSL a RADIO lane supplies (R32). -/
def Lane.rsl (l : Lane) : Int :=
  match l.latest with
  | none => -1000
  | some rep => rep.rsl

/-- The byte time of an effective rate step, in 1/16 ns (R27). -/
def stepByteTime : Nat → Option Nat
  | 1 => some 5120
  | 2 => some 2560
  | 3 => some 1280
  | 4 => some 853
  | 5 => some 640
  | 6 => some 427
  | 7 => some 320
  | _ => none

/-- The byte time of a lane (R27). -/
def byteTime (ty : LaneType) (l : Lane) : Option Nat :=
  match ty with
  | .unused => none
  | .fiber => some 13
  | .radio => stepByteTime l.effectiveStep

/-- The silence timer of a lane has expired (R31). -/
def silenceDue (now : Ticks) (ls : LaneSettings) (l : Lane) : Bool :=
  match ls.type, l.timer with
  | .radio, some since => !l.silent && decide (3 * ls.interval * Config.ticksPerMs ≤ ticksSince now since)
  | _, _ => false

/-! ### Route conditions (R63) -/

/-- CUT without the error-count term. -/
def cutLane (h : HealthSettings) (ty : LaneType) (l : Lane) : Bool :=
  match ty with
  | .radio => decide (l.rsl < h.rslCut) || l.effectiveStep == 0 || l.silent || l.los
  | .fiber => l.los
  | .unused => false

/-- CUT. -/
def cutHolds (h : HealthSettings) (ty : LaneType) (l : Lane) (error : Nat) : Bool :=
  decide (h.cut ≤ error) || cutLane h ty l

/-- FADE. -/
def fadeHolds (h : HealthSettings) (ty : LaneType) (l : Lane) (error : Nat) : Bool :=
  decide (h.warn ≤ error) ||
  match ty with
  | .radio => decide (l.rsl < h.rslFade) || l.trend == .falling
  | _ => false

/-- CLEAR. -/
def clearHolds (h : HealthSettings) (ty : LaneType) (l : Lane) (error : Nat) : Bool :=
  decide (error ≤ h.warn / 2) &&
  match ty with
  | .radio => decide (h.rslFade + h.hyst ≤ l.rsl) && l.trend != .falling
  | _ => true

/-- RECOVER. -/
def recoverHolds (h : HealthSettings) (ty : LaneType) (l : Lane) : Bool :=
  match ty with
  | .radio => decide (h.rslCut + h.hyst ≤ l.rsl) && decide (1 ≤ l.effectiveStep) && !l.silent && !l.los
  | .fiber => !l.los
  | .unused => true

/-- UP or FADING: the states that carry CARGO (R100, R120). -/
def RouteState.carries : RouteState → Bool
  | .up => true
  | .fading => true
  | _ => false

/-- The transition an evaluation of a route takes, if any (R64). -/
def evalTarget (h : HealthSettings) (ty : LaneType) (l : Lane) (rec : Health) : Option RouteState :=
  match rec.state with
  | .up =>
    if cutHolds h ty l rec.error then some .down
    else if fadeHolds h ty l rec.error then some .fading else none
  | .fading =>
    if cutHolds h ty l rec.error then some .down
    else if clearHolds h ty l rec.error then some .up else none
  | .down => if recoverHolds h ty l then some .proving else none
  | .proving =>
    if cutLane h ty l then some .down
    else if h.proveWindows ≤ rec.good then some .up else none
  | .disabled => none

/-- None of the conditions that hold a route in DISABLED holds (R60). -/
def State.permitted (s : State) (r : RouteIx) : Bool :=
  s.cfg.routes[r].enable && s.cfg.peers[s.cfg.routes[r].peer].enabled && s.cfg.lanes[r].type != .unused &&
  s.profile.load == .running

/-! ### Delays (R49, R50, R51) -/

/-- The least of a list of RTTs. -/
def leastRtt : List Sample → Option Nat
  | [] => none
  | x :: xs =>
    match leastRtt xs with
    | none => some x.rtt
    | some m => some (min x.rtt m)

/-- M of a route (R49). -/
def Probe.m (p : Probe) : Option Nat := leastRtt p.ring

/-- F from M and A: (M + A) halved downward, and 0 if that is below 0 (R50). -/
def forwardDelay (m : Nat) (a : Int) : Nat := ((m + a) / 2).toNat

/-- F of a route (R50). -/
def State.forward (s : State) (r : RouteIx) : Option Nat :=
  s.probes[r].m.map fun m => forwardDelay m s.cfg.routes[r].a

/-- The offset of a sample: (D - A) halved downward (R51). -/
def theta (d a : Int) : Int := (d - a) / 2

/-! ### The least of a list under a figure, the earliest of those that share it -/

/-- The first element of a list whose figure is least. -/
def leastBy {α : Type} (f : α → Nat) : List α → Option α
  | [] => none
  | x :: xs =>
    match leastBy f xs with
    | none => some x
    | some y => if f x ≤ f y then some x else some y

/-- The route qualifies as time route (R15). -/
def State.qualifies (s : State) (r : RouteIx) : Bool :=
  decide (s.cfg.routes[r].peer = s.cfg.time.followed) && s.health[r].state.carries && s.probes[r].m.isSome

/-- The time route: for a follower, of the routes that qualify the one with the least M, a tie going to the lower index;
for a reference none (R15). -/
def State.bestTimeRoute (s : State) : Option RouteIx :=
  match s.cfg.time.role with
  | .reference => none
  | .follower => leastBy (fun r => (s.probes[r].m).getD 0) ((List.finRange 16).filter fun r => s.qualifies r)

/-! ### Lanes and backlog (R23, R119) -/

/-- The lane is ready (R23). -/
def State.laneReady (s : State) (r : RouteIx) : Bool :=
  s.cfg.lanes[r].type != .unused && !s.lanes[r].los && s.tx[r].current.isNone

/-- A copy's trunk size (R101). -/
def Copy.trunk (c : Copy) : Nat := c.len + Config.cargoOverhead

/-- The backlog Q of a route (R102, R119). -/
def Tx.backlog (t : Tx) : Nat :=
  (t.queue.map Copy.trunk).sum + (match t.current with | none => 0 | some c => c.untaken)

/-! ### Frame memory (R154, R160) -/

/-- The free count (09_frame_memory.md). -/
def Pool.free (p : Pool) : Nat := Config.slotCount - p.slots.length

/-- The frame of slot `k`. -/
def Pool.frame (p : Pool) (k : Nat) : Option Frame := p.slots.lookup k

end Sys2Proof.Machine
end

