-- ==== Sys2Proof/Machine/Access.lean ====
section
/-! DEFINITION. The updates of State: one for each block, by index where the block keeps one record for each lane, route,
peer, circuit or port. Every meaning writes the state through these; Laws/State.lean says what each leaves alone. -/

namespace Sys2Proof.Machine

def State.setCfg (s : State) (c : Settings) : State := { s with cfg := c }

def State.setTime (s : State) (t : TimeBase) : State := { s with time := t }

def State.setPool (s : State) (p : Pool) : State := { s with pool := p }

def State.setProfile (s : State) (p : Profile) : State := { s with profile := p }

def State.setFlash (s : State) (m : List Host.Cell) : State := { s with flash := m }

def State.modLane (s : State) (r : RouteIx) (f : Lane → Lane) : State :=
  { s with lanes := s.lanes.set r (f s.lanes[r]) }

def State.modProbe (s : State) (r : RouteIx) (f : Probe → Probe) : State :=
  { s with probes := s.probes.set r (f s.probes[r]) }

def State.modHealth (s : State) (r : RouteIx) (f : Health → Health) : State :=
  { s with health := s.health.set r (f s.health[r]) }

def State.modCircuit (s : State) (c : CircIx) (f : Circuit → Circuit) : State :=
  { s with circuits := s.circuits.set c (f s.circuits[c]) }

def State.modPeer (s : State) (p : PeerIx) (f : PeerSel → PeerSel) : State :=
  { s with peers := s.peers.set p (f s.peers[p]) }

def State.modSel (s : State) (r : RouteIx) (f : RouteSel → RouteSel) : State :=
  { s with sel := s.sel.set r (f s.sel[r]) }

def State.modTx (s : State) (r : RouteIx) (f : Tx → Tx) : State :=
  { s with tx := s.tx.set r (f s.tx[r]) }

def State.modScore (s : State) (r : RouteIx) (f : Score → Score) : State :=
  { s with score := s.score.set r (f s.score[r]) }

def State.modPort (s : State) (p : PortIx) (f : Port → Port) : State :=
  { s with ports := s.ports.set p (f s.ports[p]) }

/-- Every port at once. -/
def State.mapPorts (s : State) (f : Port → Port) : State :=
  { s with ports := Vector.ofFn fun p => f s.ports[p] }

/-- The settings with one lane's replaced. -/
def Settings.withLane (c : Settings) (r : RouteIx) (l : LaneSettings) : Settings := { c with lanes := c.lanes.set r l }

/-- The settings with one route's replaced. -/
def Settings.withRoute (c : Settings) (r : RouteIx) (x : RouteSettings) : Settings := { c with routes := c.routes.set r x }

/-- The settings with one peer's replaced. -/
def Settings.withPeer (c : Settings) (p : PeerIx) (x : PeerSettings) : Settings := { c with peers := c.peers.set p x }

/-- The settings with one route's calendar replaced. -/
def Settings.withCalendar (c : Settings) (r : RouteIx) (x : Calendar) : Settings :=
  { c with calendars := c.calendars.set r x }

/-- An effect taken for each route in index order. -/
def State.forRoutes (s : State) (f : RouteIx → State → State) : State := (List.finRange 16).foldl (fun s r => f r s) s

end Sys2Proof.Machine
end

