-- ==== Sys2Proof/Machine/Ops.lean ====
section
/-! DEFINITION. The operations that several commands share: the profile flash, notices, frame memory, the discipline of
terminal time, the circuits' tallies, the route selector, re-steering, a change of route state and its consequences,
evaluation, and the resolution of a probe. -/

namespace Sys2Proof.Machine

/-! ### The profile flash (R180) -/

/-- What an address of the flash reads as; an address not listed is erased (12: "Erased flash reads 0xFF"). -/
def readFlash (m : List Host.Cell) (a : Nat) : Byte := (m.lookup a).getD 0xFF

/-- The flash with the byte `b` at address `a`. -/
def writeFlash : List Host.Cell → Nat → Byte → List Host.Cell
  | [], a, b => if b = 0xFF then [] else [(a, b)]
  | (k, v) :: m, a, b =>
    if a < k then (if b = 0xFF then (k, v) :: m else (a, b) :: (k, v) :: m)
    else if a = k then (if b = 0xFF then m else (a, b) :: m)
    else (k, v) :: writeFlash m a b

/-- The flash with the bytes `bs` programmed from address `a`. Programming turns bits of a byte from 1 to 0 and none back
(PRESUMED, log entry 7). -/
def programFlash (m : List Host.Cell) : Nat → List Byte → List Host.Cell
  | _, [] => m
  | a, b :: bs => programFlash (writeFlash m a (readFlash m a &&& b)) (a + 1) bs

/-- The flash with the `len` bytes from address `a` erased. -/
def eraseFlash (m : List Host.Cell) (a len : Nat) : List Host.Cell :=
  m.filter fun c => decide (c.1 < a) || decide (a + len ≤ c.1)

/-- The canonical form of the flash: addresses rising and inside the 64 KiB, no byte listed that reads as erased. -/
def flashWf : List Host.Cell → Bool
  | [] => true
  | [c] => c.2 != 0xFF && decide (c.1 < Config.flashBytes)
  | c :: d :: m => c.2 != 0xFF && decide (c.1 < d.1) && flashWf (d :: m)

/-- The `len` bytes of the flash from address `a`. -/
def flashBytes (m : List Host.Cell) (a len : Nat) : List Byte := (List.range len).map fun i => readFlash m (a + i)

/-- The save marker is set: a byte of it does not read as erased (R180). -/
def markerIsSet (m : List Host.Cell) : Bool :=
  (flashBytes m Config.markerBase Config.markerBytes).any (· != 0xFF)

/-- Step 1 of a SAVE: the first 16 bytes of the marker are programmed to 0 (R198). -/
def setMarker (m : List Host.Cell) : List Host.Cell :=
  programFlash m Config.markerBase (List.replicate Config.markerSet 0)

/-- Steps 2 and 3 of a SAVE: the image area is erased and programmed (R186). -/
def writeImage (m : List Host.Cell) (image : List Byte) : List Host.Cell :=
  programFlash (eraseFlash m 0 Config.imageArea) 0 image

/-- Step 5 of a SAVE: the marker is erased (R186). -/
def clearMarker (m : List Host.Cell) : List Host.Cell := eraseFlash m Config.markerBase Config.markerBytes

/-- What a SAVE of `image` that stops in a step leaves in the flash (the table of R187). -/
def leaveFlash (m : List Host.Cell) (image : List Byte) (left : FlashLeft) : List Host.Cell :=
  match left.step with
  | 0 => programFlash m Config.markerBase left.bytes
  | 4 => programFlash (clearMarker (writeImage (setMarker m) image)) Config.markerBase left.bytes
  | _ => writeImage (setMarker m) left.bytes

/-! ### Notices (R173) -/

/-- A port records a notice when its link is UP and it watches the kind; the count saturates at 255 (R173). -/
def Port.record (p : Port) (n : Notice) : Port :=
  if p.up && p.watch.getLsbD n.kind.val then
    { p with records := p.records.set n.kind { count := min 255 (p.records[n.kind].count + 1), latest := some n } }
  else p

/-- A notice raised at one port. -/
def State.raiseAt (s : State) (p : PortIx) (n : Notice) : State := s.modPort p fun x => x.record n

/-- A notice raised at every port. -/
def State.raiseAll (s : State) (n : Notice) : State := s.mapPorts fun x => x.record n

/-- An answer joins the tail of a port's answer queue (R166). -/
def State.answer (s : State) (p : PortIx) (a : Answer) : State :=
  s.modPort p fun x => { x with answers := x.answers ++ [a] }

/-! ### Frame memory (R155 to R159) -/

/-- HOLD and the low-water mark judged after a change of the free count (R159). -/
def Pool.judge (p : Pool) : Pool :=
  let p := { p with lowWater := min p.lowWater p.free }
  if p.hold then (if Config.holdUntil ≤ p.free then { p with hold := false } else p)
  else if p.free < Config.holdBelow then { p with hold := true, holds := p.holds + 1 } else p

/-- The least slot number from `n` that a rising list of taken slots does not hold (DESIGN CHOICE, log entry 6). -/
def freeSlotFrom : Nat → List (Nat × Frame) → Nat
  | n, [] => n
  | n, (k, _) :: rest => if k = n then freeSlotFrom (n + 1) rest else n

/-- A taken slot put in its place. -/
def insertSlot (k : Nat) (f : Frame) : List (Nat × Frame) → List (Nat × Frame)
  | [] => [(k, f)]
  | (j, g) :: rest => if k < j then (k, f) :: (j, g) :: rest else (j, g) :: insertSlot k f rest

/-- A free slot taken for a frame, with one reference (R155); nothing when no slot is free. -/
def Pool.take (p : Pool) (f : Frame) : Option (Nat × Pool) :=
  if p.slots.length < Config.slotCount then
    let k := freeSlotFrom 0 p.slots
    some (k, Pool.judge { p with slots := insertSlot k f p.slots })
  else none

/-- A taken slot's record changed. -/
def Pool.update (p : Pool) (k : Nat) (g : Frame → Frame) : Pool :=
  { p with slots := p.slots.map fun e => if e.1 = k then (e.1, g e.2) else e }

/-- A holder releases the frame of slot `k`: its reference count falls by 1, and at 0 the slot is freed (R155). -/
def Pool.release (p : Pool) (k : Nat) : Pool :=
  match p.frame k with
  | none => p
  | some f =>
    if f.refs ≤ 1 then Pool.judge { p with slots := p.slots.filter fun e => e.1 != k }
    else p.update k fun f => { f with refs := f.refs - 1 }

def State.release (s : State) (k : Nat) : State := s.setPool (s.pool.release k)

def State.updateFrame (s : State) (k : Nat) (g : Frame → Frame) : State := s.setPool (s.pool.update k g)

/-! ### Terminal time (R2, R7 to R10, R14 to R16) -/

/-- `n / d` rounded half away from zero, for d above 0 (R2). -/
def roundHalfAway (n d : Int) : Int :=
  if 0 ≤ n then (2 * n + d) / (2 * d) else -((2 * (-n) + d) / (2 * d))

/-- P from FC and SL (R2). -/
def totalTerm (fc sl : Int) : Int := max (-500000) (min 500000 (fc + sl))

/-- INC from P (R2). -/
def incOf (p : Int) : Nat := (Config.nominalInc + roundHalfAway (Config.nominalInc * p) 1000000000).toNat

/-- FC and SL replaced, P and INC recomputed (R2). -/
def TimeBase.retune (t : TimeBase) (fc sl : Int) : TimeBase :=
  { t with fc := fc, sl := sl, p := totalTerm fc sl, inc := incOf (totalTerm fc sl) }

/-- One tick: INC is added to TT with its fraction, and 1 to ET (R1). -/
def TimeBase.tick (t : TimeBase) : TimeBase :=
  let x := t.tt.toNat * 2 ^ 32 + t.frac.toNat + t.inc
  { t with tt := BitVec.ofNat 64 (x / 2 ^ 32), frac := BitVec.ofNat 32 x, et := t.et + 1 }

/-- The seconds part of TT (R14). -/
def TimeBase.seconds (t : TimeBase) : Nat := t.tt.toNat / Config.nsPerSecond

/-- PPS out evaluated: it fires when the seconds part of TT is greater than the last fired second (R14). -/
def TimeBase.fire (t : TimeBase) : TimeBase :=
  if t.lastFired < t.seconds then { t with lastFired := t.seconds, ppsEdgesOut := t.ppsEdgesOut + 1 } else t

/-- A time state taken; a change raises TIME_STATE (R9, R11). -/
def State.enterTimeState (s : State) (new : TimeState) : State :=
  if s.time.state = new then s
  else (s.setTime { s.time with state := new }).raiseAll (.timeState new s.time.state)

/-- TT + θ on the nanosecond part; below 0 it is 0 with fraction 0 (R7). -/
def TimeBase.stepBy (t : TimeBase) (θ : Int) : TimeBase :=
  if (t.tt.toNat : Int) + θ < 0 then { t with tt := 0, frac := 0 }
  else { t with tt := BitVec.ofInt 64 ((t.tt.toNat : Int) + θ) }

/-- The step of R7, PPS out evaluated on the new TT. -/
def State.stepTime (s : State) (θ : Int) : State :=
  let t := (s.time.stepBy θ).retune s.time.fc 0
  let s := s.setTime { t.fire with good := 0 }
  (s.raiseAll (.timeStep θ)).enterTimeState .acquiring

/-- EST in ppb: θ × 1,000,000 / I truncated toward zero (R8). -/
def estOf (θ : Int) (interval : Nat) : Int := (θ * 1000000).tdiv interval

/-- The slew of R8. -/
def TimeBase.slew (t : TimeBase) (cfg : TimeSettings) (θ : Int) (interval : Nat) : TimeBase :=
  let est := estOf θ interval
  t.retune (max (-200000) (min 200000 (t.fc + est.tdiv (2 ^ cfg.ki : Nat)))) (est.tdiv (2 ^ cfg.kp : Nat))

/-- The good-offset count and the time state after a slew by θ (the table of R9). -/
def lockCount (limit : Nat) (state : TimeState) (good : Nat) (θ : Int) : Nat × TimeState :=
  match state with
  | .free => (if θ.natAbs < limit then 1 else 0, .acquiring)
  | .holdover => (if θ.natAbs < limit then 1 else 0, .acquiring)
  | .acquiring =>
    if θ.natAbs < limit then
      (good + 1, if Config.lockRun ≤ good + 1 then .locked else .acquiring)
    else (0, .acquiring)
  | .locked => if θ.natAbs < 4 * limit then (good, .locked) else (0, .acquiring)

/-- An accepted offset: the record of ET, the step or the slew, and the time state (R6). -/
def State.acceptOffset (s : State) (θ : Int) (interval : Nat) : State :=
  let s := s.setTime { s.time with lastOffset := some s.time.et }
  if s.cfg.time.stepLimit ≤ θ.natAbs then s.stepTime θ
  else
    let after := lockCount s.cfg.time.lockLimit s.time.state s.time.good θ
    let s := s.setTime { s.time.slew s.cfg.time θ interval with good := after.1 }
    s.enterTimeState after.2

/-- The holdover expiry is reached (R10). -/
def State.holdoverDue (s : State) : Bool :=
  match s.time.state, s.time.lastOffset with
  | .acquiring, some since => decide (s.cfg.time.holdover * Config.ticksPerMs ≤ ticksSince s.time.et since)
  | .locked, some since => decide (s.cfg.time.holdover * Config.ticksPerMs ≤ ticksSince s.time.et since)
  | _, _ => false

/-- Holdover begins when its expiry is reached (R10). -/
def State.judgeHoldover (s : State) : State :=
  if s.holdoverDue then
    (s.setTime { s.time.retune s.time.fc 0 with good := 0 }).enterTimeState .holdover
  else s

/-- The time base chooses its time route again (R16). -/
def State.rechoose (s : State) : State := s.setTime { s.time with timeRoute := s.bestTimeRoute }

/-! ### Circuits (R86, R91, R92) -/

/-- The max age of a copy's circuit, in microseconds. -/
def State.maxAge (s : State) (c : Copy) : Nat :=
  match s.circuits[c.circuit].defn with
  | some { flow := .out _ _ maxAge, .. } => maxAge
  | _ => 0

/-- A copy's age has reached its circuit's max age (R124). -/
def State.expired (s : State) (c : Copy) : Bool :=
  decide (s.maxAge c * 1000 ≤ ageNs s.time.et c.origin)

/-- Another copy of the frame in slot `k` waits on a route or is current on a lane other than `r` (R124, R128). -/
def State.heldElsewhere (s : State) (r : RouteIx) (k : Nat) : Bool :=
  (List.finRange 16).any fun r' =>
    decide (r' ≠ r) &&
      (s.tx[r'].queue.any (fun c => c.slot == k) ||
        match s.tx[r'].current with
        | some { copy := some c, .. } => c.slot == k
        | _ => false)

/-- No copy of the frame in slot `k` has started transmission (R91). -/
def State.notStarted (s : State) (k : Nat) : Bool :=
  match s.pool.frame k with
  | some f => !f.started
  | none => false

/-- The tally of a discard reason (R91). -/
def OutTallies.discard (t : OutTallies) : DiscardReason → OutTallies
  | .expired => { t with expired := t.expired + 1 }
  | .noRoute => { t with noRoute := t.noRoute + 1 }
  | .flushed => { t with flushed := t.flushed + 1 }
  | .relayFailed => t
  | .withdrawn => t

/-- A copy has left the waiting queue of route `r` without starting: when it was the last copy of a held frame, its circuit
counts the frame by the reason and CIRCUIT_DISCARD is raised at the circuit's port (R91, R92). -/
def State.countDiscard (s : State) (r : RouteIx) (c : Copy) (reason : DiscardReason) : State :=
  if s.notStarted c.slot && !s.heldElsewhere r c.slot then
    let s := s.modCircuit c.circuit fun x => { x with out := { x.out.discard reason with held := x.out.held - 1 } }
    s.raiseAt c.port (.circuitDiscard c.circuit reason c.seq)
  else s

/-- A copy of a circuit has ceased to be a current frame: a close pending falls by 1, and at 0 the circuit is CLOSED
(R86). -/
def Circuit.copyCeased (x : Circuit) : Circuit :=
  match x.closing with
  | none => x
  | some n => if n ≤ 1 then { x with closing := none, state := .closed } else { x with closing := some (n - 1) }

/-- The current frame of a lane ends or is abandoned: it becomes absent, a CARGO copy releases its slot, and a close pending
on its circuit falls (R126, R127). -/
def State.endCurrent (s : State) (r : RouteIx) : State :=
  match s.tx[r].current with
  | none => s
  | some cur =>
    let s := s.modTx r fun t => { t with current := none }
    match cur.copy with
    | none => s
    | some c => (s.release c.slot).modCircuit c.circuit Circuit.copyCeased

/-- The current frame of a lane, if there is one, is abandoned (R127). -/
def State.abandonCurrent (s : State) (r : RouteIx) : State :=
  match s.tx[r].current with
  | none => s
  | some _ =>
    (s.endCurrent r).modTx r fun t => { t with counts := { t.counts with abandoned := t.counts.abandoned + 1 } }

/-- The frame a lane is receiving, if there is one, gives up its slot or its buffer. -/
def State.dropRx (s : State) (r : RouteIx) : State :=
  match s.lanes[r].rx with
  | none => s
  | some rx =>
    let s := s.modLane r fun l => { l with rx := none }
    match rx.store with
    | .slot k => s.release k
    | _ => s

/-- The frame a lane is receiving, if there is one, is abandoned (R138). -/
def State.abandonRx (s : State) (r : RouteIx) : State :=
  match s.lanes[r].rx with
  | none => s
  | some _ =>
    (s.dropRx r).modLane r fun l => { l with counts := { l.counts with abandoned := l.counts.abandoned + 1 } }

/-! ### The route selector (R100 to R110) -/

/-- The route is open to a placement: R100's conditions that do not depend on the frame (R115). -/
def State.open_ (s : State) (r : RouteIx) : Bool :=
  s.health[r].state.carries && s.cfg.lanes[r].type != .unused && decide (s.tx[r].queue.length < Config.queueMax)

/-- The routes eligible for a frame of a peer, in index order (R100). -/
def State.eligible (s : State) (peer : PeerIx) : List RouteIx :=
  (List.finRange 16).filter fun r => decide (s.cfg.routes[r].peer = peer) && s.open_ r

/-- The expected arrival of a frame of payload length `len` on a route (R101). -/
def State.expectedArrival (s : State) (len : Nat) (r : RouteIx) : Nat :=
  let bt := (byteTime s.cfg.lanes[r].type s.lanes[r]).getD 0
  min Config.expectedMax
    (((s.tx[r].backlog + len + Config.cargoOverhead) * bt + 15) / 16 + (s.forward r).getD 0)

/-- The primary among `routes`: the peer's forced route when it is one of them, else the one with the least E (R103). -/
def State.primary (s : State) (peer : PeerIx) (len : Nat) (routes : List RouteIx) : Option RouteIx :=
  match s.peers[peer].forced with
  | some f => if f ∈ routes then some f else leastBy (s.expectedArrival len) routes
  | none => leastBy (s.expectedArrival len) routes

/-- A shadow is sought for a frame of this class whose primary is `r` (R104). -/
def State.shadowSought (s : State) (cls : TrafficClass) (r : RouteIx) : Bool :=
  match cls with
  | .sure => true
  | .fast => s.health[r].state == .fading

/-- A copy joins the tail of a route's waiting queue (R107, R110). -/
def State.enqueue (s : State) (r : RouteIx) (c : Copy) : State := s.modTx r fun t => { t with queue := t.queue ++ [c] }

/-- A frame in slot `k` placed for OUT circuit `n` of this definition, its payload length and age origin given: the copies
join their queues and the circuit accepts the frame (R90, R103 to R107). Nothing when no route is eligible. -/
def State.place (s : State) (n : CircIx) (port : PortIx) (peer : PeerIx) (cls : TrafficClass) (k len : Nat)
    (origin : Ticks) : Option State :=
  let routes := s.eligible peer
  match s.primary peer len routes with
  | none => none
  | some r =>
    let shadow :=
      if s.shadowSought cls r then leastBy (s.expectedArrival len) (routes.filter fun r' => decide (r' ≠ r)) else none
    let missed := s.shadowSought cls r && shadow.isNone
    let copy : Copy := { slot := k, circuit := n, seq := s.circuits[n].nextSeq, len := len, origin := origin, port := port }
    let s1 := (s.enqueue r copy).modSel r fun x => { x with primaries := x.primaries + 1 }
    let s2 :=
      match shadow with
      | none => s1
      | some r' => (s1.enqueue r' copy).modSel r' fun x => { x with shadows := x.shadows + 1 }
    let s3 := s2.updateFrame k fun f => { f with refs := if shadow.isSome then 2 else 1, started := false }
    some (s3.modCircuit n fun x =>
      { x with
        nextSeq := x.nextSeq + 1
        out := { x.out with
          accepted := x.out.accepted + 1
          held := x.out.held + 1
          shadowMissed := if missed then x.out.shadowMissed + 1 else x.out.shadowMissed } })

/-- A placement of a frame that finds no eligible route counts on the peer (R106). -/
def State.countNoRoute (s : State) (peer : PeerIx) : State :=
  s.modPeer peer fun x => { x with noRoute := x.noRoute + 1 }

/-! ### Re-steering (R110, R128) -/

/-- The peer of a copy's circuit. -/
def State.copyPeer (s : State) (c : Copy) : Option PeerIx := s.circuits[c.circuit].defn.map CircuitDef.peer

/-- The route a re-steer placement finds for a copy leaving route `r` (R110). -/
def State.resteerTarget (s : State) (r : RouteIx) (c : Copy) : Option RouteIx :=
  match s.copyPeer c with
  | none => none
  | some peer => s.primary peer c.len ((s.eligible peer).filter fun r' => decide (r' ≠ r))

/-- One copy of a route leaving UP or FADING, already out of its queue: the first case of R128 that applies. -/
def State.resteerCopy (s : State) (r : RouteIx) (c : Copy) : State :=
  if s.heldElsewhere r c.slot then
    (s.release c.slot).modTx r fun t =>
      { t with counts := { t.counts with releasedResteer := t.counts.releasedResteer + 1 } }
  else if s.expired c then
    ((s.countDiscard r c .expired).release c.slot).modTx r fun t =>
      { t with counts := { t.counts with expiredResteer := t.counts.expiredResteer + 1 } }
  else
    match s.resteerTarget r c with
    | some r' =>
      ((s.enqueue r' c).modSel r' fun x => { x with resteeredIn := x.resteeredIn + 1 }).modTx r fun t =>
        { t with counts := { t.counts with resteeredOut := t.counts.resteeredOut + 1 } }
    | none =>
      ((s.countDiscard r c .noRoute).release c.slot).modTx r fun t =>
        { t with counts := { t.counts with noRouteResteer := t.counts.noRouteResteer + 1 } }

/-- The waiting copies of a route, from the head to the tail (R128). -/
def State.resteer (s : State) (r : RouteIx) : State :=
  s.tx[r].queue.foldl (fun s c => s.resteerCopy r c) (s.modTx r fun t => { t with queue := [] })

/-! ### Schedules and control entries (R37, R54, R67) -/

/-- A PROBE request: a PROBE is placed in the entry, or the one that waits stands for it (R37). -/
def State.requestProbe (s : State) (r : RouteIx) : State :=
  if s.tx[r].probeEntry then
    s.modProbe r fun x => { x with counts := { x.counts with replacedSkips := x.counts.replacedSkips + 1 } }
  else s.modTx r fun t => { t with probeEntry := true }

/-- A TEST request: a TEST is placed in the entry, or the one that waits stays (R67). -/
def State.requestTest (s : State) (r : RouteIx) : State :=
  if s.tx[r].testEntry then
    s.modHealth r fun h => { h with counts := { h.counts with testSkips := h.counts.testSkips + 1 } }
  else s.modTx r fun t => { t with testEntry := true }

/-- The ET one probe interval from now (R37). -/
def State.nextDue (s : State) : Ticks := s.time.et + BitVec.ofNat 64 s.probeTicks

/-- A route leaves DISABLED: its probe schedule starts with an immediate request (R37). -/
def State.startProbes (s : State) (r : RouteIx) : State :=
  (s.requestProbe r).modProbe r fun x => { x with due := some s.nextDue }

/-- A route enters PROVING: both counts become 0 and the TEST schedule starts with an immediate request (R65, R67). -/
def State.enterProving (s : State) (r : RouteIx) : State :=
  (s.requestTest r).modHealth r fun h => { h with error := 0, good := 0, testDue := some s.nextDue }

/-- A route leaves PROVING: the TEST schedule stops and the TEST entry is withdrawn (R65). -/
def State.leaveProving (s : State) (r : RouteIx) : State :=
  (s.modHealth r fun h => { h with testDue := none }).modTx r fun t => { t with testEntry := false }

/-- The flush of R53. -/
def State.flush (s : State) (r : RouteIx) : State := s.modProbe r fun x => { x with ring := [], outstanding := [] }

/-- What entering DISABLED does beyond the flush (R54). -/
def State.disableEffects (s : State) (r : RouteIx) : State :=
  (s.modProbe r fun x => { x with due := none, errorsToTell := 0 }).modTx r fun t =>
    { t with probeEntry := false, echoes := [] }

/-! ### Changes of route state (R65, R76) -/

/-- Step 1 of R65: the route takes its new state. -/
def State.recordChange (s : State) (r : RouteIx) (new : RouteState) : State :=
  s.modHealth r fun h =>
    { h with state := new, lastChange := some s.time.et, counts := { h.counts with changes := h.counts.changes + 1 } }

/-- Steps 2 to 6 of R65 for a change from `old` to `new`. -/
def State.consequences (s : State) (r : RouteIx) (old new : RouteState) : State :=
  let s := if old = .proving then s.leaveProving r else s
  let s := if new = .proving then s.enterProving r else s
  let s := if new = .down ∨ new = .disabled then s.flush r else s
  let s := if new = .disabled then s.disableEffects r else s
  let s := if old = .disabled then s.startProbes r else s
  let s := s.rechoose
  let s := if old.carries && !new.carries then s.resteer r else s
  s.raiseAll (.routeState r old new)

/-- A route moved by one event, through the states named in order. -/
structure Move where
  route : RouteIx
  via   : List RouteState
deriving DecidableEq, Repr

/-- The changes of one move recorded. -/
def State.recordMove (s : State) (m : Move) : State := m.via.foldl (fun s new => s.recordChange m.route new) s

/-- The consequences of the changes of one move that starts in `old`, each in turn. -/
def State.moveConsequences (s : State) (r : RouteIx) (old : RouteState) : List RouteState → State
  | [] => s
  | new :: via => (s.consequences r old new).moveConsequences r new via

/-- One event's changes of route state: all of them take effect before any of their consequences, which follow in
route-index order (R76). `moves` stands in route-index order, each route in it at most once. -/
def State.applyMoves (s : State) (moves : List Move) : State :=
  let before := s
  moves.foldl (fun s m => s.moveConsequences m.route before.health[m.route].state m.via) (moves.foldl State.recordMove s)

/-- One route moved through the states named. -/
def State.moveRoute (s : State) (r : RouteIx) (via : List RouteState) : State := s.applyMoves [{ route := r, via := via }]

/-- A route passes to DISABLED unless it is already DISABLED. -/
def State.disableRoute (s : State) (r : RouteIx) : State :=
  if s.health[r].state = .disabled then s else s.moveRoute r [.disabled]

/-! ### Evaluation (R64) -/

/-- The transition an evaluation of a route takes, if any. -/
def State.evaluation (s : State) (r : RouteIx) : Option RouteState :=
  evalTarget s.cfg.health s.cfg.lanes[r].type s.lanes[r] s.health[r]

/-- An evaluation of a route (R64). -/
def State.evaluate (s : State) (r : RouteIx) : State :=
  match s.evaluation r with
  | none => s
  | some new => s.moveRoute r [new]

/-! ### Resolutions (R48, R61, R70) -/

/-- The outcome of a probe as route health is given it (R48). -/
inductive Resolution where
  | good (errors : Byte)
  | badSample (errors : Byte)
  | lost
deriving DecidableEq, Repr

/-- The change of the error count (R61). -/
def Resolution.errorChange : Resolution → Int
  | .good errors => if errors = 0 then -1 else 0
  | .badSample errors => if errors = 0 then 8 else 9
  | .lost => 8

/-- An error count moved, saturating at 0 and at 255 (R61). -/
def moveError (error : Nat) (change : Int) : Nat := (max 0 (min 255 ((error : Int) + change))).toNat

/-- The good-window count of a proving route (R70). -/
def Resolution.window (good : Nat) : Resolution → Nat
  | .good errors => if errors = 0 then min 255 (good + 1) else 0
  | .badSample _ => 0
  | .lost => 0

/-- Route health is given a resolution (step 4 of R48): the error count and, while proving, the good-window count move, and
the route is evaluated (R61, R70). -/
def State.resolve (s : State) (r : RouteIx) (res : Resolution) : State :=
  (s.modHealth r fun h =>
    { h with
      error := moveError h.error res.errorChange
      good := if h.state = .proving then res.window h.good else h.good }).evaluate r

/-- A received frame has failed its CRC on a route not DISABLED (R62). -/
def State.crcFailure (s : State) (r : RouteIx) : State :=
  (s.modHealth r fun h =>
    { h with
      error := moveError h.error 1
      counts := { h.counts with crcFailures := h.counts.crcFailures + 1 } }).evaluate r

/-- The oldest outstanding record of a route whose ET age has reached the probe timeout (R39). -/
def State.timedOut (s : State) (r : RouteIx) : Option Outstanding :=
  s.probes[r].outstanding.find? fun o =>
    decide (s.cfg.probe.timeout * Config.ticksPerMs ≤ ticksSince s.time.et o.sentAt)

/-- A record removed as LOST (R39, R48). -/
def State.loseProbe (s : State) (r : RouteIx) (o : Outstanding) : State :=
  (s.modProbe r fun x =>
    { x with outstanding := x.outstanding.erase o, counts := { x.counts with lost := x.counts.lost + 1 } }).resolve r .lost

/-- Silence falls on a RADIO lane whose timer has expired (R31). -/
def State.judgeSilence (s : State) (r : RouteIx) : State :=
  if silenceDue s.time.et s.cfg.lanes[r] s.lanes[r] then
    (s.modLane r fun l =>
      { l with
        silent := true, timer := none, ring := [], trend := .steady
        counts := { l.counts with silences := l.counts.silences + 1 } }).evaluate r
  else s

end Sys2Proof.Machine
end

