-- ==== Sys2Proof/Machine/Transmit.lean ====
section
/-! DEFINITION. The lane side of the transmit unit: the frames as they leave, the offer with its calendar, bytes taken and
transmit end (07_route_queues_and_the_transmit_calendar.md), and the scheduled requests of probes and tests. -/

namespace Sys2Proof.Machine

/-! ### Frames as they leave (R195) -/

/-- The transmit stamp of a lane now: TT plus TXC (R4). -/
def State.txStamp (s : State) (r : RouteIx) : Stamp := s.time.tt + BitVec.ofNat 64 s.cfg.lanes[r].txc

/-- The tag of a frame in a slot: from its SEND's body, or from its CARGO header (R193, R195). -/
def Frame.tag (f : Frame) : Nat :=
  match f.source with
  | .send _ => field f.bytes 5 4
  | .cargo _ => field f.bytes 8 4

/-- The ingress stamp of a frame in a slot: its SEND's, or the one its CARGO header carries (R5). -/
def Frame.ingress (f : Frame) : Nat :=
  match f.source with
  | .send _ => f.stamp.toNat
  | .cargo _ => field f.bytes 12 8

/-- The payload of a frame in a slot (R193, R195). -/
def Frame.payload (f : Frame) (len : Nat) : List Byte :=
  match f.source with
  | .send _ => (f.bytes.drop 9).take len
  | .cargo _ => (f.bytes.drop 28).take len

/-- The far circuit of an OUT circuit. -/
def State.farCircuit (s : State) (n : CircIx) : Nat :=
  match s.circuits[n].defn with
  | some { flow := .out far _ _, .. } => far.val
  | _ => 0

/-- A CARGO frame as it leaves lane `r` (R125, R195). -/
def State.cargoBytes (s : State) (r : RouteIx) (c : Copy) : List Byte :=
  match s.pool.frame c.slot with
  | none => []
  | some f =>
    withCrc
      (bytesOf 1 TrunkKind.cargo.code ++ [s.cfg.termId] ++ bytesOf 2 (s.farCircuit c.circuit) ++ bytesOf 2 c.seq.toNat ++
        bytesOf 2 c.len ++ bytesOf 4 f.tag ++ bytesOf 8 f.ingress ++ bytesOf 8 (s.txStamp r).toNat ++ f.payload c.len)

/-- A PROBE frame as it leaves lane `r` with number `n` (R40, R195). -/
def State.probeBytes (s : State) (r : RouteIx) (n : Byte) : List Byte :=
  withCrc (bytesOf 1 TrunkKind.probe.code ++ [s.cfg.termId, n] ++ bytesOf 8 (s.txStamp r).toNat)

/-- An ECHO frame as it leaves lane `r` (R44, R195). -/
def State.echoBytes (s : State) (r : RouteIx) (e : EchoEntry) : List Byte :=
  withCrc
    (bytesOf 1 TrunkKind.echo.code ++ [s.cfg.termId, e.number] ++ bytesOf 1 e.errors ++ bytesOf 1 e.state.code ++
      bytesOf 8 e.t1.toNat ++ bytesOf 8 e.t2.toNat ++ bytesOf 8 (s.txStamp r).toNat)

/-- A TEST frame as it leaves with this seed: the CRC covers bytes 0 to 3, and the pattern follows it (R68, R195). -/
def State.testBytes (s : State) (seed : BitVec 16) : List Byte :=
  withCrc (bytesOf 1 TrunkKind.test.code ++ [s.cfg.termId] ++ bytesOf 2 seed.toNat) ++ pattern seed

/-- Transmit start of a frame of `len` bytes: its length joins the untaken bytes, and the lane takes its first byte in the
same event (R23, R119, step 2 of R125). -/
def Current.start (kind : TrunkKind) (copy : Option Copy) (bytes : List Byte) (len : Nat) : Current :=
  { kind := kind, copy := copy, bytes := bytes, untaken := len - 1 }

/-- A control frame becomes the lane's current frame (R119, R121). -/
def State.startControl (s : State) (r : RouteIx) (kind : TrunkKind) (bytes : List Byte) : State :=
  s.modTx r fun t => { t with current := some (Current.start kind none bytes bytes.length) }

/-! ### The offer (R120) -/

/-- The oldest ECHO entry starts (R44). -/
def State.sendEcho (s : State) (r : RouteIx) (e : EchoEntry) (rest : List EchoEntry) : State :=
  ((s.startControl r .echo (s.echoBytes r e)).modTx r fun t => { t with echoes := rest }).modProbe r fun x =>
    { x with counts := { x.counts with echoesSent := x.counts.echoesSent + 1 } }

/-- The PROBE starts with the next number, and its record is added (R40). -/
def State.sendProbe (s : State) (r : RouteIx) : State :=
  let n := s.probes[r].nextNumber
  ((s.startControl r .probe (s.probeBytes r n)).modTx r fun t => { t with probeEntry := false }).modProbe r fun x =>
    { x with
      nextNumber := n + 1
      outstanding := x.outstanding ++ [{ number := n, t1 := s.txStamp r, sentAt := s.time.et }]
      counts := { x.counts with sent := x.counts.sent + 1 } }

/-- The PROBE is skipped, for the outstanding table is full (R40). -/
def State.skipProbe (s : State) (r : RouteIx) : State :=
  (s.modTx r fun t => { t with probeEntry := false }).modProbe r fun x =>
    { x with counts := { x.counts with fullSkips := x.counts.fullSkips + 1 } }

/-- The TEST starts with the next seed (R68). -/
def State.sendTest (s : State) (r : RouteIx) : State :=
  ((s.startControl r .test (s.testBytes s.health[r].seed)).modTx r fun t => { t with testEntry := false }).modHealth r
    fun h => { h with seed := h.seed + 1, counts := { h.counts with testsSent := h.counts.testsSent + 1 } }

/-- The sixteen calendar slots in the order a search looks at them (R122). -/
def searchOrder (pointer : Fin 16) : List (Fin 16) := (List.finRange 16).map fun i => pointer + i

/-- The port named in a slot has a copy waiting. -/
def slotWaits (cal : Calendar) (queue : List Copy) (i : Fin 16) : Bool :=
  match cal[i] with
  | none => false
  | some p => queue.any fun c => c.port == p

/-- The copy the calendar grants, with the slot of a slotted grant (R122). -/
def grant (cal : Calendar) (pointer : Fin 16) (queue : List Copy) : Option (Copy × Option (Fin 16)) :=
  match (searchOrder pointer).find? (slotWaits cal queue) with
  | some i => (queue.find? fun c => cal[i] == some c.port).map fun c => (c, some i)
  | none => queue.head?.map fun c => (c, none)

/-- A granted copy that has expired is removed and released (R124). -/
def State.expireAtStart (s : State) (r : RouteIx) (c : Copy) : State :=
  let s := s.modTx r fun t =>
    { t with queue := t.queue.erase c, counts := { t.counts with expiredAtStart := t.counts.expiredAtStart + 1 } }
  (s.countDiscard r c .expired).release c.slot

/-- The first copy of a frame to start: the circuit counts the frame as sent (R91). -/
def State.countStart (s : State) (c : Copy) : State :=
  if s.notStarted c.slot then
    (s.updateFrame c.slot fun f => { f with started := true }).modCircuit c.circuit fun x =>
      { x with out := { x.out with sent := x.out.sent + 1, held := x.out.held - 1 } }
  else s

/-- A granted copy that has not expired starts; a slotted grant moves the pointer to the slot after its own (R123, R125). -/
def State.startCargo (s : State) (r : RouteIx) (c : Copy) (slot : Option (Fin 16)) : State :=
  let bytes := s.cargoBytes r c
  (s.modTx r fun t =>
    { t with
      queue := t.queue.erase c
      current := some (Current.start .cargo (some c) bytes c.trunk)
      cargoSent := t.cargoSent + 1
      pointer := match slot with
        | some i => i + 1
        | none => t.pointer }).countStart c

/-- Grants in turn until a copy starts or the waiting queue is empty; `fuel` is the queue's length (R122, R124). -/
def State.grantLoop (s : State) (r : RouteIx) : (fuel : Nat) → State
  | 0 => s
  | fuel + 1 =>
    match grant s.cfg.calendars[r] s.tx[r].pointer s.tx[r].queue with
    | none => s
    | some (c, slot) =>
      let s := match slot with
        | some _ => s
        | none => s.modTx r fun t => { t with counts := { t.counts with unslotted := t.counts.unslotted + 1 } }
      if s.expired c then (s.expireAtStart r c).grantLoop r fuel else s.startCargo r c slot

/-- The last row of R120: a CARGO copy, in UP or FADING. -/
def State.offerCargo (s : State) (r : RouteIx) : State :=
  if s.health[r].state.carries then s.grantLoop r s.tx[r].queue.length else s

/-- The third row of R120: the TEST, in PROVING. -/
def State.offerTest (s : State) (r : RouteIx) : State :=
  if s.tx[r].testEntry && s.health[r].state == .proving then s.sendTest r else s.offerCargo r

/-- The second row of R120: the PROBE, subject to the outstanding table (R40, R121). -/
def State.offerProbe (s : State) (r : RouteIx) : State :=
  if s.tx[r].probeEntry then
    if s.probes[r].outstanding.length < Config.outstandingMax then s.sendProbe r else (s.skipProbe r).offerTest r
  else s.offerTest r

/-- An offer to a lane: nothing happens unless it is ready (R120). -/
def State.offer (s : State) (r : RouteIx) : State :=
  if s.laneReady r then
    match s.tx[r].echoes with
    | e :: rest => s.sendEcho r e rest
    | [] => s.offerProbe r
  else s

/-! ### The commands -/

/-- OFFER (R120 to R125). -/
def execOffer (r : RouteIx) (s : State) : Host.Outcome State Fault Refusal := .next (s.offer r)

/-- LANE_BYTE_TAKEN: one byte of the current frame is taken (R119). It may be the last one: the frame is then current with
no byte untaken until its TRANSMIT_END (DESIGN CHOICE, log entry 5). With no byte to take, none is taken (log entry 4). -/
def execLaneByteTaken (r : RouteIx) (s : State) : Host.Outcome State Fault Refusal :=
  .next (s.modTx r fun t => { t with current := t.current.map fun c => { c with untaken := c.untaken - 1 } })

/-- TRANSMIT_END: the last byte of the current frame is taken, or has just been (R126). It is not the end while more than that
byte is left (DESIGN CHOICE, log entries 4 and 5). -/
def execTransmitEnd (r : RouteIx) (s : State) : Host.Outcome State Fault Refusal :=
  match s.tx[r].current with
  | none => .next s
  | some c => if c.untaken ≤ 1 then .next (s.endCurrent r) else .next s

/-- PROBE_REQUEST: the probe interval falls due (R37). -/
def execProbeRequest (r : RouteIx) (s : State) : Host.Outcome State Fault Refusal :=
  match s.probes[r].due with
  | none => .next s
  | some due =>
    if dueReached s.time.et due s.probeTicks then
      .next ((s.requestProbe r).modProbe r fun x => { x with due := some (due + BitVec.ofNat 64 s.probeTicks) })
    else .next s

/-- PROBE_TIMEOUT: the oldest record that has reached the probe timeout is LOST (R39). -/
def execProbeTimeout (r : RouteIx) (s : State) : Host.Outcome State Fault Refusal :=
  match s.timedOut r with
  | none => .next s
  | some o => .next (s.loseProbe r o)

/-- TEST_REQUEST: the probe interval falls due on a proving route, which is evaluated (R67). -/
def execTestRequest (r : RouteIx) (s : State) : Host.Outcome State Fault Refusal :=
  match s.health[r].testDue with
  | none => .next s
  | some due =>
    if dueReached s.time.et due s.probeTicks then
      .next (((s.requestTest r).modHealth r fun h =>
        { h with testDue := some (due + BitVec.ofNat 64 s.probeTicks) }).evaluate r)
    else .next s

end Sys2Proof.Machine
end

