-- ==== Sys2Proof/Machine/Arrival.lean ====
section
/-! DEFINITION. The arrival side: frame start and frame end, probes answered and resolved, tests checked, the duplicate
window, delivery and relay (08_arrival_duplicate_suppression_and_delivery.md, 03_probe_exchange_and_route_delay.md). -/

namespace Sys2Proof.Machine

/-! ### Frame start (R136, R157) -/

/-- A frame being received is put in its store. -/
def State.beginRx (s : State) (r : RouteIx) (first : Byte) (store : RxStore) : State :=
  s.modLane r fun l =>
    { l with
      rx := some { stamp := s.time.tt - BitVec.ofNat 64 s.cfg.lanes[r].rxc, et := s.time.et, first := first, store := store } }

/-- The record of an arriving CARGO in its slot (R154). -/
def State.arrivalFrame (s : State) (r : RouteIx) : Frame :=
  { source := .cargo r, stamp := s.time.tt - BitVec.ofNat 64 s.cfg.lanes[r].rxc, et := s.time.et, bytes := [], refs := 1,
    started := false }

/-- Frame start on a lane that takes frames (R136). -/
def State.frameStart (s : State) (r : RouteIx) (first : Byte) : State :=
  if s.health[r].state = .disabled then s.beginRx r first .unreceived
  else if first.toNat = TrunkKind.cargo.code then
    match s.pool.take (s.arrivalFrame r) with
    | some (k, pool) => (s.setPool pool).beginRx r first (.slot k)
    | none =>
      ((s.setPool { s.pool with arrivalNoBuffer := s.pool.arrivalNoBuffer + 1 }).modScore r fun x =>
        { x with noBuffer := x.noBuffer + 1 }).beginRx r first .unreceived
  else s.beginRx r first .buffer

/-- The lane takes the bytes of trunk frames: RADIO or FIBER, with LOS released (R24). -/
def State.takesFrames (s : State) (r : RouteIx) : Bool := s.cfg.lanes[r].type != .unused && !s.lanes[r].los

/-! ### Checks at frame end (R137, R195) -/

/-- The CRC of a received frame is good (R195). -/
def frameCrcGood (bs : List Byte) : Bool :=
  if field bs 0 1 = TrunkKind.test.code then
    decide (8 ≤ bs.length) && decide (field bs 4 4 = (crc32 (bs.take 4)).toNat)
  else
    decide (5 ≤ bs.length) && decide (field bs (bs.length - 4) 4 = (crc32 (bs.take (bs.length - 4))).toNat)

/-- The kind of a received frame, a PROBE or an ECHO only at its own length (R195). -/
def frameKind (bs : List Byte) : Option TrunkKind :=
  match field bs 0 1 with
  | 1 => some .cargo
  | 2 => if bs.length = 15 then some .probe else none
  | 3 => if bs.length = 33 then some .echo else none
  | 4 => some .test
  | _ => none

/-! ### PROBE, ECHO and TEST (R42, R45 to R52, R69) -/

/-- A PROBE is answered: an ECHO joins the ECHO entries, or is dropped when four wait (R42). -/
def State.answerProbe (s : State) (r : RouteIx) (number : Byte) (t1 t2 : Stamp) : State :=
  if s.tx[r].echoes.length < Config.echoMax then
    (s.modTx r fun t =>
      { t with
        echoes := t.echoes ++
          [{ number := number, t1 := t1, t2 := t2, errors := s.probes[r].errorsToTell, state := s.health[r].state }] }).modProbe
      r fun x => { x with errorsToTell := 0 }
  else s.modProbe r fun x => { x with counts := { x.counts with echoesDropped := x.counts.echoesDropped + 1 } }

/-- A GOOD sample joins the ring, the oldest overwritten when the ring holds 8 (R47). -/
def enterSample (ring : List Sample) (x : Sample) : List Sample :=
  (if ring.length < Config.sampleMax then ring else ring.drop 1) ++ [x]

/-- The gate of R52, for a sample already in the ring. -/
def State.gateOpen (s : State) (r : RouteIx) (rtt : Nat) : Bool :=
  s.time.timeRoute == some r && s.cfg.time.role == .follower &&
  decide (s.cfg.routes[r].peer = s.cfg.time.followed) &&
  match s.probes[r].m with
  | none => false
  | some m => decide (rtt ≤ m + s.cfg.probe.gate)

/-- The sample's offset is handed to the time base when the gate is open, and accepted under R6 (R52). -/
def State.gateOffset (s : State) (r : RouteIx) (x : Sample) : State :=
  if s.gateOpen r x.rtt then
    (s.modProbe r fun p => { p with counts := { p.counts with offsetsHanded := p.counts.offsetsHanded + 1 } }).acceptOffset
      (theta x.d s.cfg.routes[r].a) (s.cfg.probe.interval * 1000)
  else s

/-- The peer view is replaced (step 3 of R48). -/
def State.viewPeer (s : State) (r : RouteIx) (state errors : Byte) : State :=
  s.modProbe r fun p => { p with peerView := some { state := state, errors := errors, at_ := s.time.et } }

/-- A record resolved as BAD_SAMPLE (R45, R46, R48). -/
def State.badSample (s : State) (r : RouteIx) (o : Outstanding) (state errors : Byte) : State :=
  (((s.modProbe r fun p =>
    { p with outstanding := p.outstanding.erase o, counts := { p.counts with badSample := p.counts.badSample + 1 } }).viewPeer
    r state errors).resolve r (.badSample errors))

/-- A record resolved as GOOD: the sample enters, the time route is chosen again, the gate is applied, and route health is
given the resolution (R46, R48). -/
def State.goodSample (s : State) (r : RouteIx) (o : Outstanding) (x : Sample) (state errors : Byte) : State :=
  let s := s.modProbe r fun p =>
    { p with
      outstanding := p.outstanding.erase o
      ring := enterSample p.ring x
      counts := { p.counts with good := p.counts.good + 1 } }
  (((s.rechoose.gateOffset r x).viewPeer r state errors).resolve r (.good errors))

/-- The round trip of an exchange (R46). -/
def roundTrip (t1 t2 t3 t4 : Stamp) : Int := stampDiff t4 t1 - stampDiff t3 t2

/-- The raw offset term of an exchange (R46). -/
def offsetTerm (t1 t2 t3 t4 : Stamp) : Int := stampDiff t2 t1 - stampDiff t4 t3

/-- An ECHO resolved (R45, R46): its probe number, echoed t1, t2, t3, pattern-error count, reported state, and t4. -/
def State.resolveEcho (s : State) (r : RouteIx) (number : Byte) (t1 t2 t3 t4 : Stamp) (errors state : Byte) : State :=
  match s.probes[r].outstanding.find? fun o => o.number == number with
  | none => s.modProbe r fun p => { p with counts := { p.counts with lateEcho := p.counts.lateEcho + 1 } }
  | some o =>
    if o.t1 ≠ t1 ∨ roundTrip t1 t2 t3 t4 < 0 then s.badSample r o state errors
    else
      s.goodSample r o
        { number := number, rtt := (roundTrip t1 t2 t3 t4).toNat, d := offsetTerm t1 t2 t3 t4, at_ := s.time.et } state errors

/-- A TEST checked against the pattern of its seed (R69). -/
def State.checkTest (s : State) (r : RouteIx) (seed : BitVec 16) (bytes : List Byte) : State :=
  let s := s.modHealth r fun h => { h with counts := { h.counts with testsChecked := h.counts.testsChecked + 1 } }
  if bytes = pattern seed then s
  else
    (s.modHealth r fun h => { h with counts := { h.counts with testsFailed := h.counts.testsFailed + 1 } }).modProbe r
      fun p => { p with errorsToTell := min 255 (p.errorsToTell + 1) }

/-! ### The window (R141 to R143) -/

/-- The verdict of a window on a sequence number. -/
inductive Verdict where
  | first
  | ahead (d : Nat)
  | fill (b : Nat)
  | duplicate (e : WinEntry)
  | stale
deriving DecidableEq, Repr

/-- The window judges sequence number `seq` (R142, R143). -/
def Window.judge (w : Window) (seq : BitVec 16) : Verdict :=
  if !w.valid then .first
  else
    let d := (seq - w.h).toNat
    if 1 ≤ d ∧ d ≤ 32767 then .ahead d
    else
      let b := (w.h - seq).toNat
      if b < Config.windowSize then
        match w.entries.getD b none with
        | some e => .duplicate e
        | none => .fill b
      else .stale

/-- The entry at position `b` marked seen. -/
def markEntry (es : List (Option WinEntry)) (b : Nat) (e : WinEntry) : List (Option WinEntry) :=
  (List.range Config.windowSize).map fun i => if i = b then some e else es.getD i none

/-- The window moved on by `d` sequence numbers, which join it unseen (R142). -/
def advanceEntries (es : List (Option WinEntry)) (d : Nat) : List (Option WinEntry) :=
  (List.range Config.windowSize).map fun i => if i < d then none else es.getD (i - d) none

/-- The window after it has accepted `seq` (R142 to R144). -/
def Window.accept (w : Window) (seq : BitVec 16) (e : WinEntry) : Verdict → Window
  | .first => { valid := true, h := seq, entries := markEntry Window.invalid.entries 0 e }
  | .ahead d => { valid := true, h := seq, entries := markEntry (advanceEntries w.entries d) 0 e }
  | .fill b => { w with entries := markEntry w.entries b e }
  | .duplicate _ => w
  | .stale => w

/-! ### CARGO (R140, R144 to R146, R149, R152) -/

/-- A frame accepted on IN circuit `n` is offered to its port's delivery queue (R149). -/
def State.deliver (s : State) (n : CircIx) (port : PortIx) (k : Nat) (seq : BitVec 16) : State :=
  if !s.ports[port].up then
    (s.release k).modCircuit n fun x => { x with inn := { x.inn with overrun := x.inn.overrun + 1 } }
  else if Config.deliveryMax ≤ s.ports[port].delivery.length then
    ((s.release k).modCircuit n fun x => { x with inn := { x.inn with overrun := x.inn.overrun + 1 } }).raiseAt port
      (.deliveryOverrun n seq)
  else
    s.modPort port fun p => { p with delivery := p.delivery ++ [{ slot := k, circuit := n, seq := seq }] }

/-- The relay of a frame accepted on IN circuit `n` fails (R94). -/
def State.relayFails (s : State) (n : CircIx) (port : PortIx) (k : Nat) (seq : BitVec 16) : State :=
  ((s.release k).modCircuit n fun x => { x with inn := { x.inn with relayFailures := x.inn.relayFailures + 1 } }).raiseAt
    port (.circuitDiscard n .relayFailed seq)

/-- The definition of an OUT circuit that is OPEN with no close pending (R94). -/
def Circuit.relayable (x : Circuit) : Option (PortIx × PeerIx × TrafficClass) :=
  match x.state, x.closing, x.defn with
  | .opened, none, some { port := port, peer := peer, flow := .out _ cls _ } => some (port, peer, cls)
  | _, _, _ => none

/-- A frame accepted on IN circuit `n` is handed to its relay target (R94, R109, R152). -/
def State.relay (s : State) (n target : CircIx) (port : PortIx) (k len : Nat) (seq : BitVec 16) (origin : Ticks) : State :=
  match s.circuits[target].relayable with
  | none => s.relayFails n port k seq
  | some (outPort, peer, cls) =>
    match s.place target outPort peer cls k len origin with
    | some s' => s'.modCircuit n fun x => { x with inn := { x.inn with relayed := x.inn.relayed + 1 } }
    | none => (s.countNoRoute peer).relayFails n port k seq

/-- A CARGO frame the window accepts (R144): `rx` is the frame's reception, `k` its slot. -/
def State.acceptCargo (s : State) (r : RouteIx) (n : CircIx) (port : PortIx) (relay : Option CircIx) (rx : Rx) (k len : Nat)
    (seq : BitVec 16) (verdict : Verdict) : State :=
  let s := s.modCircuit n fun x =>
    { x with
      window := x.window.accept seq { route := r, stamp := rx.stamp } verdict
      inn := { x.inn with accepted := x.inn.accepted + 1 } }
  let s := s.modScore r fun x => { x with firsts := x.firsts + 1 }
  match relay with
  | none => s.deliver n port k seq
  | some target => s.relay n target port k len seq rx.et

/-- The lateness sum after one more DUPLICATE (R145). -/
def addLateness (sum : Nat) (late : Int) : Nat := min Config.latenessMax (sum + late.toNat)

/-- A CARGO frame of an IN circuit judged by its window (R142 to R146). -/
def State.judgeCargo (s : State) (r : RouteIx) (n : CircIx) (port : PortIx) (relay : Option CircIx) (rx : Rx) (k len : Nat)
    (seq : BitVec 16) : State :=
  match s.circuits[n].window.judge seq with
  | .duplicate e =>
    ((s.release k).modScore r fun x =>
      { x with lates := x.lates + 1, lateness := addLateness x.lateness (stampDiff rx.stamp e.stamp) }).modCircuit n
      fun x => { x with inn := { x.inn with duplicates := x.inn.duplicates + 1 } }
  | .stale => (s.release k).modCircuit n fun x => { x with inn := { x.inn with stale := x.inn.stale + 1 } }
  | verdict => s.acceptCargo r n port relay rx k len seq verdict

/-- A CARGO frame is malformed (R140). -/
def malformed (bs : List Byte) : Bool :=
  let len := field bs 6 2
  decide (bs.length < Config.cargoOverhead) || decide (len < 1) || decide (Config.payloadMax < len) ||
  decide (bs.length ≠ len + Config.cargoOverhead)

/-- The IN circuit a CARGO frame on route `r` names, with its port and relay target; nothing when it is unknown (R140). -/
def State.cargoCircuit (s : State) (r : RouteIx) (bs : List Byte) : Option (CircIx × PortIx × Option CircIx) :=
  match index? 64 (field bs 2 2) with
  | none => none
  | some n =>
    match s.circuits[n].state, s.circuits[n].defn with
    | .opened, some { port := port, peer := peer, flow := .inn relay } =>
      if peer = s.cfg.routes[r].peer then some (n, port, relay) else none
    | _, _ => none

/-- A CARGO frame that has passed the checks of R137, out of its lane and in slot `k` (R140). -/
def State.cargoArrived (s : State) (r : RouteIx) (rx : Rx) (k : Nat) (bs : List Byte) : State :=
  if malformed bs then (s.release k).modScore r fun x => { x with malformed := x.malformed + 1 }
  else
    match s.cargoCircuit r bs with
    | none => (s.release k).modScore r fun x => { x with unknownCircuit := x.unknownCircuit + 1 }
    | some (n, port, relay) =>
      (s.updateFrame k fun f => { f with bytes := bs }).judgeCargo r n port relay rx k (field bs 6 2)
        (BitVec.ofNat 16 (field bs 4 2))

/-! ### Dispatch (R139) -/

/-- A frame that has passed the checks of R137 goes to the owner of its kind. -/
def State.dispatch (s : State) (r : RouteIx) (rx : Rx) (kind : TrunkKind) (bs : List Byte) : State :=
  match kind with
  | .probe =>
    ((s.dropRx r).modScore r fun x => { x with probes := x.probes + 1 }).answerProbe r (bs.getD 2 0)
      (BitVec.ofNat 64 (field bs 3 8)) rx.stamp
  | .echo =>
    ((s.dropRx r).modScore r fun x => { x with echoes := x.echoes + 1 }).resolveEcho r (bs.getD 2 0)
      (BitVec.ofNat 64 (field bs 5 8)) (BitVec.ofNat 64 (field bs 13 8)) (BitVec.ofNat 64 (field bs 21 8)) rx.stamp
      (bs.getD 3 0) (bs.getD 4 0)
  | .test =>
    ((s.dropRx r).modScore r fun x => { x with tests := x.tests + 1 }).checkTest r (BitVec.ofNat 16 (field bs 2 2))
      (bs.drop 8)
  | .cargo =>
    match rx.store with
    | .slot k => (s.modLane r fun l => { l with rx := none }).cargoArrived r rx k bs
    | _ => s.dropRx r

/-- The checks of R137 in order. -/
def State.frameJudged (s : State) (r : RouteIx) (rx : Rx) (bs : List Byte) : State :=
  if rx.store = .unreceived ∨ s.health[r].state = .disabled then s.dropRx r
  else if !frameCrcGood bs then (s.dropRx r).crcFailure r
  else
    match frameKind bs with
    | none => (s.dropRx r).modScore r fun x => { x with badKind := x.badKind + 1 }
    | some kind =>
      if bs.getD 1 0 ≠ s.cfg.peers[s.cfg.routes[r].peer].termId then
        (s.dropRx r).modScore r fun x => { x with misdirected := x.misdirected + 1 }
      else s.dispatch r rx kind bs

/-- The lane ends a frame at its 1,533rd byte; the arrival unit takes it for a CRC failure (R24, R137). -/
def State.lengthLimit (s : State) (r : RouteIx) (rx : Rx) : State :=
  let s := (s.dropRx r).modLane r fun l => { l with counts := { l.counts with oversize := l.counts.oversize + 1 } }
  if rx.store = .unreceived ∨ s.health[r].state = .disabled then s else s.crcFailure r

/-! ### The commands -/

/-- FRAME_START (R136). A lane that takes no frames hands none on, and a lane receiving a frame begins no other (R24, log
entry 4). -/
def execFrameStart (r : RouteIx) (first : Byte) (s : State) : Host.Outcome State Fault Refusal :=
  if s.takesFrames r && s.lanes[r].rx.isNone then .next (s.frameStart r first) else .next s

/-- LENGTH_LIMIT_END (R24). -/
def execLengthLimitEnd (r : RouteIx) (s : State) : Host.Outcome State Fault Refusal :=
  match s.lanes[r].rx with
  | none => .next s
  | some rx => .next (s.lengthLimit r rx)

/-- FRAME_END (R137). Bytes of a frame that has not started are ignored; a frame of more than 1,532 bytes was ended by the
lane at its 1,533rd (R24). -/
def execFrameEnd (r : RouteIx) (rest : List Byte) (s : State) : Host.Outcome State Fault Refusal :=
  match s.lanes[r].rx with
  | none => .next s
  | some rx =>
    if Config.trunkMax < (rx.first :: rest).length then .next (s.lengthLimit r rx)
    else .next (s.frameJudged r rx (rx.first :: rest))

end Sys2Proof.Machine
end

