-- ==== Sys2Proof/Machine/Directive.lean ====
section
/-! DEFINITION. How a port takes a directive and judges it before its owner does (R166 to R168), and the checks that the
circuit directives of a circuit's own port share (R82). -/

namespace Sys2Proof.Machine

/-- What the judgement of a directive gives: the state after its effect, and its answer's status and results; no answer
joins now for an accepted SAVE_PROFILE or RESTART (R166, R189). -/
abbrev Judged := State × Option (Status × List Byte)

/-- An answer with no results. -/
def State.reply (s : State) (st : Status) : Judged := (s, some (st, []))

/-- A DONE answer with results. -/
def State.results (s : State) (bytes : List Byte) : Judged := (s, some (.done, bytes))

/-- The receiver of a port has found a marker: its run of misses ends (R193). -/
def State.markerSeen (s : State) (p : PortIx) : State := s.modPort p fun x => { x with misses := 0 }

/-- A directive has been taken: the last request number becomes its own, and the count of directives taken rises (R166). -/
def State.noteTaken (s : State) (p : PortIx) (request : Byte) : State :=
  s.modPort p fun x =>
    { x with lastRequest := some request, counts := { x.counts with taken := x.counts.taken + 1 } }

/-- The answer of a directive judged joins the tail of the answer queue (R166), unless none joins now. -/
def State.answerJudged (p : PortIx) (request : Byte) : Judged → State
  | (s, none) => s
  | (s, some (st, results)) => s.answer p { request := request, status := st, results := results }

/-- A DIRECTIVE's last byte at a port (R166): `good` says whether its link CRC is good. Nothing moves while the link is
DOWN. -/
def State.takeDirective (s : State) (p : PortIx) (request : Byte) (good : Bool) (judge : State → Judged) : State :=
  if !s.ports[p].up then s
  else
    let s := s.markerSeen p
    if !good then s.modPort p fun x => { x with counts := { x.counts with badFrames := x.counts.badFrames + 1 } }
    else if Config.answerMax ≤ s.ports[p].answers.length then
      s.modPort p fun x => { x with counts := { x.counts with overflow := x.counts.overflow + 1 } }
    else State.answerJudged p request (judge (s.noteTaken p request))

/-- The link CRC of the DIRECTIVE envelope `d` with directive code `name` is good (R193). -/
def directiveCrcGood (d : Directive) (name : Nat) : Bool :=
  d.crc == crc32 (covered 0xA2 d.status (directiveBody name d))

/-- The arguments of a directive are of their length, and its code-present byte is 0 or 1 (R167 step 3, R193). -/
def directiveFormed (d : Directive) (argLen : Nat) : Bool :=
  decide (d.args.length = argLen) && decide (d.present.toNat ≤ 1)

/-- A directive is answered DENIED, and the port's denied count rises (R168). -/
def State.deny (s : State) (p : PortIx) : Judged :=
  (s.modPort p fun x => { x with counts := { x.counts with denied := x.counts.denied + 1 } }).reply .denied

/-- The common judgement of a directive the terminal knows (R167): STARTING, the form, BUSY when `busy` says it is of those,
the operator code when `operator` says it needs one, and then its owner. -/
def State.judgeDirective (s : State) (d : Directive) (argLen : Nat) (busy operator : Bool) (owner : State → Judged) :
    Judged :=
  if s.profile.load = .loading then s.reply .starting
  else if !directiveFormed d argLen then s.reply .badArg
  else if busy && s.profile.save.isSome then s.reply .busy
  else if operator && !(decide (d.present = 1) && decide (d.code = s.cfg.opCode)) then s.deny d.port
  else owner s

/-- An operator directive with directive code `name` (R168). -/
def State.operatorDirective (s : State) (d : Directive) (name argLen : Nat) (owner : State → Judged) : State :=
  s.takeDirective d.port d.request (directiveCrcGood d name) fun s => s.judgeDirective d argLen true true owner

/-- A directive any port may send without a code (R168). -/
def State.openDirective (s : State) (d : Directive) (name argLen : Nat) (owner : State → Judged) : State :=
  s.takeDirective d.port d.request (directiveCrcGood d name) fun s => s.judgeDirective d argLen false false owner

/-- The checks of R82 from step 3 on, for PAUSE, RESUME (`outOnly`) and CLEAR_COUNTS, and the effect on the circuit. -/
def State.judgeOwned (s : State) (d : Directive) (outOnly : Bool) (effect : Circuit → Circuit) : Judged :=
  if d.present = 1 ∧ d.code ≠ s.cfg.opCode then s.deny d.port
  else
    match index? 64 (field d.args 0 1) with
    | none => s.reply .badArg
    | some n =>
      match s.circuits[n].state, s.circuits[n].closing, s.circuits[n].defn with
      | .closed, _, _ => s.reply .notFound
      | _, some _, _ => s.reply .notFound
      | _, _, none => s.reply .notFound
      | _, none, some defn =>
        if d.present = 0 ∧ d.port ≠ defn.port then s.reply .notOwner
        else
          match outOnly, defn.flow with
          | true, .inn _ => s.reply .badArg
          | _, _ => (s.modCircuit n effect).reply .done

/-- A directive of the second group of R82. -/
def State.ownedDirective (s : State) (d : Directive) (name : Nat) (outOnly : Bool) (effect : Circuit → Circuit) : State :=
  s.takeDirective d.port d.request (directiveCrcGood d name) fun s =>
    s.judgeDirective d 1 outOnly false fun s => s.judgeOwned d outOnly effect

end Sys2Proof.Machine
end

