-- ==== Sys2Proof/Machine/Circuits.lean ====
section
/-! DEFINITION. The directives on circuits: PAUSE, RESUME, CLEAR_COUNTS, OPEN_CIRCUIT and CLOSE_CIRCUIT (05_circuits.md). -/

namespace Sys2Proof.Machine

/-! ### PAUSE, RESUME and CLEAR_COUNTS (R88, R95) -/

/-- PAUSE makes an OPEN circuit PAUSED and leaves a PAUSED one as it is (R88). -/
def Circuit.pause (x : Circuit) : Circuit := { x with state := .paused }

/-- RESUME makes a PAUSED circuit OPEN and leaves an OPEN one as it is (R88). -/
def Circuit.resume (x : Circuit) : Circuit := { x with state := .opened }

/-- CLEAR_COUNTS (R95): of an OUT circuit accepted becomes held, which stays, and the rest 0; of an IN circuit every tally
becomes 0. -/
def Circuit.clearCounts (x : Circuit) : Circuit :=
  match x.defn with
  | some { flow := .out _ _ _, .. } => { x with out := { accepted := x.out.held, held := x.out.held } }
  | some { flow := .inn _, .. } => { x with inn := {} }
  | none => x

/-- PAUSE (R88). -/
def execPause (d : Directive) (s : State) : Host.Outcome State Fault Refusal :=
  .next (s.ownedDirective d 4 true Circuit.pause)

/-- RESUME (R88). -/
def execResume (d : Directive) (s : State) : Host.Outcome State Fault Refusal :=
  .next (s.ownedDirective d 5 true Circuit.resume)

/-- CLEAR_COUNTS (R95). -/
def execClearCounts (d : Directive) (s : State) : Host.Outcome State Fault Refusal :=
  .next (s.ownedDirective d 6 false Circuit.clearCounts)

/-! ### OPEN_CIRCUIT (R83, R84) -/

/-- The circuit is not CLOSED, is OUT, and leads to this peer's far circuit. -/
def Circuit.feeds (x : Circuit) (peer : PeerIx) (far : CircIx) : Bool :=
  x.state != .closed &&
  match x.defn with
  | some { peer := p, flow := .out f _ _, .. } => decide (p = peer) && decide (f = far)
  | _ => false

/-- Another circuit that is not CLOSED is OUT with the same peer and far circuit (R83). -/
def State.farTaken (s : State) (n : CircIx) (defn : CircuitDef) : Bool :=
  match defn.flow with
  | .out far _ _ => (List.finRange 64).any fun c => decide (c ≠ n) && s.circuits[c].feeds defn.peer far
  | .inn _ => false

/-- A record as OPEN_CIRCUIT sets it (R84). -/
def Circuit.fresh (defn : CircuitDef) : Circuit :=
  { state := .opened, closing := none, defn := some defn, nextSeq := 0, window := Window.invalid, out := {}, inn := {} }

/-- The owner's part of OPEN_CIRCUIT, in the order of R83. -/
def State.ownOpenCircuit (d : Directive) (s : State) : Judged :=
  match index? 64 (field d.args 0 1) with
  | none => s.reply .badArg
  | some n =>
    if s.circuits[n].state ≠ .closed ∨ s.circuits[n].closing.isSome = true then s.reply .inUse
    else
      match circuitArgs? n (d.args.drop 1) with
      | none => s.reply .badArg
      | some defn =>
        if s.farTaken n defn then s.reply .badArg else (s.modCircuit n fun _ => Circuit.fresh defn).reply .done

/-- OPEN_CIRCUIT (R83). -/
def execOpenCircuit (d : Directive) (s : State) : Host.Outcome State Fault Refusal :=
  .next (s.operatorDirective d 15 10 (State.ownOpenCircuit d))

/-! ### CLOSE_CIRCUIT (R85 to R87) -/

/-- One waiting copy, already out of the queue of route `r`, flushed (steps 1 and 2 of R85). -/
def State.flushCopy (s : State) (r : RouteIx) (c : Copy) : State := (s.countDiscard r c .flushed).release c.slot

/-- A circuit's waiting copies removed from the queue of route `r` (steps 1 and 2 of R85). -/
def State.flushRoute (s : State) (n : CircIx) (r : RouteIx) : State :=
  (s.tx[r].queue.filter fun c => decide (c.circuit = n)).foldl (fun s c => s.flushCopy r c)
    (s.modTx r fun t => { t with queue := t.queue.filter fun c => decide (c.circuit ≠ n) })

/-- The circuit's copies that are lanes' current frames (step 3 of R85). -/
def State.currentCopies (s : State) (n : CircIx) : Nat :=
  (List.finRange 16).countP fun r =>
    match s.tx[r].current with
    | some { copy := some c, .. } => decide (c.circuit = n)
    | _ => false

/-- The record of an OUT circuit closed while this many of its copies are current frames (step 3 of R85). -/
def Circuit.close (x : Circuit) (current : Nat) : Circuit :=
  if current = 0 then { x with state := .closed } else { x with closing := some current }

/-- An OUT circuit closed (R85). -/
def State.closeOut (s : State) (n : CircIx) : State :=
  let s := s.forRoutes fun r s => s.flushRoute n r
  s.modCircuit n fun x => x.close (s.currentCopies n)

/-- The delivery queue of a port in two: the frame whose DELIVER is under way, if one is, and the frames behind it. -/
def Port.splitDelivery (p : Port) : List DeliveryEntry × List DeliveryEntry :=
  match p.outbound with
  | some { kind := .deliver, cut := false, .. } => (p.delivery.take 1, p.delivery.drop 1)
  | _ => ([], p.delivery)

/-- One frame, already out of its delivery queue, withdrawn (step 1 of R87). -/
def State.withdrawEntry (s : State) (n : CircIx) (port : PortIx) (e : DeliveryEntry) : State :=
  ((s.release e.slot).modCircuit n fun x => { x with inn := { x.inn with withdrawn := x.inn.withdrawn + 1 } }).raiseAt port
    (.circuitDiscard n .withdrawn e.seq)

/-- An IN circuit closed (R87). The frames withdrawn raise their notices from the head of the queue to its tail (DESIGN
CHOICE, log entry 24). -/
def State.closeIn (s : State) (n : CircIx) (port : PortIx) : State :=
  let parts := s.ports[port].splitDelivery
  let gone := parts.2.filter fun e => decide (e.circuit = n)
  let kept := parts.1 ++ parts.2.filter fun e => decide (e.circuit ≠ n)
  let s := gone.foldl (fun s e => s.withdrawEntry n port e) (s.modPort port fun p => { p with delivery := kept })
  s.modCircuit n fun x => { x with state := .closed, window := Window.invalid }

/-- The owner's part of CLOSE_CIRCUIT (R85, R87). -/
def State.ownCloseCircuit (d : Directive) (s : State) : Judged :=
  match index? 64 (field d.args 0 1) with
  | none => s.reply .badArg
  | some n =>
    if s.circuits[n].closing.isSome then s.reply .done
    else
      match s.circuits[n].state, s.circuits[n].defn with
      | .closed, _ => s.reply .notFound
      | _, none => s.reply .notFound
      | _, some { flow := .out _ _ _, .. } => (s.closeOut n).reply .done
      | _, some { port := port, flow := .inn _, .. } => (s.closeIn n port).reply .done

/-- CLOSE_CIRCUIT (R85). -/
def execCloseCircuit (d : Directive) (s : State) : Host.Outcome State Fault Refusal :=
  .next (s.operatorDirective d 16 1 (State.ownCloseCircuit d))

end Sys2Proof.Machine
end

