-- ==== Sys2Proof/Machine/Lanes.lean ====
section
/-! DEFINITION. The commands of the lane unit: LOS, lane reports, silence and SET_LANE (02_lanes_and_modem_reports.md). -/

namespace Sys2Proof.Machine

/-! ### LOS (R25, R26) -/

/-- LOS asserted on a RADIO or FIBER lane: steps 2 to 5 of R25. -/
def State.losEffects (s : State) (r : RouteIx) : State :=
  (((s.abandonRx r).abandonCurrent r).modLane r fun l => { l with ring := [], trend := .steady }).evaluate r

/-- LOS becomes asserted (R25). A line already asserted changes no level (log entry 4). -/
def State.losAssert (s : State) (r : RouteIx) : State :=
  if s.lanes[r].los then s
  else
    let s := s.modLane r fun l => { l with los := true, counts := { l.counts with los := l.counts.los + 1 } }
    if s.cfg.lanes[r].type = .unused then s else s.losEffects r

/-- LOS is released (R26). -/
def State.losRelease (s : State) (r : RouteIx) : State :=
  if s.lanes[r].los then
    let s := s.modLane r fun l => { l with los := false }
    if s.cfg.lanes[r].type = .unused then s else s.evaluate r
  else s

/-- LOS_ASSERT (R25). -/
def execLosAssert (r : RouteIx) (s : State) : Host.Outcome State Fault Refusal := .next (s.losAssert r)

/-- LOS_RELEASE (R26). -/
def execLosRelease (r : RouteIx) (s : State) : Host.Outcome State Fault Refusal := .next (s.losRelease r)

/-! ### Lane reports (R28 to R30, R197) -/

/-- A record passes its integrity check and is a lane report (R28, R197). -/
def recordSound (bs : List Byte) : Bool :=
  decide (bs.length = 11) && decide (field bs 7 4 = (crc32 (bs.take 7)).toNat) && decide (field bs 0 1 = 1)

/-- The clamped report of a sound record (R28, R197). -/
def clampReport (bs : List Byte) : Report :=
  { rsl := max (-1000) (min 0 (signedField bs 1 2))
    step := min 7 (field bs 3 1)
    quality := min 500 (field bs 4 2)
    fault := (bs.getD 6 0).getLsbD 0
    temp := (bs.getD 6 0).getLsbD 1
    mute := (bs.getD 6 0).getLsbD 2 }

/-- A field of a sound record was clamped (R28). -/
def wasClamped (bs : List Byte) : Bool :=
  decide ((clampReport bs).rsl ≠ signedField bs 1 2) || decide ((clampReport bs).step ≠ field bs 3 1) ||
  decide ((clampReport bs).quality ≠ field bs 4 2)

/-- An RSL pushed into the ring, the oldest overwritten when it holds eight (R28). -/
def pushRsl (ring : List Int) (rsl : Int) : List Int :=
  (if ring.length < Config.rslMax then ring else ring.drop 1) ++ [rsl]

/-- The trend of a ring (R30). -/
def trendOf (slope : Nat) (ring : List Int) : Trend :=
  if ring.length < Config.rslMax then .steady
  else
    let oldest := ring.headD 0
    let newest := ring.getLastD 0
    if (slope : Int) ≤ oldest - newest then .falling
    else if (slope : Int) ≤ newest - oldest then .rising else .steady

/-- Steps 2 and 3 of taking a report, with its counts: the latest report is replaced, the silence timer restarts and SILENT
ends (R28). -/
def Lane.takeReport (l : Lane) (now : Ticks) (bs : List Byte) : Lane :=
  { l with
    latest := some (clampReport bs)
    timer := some now
    silent := false
    counts := { l.counts with
      reports := l.counts.reports + 1
      clamped := if wasClamped bs then l.counts.clamped + 1 else l.counts.clamped } }

/-- A trend taken; a move into FALLING or RISING from any other trend raises RSL_TREND (R30). -/
def State.enterTrend (s : State) (r : RouteIx) (old new : Trend) : State :=
  if new = old ∨ new = .steady then s else s.raiseAll (.rslTrend r new)

/-- Step 4 of taking a report: the RSL enters the ring and the trend is evaluated, unless LOS is asserted (R28, R30). -/
def State.pushReport (s : State) (r : RouteIx) (rsl : Int) : State :=
  if s.lanes[r].los then s
  else
    let old := s.lanes[r].trend
    let ring := pushRsl s.lanes[r].ring rsl
    let new := trendOf s.cfg.health.slope ring
    (s.modLane r fun l => { l with ring := ring, trend := new }).enterTrend r old new

/-- A lane report record (R28, R29). -/
def State.laneReport (s : State) (r : RouteIx) (bs : List Byte) : State :=
  if !recordSound bs then s.modLane r fun l => { l with counts := { l.counts with bad := l.counts.bad + 1 } }
  else if s.cfg.lanes[r].type ≠ .radio then
    s.modLane r fun l => { l with counts := { l.counts with ignored := l.counts.ignored + 1 } }
  else
    ((s.modLane r fun l => l.takeReport s.time.et bs).pushReport r (clampReport bs).rsl).evaluate r

/-- LANE_REPORT (R28). -/
def execLaneReport (r : RouteIx) (record : List Byte) (s : State) : Host.Outcome State Fault Refusal :=
  .next (s.laneReport r record)

/-- SILENCE_EXPIRY (R31). -/
def execSilenceExpiry (r : RouteIx) (s : State) : Host.Outcome State Fault Refusal := .next (s.judgeSilence r)

/-! ### SET_LANE (R33, R34) -/

/-- Steps 3 and 4 of a change of lane type (R34). -/
def Lane.clearReport (l : Lane) (ty : LaneType) (now : Ticks) : Lane :=
  { l with
    latest := none, ring := [], trend := .steady, silent := false
    timer := match ty with
      | .radio => some now
      | .fiber => none
      | .unused => none }

/-- A route goes to PROVING when none of the conditions of R60 holds. -/
def State.returnRoute (s : State) (r : RouteIx) : State :=
  if s.permitted r && s.health[r].state == .disabled then s.moveRoute r [.proving] else s

/-- An accepted SET_LANE (R34). -/
def State.applyLane (s : State) (r : RouteIx) (x : LaneSettings) : State :=
  let old := s.cfg.lanes[r].type
  let s := s.setCfg (s.cfg.withLane r x)
  if x.type = old then s.judgeSilence r
  else
    let s := s.disableRoute r
    let s := (s.abandonRx r).abandonCurrent r
    let s := s.modLane r fun l => l.clearReport x.type s.time.et
    s.returnRoute r

/-- The owner's part of SET_LANE (R33, R34). -/
def State.ownSetLane (d : Directive) (s : State) : Judged :=
  match index? 16 (field d.args 0 1), laneArgs? (d.args.drop 1) with
  | some r, some x => (s.applyLane r x).reply .done
  | _, _ => s.reply .badArg

/-- SET_LANE (R33). -/
def execSetLane (d : Directive) (s : State) : Host.Outcome State Fault Refusal :=
  .next (s.operatorDirective d 10 7 (State.ownSetLane d))

end Sys2Proof.Machine
end

