-- ==== Sys2Proof/Machine/Receiver.lean ====
section
/-! DEFINITION. The receiver of a tenant link (R193): it tracks the boundaries of the units in the bytes that arrive, and says
which commands of the table they make; and how the bytes and commands still to come from outside are taken when no command
waits (log entry 11). -/

namespace Sys2Proof.Machine

/-- The six markers. -/
def isMarker (b : Byte) : Bool := [0x5A, 0xA1, 0xA2, 0xA3, 0xA4, 0xA5].contains b.toNat

/-- The bytes of a unit are all of it: two of a fill word, and of an envelope its head, its body and its CRC. -/
def unitWhole (u : List Byte) : Bool :=
  if field u 0 1 = 0x5A then decide (2 ≤ u.length)
  else decide (Config.envelopeHead ≤ u.length) && decide (field u 2 2 + 8 ≤ u.length)

/-- The command of a directive that the terminal knows, by its directive code. -/
def directiveCommand (d : Directive) : (code : Nat) → Option Instr
  | 1 => some (.readTime d)
  | 2 => some (.readTable d)
  | 3 => some (.watch d)
  | 4 => some (.pause d)
  | 5 => some (.resume d)
  | 6 => some (.clearCounts d)
  | 7 => some (.setIdentity d)
  | 8 => some (.setPeer d)
  | 9 => some (.setRoute d)
  | 10 => some (.setLane d)
  | 11 => some (.setHealth d)
  | 12 => some (.setProbe d)
  | 13 => some (.setTime d)
  | 14 => some (.setCalendar d)
  | 15 => some (.openCircuit d)
  | 16 => some (.closeCircuit d)
  | 17 => some (.forceRoute d)
  | 18 => some (.releaseRoute d)
  | 19 => some (.testRoute d)
  | 20 => some (.saveProfile d)
  | 21 => some (.restart d)
  | _ => none

/-- The command of a DIRECTIVE envelope with this status byte, body and CRC field; a body that names no directive makes
UNKNOWN_DIRECTIVE. -/
def directiveUnit (p : PortIx) (status : Byte) (body : List Byte) (crc : BitVec 32) : Instr :=
  let d : Directive :=
    { port := p, status := status, request := body.getD 1 0, present := body.getD 2 0
      code := BitVec.ofNat 16 (field body 3 2), args := body.drop 5, crc := crc }
  (directiveCommand d (directiveNamed body).toNat).getD (.unknownDirective p status body crc)

/-- The commands that the last byte of a unit makes; `fills` counts the fill words in a row, this one among them. -/
def unitCommands (p : PortIx) (up : Bool) (fills : Nat) (u : List Byte) : List Instr :=
  let body := (u.drop Config.envelopeHead).take (field u 2 2)
  let crc := BitVec.ofNat 32 (field u (Config.envelopeHead + field u 2 2) 4)
  match field u 0 1 with
  | 0x5A => if !up && decide (Config.fillRun ≤ fills) then [.linkUp p] else []
  | 0xA1 => [.sendEnd p (u.getD 1 0) body crc]
  | 0xA2 => [directiveUnit p (u.getD 1 0) body crc]
  | _ => [.badInboundEnvelope p]

/-- One byte received on the link of port `p`, which is UP or not, at `now`: a byte at a boundary that is no marker is a miss
and ends the run of fill words, as an envelope does; the run is counted while the link is DOWN alone; the marker of a SEND is
its first byte. -/
def Receiver.take (x : Receiver) (p : PortIx) (up : Bool) (now : Ticks) (b : Byte) : Receiver × List Instr :=
  let u := x.unit ++ [b]
  if x.unit.isEmpty && !isMarker b then
    ({ unit := [], fills := 0, hunting := true, lastByte := some now }, [.miss p !x.hunting])
  else if unitWhole u then
    let fills := if !up && decide (field u 0 1 = 0x5A) then x.fills + 1 else 0
    ({ unit := [], fills := fills, hunting := false, lastByte := some now }, unitCommands p up fills u)
  else
    ({ x with unit := u, hunting := false, lastByte := some now },
      if x.unit.isEmpty && b.toNat == 0xA1 then [.sendStart p] else [])

/-- The bytes `bs` received one after another, the link staying as it is. -/
def Receiver.takeAll (x : Receiver) (p : PortIx) (up : Bool) (now : Ticks) : List Byte → Receiver × List Instr
  | [] => (x, [])
  | b :: bs =>
    let one := x.take p up now b
    let rest := one.1.takeAll p up now bs
    (rest.1, one.2 ++ rest.2)

/-- The run that brings the link UP is complete. Of a link no byte of which has come as a byte, the command LINK_UP is itself
the word that it is (log entry 11). -/
def Receiver.rises (x : Receiver) : Bool := x.lastByte.isNone || decide (Config.fillRun ≤ x.fills)

/-- 100 µs have passed with no byte received. Of a link no byte of which has come as a byte, the command LINK_DOWN is itself
the word that they have (log entry 11). -/
def Receiver.falls (x : Receiver) (now : Ticks) : Bool :=
  x.lastByte.all fun t => decide (Config.silenceTicks ≤ ticksSince now t)

/-- The link has gone DOWN: the unit being read is discarded with it (R162), and a run of fill words begins anew (R193). -/
def Receiver.restart (x : Receiver) : Receiver := Receiver.fresh x.lastByte

/-- Cold reset: ET is 0, and the next byte stands at a boundary (log entry 1). -/
def Receiver.coldReset (x : Receiver) : Receiver := Receiver.fresh (x.lastByte.map fun _ => 0)

/-- The command that the silence of a link that is UP makes (R193). -/
def Port.silence (x : Port) (p : PortIx) (now : Ticks) : List Instr :=
  if x.up && x.receiver.lastByte.isSome && x.receiver.falls now then [.linkDown p] else []

/-! ### What is taken when no command waits (log entry 11) -/

/-- The links that silence takes DOWN now, in port order. -/
def State.silences (s : State) : List Instr := (List.finRange 6).flatMap fun p => s.ports[p].silence p s.time.et

/-- A byte on the link of port `p`: its receiver takes it, and the commands it makes join the queue (R193). -/
def State.receive (s : State) (p : PortIx) (b : Byte) : State :=
  let x := s.ports[p].receiver.take p s.ports[p].up s.time.et b
  { s.modPort p fun y => { y with receiver := x.1 } with pending := s.pending ++ x.2 }

/-- No command waits: silence is judged, then the next that comes from outside is taken; when nothing comes, the terminal
idles. -/
def State.takeIn (s : State) : State :=
  match s.silences with
  | c :: cs => { s with pending := c :: cs }
  | [] =>
    match s.arriving with
    | [] => s
    | .command c :: rest => { s with arriving := rest, pending := [c] }
    | .byte p b :: rest => { s with arriving := rest }.receive p b

end Sys2Proof.Machine
end

