-- ==== Sys2Proof/Machine/Ports.lean ====
section
/-! DEFINITION. The tenant port unit: SENDs, the outbound turn, the link, WATCH, SET_IDENTITY and directives the terminal
does not know (09_frame_memory.md, 10_tenant_ports_directives_and_notices.md). -/

namespace Sys2Proof.Machine

/-- The counts of a port changed. -/
def State.countPort (s : State) (p : PortIx) (f : PortCounts → PortCounts) : State :=
  s.modPort p fun x => { x with counts := f x.counts }

/-! ### SEND_START (R156) -/

/-- A SEND discarded NO_BUFFER at its first byte (R156). -/
def State.sendNoBuffer (s : State) (p : PortIx) : State :=
  let s := s.modPort p fun x => { x with inbound := .ignored, counts := { x.counts with noBuffer := x.counts.noBuffer + 1 } }
  let s := s.setPool { s.pool with sendNoBuffer := s.pool.sendNoBuffer + 1 }
  s.raiseAt p (.holdIgnored s.pool.free)

/-- The record of a SEND in its slot at its first byte (R4, R154). -/
def State.sendFrame (s : State) (p : PortIx) : Frame :=
  { source := .send p, stamp := s.time.tt, et := s.time.et, bytes := [], refs := 1, started := false }

/-- A SEND taken under HOLD is counted (R156). -/
def Pool.countUnderHold (p : Pool) : Pool := if p.hold then { p with underHold := p.underHold + 1 } else p

/-- The first byte of a SEND judged by frame memory (R156). -/
def State.sendStart (s : State) (p : PortIx) : State :=
  if s.pool.hold && decide (s.pool.free ≤ Config.holdBelow) then s.sendNoBuffer p
  else
    match s.pool.countUnderHold.take (s.sendFrame p) with
    | none => s.sendNoBuffer p
    | some (k, pool) => (s.setPool pool).modPort p fun x => { x with inbound := .slot k }

/-- SEND_START (R156). Nothing is received on a link that is DOWN, nor while a SEND is being received (log entry 4). -/
def execSendStart (p : PortIx) (s : State) : Host.Outcome State Fault Refusal :=
  if s.ports[p].up && s.ports[p].inbound == .idle then .next ((s.markerSeen p).sendStart p) else .next s

/-! ### SEND_END (R164, R165) -/

/-- The count of a refusal reason (R165). -/
def PortCounts.refuse (c : PortCounts) (reason : RefusalReason) : PortCounts :=
  let c := { c with refused := c.refused + 1 }
  match reason with
  | .notOpen => { c with notOpen := c.notOpen + 1 }
  | .notOwner => { c with notOwner := c.notOwner + 1 }
  | .paused => { c with paused := c.paused + 1 }
  | .tooLong => { c with tooLong := c.tooLong + 1 }
  | .noRoute => { c with noRoute := c.noRoute + 1 }
  | .notReady => { c with notReady := c.notReady + 1 }

/-- A SEND in slot `k` refused (R165). -/
def State.refuseSend (s : State) (p : PortIx) (k : Nat) (body : List Byte) (reason : RefusalReason) : State :=
  ((s.release k).countPort p fun c => c.refuse reason).raiseAt p
    (.sendRefused (body.getD 0 0) reason (BitVec.ofNat 32 (field body 1 4)))

/-- The payload length of a SEND body (R193). -/
def sendLength (body : List Byte) : Nat := body.length - 5

/-- The circuit a SEND names: its number, peer and class, or the reason it is refused for (R89). -/
def State.sendCircuit (s : State) (p : PortIx) (number : Nat) : Except RefusalReason (CircIx × PeerIx × TrafficClass) :=
  match index? 64 number with
  | none => .error .notOpen
  | some n =>
    match s.circuits[n].state, s.circuits[n].closing, s.circuits[n].defn with
    | .closed, _, _ => .error .notOpen
    | _, some _, _ => .error .notOpen
    | _, none, none => .error .notOpen
    | _, none, some { flow := .inn _, .. } => .error .notOpen
    | state, none, some { port := port, peer := peer, flow := .out _ cls _ } =>
      if port ≠ p then .error .notOwner
      else if state = .paused then .error .paused
      else .ok (n, peer, cls)

/-- The age origin of the frame in slot `k`. -/
def State.frameEt (s : State) (k : Nat) : Ticks :=
  match s.pool.frame k with
  | some f => f.et
  | none => s.time.et

/-- The checks of R164 from the load state on, on a SEND in slot `k` whose link CRC is good. -/
def State.judgeSend (s : State) (p : PortIx) (k : Nat) (body : List Byte) : State :=
  if s.profile.load = .loading then s.refuseSend p k body .notReady
  else if sendLength body = 0 ∨ Config.payloadMax < sendLength body then s.refuseSend p k body .tooLong
  else
    match s.sendCircuit p (body.getD 0 0).toNat with
    | .error reason => s.refuseSend p k body reason
    | .ok (n, peer, cls) =>
      match s.place n p peer cls k (sendLength body) (s.frameEt k) with
      | some s' => s'.countPort p fun c => { c with accepted := c.accepted + 1 }
      | none => (s.countNoRoute peer).refuseSend p k body .noRoute

/-- The last byte of a SEND that took slot `k` (R164): the slot stores its first 2,048 bytes (R154). -/
def State.sendEnd (s : State) (p : PortIx) (k : Nat) (status : Byte) (body : List Byte) (crc : BitVec 32) : State :=
  let s := s.modPort p fun x => { x with inbound := .idle }
  if crc ≠ crc32 (covered 0xA1 status body) then
    (s.release k).countPort p fun c => { c with badFrames := c.badFrames + 1 }
  else
    let stored := (covered 0xA1 status body ++ bytesOf 4 crc.toNat).take Config.slotBytes
    (s.updateFrame k fun f => { f with bytes := stored }).judgeSend p k body

/-- SEND_END (R164). A SEND discarded NO_BUFFER ends with no check (R156). -/
def execSendEnd (p : PortIx) (status : Byte) (body : List Byte) (crc : BitVec 32) (s : State) :
    Host.Outcome State Fault Refusal :=
  match s.ports[p].inbound with
  | .idle => .next s
  | .ignored => .next (s.modPort p fun x => { x with inbound := .idle })
  | .slot k => .next (s.sendEnd p k status body crc)

/-! ### The outbound turn (R150, R174 to R176) -/

/-- The status byte of an outbound unit (R193). -/
def State.statusByte (s : State) : Byte := BitVec.ofNat 8 (boolCode s.pool.hold)

/-- The unit that leaves on a tenant link, UP or DOWN: the envelope under way, or a fill word when there is none (R193). -/
def State.linkUnit (s : State) (p : PortIx) : List Byte :=
  match s.ports[p].outbound with
  | some o => o.bytes
  | none => fillWord s.statusByte

/-- The body of a NOTICE of the kind at position `k` (R194). -/
def noticeBody (k : Fin 8) (count : Nat) (latest : Option Notice) : List Byte :=
  bytesOf 1 (k.val + 1) ++ bytesOf 1 count ++ bytesOf 2 ((latest.bind Notice.subject).getD 0xFFFF) ++
    ((latest.map Notice.detail).getD (bytesOf 8 0))

/-- A NOTICE starts and clears its record (R175). -/
def State.sendNotice (s : State) (p : PortIx) (k : Fin 8) : State :=
  let rec_ := s.ports[p].records[k]
  let bytes := envelope 0xA5 s.statusByte (noticeBody k rec_.count rec_.latest)
  s.modPort p fun x =>
    { x with outbound := some { kind := .notice, bytes := bytes, cut := false }
             records := x.records.set k PendingRecord.clear }

/-- The ANSWER at the head of the answer queue starts (R176, R193). -/
def State.sendAnswer (s : State) (p : PortIx) (a : Answer) (rest : List Answer) : State :=
  let bytes := envelope 0xA4 s.statusByte ([a.request] ++ bytesOf 1 a.status.code ++ a.results)
  s.modPort p fun x => { x with outbound := some { kind := .answer, bytes := bytes, cut := false }, answers := rest }

/-- The body of the DELIVER of a frame in a slot (R150, R193). -/
def deliverBody (e : DeliveryEntry) (f : Frame) : List Byte :=
  bytesOf 1 e.circuit.val ++ bytesOf 2 e.seq.toNat ++
    bytesOf 1 (match f.source with | .cargo r => r.val | .send p => p.val) ++
    bytesOf 4 f.tag ++ bytesOf 8 f.ingress ++ bytesOf 8 (field f.bytes 20 8) ++ bytesOf 8 f.stamp.toNat ++
    f.payload (field f.bytes 6 2)

/-- The DELIVER of the head of the delivery queue starts: its delivery stamp is recorded (R150). -/
def State.sendDeliver (s : State) (p : PortIx) (e : DeliveryEntry) : State :=
  let body := match s.pool.frame e.slot with
    | some f => deliverBody e f
    | none => []
  let bytes := envelope 0xA3 s.statusByte body
  s.modPort p fun x =>
    { x with outbound := some { kind := .deliver, bytes := bytes, cut := false }
             lastDelivery := some { circuit := e.circuit, seq := e.seq, stamp := s.time.tt } }

/-- The pending record of highest priority among the kinds at positions `ks`. -/
def Port.pendingKind (p : Port) (ks : List (Fin 8)) : Option (Fin 8) := ks.find? fun k => decide (0 < p.records[k].count)

/-- The kinds whose notices are urgent (R173). -/
def urgentKinds : List (Fin 8) := [0, 1]

/-- The kinds whose notices are not urgent (R173). -/
def otherKinds : List (Fin 8) := [2, 3, 4, 5, 6, 7]

/-- The last two rows of the order of R174. -/
def State.turnRest (s : State) (p : PortIx) : State :=
  match s.ports[p].delivery with
  | e :: _ => s.sendDeliver p e
  | [] =>
    match s.ports[p].pendingKind otherKinds with
    | some k => s.sendNotice p k
    | none => s

/-- An outbound turn on an idle link (R174). -/
def State.turn (s : State) (p : PortIx) : State :=
  match s.ports[p].pendingKind urgentKinds with
  | some k => s.sendNotice p k
  | none =>
    match s.ports[p].answers with
    | a :: rest => s.sendAnswer p a rest
    | [] => s.turnRest p

/-- The head of a delivery queue leaves it and releases its slot (R150). -/
def State.deliverEnd (s : State) (p : PortIx) : State :=
  match s.ports[p].delivery with
  | [] => s
  | e :: rest => (s.modPort p fun x => { x with delivery := rest }).release e.slot

/-- The last byte of the outbound frame: a DELIVER that RESTART has not cut leaves its queue, and the link falls idle. -/
def State.outboundEnd (s : State) (p : PortIx) (o : Outbound) : State :=
  let s := s.modPort p fun x => { x with outbound := none }
  match o.kind, o.cut with
  | .deliver, false => s.deliverEnd p
  | _, _ => s

/-- OUTBOUND_TURN (R174): made on an idle link that is UP. -/
def execOutboundTurn (p : PortIx) (s : State) : Host.Outcome State Fault Refusal :=
  if s.ports[p].up && s.ports[p].outbound.isNone then .next (s.turn p) else .next s

/-- OUTBOUND_FRAME_END (R150, R174): the frame ends, and the turn at its last byte follows. -/
def execOutboundFrameEnd (p : PortIx) (s : State) : Host.Outcome State Fault Refusal :=
  match s.ports[p].outbound with
  | none => .next s
  | some o => .next ((s.outboundEnd p o).turn p)

/-! ### The link (R162, R163, R193) -/

/-- Step 1 of R162: a SEND being received releases its slot. -/
def State.dropInbound (s : State) (p : PortIx) : State :=
  match s.ports[p].inbound with
  | .slot k => s.release k
  | _ => s

/-- A delivery queue emptied, each removal releasing its slot (R151, R153). -/
def State.emptyDelivery (s : State) (p : PortIx) : State :=
  s.ports[p].delivery.foldl (fun s e => s.release e.slot) (s.modPort p fun x => { x with delivery := [] })

/-- What a port is left with when its link goes DOWN, `flushed` frames having left its delivery queue (R151, R162). -/
def Port.fallen (x : Port) (flushed : Nat) : Port :=
  { x with
    up := false
    misses := 0
    receiver := x.receiver.restart
    inbound := .idle
    answers := []
    saveOwed := none
    records := Vector.replicate 8 PendingRecord.clear
    outbound := none
    counts := { x.counts with
      linkFlush := x.counts.linkFlush + BitVec.ofNat 32 flushed
      linkDown := x.counts.linkDown + 1 } }

/-- Step 7 of R162: the RESTART answer owed to this port becomes absent. -/
def Profile.disown (x : Profile) (p : PortIx) : Profile :=
  match x.restartOwed with
  | some (q, _) => if q = p then { x with restartOwed := none } else x
  | none => x

/-- A port's link goes DOWN (R162). -/
def State.linkDown (s : State) (p : PortIx) : State :=
  let flushed := s.ports[p].delivery.length
  let s := (s.dropInbound p).emptyDelivery p
  (s.modPort p fun x => x.fallen flushed).setProfile (s.profile.disown p)

/-- LINK_DOWN (R162): the command that the silence of R193 makes. A link already DOWN, or not silent for 100 µs, has no change
of state (log entries 4 and 11). -/
def execLinkDown (p : PortIx) (s : State) : Host.Outcome State Fault Refusal :=
  if s.ports[p].up && s.ports[p].receiver.falls s.time.et then .next (s.linkDown p) else .next s

/-- A port's link comes UP (R163). -/
def Port.rise (x : Port) : Port :=
  { x with
    up := true
    misses := 0
    receiver := { x.receiver with fills := 0 }
    watch := 0xFF
    counts := { x.counts with linkUp := x.counts.linkUp + 1 } }

/-- LINK_UP (R163): the command that the receiver makes at the sixteenth fill word in a row (R193, Receiver.take). A link
already UP, or whose run is not complete, has no change of state (log entries 4 and 11). -/
def execLinkUp (p : PortIx) (s : State) : Host.Outcome State Fault Refusal :=
  if !s.ports[p].up && s.ports[p].receiver.rises then .next (s.modPort p Port.rise) else .next s

/-- BAD_INBOUND_ENVELOPE: an inbound envelope with an outbound marker is discarded (R193). -/
def execBadInboundEnvelope (p : PortIx) (s : State) : Host.Outcome State Fault Refusal :=
  if s.ports[p].up then
    .next ((s.markerSeen p).countPort p fun c => { c with badFrames := c.badFrames + 1 })
  else .next s

/-- A miss on a link that is UP; the eighth in a row takes it DOWN (R193). -/
def State.miss (s : State) (p : PortIx) (first : Bool) : State :=
  let n := if first then 1 else s.ports[p].misses + 1
  if Config.missMax ≤ n then s.linkDown p else s.modPort p fun x => { x with misses := n }

/-- MISS (R193): `first` says that a marker was found since the port's last miss. -/
def execMiss (p : PortIx) (first : Bool) (s : State) : Host.Outcome State Fault Refusal :=
  if s.ports[p].up then .next (s.miss p first) else .next s

/-! ### Directives of the port unit (R167, R169, R172) -/

/-- An unknown directive judged: STARTING during LOADING, else UNKNOWN (R167). -/
def State.judgeUnknown (s : State) : Judged :=
  if s.profile.load = .loading then s.reply .starting else s.reply .unknown

/-- UNKNOWN_DIRECTIVE (R167); bodies of fewer than 5 bytes name directive 0, and a missing request number is read as 0
(R193). A body that names a directive is another command's. -/
def execUnknownDirective (p : PortIx) (status : Byte) (body : List Byte) (crc : BitVec 32) (s : State) :
    Host.Outcome State Fault Refusal :=
  if knownDirective (directiveNamed body) then .refused .illFormed
  else
    .next (s.takeDirective p (body.getD 1 0) (crc == crc32 (covered 0xA2 status body)) State.judgeUnknown)

/-- A watch set replaced: the record of each kind that leaves it is cleared (R172). -/
def Port.rewatch (x : Port) (new : BitVec 8) : Port :=
  { x with
    watch := new
    records := Vector.ofFn fun k : Fin 8 =>
      if x.watch.getLsbD k.val && new.getLsbD k.val then x.records[k] else PendingRecord.clear }

/-- The port unit's part of WATCH (R172). -/
def State.ownWatch (d : Directive) (s : State) : Judged :=
  match watchArgs? d.args with
  | none => s.reply .badArg
  | some new => (s.modPort d.port fun x => x.rewatch new).results (bytesOf 2 new.toNat)

/-- WATCH (R172). -/
def execWatch (d : Directive) (s : State) : Host.Outcome State Fault Refusal :=
  .next (s.openDirective d 3 2 (State.ownWatch d))

/-- The terminal id is that of a peer that is enabled (R169). -/
def Settings.peerHasId (c : Settings) (id : Byte) : Bool :=
  (List.finRange 4).any fun q => c.peers[q].enabled && c.peers[q].termId == id

/-- The port unit's part of SET_IDENTITY (R169). -/
def State.ownSetIdentity (d : Directive) (s : State) : Judged :=
  let id := d.args.getD 0 0
  if s.cfg.peerHasId id then s.reply .badArg
  else (s.setCfg { s.cfg with termId := id, opCode := BitVec.ofNat 16 (field d.args 1 2) }).reply .done

/-- SET_IDENTITY (R169). -/
def execSetIdentity (d : Directive) (s : State) : Host.Outcome State Fault Refusal :=
  .next (s.operatorDirective d 7 3 (State.ownSetIdentity d))

end Sys2Proof.Machine
end

