-- ==== Sys2Proof/Machine/Image.lean ====
section
/-! DEFINITION. The profile image: how a SAVE writes it, and how a load judges it (R180, R181, R184, R198). -/

namespace Sys2Proof.Machine

/-! ### What a SAVE programs (R180, R186, R198) -/

/-- A section: its tag, its record count and its records (R198). -/
def sectionBytes (tag : Nat) (records : List (List Byte)) : List Byte :=
  bytesOf 1 tag ++ bytesOf 1 records.length ++ records.flatten

/-- SET_IDENTITY's arguments. -/
def identityRecord (c : Settings) : List Byte := [c.termId] ++ bytesOf 2 c.opCode.toNat

def peerRecord (p : PeerSettings) : List Byte := bytesOf 1 (boolCode p.enabled) ++ [p.termId]

def laneRecord (l : LaneSettings) : List Byte :=
  bytesOf 1 l.type.code ++ bytesOf 2 l.txc ++ bytesOf 2 l.rxc ++ bytesOf 1 l.interval

def routeRecord (r : RouteSettings) : List Byte := bytesOf 1 (boolCode r.enable) ++ bytesOf 1 r.peer.val ++ bytesOfInt 4 r.a

def healthRecord (h : HealthSettings) : List Byte :=
  bytesOf 1 h.warn ++ bytesOf 1 h.cut ++ bytesOfInt 2 h.rslFade ++ bytesOfInt 2 h.rslCut ++ bytesOf 1 h.hyst ++
    bytesOf 1 h.slope ++ bytesOf 1 h.proveWindows

def probeRecord (p : ProbeSettings) : List Byte := bytesOf 1 p.interval ++ bytesOf 1 p.timeout ++ bytesOf 2 p.gate

def timeRecord (t : TimeSettings) : List Byte :=
  bytesOf 1 t.role.code ++ bytesOf 1 t.followed.val ++ bytesOf 1 (boolCode t.ppsEnable) ++ bytesOf 4 t.stepLimit ++
    bytesOf 4 t.lockLimit ++ bytesOf 1 t.ki ++ bytesOf 1 t.kp ++ bytesOf 2 t.holdover

def calendarRecord (r : RouteIx) (cal : Calendar) : List Byte :=
  bytesOf 1 r.val ++ cal.toList.flatMap fun x => bytesOf 1 (slotCode x)

/-- The fields of a direction in OPEN_CIRCUIT's arguments; those an IN circuit's reading does not look at are sent as 0
(DESIGN CHOICE, log entry 9). -/
def flowRecord : Flow → List Byte
  | .out far cls maxAge => bytesOf 1 far.val ++ bytesOf 1 cls.code ++ bytesOf 2 maxAge ++ [0, 0]
  | .inn none => [0, 0, 0, 0, 0, 0]
  | .inn (some c) => [0, 0, 0, 0, 1] ++ bytesOf 1 c.val

/-- The direction byte of OPEN_CIRCUIT. -/
def directionByte : Flow → Byte
  | .out _ _ _ => 0
  | .inn _ => 1

/-- A circuit record: its state, then OPEN_CIRCUIT's arguments (R198). -/
def circuitRecord (c : SavedCircuit) : List Byte :=
  [if c.paused then 2 else 1] ++ bytesOf 1 c.number.val ++ [directionByte c.defn.flow] ++ bytesOf 1 c.defn.port.val ++
    bytesOf 1 c.defn.peer.val ++ flowRecord c.defn.flow

/-- The nine sections of an image, a calendar record for each route (R180, R186). -/
def imageSections (i : Image) : List Byte :=
  sectionBytes 1 [identityRecord i.settings] ++
    sectionBytes 2 (i.settings.peers.toList.map peerRecord) ++
    sectionBytes 3 (i.settings.lanes.toList.map laneRecord) ++
    sectionBytes 4 (i.settings.routes.toList.map routeRecord) ++
    sectionBytes 5 [healthRecord i.settings.health] ++
    sectionBytes 6 [probeRecord i.settings.probe] ++
    sectionBytes 7 [timeRecord i.settings.time] ++
    sectionBytes 8 ((List.finRange 16).map fun r => calendarRecord r i.settings.calendars[r]) ++
    sectionBytes 9 (i.circuits.map circuitRecord)

/-- The first two fields of the header: format number and length (R198). -/
def headerStart (len : Nat) : List Byte := bytesOf 2 Config.formatNumber ++ bytesOf 4 len

/-- The image as it is programmed (R186, R198). -/
def encodeImage (i : Image) : List Byte :=
  let body := imageSections i
  let start := headerStart (Config.headerBytes + body.length)
  start ++ bytesOf 4 (crc32 (start ++ body)).toNat ++ body

/-! ### How a load walks the sections (R181, R198) -/

/-- `count` records of `len` bytes each. -/
def cutRecords (len : Nat) : (count : Nat) → List Byte → List (List Byte)
  | 0, _ => []
  | count + 1, bs => bs.take len :: cutRecords len count (bs.drop len)

/-- The records of the section with this tag at the front of `bs`, and the bytes behind it; nothing when the section is
absent, out of place or of a count outside its column (R181, R198), or when its records run past the image's length, which the
rules do not name (DEDUCED, log entry 18). -/
def takeSection (tag least most len : Nat) (bs : List Byte) : Option (List (List Byte) × List Byte) :=
  let count := field bs 1 1
  let rest := bs.drop 2
  if 2 ≤ bs.length ∧ field bs 0 1 = tag ∧ least ≤ count ∧ count ≤ most ∧ count * len ≤ rest.length then
    some (cutRecords len count rest, rest.drop (count * len))
  else none

/-- Every record read, or nothing when one cannot be. -/
def readAll {α : Type} (f : List Byte → Option α) : List (List Byte) → Option (List α)
  | [] => some []
  | x :: xs =>
    match f x, readAll f xs with
    | some a, some as => some (a :: as)
    | _, _ => none

/-- A section whose records are read one by one: what they hold and the bytes behind, or the section that fails. -/
def readSection {α : Type} (part : ImagePart) (tag least most len : Nat) (f : List Byte → Option α) (bs : List Byte) :
    Except ImagePart (List α × List Byte) :=
  match takeSection tag least most len bs with
  | none => .error part
  | some (records, rest) =>
    match readAll f records with
    | none => .error part
    | some xs => .ok (xs, rest)

/-- An identity record (R169): every value of its fields is in range. -/
def identityArgs (bs : List Byte) : Option (Byte × BitVec 16) := some (bs.getD 0 0, BitVec.ofNat 16 (field bs 1 2))

/-- A calendar record: the route it names and its slots (R181). -/
def calendarRecord? (bs : List Byte) : Option (RouteIx × Calendar) :=
  match index? 16 (field bs 0 1), calendarArgs? (bs.drop 1) with
  | some r, some cal => some (r, cal)
  | _, _ => none

/-- A circuit record: PAUSED stands only with direction OUT (R181). -/
def circuitRecord? (bs : List Byte) : Option SavedCircuit :=
  match field bs 0 1, index? 64 (field bs 1 1) with
  | 1, some n => (circuitArgs? n (bs.drop 2)).map fun defn => { number := n, paused := false, defn := defn }
  | 2, some n =>
    match circuitArgs? n (bs.drop 2) with
    | some { port := port, peer := peer, flow := .out far cls maxAge } =>
      some { number := n, paused := true, defn := { port := port, peer := peer, flow := .out far cls maxAge } }
    | _ => none
  | _, _ => none

/-- The peer checks of R74 over a whole image: no enabled peer has this terminal's id or another enabled peer's. -/
def peersDistinct (id : Byte) (peers : List PeerSettings) : Bool :=
  let ids := (peers.filter fun p => p.enabled).map PeerSettings.termId
  !ids.contains id && decide ids.Nodup

/-- The far circuits that OUT records name, with their peers. -/
def farPairs (cs : List SavedCircuit) : List (PeerIx × CircIx) :=
  cs.filterMap fun c =>
    match c.defn.flow with
    | .out far _ _ => some (c.defn.peer, far)
    | .inn _ => none

/-- The checks of R181 over all circuit records together. -/
def circuitsDistinct (cs : List SavedCircuit) : Bool :=
  decide ((cs.map SavedCircuit.number).Nodup) && decide ((farPairs cs).Nodup)

/-- The calendar of a route: the record that names it, else the default (R185). -/
def calendarOf (records : List (RouteIx × Calendar)) (r : RouteIx) : Calendar := (records.lookup r).getD Calendar.default

/-- What the sections from PEERS on hold, given the identity (R181, R198). -/
def readPeersOn (identity : Byte × BitVec 16) (bs : List Byte) : Except ImagePart Image := do
  let (peers, bs) ← readSection .peers 2 4 4 2 peerArgs? bs
  if !peersDistinct identity.1 peers then throw .peers
  let (lanes, bs) ← readSection .lanes 3 16 16 6 laneArgs? bs
  let (routes, bs) ← readSection .routes 4 16 16 6 routeArgs? bs
  let (health, bs) ← readSection .health 5 1 1 9 healthArgs? bs
  let (probe, bs) ← readSection .probe 6 1 1 4 probeArgs? bs
  let (time, bs) ← readSection .time 7 1 1 15 timeArgs? bs
  let (calendars, bs) ← readSection .calendars 8 0 16 17 calendarRecord? bs
  if !decide ((calendars.map Prod.fst).Nodup) then throw .calendars
  let (circuits, bs) ← readSection .circuits 9 0 64 11 circuitRecord? bs
  if !(circuitsDistinct circuits && bs.isEmpty) then throw .circuits
  return {
    settings := {
      termId := identity.1
      opCode := identity.2
      peers := Vector.ofFn fun i => peers.getD i.val { enabled := false, termId := 0 }
      lanes := Vector.ofFn fun i => lanes.getD i.val LaneSettings.safe
      routes := Vector.ofFn fun i => routes.getD i.val { enable := false, peer := 0, a := 0 }
      health := health.headD HealthSettings.safe
      probe := probe.headD ProbeSettings.safe
      time := time.headD TimeSettings.safe
      calendars := Vector.ofFn fun i => calendarOf calendars i }
    circuits := circuits }

/-- What the sections of an image hold, or the first that fails (R181, R198). -/
def readSections (bs : List Byte) : Except ImagePart Image := do
  let (identity, bs) ← readSection .identity 1 1 1 3 identityArgs bs
  readPeersOn (identity.headD (0, 0)) bs

/-! ### The judgement of a load (R184) -/

/-- The CRC of an image agrees with its header: it covers bytes 0 to 5 and byte 10 onward (R198). -/
def imageCrcGood (bs : List Byte) : Bool := decide (field bs 6 4 = (crc32 (bs.take 6 ++ bs.drop 10)).toNat)

/-- The judgement of what a load reads from the flash `m`, the first outcome that applies (R184). -/
def judgeFlash (m : List Host.Cell) : Except (LoadOutcome × Option ImagePart) Image :=
  let header := flashBytes m 0 Config.headerBytes
  let len := field header 2 4
  if markerIsSet m then .error (.checksumError, none)
  else if header.all (· == 0xFF) then .error (.empty, none)
  else if len < Config.headerBytes ∨ Config.imageArea < len then .error (.checksumError, none)
  else
    let image := flashBytes m 0 len
    if !imageCrcGood image then .error (.checksumError, none)
    else if field header 0 2 ≠ Config.formatNumber then .error (.formatError, some .header)
    else
      match readSections (image.drop Config.headerBytes) with
      | .error part => .error (.formatError, some part)
      | .ok i => .ok i

end Sys2Proof.Machine
end

