-- ==== Sys2Proof/Machine/Routes.lean ====
section
/-! DEFINITION. The directives on routes and peers: SET_PEER, SET_ROUTE, SET_HEALTH, SET_PROBE, TEST_ROUTE, FORCE_ROUTE,
RELEASE_ROUTE and SET_CALENDAR (chapters 03, 04, 06 and 07). -/

namespace Sys2Proof.Machine

/-! ### SET_PEER (R74, R75) -/

/-- Another enabled peer, or this terminal, has the id (R74). -/
def State.idTaken (s : State) (p : PeerIx) (id : Byte) : Bool :=
  id == s.cfg.termId || (List.finRange 4).any fun q => decide (q ≠ p) && s.cfg.peers[q].enabled && s.cfg.peers[q].termId == id

/-- The states a route of the peer is moved through when the peer's settings change from `old` to `new` (R75); `canProve`
says that the route's enable is on and its lane is not UNUSED. -/
def peerVia (old new : PeerSettings) (state : RouteState) (canProve : Bool) : List RouteState :=
  match old.enabled, new.enabled with
  | true, false => if state = .disabled then [] else [.disabled]
  | false, true => if state = .disabled ∧ canProve = true then [.proving] else []
  | true, true => if old.termId ≠ new.termId ∧ state ≠ .disabled then [.disabled, .proving] else []
  | false, false => []

/-- The moves of SET_PEER's routes, in index order (R75). -/
def State.peerMoves (s : State) (p : PeerIx) (old new : PeerSettings) : List Move :=
  ((List.finRange 16).filter fun r => decide (s.cfg.routes[r].peer = p)).map fun r =>
    { route := r
      via := peerVia old new s.health[r].state (s.cfg.routes[r].enable && s.cfg.lanes[r].type != .unused) }

/-- An accepted SET_PEER (R75). -/
def State.applyPeer (s : State) (p : PeerIx) (x : PeerSettings) : State :=
  (s.setCfg (s.cfg.withPeer p x)).applyMoves (s.peerMoves p s.cfg.peers[p] x)

/-- The owner's part of SET_PEER (R74, R75). -/
def State.ownSetPeer (d : Directive) (s : State) : Judged :=
  match index? 4 (field d.args 0 1), peerArgs? (d.args.drop 1) with
  | some p, some x => if x.enabled && s.idTaken p x.termId then s.reply .badArg else (s.applyPeer p x).reply .done
  | _, _ => s.reply .badArg

/-- SET_PEER (R74). -/
def execSetPeer (d : Directive) (s : State) : Host.Outcome State Fault Refusal :=
  .next (s.operatorDirective d 8 3 (State.ownSetPeer d))

/-! ### SET_ROUTE (R72, R73) -/

/-- A peer's forced route is cleared when it is the route named (R114). -/
def State.clearForce (s : State) (p : PeerIx) (r : RouteIx) : State :=
  s.modPeer p fun x => { x with forced := if x.forced = some r then none else x.forced }

/-- Step 2 of R73: the peer changes. -/
def State.changePeer (s : State) (r : RouteIx) (peer : PeerIx) : State :=
  if s.cfg.routes[r].peer = peer then s
  else
    let old := s.cfg.routes[r].peer
    let s := s.disableRoute r
    ((s.setCfg (s.cfg.withRoute r { s.cfg.routes[r] with peer := peer })).clearForce old r).rechoose

/-- An accepted SET_ROUTE, its steps in order (R73). -/
def State.applyRoute (s : State) (r : RouteIx) (x : RouteSettings) : State :=
  let s := s.setCfg (s.cfg.withRoute r { s.cfg.routes[r] with a := x.a })
  let s := s.changePeer r x.peer
  let s := s.setCfg (s.cfg.withRoute r { s.cfg.routes[r] with enable := x.enable })
  if x.enable then s.returnRoute r else s.disableRoute r

/-- The owner's part of SET_ROUTE (R72, R73). -/
def State.ownSetRoute (d : Directive) (s : State) : Judged :=
  match index? 16 (field d.args 0 1), routeArgs? (d.args.drop 1) with
  | some r, some x => (s.applyRoute r x).reply .done
  | _, _ => s.reply .badArg

/-- SET_ROUTE (R72). -/
def execSetRoute (d : Directive) (s : State) : Host.Outcome State Fault Refusal :=
  .next (s.operatorDirective d 9 7 (State.ownSetRoute d))

/-! ### SET_HEALTH (R77) -/

/-- The transitions of an evaluation of every route, in index order (R77). -/
def State.healthMoves (s : State) : List Move :=
  (List.finRange 16).filterMap fun r => (s.evaluation r).map fun new => { route := r, via := [new] }

/-- An accepted SET_HEALTH: the thresholds are replaced and every route is evaluated (R76, R77). -/
def State.applyHealth (s : State) (h : HealthSettings) : State :=
  let s := s.setCfg { s.cfg with health := h }
  s.applyMoves s.healthMoves

/-- The owner's part of SET_HEALTH (R77). -/
def State.ownSetHealth (d : Directive) (s : State) : Judged :=
  match healthArgs? d.args with
  | none => s.reply .badArg
  | some h => (s.applyHealth h).reply .done

/-- SET_HEALTH (R77). -/
def execSetHealth (d : Directive) (s : State) : Host.Outcome State Fault Refusal :=
  .next (s.operatorDirective d 11 9 (State.ownSetHealth d))

/-! ### SET_PROBE (R56, R57) -/

/-- A route's running schedules restart from now: the PROBE schedule always, the TEST schedule when the interval has changed
(R57, R67). -/
def State.restartSchedules (s : State) (tests : Bool) (r : RouteIx) : State :=
  let due := s.nextDue
  (s.modProbe r fun x => { x with due := x.due.map fun _ => due }).modHealth r fun h =>
    { h with testDue := if tests then h.testDue.map fun _ => due else h.testDue }

/-- The records of a route that have reached the timeout are removed as LOST, the oldest first; each is a resolution (R57).
`fuel` bounds their number. -/
def State.loseDue (s : State) (r : RouteIx) : (fuel : Nat) → State
  | 0 => s
  | fuel + 1 =>
    match s.timedOut r with
    | none => s
    | some o => (s.loseProbe r o).loseDue r fuel

/-- An accepted SET_PROBE (R57). -/
def State.applyProbe (s : State) (p : ProbeSettings) : State :=
  let tests := decide (s.cfg.probe.interval ≠ p.interval)
  let s := s.setCfg { s.cfg with probe := p }
  let s := s.forRoutes fun r s => s.restartSchedules tests r
  s.forRoutes fun r s => s.loseDue r s.probes[r].outstanding.length

/-- The owner's part of SET_PROBE (R56, R57). -/
def State.ownSetProbe (d : Directive) (s : State) : Judged :=
  match probeArgs? d.args with
  | none => s.reply .badArg
  | some p => (s.applyProbe p).reply .done

/-- SET_PROBE (R56). -/
def execSetProbe (d : Directive) (s : State) : Host.Outcome State Fault Refusal :=
  .next (s.operatorDirective d 12 4 (State.ownSetProbe d))

/-! ### TEST_ROUTE (R71) -/

/-- TEST_ROUTE on a route not DISABLED (R71). -/
def State.testRoute (s : State) (r : RouteIx) : State :=
  if s.health[r].state = .proving then s.modHealth r fun h => { h with error := 0, good := 0 }
  else s.moveRoute r [.proving]

/-- The owner's part of TEST_ROUTE (R71). -/
def State.ownTestRoute (d : Directive) (s : State) : Judged :=
  match index? 16 (field d.args 0 1) with
  | none => s.reply .badArg
  | some r => if s.health[r].state = .disabled then s.reply .badArg else (s.testRoute r).reply .done

/-- TEST_ROUTE (R71). -/
def execTestRoute (d : Directive) (s : State) : Host.Outcome State Fault Refusal :=
  .next (s.operatorDirective d 19 1 (State.ownTestRoute d))

/-! ### FORCE_ROUTE and RELEASE_ROUTE (R112, R113) -/

/-- The owner's part of FORCE_ROUTE (R112). -/
def State.ownForceRoute (d : Directive) (s : State) : Judged :=
  match index? 4 (field d.args 0 1), index? 16 (field d.args 1 1) with
  | some p, some r =>
    if s.cfg.routes[r].peer = p then (s.modPeer p fun x => { x with forced := some r }).reply .done else s.reply .badArg
  | _, _ => s.reply .badArg

/-- FORCE_ROUTE (R112). -/
def execForceRoute (d : Directive) (s : State) : Host.Outcome State Fault Refusal :=
  .next (s.operatorDirective d 17 2 (State.ownForceRoute d))

/-- The owner's part of RELEASE_ROUTE (R113). -/
def State.ownReleaseRoute (d : Directive) (s : State) : Judged :=
  match index? 4 (field d.args 0 1) with
  | none => s.reply .badArg
  | some p => (s.modPeer p fun x => { x with forced := none }).reply .done

/-- RELEASE_ROUTE (R113). -/
def execReleaseRoute (d : Directive) (s : State) : Host.Outcome State Fault Refusal :=
  .next (s.operatorDirective d 18 1 (State.ownReleaseRoute d))

/-! ### SET_CALENDAR (R131, R132) -/

/-- An accepted SET_CALENDAR (R132). -/
def State.applyCalendar (s : State) (r : RouteIx) (cal : Calendar) : State :=
  (s.setCfg (s.cfg.withCalendar r cal)).modTx r fun t => { t with pointer := 0 }

/-- The owner's part of SET_CALENDAR (R131, R132). -/
def State.ownSetCalendar (d : Directive) (s : State) : Judged :=
  match index? 16 (field d.args 0 1), calendarArgs? (d.args.drop 1) with
  | some r, some cal => (s.applyCalendar r cal).reply .done
  | _, _ => s.reply .badArg

/-- SET_CALENDAR (R131). -/
def execSetCalendar (d : Directive) (s : State) : Host.Outcome State Fault Refusal :=
  .next (s.operatorDirective d 14 17 (State.ownSetCalendar d))

end Sys2Proof.Machine
end

