-- ==== Sys2Proof/Machine/Profile.lean ====
section
/-! DEFINITION. The profile unit: the end of a load, SAVE_PROFILE and its completion, RESTART and cold reset
(11_profile_store_and_start_up.md, and the cold reset and RESTART of every chapter). -/

namespace Sys2Proof.Machine

/-! ### LOAD_END (R185, R190) -/

/-- A load has ended with this outcome: the load state becomes RUNNING (R184, R185). -/
def Profile.endLoad (x : Profile) (outcome : LoadOutcome) (failing : Option ImagePart) : Profile :=
  { x with load := .running, outcome := some outcome, failing := failing, loads := x.loads + 1 }

/-- The routes that R60 permits after a load, which pass to PROVING together (R76, R185). -/
def State.loadMoves (s : State) : List Move :=
  ((List.finRange 16).filter fun r => s.permitted r && s.health[r].state == .disabled).map fun r =>
    { route := r, via := [.proving] }

/-- Each RADIO lane starts its silence timer (R31, R185). -/
def State.startTimers (s : State) : State :=
  s.forRoutes fun r s =>
    s.modLane r fun l => { l with timer := if s.cfg.lanes[r].type = .radio then some s.time.et else l.timer }

/-- A circuit record restored from its definition (R97, R185). -/
def SavedCircuit.restored (c : SavedCircuit) : Circuit :=
  { Circuit.fresh c.defn with state := if c.paused then .paused else .opened }

/-- The circuits of an image restored (R97, R185). -/
def State.restoreCircuits (s : State) (cs : List SavedCircuit) : State :=
  cs.foldl (fun s c => s.modCircuit c.number fun _ => c.restored) s

/-- The settings of an image take effect, and their consequences run (R185, outcome LOADED). -/
def State.applyImage (s : State) (i : Image) : State :=
  let s := s.setCfg i.settings
  let s := s.applyMoves s.loadMoves
  (s.startTimers).restoreCircuits i.circuits

/-- The answer to a RESTART whose load has ended (R190). -/
def State.answerRestart (s : State) : State :=
  match s.profile.restartOwed with
  | none => s
  | some (p, request) =>
    (s.answer p
      { request := request, status := .done,
        results := bytesOf 1 (outcomeCode s.profile.outcome) ++ bytesOf 1 (failingCode s.profile.failing) }).setProfile
      { s.profile with restartOwed := none }

/-- The end of a load that reads the flash as `m` (R184, R185): the effects of R18 and the RESTART answer come last. -/
def State.endLoad (s : State) (m : List Host.Cell) : State :=
  match judgeFlash m with
  | .ok i => ((s.setProfile (s.profile.endLoad .loaded none)).applyImage i).rechoose.judgeHoldover.answerRestart
  | .error (outcome, failing) =>
    (s.setProfile (s.profile.endLoad outcome failing)).rechoose.judgeHoldover.answerRestart

/-- LOAD_END (R185). No load ends while none runs. A flash that does not answer reads as erased (R183). -/
def execLoadEnd (answers : Bool) (s : State) : Host.Outcome State Fault Refusal :=
  if s.profile.load = .loading then .next (s.endLoad (if answers then s.flash else [])) else .next s

/-! ### SAVE_PROFILE (R186, R187) -/

/-- The circuits a snapshot holds: those OPEN or PAUSED with no close pending (R186). -/
def State.savedCircuits (s : State) : List SavedCircuit :=
  (List.finRange 64).filterMap fun n =>
    match s.circuits[n].state, s.circuits[n].closing, s.circuits[n].defn with
    | .opened, none, some defn => some { number := n, paused := false, defn := defn }
    | .paused, none, some defn => some { number := n, paused := true, defn := defn }
    | _, _, _ => none

/-- The snapshot of a SAVE (R186). -/
def State.snapshot (s : State) : Image := { settings := s.cfg, circuits := s.savedCircuits }

/-- A SAVE accepted: no answer joins now (R186). -/
def State.ownSaveProfile (d : Directive) (s : State) : Judged :=
  ((s.setProfile { s.profile with save := some { snapshot := s.snapshot, started := s.time.et } }).modPort d.port fun x =>
    { x with saveOwed := some d.request }, none)

/-- SAVE_PROFILE (R186). -/
def execSaveProfile (d : Directive) (s : State) : Host.Outcome State Fault Refusal :=
  .next (s.operatorDirective d 20 0 (State.ownSaveProfile d))

/-- The flash after a SAVE all of whose steps succeeded (R186). -/
def savedFlash (m : List Host.Cell) (image : List Byte) : List Host.Cell := clearMarker (writeImage (setMarker m) image)

/-- A marker that step 5 has not erased: what a SAVE leaves that 400 ms overtake in its last step (R186, R187). -/
def FlashLeft.overrun : FlashLeft := { step := 4, bytes := List.replicate Config.markerSet 0 }

/-- What a SAVE leaves behind when it fails: a completion later than 400 ms after acceptance is a failure of step 5 (R186,
log entry 10). -/
def State.saveFailure (s : State) (job : SaveJob) : SaveResult → Option FlashLeft
  | .failed left => some left
  | .done => if ticksSince s.time.et job.started ≤ Config.saveLimit then none else some FlashLeft.overrun

/-- The profile unit after a SAVE that ended so (R187). -/
def Profile.endSave (x : Profile) : Option FlashLeft → Profile
  | none => { x with save := none, lastSave := some .done, savesDone := x.savesDone + 1 }
  | some left => { x with save := none, lastSave := some (.flashError left.step), savesFailed := x.savesFailed + 1 }

/-- The flash after a SAVE that ended so (R187). -/
def flashAfter (m : List Host.Cell) (image : List Byte) : Option FlashLeft → List Host.Cell
  | none => savedFlash m image
  | some left => leaveFlash m image left

/-- The answer to a SAVE that ended so (R187, R194). -/
def saveAnswer (request : Byte) : Option FlashLeft → Answer
  | none => { request := request, status := .done, results := [] }
  | some left => { request := request, status := .flashError, results := bytesOf 1 (left.step.val + 1) }

/-- The answer joins at the port that is still owed it (R176). -/
def State.answerSave (s : State) (failure : Option FlashLeft) : State :=
  s.mapPorts fun x =>
    match x.saveOwed with
    | none => x
    | some request => { x with saveOwed := none, answers := x.answers ++ [saveAnswer request failure] }

/-- A SAVE completes (R187). -/
def State.completeSave (s : State) (job : SaveJob) (failure : Option FlashLeft) : State :=
  ((s.setFlash (flashAfter s.flash (encodeImage job.snapshot) failure)).setProfile (s.profile.endSave failure)).answerSave
    failure

/-- SAVE_COMPLETE (R187). No SAVE completes while none is in flight. -/
def execSaveComplete (result : SaveResult) (s : State) : Host.Outcome State Fault Refusal :=
  match s.profile.save with
  | none => .next s
  | some job => if result.wf then .next (s.completeSave job (s.saveFailure job result)) else .refused .illFormed

/-! ### RESTART (R189) -/

/-- Step 2 of R189 on one route: its current frame is abandoned and its queues emptied, no tally moving (R135). -/
def State.emptyRoute (s : State) (r : RouteIx) : State :=
  let s := s.endCurrent r
  s.tx[r].queue.foldl (fun s c => s.release c.slot)
    (s.modTx r fun t => { t with queue := [], echoes := [], probeEntry := false, testEntry := false })

/-- A DELIVER under way, `n` bytes of which have left, is cut off; an ANSWER or a NOTICE ends whole, and a DELIVER that an
earlier RESTART has cut off ends as that one left it (R153). -/
def Outbound.cutDeliver (o : Outbound) (n : Nat) : Outbound :=
  match o.kind, o.cut with
  | .deliver, false => { o with cut := true, bytes := cutEnvelope o.bytes n }
  | _, _ => o

/-- Step 3 of R189 on one port (R153); how many bytes of a DELIVER under way have left is the free value of log entry 26. -/
def State.emptyPort (s : State) (p : PortIx) : State :=
  let n := Config.cutPoint s.profile.restarts p
  (s.emptyDelivery p).modPort p fun x =>
    { x with outbound := x.outbound.map fun o => o.cutDeliver n, lastDelivery := none }

/-- Steps 2 and 3 of R189. -/
def State.emptyAll (s : State) : State :=
  let s := s.forRoutes fun r s => s.emptyRoute r
  let s := s.forRoutes fun r s => s.dropRx r
  (List.finRange 6).foldl (fun s p => s.emptyPort p) s

/-- The routes not DISABLED pass to DISABLED (step 4 of R189). -/
def State.restartMoves (s : State) : List Move :=
  ((List.finRange 16).filter fun r => s.health[r].state != .disabled).map fun r => { route := r, via := [.disabled] }

/-- A lane after RESTART: its LOS level stays (R36). -/
def Lane.restarted (l : Lane) : Lane := Lane.coldReset l.los

/-- The health of a route after RESTART: its state and the ET of its last change stay (R80). -/
def Health.restarted (h : Health) : Health := { h with error := 0, good := 0, seed := 0, testDue := none, counts := {} }

/-- Frame memory after RESTART: the low-water mark is the free count and the counts are 0 (R161). -/
def Pool.restarted (p : Pool) : Pool :=
  { p with lowWater := p.free, holds := 0, underHold := 0, sendNoBuffer := 0, arrivalNoBuffer := 0 }

/-- Step 5 of R189: the state each block sets (R21, R36, R59, R80, R97, R116, R135, R153, R161, R179). -/
def State.restartBlocks (s : State) : State :=
  { s with
    time := s.time.retune s.time.fc 0
    lanes := Vector.ofFn fun r => s.lanes[r].restarted
    probes := Vector.replicate 16 Probe.blank
    health := Vector.ofFn fun r => s.health[r].restarted
    circuits := Vector.replicate 64 Circuit.blank
    peers := Vector.replicate 4 { forced := none, noRoute := 0 }
    sel := Vector.replicate 16 {}
    tx := Vector.replicate 16 Tx.blank
    score := Vector.replicate 16 {}
    pool := s.pool.restarted
    ports := Vector.ofFn fun p => { s.ports[p] with counts := {} } }

/-- Step 6 of R189: a load begins, with the SAFE settings live (R183). -/
def State.beginLoad (s : State) : State :=
  ((s.setCfg Settings.safe).setProfile { s.profile with load := .loading }).rechoose

/-- A RESTART has drawn its free values (log entry 26). -/
def Profile.countRestart (x : Profile) : Profile := { x with restarts := x.restarts + 1 }

/-- RESTART accepted from port `p`, the six steps of R189. -/
def State.restart (s : State) (p : PortIx) (request : Byte) : State :=
  let s := s.setProfile { s.profile with restartOwed := some (p, request) }
  let s := s.emptyAll
  let s := s.setProfile s.profile.countRestart
  let s := s.applyMoves s.restartMoves
  s.restartBlocks.beginLoad

/-- RESTART accepted: no answer joins now (R189). -/
def State.ownRestart (d : Directive) (s : State) : Judged := (s.restart d.port d.request, none)

/-- RESTART (R189). -/
def execRestart (d : Directive) (s : State) : Host.Outcome State Fault Refusal :=
  .next (s.operatorDirective d 21 0 (State.ownRestart d))

/-! ### COLD_RESET (R20, R36, R59, R80, R97, R116, R134, R153, R161, R178, R183, R188, R191) -/

/-- Cold reset with the flash left as `m`: LOS and the links are as sensed, what waits or is to come stays, and the draws
of log entry 26 go on. -/
def State.coldReset (s : State) (m : List Host.Cell) : State :=
  { State.reset with
    lanes := Vector.ofFn fun r => Lane.coldReset s.lanes[r].los
    ports := Vector.ofFn fun p => { Port.coldReset s.ports[p].up with receiver := s.ports[p].receiver.coldReset }
    profile := { Profile.coldReset with restarts := s.profile.restarts }
    flash := m
    pending := s.pending
    arriving := s.arriving }

/-- COLD_RESET: a SAVE in flight stops where it stands (R188). -/
def execColdReset (left : FlashLeft) (s : State) : Host.Outcome State Fault Refusal :=
  match s.profile.save with
  | none => .next (s.coldReset s.flash)
  | some job =>
    if left.wf then .next (s.coldReset (leaveFlash s.flash (encodeImage job.snapshot) left)) else .refused .illFormed

end Sys2Proof.Machine
end

