-- ==== Sys2Proof/Machine/Readings.lean ====
section
/-! DEFINITION. READ_TIME, READ_TABLE and the readings they give (R19, R35, R58, R78, R79, R96, R115, R133, R148, R160,
R171, R191), encoded under R192 and R194. The widths of the fields that no row of R192 names are in log entry 8. -/

namespace Sys2Proof.Machine

/-! ### Forms of fields (R194) -/

/-- A 32-bit count. -/
def countBytes (c : Count) : List Byte := bytesOf 4 c.toNat

/-- A number of things held, as a count (log entry 8). -/
def numberBytes (n : Nat) : List Byte := bytesOf 4 n

/-- Yes or no, on or off, asserted or released. -/
def boolBytes (b : Bool) : List Byte := bytesOf 1 (boolCode b)

/-- A field of `n` bytes that may be absent: a presence byte, and its bytes, zero when it is absent (R194). -/
def optBytes {α : Type} (n : Nat) (f : α → List Byte) : Option α → List Byte
  | none => 0 :: List.replicate n 0
  | some x => 1 :: f x

/-- A list preceded by its count byte (R194). -/
def listBytes {α : Type} (f : α → List Byte) (xs : List α) : List Byte := bytesOf 1 xs.length ++ xs.flatMap f

/-- A circuit and a sequence number; where they may be absent they are so together, behind one presence byte (DESIGN CHOICE,
log entry 8). -/
def circSeq (c : CircIx) (seq : BitVec 16) : List Byte := bytesOf 1 c.val ++ bytesOf 2 seq.toNat

/-! ### The readings -/

/-- The time base (R19). -/
def State.timeReading (s : State) : List Byte :=
  bytesOf 8 s.time.tt.toNat ++ bytesOf 8 s.time.et.toNat ++ bytesOf 1 s.time.state.code ++ bytesOf 1 s.cfg.time.role.code ++
    bytesOfInt 4 s.time.fc ++ bytesOfInt 8 s.time.sl ++ bytesOfInt 4 s.time.p ++ numberBytes s.time.good ++
    optBytes 1 (fun r => bytesOf 1 r.val) s.time.timeRoute ++ optBytes 8 (fun c => bytesOf 8 c.toNat) s.time.capture ++
    countBytes s.time.accepted ++ countBytes s.time.glitches ++ optBytes 8 (fun t => bytesOf 8 t.toNat) s.time.lastEdge ++
    bytesOf 8 s.time.lastFired

/-- A lane report as it reads: the clamped RSL, rate step, quality and alarm set (R35, R197). -/
def reportBytes (x : Report) : List Byte :=
  bytesOfInt 2 x.rsl ++ bytesOf 1 x.step ++ bytesOf 2 x.quality ++
    bytesOf 1 (boolCode x.fault + 2 * boolCode x.temp + 4 * boolCode x.mute)

/-- The effective rate step of a lane, absent for FIBER and UNUSED (R35). -/
def stepShown (ty : LaneType) (l : Lane) : Option Nat :=
  match ty with
  | .radio => some l.effectiveStep
  | .fiber => none
  | .unused => none

/-- A lane (R35). -/
def State.laneReading (s : State) (r : RouteIx) : List Byte :=
  let x := s.cfg.lanes[r]
  let l := s.lanes[r]
  bytesOf 1 x.type.code ++ bytesOf 2 x.txc ++ bytesOf 2 x.rxc ++ bytesOf 1 x.interval ++ boolBytes l.los ++
    boolBytes l.silent ++ optBytes 6 reportBytes l.latest ++ optBytes 1 (bytesOf 1) (stepShown x.type l) ++
    optBytes 2 (bytesOf 2) (byteTime x.type l) ++ listBytes (bytesOfInt 2) l.ring ++ bytesOf 1 l.trend.code ++
    countBytes l.counts.reports ++ countBytes l.counts.clamped ++ countBytes l.counts.ignored ++ countBytes l.counts.bad ++
    countBytes l.counts.silences ++ countBytes l.counts.los ++ countBytes l.counts.oversize ++ countBytes l.counts.abandoned

/-- The route health unit's fields of a route (R79). -/
def State.healthReading (s : State) (r : RouteIx) : List Byte :=
  let h := s.health[r]
  boolBytes s.cfg.routes[r].enable ++ bytesOf 1 s.cfg.routes[r].peer.val ++ bytesOf 1 h.state.code ++
    optBytes 8 (fun t => bytesOf 8 (ageNs s.time.et t)) h.lastChange ++ numberBytes h.error ++ numberBytes h.good ++
    bytesOf 2 h.seed.toNat ++ boolBytes s.tx[r].testEntry ++ countBytes h.counts.changes ++ countBytes h.counts.crcFailures ++
    countBytes h.counts.testsSent ++ countBytes h.counts.testSkips ++ countBytes h.counts.testsChecked ++
    countBytes h.counts.testsFailed

/-- The selector's fields of a route (R115). -/
def State.selReading (s : State) (r : RouteIx) : List Byte :=
  boolBytes (s.open_ r) ++ countBytes s.sel[r].primaries ++ countBytes s.sel[r].shadows ++ countBytes s.sel[r].resteeredIn

/-- A current frame as it reads: its kind, for CARGO its circuit and sequence number, and the bytes not yet taken (R133). -/
def currentBytes (c : Current) : List Byte :=
  bytesOf 1 c.kind.code ++ optBytes 3 (fun x : Copy => circSeq x.circuit x.seq) c.copy ++ numberBytes c.untaken

/-- The transmit unit's fields of a route (R133). -/
def State.txReading (s : State) (r : RouteIx) : List Byte :=
  let t := s.tx[r]
  numberBytes t.queue.length ++ numberBytes t.backlog ++ optBytes 9 currentBytes t.current ++ numberBytes t.echoes.length ++
    boolBytes t.probeEntry ++ boolBytes t.testEntry ++ countBytes t.counts.expiredAtStart ++
    countBytes t.counts.releasedResteer ++ countBytes t.counts.expiredResteer ++ countBytes t.counts.noRouteResteer ++
    countBytes t.counts.resteeredOut ++ countBytes t.counts.abandoned ++ countBytes t.counts.unslotted

/-- A route: the fields of R79, then those of R115, then those of R133 (R194). -/
def State.routeReading (s : State) (r : RouteIx) : List Byte := s.healthReading r ++ s.selReading r ++ s.txReading r

/-- The routes of a peer, in index order. -/
def State.routesOf (s : State) (p : PeerIx) : List RouteIx :=
  (List.finRange 16).filter fun r => decide (s.cfg.routes[r].peer = p)

/-- A peer: the fields of R78, then those of R115 (R194). -/
def State.peerReading (s : State) (p : PeerIx) : List Byte :=
  boolBytes s.cfg.peers[p].enabled ++ [s.cfg.peers[p].termId] ++
    listBytes (fun r : RouteIx => bytesOf 1 r.val ++ bytesOf 1 s.health[r].state.code) (s.routesOf p) ++
    optBytes 1 (fun r => bytesOf 1 r.val) s.peers[p].forced ++ countBytes s.peers[p].noRoute

/-- The seen entries of a window, from the oldest sequence number to H (R96). -/
def Window.seen (w : Window) : List (BitVec 16 × WinEntry) :=
  (List.range Config.windowSize).reverse.filterMap fun b =>
    (w.entries.getD b none).map fun e => (w.h - BitVec.ofNat 16 b, e)

/-- The OUT tallies as they read (R96). -/
def outTallyBytes (t : OutTallies) : List Byte :=
  countBytes t.accepted ++ countBytes t.sent ++ countBytes t.expired ++ countBytes t.noRoute ++ countBytes t.flushed ++
    countBytes t.held ++ countBytes t.shadowMissed

/-- The IN tallies as they read (R96). -/
def inTallyBytes (t : InTallies) : List Byte :=
  countBytes t.accepted ++ countBytes t.duplicates ++ countBytes t.stale ++ countBytes t.overrun ++ countBytes t.relayed ++
    countBytes t.relayFailures ++ countBytes t.withdrawn

/-- H of a window, present when the window is valid (R141). -/
def Window.top (w : Window) : Option (BitVec 16) := if w.valid then some w.h else none

/-- A window as it reads (R96): the valid flag, H behind its own presence byte (DEDUCED, log entry 8), and the seen entries. -/
def windowBytes (w : Window) : List Byte :=
  boolBytes w.valid ++ optBytes 2 (fun h : BitVec 16 => bytesOf 2 h.toNat) w.top ++
    listBytes (fun e : BitVec 16 × WinEntry => bytesOf 2 e.1.toNat ++ bytesOf 1 e.2.route.val ++ bytesOf 8 e.2.stamp.toNat)
      w.seen

/-- The OUT fields and tallies of a circuit as they read (R96): far circuit, class, max age and next sequence are absent in a
record never opened, so each has its presence byte (R194, log entry 8). -/
def outBytes (x : Circuit) (d : Option (CircIx × TrafficClass × Nat)) : List Byte :=
  optBytes 1 (fun y : CircIx × TrafficClass × Nat => bytesOf 1 y.1.val) d ++
    optBytes 1 (fun y : CircIx × TrafficClass × Nat => bytesOf 1 y.2.1.code) d ++
    optBytes 2 (fun y : CircIx × TrafficClass × Nat => bytesOf 2 y.2.2) d ++
    optBytes 2 (fun _ : CircIx × TrafficClass × Nat => bytesOf 2 x.nextSeq.toNat) d ++ outTallyBytes x.out

/-- The IN fields and tallies of a circuit as they read (R96). -/
def innBytes (x : Circuit) (relay : Option CircIx) : List Byte :=
  optBytes 1 (fun c => bytesOf 1 c.val) relay ++ windowBytes x.window ++ inTallyBytes x.inn

/-- The fields of a circuit's direction (R96); a record never opened reads with the fields of both directions absent and
every tally (DESIGN CHOICE, log entry 8). -/
def flowBytes (x : Circuit) : Option Flow → List Byte
  | some (.out far cls maxAge) => outBytes x (some (far, cls, maxAge))
  | some (.inn relay) => innBytes x relay
  | none => outBytes x none ++ innBytes x none

/-- The direction of a flow, as its code (R192). -/
def Flow.code : Flow → Nat
  | .out _ _ _ => 0
  | .inn _ => 1

/-- A circuit (R96). -/
def State.circuitReading (s : State) (n : CircIx) : List Byte :=
  let x := s.circuits[n]
  bytesOf 1 x.state.code ++ optBytes 4 numberBytes x.closing ++
    optBytes 1 (fun c : CircuitDef => bytesOf 1 c.flow.code) x.defn ++
    optBytes 1 (fun c : CircuitDef => bytesOf 1 c.port.val) x.defn ++
    optBytes 1 (fun c : CircuitDef => bytesOf 1 c.peer.val) x.defn ++ flowBytes x (x.defn.map CircuitDef.flow)

/-- The copies charged to a port that wait on a route (R133). -/
def chargedBytes (queue : List Copy) (p : PortIx) : List Byte :=
  let mine := queue.filter fun c => decide (c.port = p)
  numberBytes mine.length ++ optBytes 3 (fun c : Copy => circSeq c.circuit c.seq) mine.head?

/-- A calendar (R133). -/
def State.calendarReading (s : State) (r : RouteIx) : List Byte :=
  (s.cfg.calendars[r].toList.flatMap fun x => bytesOf 1 (slotCode x)) ++ bytesOf 1 s.tx[r].pointer.val ++
    (List.finRange 6).flatMap (chargedBytes s.tx[r].queue)

/-- A sample as it reads, θ under the present A (R58). -/
def State.sampleBytes (s : State) (r : RouteIx) (x : Sample) : List Byte :=
  [x.number] ++ bytesOf 8 x.rtt ++ bytesOfInt 8 x.d ++ bytesOfInt 8 (theta x.d s.cfg.routes[r].a) ++
    bytesOf 8 (ageNs s.time.et x.at_)

/-- An outstanding record as it reads (R58). -/
def State.outstandingBytes (s : State) (o : Outstanding) : List Byte :=
  [o.number] ++ bytesOf 8 o.t1.toNat ++ bytesOf 8 (ageNs s.time.et o.sentAt)

/-- A peer view as it reads (R58). -/
def State.viewBytes (s : State) (v : PeerView) : List Byte :=
  [v.state] ++ numberBytes v.errors.toNat ++ bytesOf 8 (ageNs s.time.et v.at_)

/-- The probe state of a route (R58). -/
def State.samplesReading (s : State) (r : RouteIx) : List Byte :=
  let p := s.probes[r]
  bytesOfInt 4 s.cfg.routes[r].a ++ optBytes 8 (bytesOf 8) p.m ++ optBytes 8 (bytesOf 8) (s.forward r) ++
    listBytes (s.sampleBytes r) p.ring ++ listBytes s.outstandingBytes p.outstanding ++ [p.nextNumber] ++
    boolBytes s.tx[r].probeEntry ++ numberBytes s.tx[r].echoes.length ++ numberBytes p.errorsToTell ++
    optBytes 13 s.viewBytes p.peerView ++ countBytes p.counts.sent ++ countBytes p.counts.fullSkips ++
    countBytes p.counts.replacedSkips ++ countBytes p.counts.echoesSent ++ countBytes p.counts.echoesDropped ++
    countBytes p.counts.good ++ countBytes p.counts.badSample ++ countBytes p.counts.lost ++ countBytes p.counts.lateEcho ++
    countBytes p.counts.offsetsHanded ++ bytesOf 1 s.cfg.probe.interval ++ bytesOf 1 s.cfg.probe.timeout ++
    bytesOf 2 s.cfg.probe.gate

/-- A route's scoreboard and arrival counts (R148). -/
def State.scoreReading (s : State) (r : RouteIx) : List Byte :=
  let x := s.score[r]
  countBytes s.tx[r].cargoSent ++ countBytes x.firsts ++ countBytes x.lates ++ bytesOf 6 x.lateness ++ countBytes x.probes ++
    countBytes x.echoes ++ countBytes x.tests ++ countBytes x.noBuffer ++ countBytes x.badKind ++ countBytes x.misdirected ++
    countBytes x.malformed ++ countBytes x.unknownCircuit

/-- Slots held by SENDs between first and last byte (R160). -/
def State.sendsReceived (s : State) : Nat :=
  (List.finRange 6).countP fun p =>
    match s.ports[p].inbound with
    | .slot _ => true
    | _ => false

/-- Slots held by CARGO frames between frame start and frame end (R160). -/
def State.arrivalsReceived (s : State) : Nat :=
  (List.finRange 16).countP fun r =>
    match s.lanes[r].rx with
    | some { store := .slot _, .. } => true
    | _ => false

/-- Frame memory (R160). -/
def State.poolReading (s : State) : List Byte :=
  let p := s.pool
  bytesOf 2 p.free ++ boolBytes p.hold ++ bytesOf 2 p.lowWater ++ numberBytes s.sendsReceived ++
    numberBytes s.arrivalsReceived ++
    numberBytes ((p.slots.countP fun e => e.2.refs == 1) - s.sendsReceived - s.arrivalsReceived) ++
    numberBytes (p.slots.countP fun e => e.2.refs == 2) ++ countBytes p.holds ++ countBytes p.underHold ++
    countBytes p.sendNoBuffer ++ countBytes p.arrivalNoBuffer

/-- A pending record as it reads: count, latest subject, latest detail (R171). -/
def recordBytes (x : PendingRecord) : List Byte :=
  numberBytes x.count ++ optBytes 2 (bytesOf 2) (x.latest.bind Notice.subject) ++ optBytes 8 Notice.detail x.latest

/-- The status of a last SAVE outcome (R191). -/
def SaveOutcome.status : SaveOutcome → Status
  | .done => .done
  | .flashError _ => .flashError

/-- The failed step of a last SAVE outcome, absent for DONE (R191). -/
def SaveOutcome.failedStep : SaveOutcome → Option (Fin 5)
  | .done => none
  | .flashError step => some step

/-- A last SAVE outcome as it reads: its status, and the failed step where it has one (R191). -/
def saveOutcomeBytes (x : SaveOutcome) : List Byte :=
  bytesOf 1 x.status.code ++ optBytes 1 (fun step : Fin 5 => bytesOf 1 (step.val + 1)) x.failedStep

/-- The terminal-wide start-up fields (R191); outcome, failing section and last SAVE outcome may be absent (R194). -/
def State.startUpReading (s : State) : List Byte :=
  let p := s.profile
  bytesOf 1 p.load.code ++ optBytes 1 (fun o : LoadOutcome => bytesOf 1 (outcomeCode (some o))) p.outcome ++
    optBytes 1 (fun x : ImagePart => bytesOf 1 (failingCode (some x))) p.failing ++ boolBytes p.save.isSome ++
    optBytes 3 saveOutcomeBytes p.lastSave ++ countBytes p.loads ++ countBytes p.savesDone ++ countBytes p.savesFailed

/-- The counts of a port, in the order of R171. -/
def portCountBytes (c : PortCounts) : List Byte :=
  countBytes c.accepted ++ countBytes c.refused ++ countBytes c.notOpen ++ countBytes c.notOwner ++ countBytes c.paused ++
    countBytes c.tooLong ++ countBytes c.noRoute ++ countBytes c.notReady ++ countBytes c.noBuffer ++ countBytes c.badFrames ++
    countBytes c.taken ++ countBytes c.overflow ++ countBytes c.denied ++ countBytes c.linkFlush ++ countBytes c.linkUp ++
    countBytes c.linkDown

/-- A tenant port (R171): its link state reads as 1 for UP and 0 for DOWN, and the eight pending records carry no count byte,
since their number is fixed (DESIGN CHOICE, log entry 8). -/
def State.portReading (s : State) (p : PortIx) : List Byte :=
  let x := s.ports[p]
  boolBytes x.up ++ numberBytes x.delivery.length ++
    optBytes 3 (fun e : DeliveryEntry => circSeq e.circuit e.seq) x.delivery.head? ++ numberBytes x.answers.length ++
    optBytes 1 (fun n => [n]) x.saveOwed ++ bytesOf 2 x.watch.toNat ++ x.records.toList.flatMap recordBytes ++
    optBytes 11 (fun d : LastDelivery => circSeq d.circuit d.seq ++ bytesOf 8 d.stamp.toNat) x.lastDelivery ++
    optBytes 1 (fun n => [n]) x.lastRequest ++ portCountBytes x.counts ++ [s.cfg.termId] ++ s.startUpReading

/-! ### The directives -/

/-- The time base's part of READ_TIME (R19). -/
def State.ownReadTime (s : State) : Judged := s.results s.timeReading

/-- READ_TIME (R19). -/
def execReadTime (d : Directive) (s : State) : Host.Outcome State Fault Refusal :=
  .next (s.openDirective d 1 0 State.ownReadTime)

/-- A reading at an index, or NOT_FOUND outside the table's range (R170). -/
def State.readAt {n : Nat} (s : State) (reading : Fin n → List Byte) (v : Nat) : Judged :=
  match index? n v with
  | none => s.reply .notFound
  | some i => s.results (reading i)

/-- The port unit's part of READ_TABLE (R170); the table codes are those of R192. -/
def State.ownReadTable (d : Directive) (s : State) : Judged :=
  let i := field d.args 1 1
  match field d.args 0 1 with
  | 0 => s.readAt s.routeReading i
  | 1 => s.readAt s.laneReading i
  | 2 => s.readAt s.peerReading i
  | 3 => s.readAt s.circuitReading i
  | 4 => s.readAt s.calendarReading i
  | 5 => s.readAt s.samplesReading i
  | 6 => s.readAt s.scoreReading i
  | 7 => s.readAt (n := 1) (fun _ => s.poolReading) i
  | 8 => s.readAt s.portReading i
  | _ => s.reply .badArg

/-- READ_TABLE (R170). -/
def execReadTable (d : Directive) (s : State) : Host.Outcome State Fault Refusal :=
  .next (s.openDirective d 2 2 (State.ownReadTable d))

end Sys2Proof.Machine
end

