-- ==== Sys2Proof/Machine/Time.lean ====
section
/-! DEFINITION. The commands of the time base unit (01_terminal_time.md); READ_TIME stands with the readings. -/

namespace Sys2Proof.Machine

/-- ADVANCE: one tick of 8 ns (R1). What falls due at the tick comes as commands of its own (log entry 3). -/
def execAdvance (s : State) : Host.Outcome State Fault Refusal := .next (s.setTime s.time.tick)

/-- PPS_OUT_FIRE: PPS out fires when the seconds part of TT has passed the last fired second (R14). -/
def execPpsOutFire (s : State) : Host.Outcome State Fault Refusal := .next (s.setTime s.time.fire)

/-- HOLDOVER_EXPIRY (R10). -/
def execHoldoverExpiry (s : State) : Host.Outcome State Fault Refusal := .next s.judgeHoldover

/-- An edge at the PPS input is a glitch (R12). -/
def TimeBase.glitch (t : TimeBase) : Bool :=
  match t.lastEdge with
  | none => false
  | some since => decide (ticksSince t.et since < Config.ppsSpacing)

/-- The capture and record of an accepted edge (R12). -/
def TimeBase.capturePps (t : TimeBase) : TimeBase :=
  { t with capture := some t.tt, accepted := t.accepted + 1, lastEdge := some t.et }

/-- The offset of a capture: the nearest whole second, halves upward, less the capture (R13). -/
def ppsOffset (c : Stamp) : Int :=
  ((c.toNat + Config.nsPerSecond / 2) / Config.nsPerSecond * Config.nsPerSecond : Nat) - (c.toNat : Int)

/-- A rising edge at the PPS input (R12, R13): the offset of an accepted edge is accepted for a reference with PPS enable on
(R6). -/
def State.ppsEdge (s : State) : State :=
  if s.time.glitch then s.setTime { s.time with glitches := s.time.glitches + 1 }
  else
    let θ := ppsOffset s.time.tt
    let s := s.setTime s.time.capturePps
    if s.cfg.time.role = .reference ∧ s.cfg.time.ppsEnable = true then s.acceptOffset θ Config.ppsIntervalUs else s

/-- PPS_EDGE (R12). -/
def execPpsEdge (s : State) : Host.Outcome State Fault Refusal := .next s.ppsEdge

/-- New time settings take effect: the time route is chosen again and the pending holdover expiry is judged (R18). -/
def State.applyTime (s : State) (t : TimeSettings) : State :=
  (s.setCfg { s.cfg with time := t }).rechoose.judgeHoldover

/-- The owner's part of SET_TIME (R17, R18). -/
def State.ownSetTime (d : Directive) (s : State) : Judged :=
  match timeArgs? d.args with
  | none => s.reply .badArg
  | some t => (s.applyTime t).reply .done

/-- SET_TIME (R17). -/
def execSetTime (d : Directive) (s : State) : Host.Outcome State Fault Refusal :=
  .next (s.operatorDirective d 13 15 (State.ownSetTime d))

end Sys2Proof.Machine
end

