-- ==== Sys2Proof/Machine/Dispatch.lean ====
section
/-! DEFINITION. The meaning of every command: one arm for each row of spec/opcode_table.json. -/

namespace Sys2Proof.Machine

/-- The effect of a command on everything but the queue. -/
def exec (i : Instr) (s : State) : Host.Outcome State Fault Refusal :=
  match i with
  | .coldReset left => Sys2Proof.Machine.execColdReset left s
  | .loadEnd answers => Sys2Proof.Machine.execLoadEnd answers s
  | .advance => Sys2Proof.Machine.execAdvance s
  | .ppsOutFire => Sys2Proof.Machine.execPpsOutFire s
  | .holdoverExpiry => Sys2Proof.Machine.execHoldoverExpiry s
  | .ppsEdge => Sys2Proof.Machine.execPpsEdge s
  | .setTime d => Sys2Proof.Machine.execSetTime d s
  | .readTime d => Sys2Proof.Machine.execReadTime d s
  | .laneByteTaken r => Sys2Proof.Machine.execLaneByteTaken r s
  | .transmitEnd r => Sys2Proof.Machine.execTransmitEnd r s
  | .frameStart r first => Sys2Proof.Machine.execFrameStart r first s
  | .lengthLimitEnd r => Sys2Proof.Machine.execLengthLimitEnd r s
  | .frameEnd r rest => Sys2Proof.Machine.execFrameEnd r rest s
  | .losAssert r => Sys2Proof.Machine.execLosAssert r s
  | .losRelease r => Sys2Proof.Machine.execLosRelease r s
  | .laneReport r record => Sys2Proof.Machine.execLaneReport r record s
  | .silenceExpiry r => Sys2Proof.Machine.execSilenceExpiry r s
  | .probeRequest r => Sys2Proof.Machine.execProbeRequest r s
  | .probeTimeout r => Sys2Proof.Machine.execProbeTimeout r s
  | .testRequest r => Sys2Proof.Machine.execTestRequest r s
  | .offer r => Sys2Proof.Machine.execOffer r s
  | .sendStart p => Sys2Proof.Machine.execSendStart p s
  | .sendEnd p status body crc => Sys2Proof.Machine.execSendEnd p status body crc s
  | .outboundTurn p => Sys2Proof.Machine.execOutboundTurn p s
  | .outboundFrameEnd p => Sys2Proof.Machine.execOutboundFrameEnd p s
  | .linkDown p => Sys2Proof.Machine.execLinkDown p s
  | .linkUp p => Sys2Proof.Machine.execLinkUp p s
  | .badInboundEnvelope p => Sys2Proof.Machine.execBadInboundEnvelope p s
  | .unknownDirective p status body crc => Sys2Proof.Machine.execUnknownDirective p status body crc s
  | .readTable d => Sys2Proof.Machine.execReadTable d s
  | .watch d => Sys2Proof.Machine.execWatch d s
  | .pause d => Sys2Proof.Machine.execPause d s
  | .resume d => Sys2Proof.Machine.execResume d s
  | .clearCounts d => Sys2Proof.Machine.execClearCounts d s
  | .setIdentity d => Sys2Proof.Machine.execSetIdentity d s
  | .setPeer d => Sys2Proof.Machine.execSetPeer d s
  | .setRoute d => Sys2Proof.Machine.execSetRoute d s
  | .setLane d => Sys2Proof.Machine.execSetLane d s
  | .setHealth d => Sys2Proof.Machine.execSetHealth d s
  | .setProbe d => Sys2Proof.Machine.execSetProbe d s
  | .setCalendar d => Sys2Proof.Machine.execSetCalendar d s
  | .openCircuit d => Sys2Proof.Machine.execOpenCircuit d s
  | .closeCircuit d => Sys2Proof.Machine.execCloseCircuit d s
  | .forceRoute d => Sys2Proof.Machine.execForceRoute d s
  | .releaseRoute d => Sys2Proof.Machine.execReleaseRoute d s
  | .testRoute d => Sys2Proof.Machine.execTestRoute d s
  | .saveProfile d => Sys2Proof.Machine.execSaveProfile d s
  | .saveComplete result => Sys2Proof.Machine.execSaveComplete result s
  | .restart d => Sys2Proof.Machine.execRestart d s
  | .miss p first => Sys2Proof.Machine.execMiss p first s

end Sys2Proof.Machine
end

