-- ==== Sys2Proof/Safety.lean ====
section
/-! DEFINITION. What counts as a sound state: the laws that the chapters state of the whole terminal, in the terms in which the
claims use them, and the conditions under which a directive acts. -/

namespace Sys2Proof.Machine

/-! ### Time (R2, R8, R9) -/

/-- P and INC are those of FC and SL (R2), FC is within its clamp (R8), the good-offset count stays below 8 until LOCKED and
is 8 there (R9), and a terminal out of FREE has accepted an offset (R20). -/
abbrev TimeBase.Sound (t : TimeBase) : Prop :=
  t.p = totalTerm t.fc t.sl ∧ t.inc = incOf t.p ∧ (-200000 ≤ t.fc ∧ t.fc ≤ 200000) ∧ t.good ≤ 8 ∧
  (t.state = .locked ↔ t.good = 8) ∧ (t.state = .free → t.good = 0) ∧ (t.state ≠ .free → t.lastOffset.isSome = true)

/-- The time route held is the one R15 chooses. -/
abbrev State.TimeRouteSound (s : State) : Prop := s.time.timeRoute = s.bestTimeRoute

/-! ### Ranges (the tables of the chapters) -/

/-- What a route's records hold lies within the ranges that the chapters give. -/
abbrev State.RouteBounded (s : State) (r : RouteIx) : Prop :=
  s.lanes[r].ring.length ≤ 8 ∧ s.probes[r].outstanding.length ≤ 8 ∧ s.probes[r].ring.length ≤ 8 ∧
  s.probes[r].errorsToTell ≤ 255 ∧ s.health[r].error ≤ 255 ∧ s.health[r].good ≤ 255 ∧ s.tx[r].queue.length ≤ 48 ∧
  s.tx[r].echoes.length ≤ 4 ∧ s.score[r].lateness ≤ Config.latenessMax

/-- What a port's records hold lies within the ranges that R149 and R173 give. -/
abbrev State.PortBounded (s : State) (p : PortIx) : Prop :=
  s.ports[p].delivery.length ≤ 64 ∧ ∀ k : Fin 8, s.ports[p].records[k].count ≤ 255

/-- Every queue, ring, table and saturating count is within its range. -/
abbrev State.Bounded (s : State) : Prop := (∀ r, s.RouteBounded r) ∧ ∀ p, s.PortBounded p

/-! ### Routes (R53, R54, R60, R65, R67, R100, R114, R129) -/

/-- A route that a condition of R60 holds is DISABLED. -/
abbrev State.HeldDisabled (s : State) : Prop := ∀ r : RouteIx, s.permitted r = false → s.health[r].state = .disabled

/-- A DISABLED route runs no schedule and holds no sample, outstanding record, PROBE, ECHO or pattern error to report (R53,
R54); any other route's probe schedule runs (R37); the TEST schedule runs in PROVING alone, and a TEST waits nowhere else
(R65, R67). -/
abbrev State.QuietRoute (s : State) (r : RouteIx) : Prop :=
  (s.health[r].state = .disabled →
    s.probes[r].due = none ∧ s.probes[r].outstanding = [] ∧ s.probes[r].ring = [] ∧ s.probes[r].errorsToTell = 0 ∧
    s.tx[r].probeEntry = false ∧ s.tx[r].echoes = []) ∧
  (s.health[r].state ≠ .disabled → s.probes[r].due.isSome = true) ∧
  (s.health[r].state = .proving ↔ s.health[r].testDue.isSome = true) ∧
  (s.health[r].state ≠ .proving → s.tx[r].testEntry = false)

/-- A route in UP or FADING has a byte time and a forward delay, as R100 says of every eligible route; and a good reply of a
proving route is still in its ring (R53). No latest report holds a rate step above 7 (R28). -/
abbrev State.FiguredRoute (s : State) (r : RouteIx) : Prop :=
  (s.health[r].state.carries = true → (byteTime s.cfg.lanes[r].type s.lanes[r]).isSome = true ∧ s.probes[r].ring ≠ []) ∧
  (s.health[r].state = .proving → s.health[r].good ≠ 0 → s.probes[r].ring ≠ []) ∧
  s.lanes[r].latest.all (fun x => decide (x.step ≤ 7)) = true

/-- A route in DOWN, PROVING or DISABLED holds no copy in its waiting queue (R129). -/
abbrev State.EmptyOffRoute (s : State) : Prop := ∀ r : RouteIx, s.health[r].state.carries = false → s.tx[r].queue = []

/-- A peer's forced route names a route whose peer is that peer (R114), and none is forced during LOADING (R116). -/
abbrev State.ForceSound (s : State) : Prop :=
  (∀ (p : PeerIx) (r : RouteIx), s.peers[p].forced = some r → s.cfg.routes[r].peer = p) ∧
  (s.profile.load = .loading → ∀ p : PeerIx, s.peers[p].forced = none)

/-! ### Circuits (R91) -/

/-- Accepted equals sent plus discarded plus held, modulo 2^32 (R91). -/
abbrev OutTallies.Balanced (t : OutTallies) : Prop := t.accepted = t.sent + t.expired + t.noRoute + t.flushed + t.held

/-- The identity of R91 on every record. -/
abbrev State.TalliesBalanced (s : State) : Prop := ∀ n : CircIx, s.circuits[n].out.Balanced

/-! ### Frame memory (R154, R159) -/

/-- The taken slots stand in rising order below 1,024, the low-water mark is no higher than the free count, and HOLD stands as
R159 judges it: released only at 64 free or more, asserted only below 96. -/
abbrev Pool.Sound (p : Pool) : Prop :=
  (p.slots.map Prod.fst).Pairwise (· < ·) ∧ (∀ e ∈ p.slots, e.1 < Config.slotCount) ∧ p.lowWater ≤ p.free ∧
  (p.hold = false → Config.holdBelow ≤ p.free) ∧ (p.hold = true → p.free < Config.holdUntil)

/-- The references that the waiting queue and the current frame of a route hold to slot `k` (R155). -/
def Tx.holds (t : Tx) (k : Nat) : Nat :=
  (t.queue.countP fun c => c.slot == k) +
    match t.current with
    | some { copy := some c, .. } => if c.slot = k then 1 else 0
    | _ => 0

/-- The reference that the frame a lane is receiving holds to slot `k` (R155). -/
def Lane.holds (l : Lane) (k : Nat) : Nat :=
  match l.rx with
  | some { store := .slot j, .. } => if j = k then 1 else 0
  | _ => 0

/-- The reference that the SEND a port is receiving holds to slot `k` (R155). -/
def Inbound.holds (i : Inbound) (k : Nat) : Nat :=
  match i with
  | .slot j => if j = k then 1 else 0
  | _ => 0

/-- The references to slot `k` of frames between their first and last byte: the receiving references of R155. -/
def State.receiving (s : State) (k : Nat) : Nat :=
  ((List.finRange 16).map fun r => s.lanes[r].holds k).sum + ((List.finRange 6).map fun p => s.ports[p].inbound.holds k).sum

/-- Every reference to slot `k`: those of the waiting queues, the current frames and the delivery queues, and the receiving
references (R155). -/
def State.holders (s : State) (k : Nat) : Nat :=
  ((List.finRange 16).map fun r => s.tx[r].holds k).sum +
    ((List.finRange 6).map fun p => s.ports[p].delivery.countP fun e => e.slot == k).sum + s.receiving k

/-- The reference count of a taken slot is the number of its holders, at least one, and just one while the frame is being
received; a free slot has no holder (R155). -/
abbrev State.SlotSound (s : State) (k : Nat) : Prop :=
  (s.pool.frame k = none → s.holders k = 0) ∧
  ∀ f ∈ s.pool.frame k, f.refs = s.holders k ∧ 1 ≤ f.refs ∧ (1 ≤ s.receiving k → f.refs = 1)

/-- Frame memory is sound and every slot is accounted for. -/
abbrev State.SlotsSound (s : State) : Prop := s.pool.Sound ∧ ∀ k : Nat, s.SlotSound k

/-- What a circuit's waiting copies rest on: a circuit not CLOSED, with no close pending, OUT, its port the one the copy is
charged to (R85, R90, R117). -/
def Circuit.feedsPort (x : Circuit) (p : PortIx) : Bool :=
  x.state != .closed && x.closing.isNone &&
  match x.defn with
  | some { port := port, flow := .out _ _ _, .. } => decide (port = p)
  | _ => false

/-- A route holds at most one copy of a frame, waiting or current (R105, R128). -/
abbrev Tx.OneOfEach (t : Tx) : Prop :=
  (((t.current.bind Current.copy).toList ++ t.queue).map Copy.slot).Nodup

/-- The copies that wait are sound: one of a frame on a route, each of a circuit that its port may send on. -/
abbrev State.CopiesSound (s : State) : Prop :=
  ∀ r : RouteIx, s.tx[r].OneOfEach ∧ ∀ c ∈ s.tx[r].queue, s.circuits[c.circuit].feedsPort c.port = true

/-- The waiting copies of circuit `n`, by route and from head to tail. -/
def State.waitingOf (s : State) (n : CircIx) : List Copy :=
  (List.finRange 16).flatMap fun r => s.tx[r].queue.filter fun c => decide (c.circuit = n)

/-- The direction is OUT. -/
def Flow.isOut : Flow → Bool
  | .out _ _ _ => true
  | .inn _ => false

/-- A close pending count is the number, at least 1, of the circuit's copies that are lanes' current frames; a CLOSED circuit has
no copy waiting or current; and a current copy is of an OUT circuit (R85, R86). -/
abbrev State.ClosesSound (s : State) : Prop :=
  ∀ n : CircIx,
    (∀ k ∈ s.circuits[n].closing, 1 ≤ k ∧ k = s.currentCopies n) ∧
    (s.circuits[n].state = .closed → s.waitingOf n = [] ∧ s.currentCopies n = 0) ∧
    (1 ≤ s.currentCopies n → s.circuits[n].defn.any (fun d => d.flow.isOut) = true)

/-- The close of OUT circuit `n` flushes the frame of slot `k`: copies of it wait, all of them the circuit's, none is a lane's
current frame, and none has started (R85, R91). -/
def State.flushes (s : State) (n : CircIx) (k : Nat) : Bool :=
  s.notStarted k && (List.finRange 16).any (fun r => s.tx[r].queue.any fun c => c.slot == k) &&
  (List.finRange 16).all fun r =>
    (s.tx[r].queue.all fun c => c.slot != k || decide (c.circuit = n)) &&
      (s.tx[r].current.bind Current.copy).all fun c => c.slot != k

/-! ### Tenant links (R193) -/

/-- The link of port `p` is UP, and 100 µs have passed since the last byte received on it. -/
def State.silent (s : State) (p : PortIx) : Bool :=
  s.ports[p].up && s.ports[p].receiver.lastByte.any fun t => decide (12500 ≤ (s.time.et - t).toNat)

/-! ### Answers (R166, R176, R190) -/

/-- An answer is owed to the port: a SAVE's or a RESTART's. -/
abbrev State.owes (s : State) (p : PortIx) : Prop :=
  s.ports[p].saveOwed.isSome = true ∨ s.profile.restartOwed.map Prod.fst = some p

/-- At most 17 answers wait at a port, and at most 16 while one more is owed to it; a SAVE's answer is owed only while the SAVE
is in flight, and a RESTART's only while its load runs, when no SAVE is in flight (R171, R176). -/
abbrev State.AnswersSound (s : State) : Prop :=
  (∀ p : PortIx, s.ports[p].answers.length ≤ 17 ∧ (s.owes p → s.ports[p].answers.length ≤ 16)) ∧
  (∀ p : PortIx, s.ports[p].saveOwed.isSome = true → s.profile.save.isSome = true) ∧
  (s.profile.restartOwed.isSome = true → s.profile.load = .loading) ∧
  (s.profile.load = .loading → s.profile.save = none)

/-! ### Settings and the profile (R17, R33, R56, R72, R74, R77, R83, R181) -/

/-- A lane's settings are within the ranges of R33. -/
abbrev LaneSettings.InRange (l : LaneSettings) : Prop :=
  l.txc ≤ 65535 ∧ l.rxc ≤ 65535 ∧ 1 ≤ l.interval ∧ l.interval ≤ 100

/-- The fields of a direction of circuit `n` are within the ranges of R83. -/
def Flow.inRange (n : CircIx) : Flow → Bool
  | .out _ _ maxAge => decide (1 ≤ maxAge) && decide (maxAge ≤ 65535)
  | .inn relay => relay != some n

/-- A circuit's definition is within the ranges of R83. -/
abbrev CircuitDef.InRange (n : CircIx) (c : CircuitDef) : Prop := c.flow.inRange n = true

/-- No enabled peer has this terminal's id, and no two enabled peers share one (R74, R169). -/
abbrev Settings.IdsDistinct (c : Settings) : Prop :=
  ∀ p : PeerIx, c.peers[p].enabled = true →
    c.peers[p].termId ≠ c.termId ∧ ∀ q : PeerIx, c.peers[q].enabled = true → c.peers[q].termId = c.peers[p].termId → q = p

/-- The settings lie within the ranges, and pass the checks, of the directives that set them. -/
abbrev Settings.InRange (c : Settings) : Prop :=
  c.IdsDistinct ∧ (∀ r : RouteIx, c.lanes[r].InRange) ∧
  (∀ r : RouteIx, -1000000 ≤ c.routes[r].a ∧ c.routes[r].a ≤ 1000000) ∧ c.health.ok = true ∧ c.probe.ok = true ∧ c.time.ok = true

/-- The circuits of an image lie within the ranges, and pass the checks, of OPEN_CIRCUIT and of R181. -/
abbrev Image.CircuitsInRange (i : Image) : Prop :=
  i.circuits.length ≤ 64 ∧ circuitsDistinct i.circuits = true ∧
  ∀ c ∈ i.circuits, c.defn.InRange c.number ∧ (c.paused = true → c.defn.flow.isOut = true)

/-- An image that a SAVE can take of sound settings (R181, R186). -/
abbrev Image.InRange (i : Image) : Prop := i.settings.InRange ∧ i.CircuitsInRange

/-- A circuit that is not CLOSED has a definition within the ranges of R83, no other such circuit feeds its far circuit, and an
IN circuit is OPEN with no close pending; a CLOSED circuit has none pending (R81 to R88). -/
abbrev State.CircuitSound (s : State) (n : CircIx) : Prop :=
  (s.circuits[n].state = .closed → s.circuits[n].closing = none) ∧
  (s.circuits[n].state ≠ .closed →
    s.circuits[n].defn.isSome = true ∧
    ∀ defn ∈ s.circuits[n].defn,
      defn.InRange n ∧ s.farTaken n defn = false ∧
      (defn.flow.isOut = false → s.circuits[n].state = .opened ∧ s.circuits[n].closing = none))

/-- The live settings, the circuit records and the snapshot of a SAVE are what their directives allow, every circuit is CLOSED
during LOADING (R97), and the flash has its canonical form. -/
abbrev State.ProfileSound (s : State) : Prop :=
  s.cfg.InRange ∧ (∀ n : CircIx, s.CircuitSound n) ∧
  (s.profile.load = .loading → ∀ n : CircIx, s.circuits[n].state = .closed) ∧
  (∀ job ∈ s.profile.save, job.snapshot.InRange) ∧ flashWf s.flash = true

/-! ### What an event leaves alone -/

/-- Whatever changes of state the routes of `moved` make, and whatever notices and re-steers follow: the other routes keep their
lane, probe and health records, and of their transmit records all but the waiting queue; of the time base only the time route may
change, of a circuit only its OUT tallies, and of a port neither its link nor its queue of frames. -/
abbrev State.RoutesFrame (s t : State) (moved : RouteIx → Prop) : Prop :=
  (∀ q : RouteIx, ¬ moved q →
    t.lanes[q] = s.lanes[q] ∧ t.probes[q] = s.probes[q] ∧ t.health[q] = s.health[q] ∧
    { t.tx[q] with queue := s.tx[q].queue } = s.tx[q]) ∧
  (∀ n : CircIx, { t.circuits[n] with out := s.circuits[n].out } = s.circuits[n]) ∧
  (∀ p : PortIx,
    { t.ports[p] with
      records := s.ports[p].records, answers := s.ports[p].answers, misses := s.ports[p].misses,
      lastRequest := s.ports[p].lastRequest, counts := s.ports[p].counts } = s.ports[p]) ∧
  { t.time with timeRoute := s.time.timeRoute } = s.time ∧ t.score = s.score ∧ t.profile = s.profile ∧ t.flash = s.flash ∧
  t.pending = s.pending ∧ t.arriving = s.arriving

/-- The ROUTE_STATE notices of a route that passes from `old` through the states of `via` (R66). -/
def changeNotices (r : RouteIx) (old : RouteState) : (via : List RouteState) → List Notice
  | [] => []
  | new :: via => .routeState r old new :: changeNotices r new via

/-- Each route of `s` has passed through the states that `via` names, and `t` shows it as R65 and R66 say: the route's state, its
count of changes and the ET of the last one; in PROVING both counts 0 and the TEST schedule begun, out of it neither schedule nor
TEST; on passing through DOWN or DISABLED no sample and no outstanding record; on leaving UP and FADING no waiting copy; and at
every port the ROUTE_STATE record of these changes, in route order. -/
abbrev State.ChangesMade (s t : State) (via : RouteIx → List RouteState) : Prop :=
  (∀ r : RouteIx,
    t.health[r].state = (via r).getLastD s.health[r].state ∧
    t.health[r].counts.changes = s.health[r].counts.changes + BitVec.ofNat 32 (via r).length ∧
    t.health[r].lastChange = (if via r = [] then s.health[r].lastChange else some s.time.et) ∧
    ((via r).getLast? = some .proving →
      t.health[r].error = 0 ∧ t.health[r].good = 0 ∧ t.tx[r].testEntry = true ∧
      t.health[r].testDue = some (s.time.et + BitVec.ofNat 64 (t.cfg.probe.interval * 125000))) ∧
    (s.health[r].state = .proving → via r ≠ [] → (via r).getLast? ≠ some .proving →
      t.health[r].testDue = none ∧ t.tx[r].testEntry = false) ∧
    ((.down ∈ via r ∨ .disabled ∈ via r) → t.probes[r].ring = [] ∧ t.probes[r].outstanding = []) ∧
    (s.health[r].state.carries = true → t.health[r].state.carries = false → t.tx[r].queue = [])) ∧
  ∀ p : PortIx, t.ports[p].records[(1 : Fin 8)] =
    (((List.finRange 16).flatMap fun r => changeNotices r s.health[r].state (via r)).foldl Port.record
      s.ports[p]).records[(1 : Fin 8)]

/-- A route whose state differs in `t` has made that one change. -/
def State.oneChange (s t : State) (r : RouteIx) : List RouteState :=
  if t.health[r].state = s.health[r].state then [] else [t.health[r].state]

/-- The copy that is the current frame of lane `r` ceases to be it: a close pending on its circuit falls by 1, and at 0 the
circuit is CLOSED (R86). -/
def State.copyEnds (s : State) (r : RouteIx) : State :=
  match s.tx[r].current.bind Current.copy with
  | none => s
  | some c =>
    { s with
      circuits := s.circuits.set c.circuit
        (match s.circuits[c.circuit].closing with
        | none => s.circuits[c.circuit]
        | some k =>
          if k ≤ 1 then { s.circuits[c.circuit] with state := .closed, closing := none }
          else { s.circuits[c.circuit] with closing := some (k - 1) }) }

/-- An event of route `r` that no port sent: besides, its one change of state, if it makes one, is made as R65 and R66 say, and
the settings, the forced routes and the ports but for their pending records stay. -/
abbrev State.RouteFrame (s t : State) (r : RouteIx) : Prop :=
  s.RoutesFrame t (fun q => q = r) ∧ s.ChangesMade t (s.oneChange t) ∧ t.cfg = s.cfg ∧ t.peers = s.peers ∧
  ∀ p : PortIx, { t.ports[p] with records := s.ports[p].records } = s.ports[p]

/-- Frame memory once the frame a lane was receiving has given its slot up, if it took one (R155, R158). -/
def State.poolWithout (s : State) (rx : Rx) : Pool :=
  match rx.store with
  | .slot k => s.pool.release k
  | _ => s.pool

/-! ### When a directive acts (R166 to R168) -/

/-- A DIRECTIVE of directive code `name` is taken: the link is UP, its CRC is good and the answer queue has room (R166). -/
abbrev State.Takes (s : State) (d : Directive) (name : Nat) : Prop :=
  s.ports[d.port].up = true ∧ d.crc = crc32 (covered 0xA2 d.status (directiveBody name d)) ∧
  s.ports[d.port].answers.length < 16

/-- It reaches its owner as a directive that any port may send (R167): the terminal is RUNNING and the form is right. -/
abbrev State.Reaches (s : State) (d : Directive) (name argLen : Nat) : Prop :=
  s.Takes d name ∧ s.profile.load = .running ∧ d.args.length = argLen ∧ d.present.toNat ≤ 1

/-- It reaches its owner as an operator directive: besides, no SAVE is in flight and the code in force is presented (R168). -/
abbrev State.Authorised (s : State) (d : Directive) (name argLen : Nat) : Prop :=
  s.Reaches d name argLen ∧ s.profile.save = none ∧ d.present = 1 ∧ d.code = s.cfg.opCode

/-- The state in which the owner judges a directive that has been taken. -/
def State.taken (s : State) (d : Directive) : State := (s.markerSeen d.port).noteTaken d.port d.request

/-- The state after a directive that has had no effect but its answer: the run of misses ends, the directive is counted as
taken, and its answer joins the tail of the answer queue (R166). -/
def State.answered (s : State) (d : Directive) (status : Status) (results : List Byte) : State :=
  (s.taken d).answer d.port { request := d.request, status := status, results := results }

/-- What a directive leaves at the ports, whatever notices its effects raise: its answer at the tail of its own port's queue, and
every other queue as it was (R166). -/
abbrev State.Answers (s t : State) (d : Directive) (status : Status) (results : List Byte) : Prop :=
  t.ports[d.port].answers = s.ports[d.port].answers ++ [{ request := d.request, status := status, results := results }] ∧
  t.ports[d.port].lastRequest = some d.request ∧ t.ports[d.port].counts.taken = s.ports[d.port].counts.taken + 1 ∧
  ∀ p : PortIx, p ≠ d.port → t.ports[p].answers = s.ports[p].answers

/-- The operator, or the circuit's own port without a code, steers a circuit of this definition (R82). -/
abbrev State.MaySteer (s : State) (d : Directive) (defn : CircuitDef) : Prop :=
  (d.present = 1 ∧ d.code = s.cfg.opCode) ∨ (d.present = 0 ∧ d.port = defn.port)

/-! ### Accepted offsets (R6 to R9, R49, R51, R52) -/

/-- The state with a GOOD sample entered into the ring of route `r` (R47). -/
def State.withSample (s : State) (r : RouteIx) (x : Sample) : State :=
  s.modProbe r fun p => { p with ring := enterSample p.ring x }

/-- The gate is open for a GOOD sample of route `r`: with the sample in its ring the route is the time route, and its RTT is at
most M plus GATE (R52). -/
abbrev State.GateOpens (s : State) (r : RouteIx) (x : Sample) : Prop :=
  (s.withSample r x).bestTimeRoute = some r ∧
  ∀ m ∈ (s.withSample r x).probes[r].m, x.rtt ≤ m + s.cfg.probe.gate

/-- The time base of `t`, its time route apart, is that of `s` after it has accepted the offset θ of an interval in µs: the step
of R7 at or above STEP_LIMIT, else the slew of R8, with the lock count of R9; and a port's records of TIME_STEP and TIME_STATE
are as the notices of R7 and R9 leave them. -/
abbrev State.Disciplined (s t : State) (θ : Int) (interval : Nat) : Prop :=
  t.time.lastOffset = some s.time.et ∧ t.time.et = s.time.et ∧ t.time.capture = s.time.capture ∧
  t.time.accepted = s.time.accepted ∧ t.time.glitches = s.time.glitches ∧ t.time.lastEdge = s.time.lastEdge ∧
  t.time.p = max (-500000) (min 500000 (t.time.fc + t.time.sl)) ∧ t.time.inc = incOf t.time.p ∧
  (∀ p : PortIx, t.ports[p].records[(2 : Fin 8)] =
    if t.time.state = s.time.state then s.ports[p].records[(2 : Fin 8)]
    else (s.ports[p].record (.timeState t.time.state s.time.state)).records[(2 : Fin 8)]) ∧
  (s.cfg.time.stepLimit ≤ θ.natAbs →
    t.time.fc = s.time.fc ∧ t.time.sl = 0 ∧ t.time.good = 0 ∧ t.time.state = .acquiring ∧
    (0 ≤ (s.time.tt.toNat : Int) + θ →
      t.time.tt = BitVec.ofInt 64 (s.time.tt.toNat + θ) ∧ t.time.frac = s.time.frac) ∧
    ((s.time.tt.toNat : Int) + θ < 0 → t.time.tt = 0 ∧ t.time.frac = 0) ∧
    t.time.lastFired = max s.time.lastFired (t.time.tt.toNat / 1000000000) ∧
    t.time.ppsEdgesOut = s.time.ppsEdgesOut + (if s.time.lastFired < t.time.tt.toNat / 1000000000 then 1 else 0) ∧
    ∀ p : PortIx, t.ports[p].records[(0 : Fin 8)] = (s.ports[p].record (.timeStep θ)).records[(0 : Fin 8)]) ∧
  (θ.natAbs < s.cfg.time.stepLimit →
    t.time.tt = s.time.tt ∧ t.time.frac = s.time.frac ∧ t.time.lastFired = s.time.lastFired ∧
    t.time.ppsEdgesOut = s.time.ppsEdgesOut ∧
    t.time.fc = max (-200000) (min 200000 (s.time.fc + ((θ * 1000000).tdiv interval).tdiv (2 ^ s.cfg.time.ki : Nat))) ∧
    t.time.sl = ((θ * 1000000).tdiv interval).tdiv (2 ^ s.cfg.time.kp : Nat) ∧
    (t.time.good, t.time.state) = lockCount s.cfg.time.lockLimit s.time.state s.time.good θ ∧
    ∀ p : PortIx, t.ports[p].records[(0 : Fin 8)] = s.ports[p].records[(0 : Fin 8)])

/-! ### Frames and routes (R89, R100, R103, R164) -/

/-- A route is eligible for a frame of a peer (R100). -/
abbrev State.Eligible (s : State) (peer : PeerIx) (r : RouteIx) : Prop :=
  s.cfg.routes[r].peer = peer ∧ s.cfg.lanes[r].type ≠ .unused ∧ (s.health[r].state = .up ∨ s.health[r].state = .fading) ∧
  s.tx[r].queue.length < 48

/-- `r` has the least figure among the routes of `among`, a tie going to the lower index. -/
abbrev LeastRoute (among : RouteIx → Prop) (figure : RouteIx → Nat) (r : RouteIx) : Prop :=
  among r ∧ ∀ q : RouteIx, among q → figure r < figure q ∨ (figure r = figure q ∧ r ≤ q)

/-- A copy of the frame in slot `k` waits on a route other than `r`, or is current on its lane (R128). -/
abbrev State.HeldOnOther (s : State) (r : RouteIx) (k : Nat) : Prop :=
  ∃ q : RouteIx, q ≠ r ∧
    ((∃ c ∈ s.tx[q].queue, c.slot = k) ∨ ∃ c ∈ s.tx[q].current.bind Current.copy, c.slot = k)

/-- A re-steer placement of a frame of payload length `len` for a peer, leaving route `r`, finds route `q`: the forced route when
it is eligible, else the eligible route of least expected arrival, `r` apart (R103, R110). -/
abbrev State.ResteersTo (s : State) (peer : PeerIx) (len : Nat) (r q : RouteIx) : Prop :=
  (s.peers[peer].forced = some q ∧ q ≠ r ∧ s.Eligible peer q) ∨
  ((∀ f ∈ s.peers[peer].forced, f = r ∨ ¬ s.Eligible peer f) ∧
    LeastRoute (fun x => s.Eligible peer x ∧ x ≠ r) (s.expectedArrival len) q)

/-- The port that owns a circuit a SEND may name: an OUT circuit, not CLOSED, with no close pending (R89). -/
def Circuit.sendPort (x : Circuit) : Option PortIx :=
  match x.state, x.closing, x.defn with
  | .opened, none, some { port := port, flow := .out _ _ _, .. } => some port
  | .paused, none, some { port := port, flow := .out _ _ _, .. } => some port
  | _, _, _ => none

/-- The reason that R164 and R89 give, from the record of the circuit named on, for refusing a SEND with this body on port `p`,
its link CRC good; the selector is not yet asked. -/
abbrev State.RefusesSend (s : State) (p : PortIx) (body : List Byte) : RefusalReason → Prop
  | .notReady => s.profile.load = .loading
  | .tooLong => s.profile.load = .running ∧ (body.length ≤ 5 ∨ 1505 < body.length)
  | .notOpen =>
    s.profile.load = .running ∧ 5 < body.length ∧ body.length ≤ 1505 ∧
    ∀ n : CircIx, n.val = (body.getD 0 0).toNat → s.circuits[n].sendPort = none
  | .notOwner =>
    s.profile.load = .running ∧ 5 < body.length ∧ body.length ≤ 1505 ∧
    ∃ n : CircIx, n.val = (body.getD 0 0).toNat ∧ ∃ port : PortIx, s.circuits[n].sendPort = some port ∧ port ≠ p
  | .paused =>
    s.profile.load = .running ∧ 5 < body.length ∧ body.length ≤ 1505 ∧
    ∃ n : CircIx, n.val = (body.getD 0 0).toNat ∧ s.circuits[n].sendPort = some p ∧ s.circuits[n].state = .paused
  | .noRoute => False

/-- The operator directives, with their directive codes and argument lengths (R168, R193). -/
def operatorDirectives : List ((Directive → Instr) × Nat × Nat) :=
  [(.setIdentity, 7, 3), (.setPeer, 8, 3), (.setRoute, 9, 7), (.setLane, 10, 7), (.setHealth, 11, 9), (.setProbe, 12, 4),
   (.setTime, 13, 15), (.setCalendar, 14, 17), (.openCircuit, 15, 10), (.closeCircuit, 16, 1), (.forceRoute, 17, 2),
   (.releaseRoute, 18, 1), (.testRoute, 19, 1), (.saveProfile, 20, 0), (.restart, 21, 0)]

/-- The 21 directives the terminal knows, with their directive codes and argument lengths (R193). -/
def directives : List ((Directive → Instr) × Nat × Nat) :=
  [(.readTime, 1, 0), (.readTable, 2, 2), (.watch, 3, 2), (.pause, 4, 1), (.resume, 5, 1), (.clearCounts, 6, 1)] ++
    operatorDirectives

end Sys2Proof.Machine
end

