-- ==== Sys2Proof/Certificates/Slice0/Obligations.lean ====
section
/-! DEFINITION. What the model is claimed to satisfy: one proposition for each row of OBLIGATIONS.json. Each is stated for every
state, with the invariants and the conditions of Safety.lean as premises where a claim needs them. -/

open Sys2Proof Sys2Proof.Machine

/-- For every command c, list rest and state s: if c stands at the front of the queue and rest behind it, step s is exec c on s
with the queue rest; if the queue is empty and a link that is UP has had no byte for 100 µs since its last one, LINK_DOWN of
each such link joins the queue, in port order; with no such link, the next that comes from outside is taken: a command joins
the queue, a byte of a tenant link goes to the receiver of its port, and the commands this makes join the queue; and with
nothing to come the terminal idles. What an empty queue does is the model's choice (log entries 3 and 11). (R193,
95_what_each_step_holds.md, 00_scope.md) -/
def Obligations.StepRunsFrontCommand : Prop :=
  ∀ (c : Instr) (rest : List Instr) (s : State),
    (s.pending = c :: rest → step s = exec c { s with pending := rest }) ∧
    (s.pending = [] →
      ((∃ p : PortIx, s.silent p = true) →
        step s = .next { s with pending := ((List.finRange 6).filter fun p => s.silent p).map Instr.linkDown }) ∧
      ((∀ p : PortIx, s.silent p = false) →
        (s.arriving = [] → step s = .next s) ∧
        ∀ more : List Arrival,
          (s.arriving = .command c :: more → step s = .next { s with arriving := more, pending := [c] }) ∧
          ∀ (p : PortIx) (b : Byte) (x : Receiver) (cs : List Instr), s.arriving = .byte p b :: more →
            s.ports[p].receiver.take p s.ports[p].up s.time.et b = (x, cs) →
            step s = .next
              { s with arriving := more, pending := cs, ports := s.ports.set p { s.ports[p] with receiver := x } }))

/-- For every command c and state s: if c is well formed, exec c s answers a next state; if it is not, exec c s answers a next
state or the refusal illFormed. No command faults, and no command is refused as not modelled. A next state that exec c s
answers has the queue of s, and what is to come from outside. That an ill-formed command is refused is log entry 25. (R187,
R193, 95_what_each_step_holds.md) -/
def Obligations.WellFormedCommandsComplete : Prop :=
  ∀ (c : Instr) (s : State),
    (c.wf = true → ∃ t, exec c s = .next t) ∧
    (c.wf = false → (∃ t, exec c s = .next t) ∨ exec c s = .refused .illFormed) ∧
    ∀ t : State, exec c s = .next t → t.pending = s.pending ∧ t.arriving = s.arriving

/-- State.reset has a sound time base, the time route of R15, every queue and count in its range, DISABLED routes at rest, sound
forced routes, balanced tallies, sound frame memory with every slot accounted for, sound waiting copies, sound close pending
counts, sound answer queues, and sound settings, circuits and flash. (R20, R36, R59, R80, R97, R116, R134, R153, R161, R178,
R191) -/
def Obligations.ResetMeetsInvariants : Prop :=
  State.reset.time.Sound ∧ State.reset.TimeRouteSound ∧ State.reset.Bounded ∧ State.reset.HeldDisabled ∧
  (∀ r, State.reset.QuietRoute r) ∧ (∀ r, State.reset.FiguredRoute r) ∧ State.reset.EmptyOffRoute ∧
  State.reset.ForceSound ∧ State.reset.TalliesBalanced ∧ State.reset.SlotsSound ∧ State.reset.CopiesSound ∧
  State.reset.ClosesSound ∧   State.reset.AnswersSound ∧ State.reset.ProfileSound

/-- For every state: ADVANCE answers a next state in which the 96-bit TT with its fraction has grown by INC modulo 2^96 and ET
by 1 modulo 2^64, and nothing else has changed. PPS_OUT_FIRE answers a next state in which, when the seconds part of TT is
greater than the last fired second, that becomes the seconds part and one more edge has been given; otherwise nothing
changes. (R1, R14) -/
def Obligations.TimeAdvances : Prop :=
  ∀ s : State,
    (∃ t, exec .advance s = .next t ∧
      t.time.tt.toNat * 2 ^ 32 + t.time.frac.toNat =
        (s.time.tt.toNat * 2 ^ 32 + s.time.frac.toNat + s.time.inc) % 2 ^ 96 ∧
      t.time.et = s.time.et + 1 ∧
      { t with time := { t.time with tt := s.time.tt, frac := s.time.frac, et := s.time.et } } = s) ∧
    exec .ppsOutFire s = .next
      { s with
        time :=
          if s.time.lastFired < s.time.tt.toNat / 1000000000 then
            { s.time with lastFired := s.time.tt.toNat / 1000000000, ppsEdgesOut := s.time.ppsEdgesOut + 1 }
          else s.time }

/-- In ACQUIRING or LOCKED, once ET has advanced by HOLDOVER_TIME times 125,000 ticks since the last accepted offset,
HOLDOVER_EXPIRY answers the state in HOLDOVER with SL 0, FC kept, P and INC recomputed, the good-offset count 0 and a
TIME_STATE notice raised at every port; nothing else changes. In FREE and in HOLDOVER, and before the expiry is reached,
nothing changes. (R10, R11, R2, R3) -/
def Obligations.HoldoverBegins : Prop :=
  ∀ (s : State) (since : Ticks),
    ((s.time.state = .acquiring ∨ s.time.state = .locked) → s.time.lastOffset = some since →
      s.cfg.time.holdover * 125000 ≤ (s.time.et - since).toNat →
      ∃ t, exec .holdoverExpiry s = .next t ∧
        t.time =
          { s.time with
            state := .holdover, sl := 0, good := 0, p := max (-500000) (min 500000 s.time.fc)
            inc := incOf (max (-500000) (min 500000 s.time.fc)) } ∧
        (∀ p : PortIx, t.ports[p] = s.ports[p].record (.timeState .holdover s.time.state)) ∧
        { t with time := s.time, ports := s.ports } = s) ∧
    ((s.time.state = .free ∨ s.time.state = .holdover ∨
      (s.time.lastOffset = some since ∧ (s.time.et - since).toNat < s.cfg.time.holdover * 125000)) →
      exec .holdoverExpiry s = .next s)

/-- PPS_EDGE less than 62,500,000 ticks after the last accepted edge adds 1 to the glitch count and changes nothing else. Any
other edge captures TT, adds 1 to the accepted-edge count and records ET; when the terminal is a FOLLOWER or PPS enable is
off, nothing else changes. (R12, R6) -/
def Obligations.PpsEdgeJudged : Prop :=
  ∀ s : State,
    (∀ since, s.time.lastEdge = some since → (s.time.et - since).toNat < 62500000 →
      exec .ppsEdge s = .next { s with time := { s.time with glitches := s.time.glitches + 1 } }) ∧
    ((∀ since, s.time.lastEdge = some since → 62500000 ≤ (s.time.et - since).toNat) →
      (s.cfg.time.role = .follower ∨ s.cfg.time.ppsEnable = false) →
      exec .ppsEdge s = .next
        { s with
          time :=
            { s.time with capture := some s.time.tt, accepted := s.time.accepted + 1, lastEdge := some s.time.et } })

/-- For a REFERENCE with PPS enable on, an edge that is no glitch gives an offset from TT to a whole second, from -499,999,999
to +500,000,000 ns. At or above STEP_LIMIT, TT steps by it with its fraction kept, SL and the good-offset count become 0,
the state ACQUIRING, PPS out is evaluated and TIME_STEP is raised; below, FC and SL take the slew of R8 with EST equal to
the offset, and the count and state follow R9. P and INC follow, the offset and the capture are recorded, and nothing else
changes. (R6, R7, R8, R9, R11, R12, R13, R14) -/
def Obligations.PpsOffsetDisciplines : Prop :=
  ∀ s : State, (∀ since, s.time.lastEdge = some since → 62500000 ≤ (s.time.et - since).toNat) →
    s.cfg.time.role = .reference → s.cfg.time.ppsEnable = true →
    ∃ (t : State) (θ : Int) (second : Nat),
      exec .ppsEdge s = .next t ∧ θ = second * 1000000000 - s.time.tt.toNat ∧ -499999999 ≤ θ ∧ θ ≤ 500000000 ∧
      t.time.lastOffset = some s.time.et ∧ t.time.capture = some s.time.tt ∧
      t.time.accepted = s.time.accepted + 1 ∧ t.time.lastEdge = some s.time.et ∧
      (s.cfg.time.stepLimit ≤ θ.natAbs →
        t.time.tt = BitVec.ofInt 64 (s.time.tt.toNat + θ) ∧ t.time.fc = s.time.fc ∧ t.time.sl = 0 ∧
        t.time.good = 0 ∧ t.time.state = .acquiring ∧
        t.time.lastFired = max s.time.lastFired (t.time.tt.toNat / 1000000000) ∧
        ∀ p : PortIx, t.ports[p] =
          if s.time.state = .acquiring then s.ports[p].record (.timeStep θ)
          else (s.ports[p].record (.timeStep θ)).record (.timeState .acquiring s.time.state)) ∧
      (θ.natAbs < s.cfg.time.stepLimit →
        t.time.tt = s.time.tt ∧ t.time.lastFired = s.time.lastFired ∧
        t.time.fc = max (-200000) (min 200000 (s.time.fc + θ.tdiv (2 ^ s.cfg.time.ki : Nat))) ∧
        t.time.sl = θ.tdiv (2 ^ s.cfg.time.kp : Nat) ∧
        (t.time.good, t.time.state) = lockCount s.cfg.time.lockLimit s.time.state s.time.good θ ∧
        ∀ p : PortIx, t.ports[p] =
          if t.time.state = s.time.state then s.ports[p]
          else s.ports[p].record (.timeState t.time.state s.time.state)) ∧
      t.time.p = max (-500000) (min 500000 (t.time.fc + t.time.sl)) ∧ t.time.inc = incOf t.time.p ∧
      t.time.frac = s.time.frac ∧ t.time.et = s.time.et ∧ t.time.timeRoute = s.time.timeRoute ∧
      t.time.glitches = s.time.glitches ∧ { t with time := s.time, ports := s.ports } = s

/-- An authorised SET_TIME whose arguments hold settings within the ranges of R17 answers DONE, replaces the time settings and
chooses the time route again. In ACQUIRING or LOCKED, when the new HOLDOVER_TIME has passed since the last accepted offset,
holdover begins: the state is HOLDOVER, SL 0, P and INC those of FC alone, the good-offset count 0, and TIME_STATE is raised
at every port. Otherwise the rest of the time base stays. Nothing else changes. Values outside the ranges or the check of
R17, and a role, followed peer or PPS enable byte that names none (log entry 13), are answered BAD_ARG, and no setting
changes. (R17, R18, R10, R11, R16, R166, R193) -/
def Obligations.SetTimeTakesEffect : Prop :=
  (∀ (s : State) (d : Directive) (x : TimeSettings) (route : Option RouteIx), s.Authorised d 13 15 → d.args = timeRecord x →
    (x.ok = true → route = State.bestTimeRoute { s with cfg := { s.cfg with time := x } } →
      ((s.time.state = .free ∨ s.time.state = .holdover ∨ s.time.lastOffset = none ∨
          ∃ since, s.time.lastOffset = some since ∧ (s.time.et - since).toNat < x.holdover * 125000) →
        exec (.setTime d) s = .next
          (State.answered { s with cfg := { s.cfg with time := x }, time := { s.time with timeRoute := route } } d
            .done [])) ∧
      ∀ since, (s.time.state = .acquiring ∨ s.time.state = .locked) → s.time.lastOffset = some since →
        x.holdover * 125000 ≤ (s.time.et - since).toNat →
        exec (.setTime d) s = .next
          (State.answered
            { s with
              cfg := { s.cfg with time := x }
              time :=
                { s.time with
                  state := .holdover, sl := 0, good := 0, p := max (-500000) (min 500000 s.time.fc)
                  inc := incOf (max (-500000) (min 500000 s.time.fc)), timeRoute := route }
              ports := Vector.ofFn fun p => s.ports[p].record (.timeState .holdover s.time.state) }
            d .done [])) ∧
    (x.ok = false → x.stepLimit < 2 ^ 32 → x.lockLimit < 2 ^ 32 → x.ki < 256 → x.kp < 256 → x.holdover < 65536 →
      exec (.setTime d) s = .next (s.answered d .badArg []))) ∧
  ∀ (s : State) (d : Directive), s.Authorised d 13 15 →
    (1 < (d.args.getD 0 0).toNat ∨ 3 < (d.args.getD 1 0).toNat ∨ 1 < (d.args.getD 2 0).toNat) →
    exec (.setTime d) s = .next (s.answered d .badArg [])

/-- In every state whose time route is the chosen one: a REFERENCE has no time route; a FOLLOWER has none just when no route
qualifies, and has route r just when r qualifies and every other qualifying route has a greater M, or the same M and a
higher index. A route qualifies when its peer is the followed peer, its state is UP or FADING and its sample ring holds a
sample. M is the least RTT of the ring. (R15) -/
def Obligations.TimeRouteIsLeast : Prop :=
  ∀ s : State, s.TimeRouteSound →
    (s.cfg.time.role = .reference → s.time.timeRoute = none) ∧
    (s.cfg.time.role = .follower →
      (s.time.timeRoute = none ↔
        ∀ r : RouteIx, ¬ (s.cfg.routes[r].peer = s.cfg.time.followed ∧
          (s.health[r].state = .up ∨ s.health[r].state = .fading) ∧ s.probes[r].ring ≠ [])) ∧
      ∀ r : RouteIx, s.time.timeRoute = some r ↔
        (s.cfg.routes[r].peer = s.cfg.time.followed ∧ (s.health[r].state = .up ∨ s.health[r].state = .fading) ∧
          s.probes[r].ring ≠ []) ∧
        ∀ q : RouteIx, s.cfg.routes[q].peer = s.cfg.time.followed →
          (s.health[q].state = .up ∨ s.health[q].state = .fading) → s.probes[q].ring ≠ [] →
          s.probes[r].m.getD 0 < s.probes[q].m.getD 0 ∨ (s.probes[r].m.getD 0 = s.probes[q].m.getD 0 ∧ r ≤ q)) ∧
    ∀ r : RouteIx,
      (s.probes[r].ring = [] → s.probes[r].m = none) ∧
      (s.probes[r].ring ≠ [] → ∃ x ∈ s.probes[r].ring, s.probes[r].m = some x.rtt ∧ ∀ y ∈ s.probes[r].ring, x.rtt ≤ y.rtt)

/-- LOS_ASSERT on a lane whose LOS is released records and counts it; on an UNUSED lane that is all. On a RADIO or FIBER lane
the frame being received and the current frame are abandoned and counted, the RSL ring is emptied with trend STEADY, and a
route not DISABLED stands in DOWN; a close pending on the circuit of the copy abandoned falls by 1, and at 0 the circuit is
CLOSED. LOS_RELEASE records the release, and on a RADIO or FIBER lane takes the transition of R64 that the released lane
allows. A change of state is counted, dated and told by ROUTE_STATE at every port, with its effects on the route's own
records (R65, R66); with none, nothing else changes. A line that does not change level changes nothing (log entry 4). Other
routes keep their records. (R25, R26, R63, R64, R65, R66, R86, R127, R138) -/
def Obligations.LosLevels : Prop :=
  ∀ (s : State) (r : RouteIx),
    (s.lanes[r].los = true → exec (.losAssert r) s = .next s) ∧
    (s.lanes[r].los = false → s.cfg.lanes[r].type = .unused →
      exec (.losAssert r) s = .next
        { s with
          lanes := s.lanes.set r
            { s.lanes[r] with los := true, counts := { s.lanes[r].counts with los := s.lanes[r].counts.los + 1 } } }) ∧
    (s.lanes[r].los = false → s.cfg.lanes[r].type ≠ .unused →
      ∃ t, exec (.losAssert r) s = .next t ∧
        t.lanes[r] =
          { s.lanes[r] with
            los := true, ring := [], trend := .steady, rx := none
            counts :=
              { s.lanes[r].counts with
                los := s.lanes[r].counts.los + 1
                abandoned := s.lanes[r].counts.abandoned + (if s.lanes[r].rx.isSome then 1 else 0) } } ∧
        t.tx[r].current = none ∧
        t.tx[r].counts.abandoned = s.tx[r].counts.abandoned + (if s.tx[r].current.isSome then 1 else 0) ∧
        t.health[r].state = (if s.health[r].state = .disabled then .disabled else .down) ∧ (s.copyEnds r).RouteFrame t r ∧
        ∀ pool : Pool,
          pool =
            (match s.lanes[r].rx with
            | some rx => s.poolWithout rx
            | none => s.pool) →
          (s.health[r].state = .disabled ∨ s.health[r].state = .down) →
          t = { s.copyEnds r with
                lanes := s.lanes.set r t.lanes[r]
                tx := s.tx.set r
                  { s.tx[r] with
                    current := none
                    counts :=
                      { s.tx[r].counts with
                        abandoned := s.tx[r].counts.abandoned + (if s.tx[r].current.isSome then 1 else 0) } }
                pool :=
                  match s.tx[r].current.bind Current.copy with
                  | some c => pool.release c.slot
                  | none => pool }) ∧
    (s.lanes[r].los = false → exec (.losRelease r) s = .next s) ∧
    (s.lanes[r].los = true → s.cfg.lanes[r].type = .unused →
      exec (.losRelease r) s = .next { s with lanes := s.lanes.set r { s.lanes[r] with los := false } }) ∧
    (s.lanes[r].los = true → s.cfg.lanes[r].type ≠ .unused →
      ∃ t, exec (.losRelease r) s = .next t ∧ t.lanes[r] = { s.lanes[r] with los := false } ∧
        t.health[r].state =
          (evalTarget s.cfg.health s.cfg.lanes[r].type { s.lanes[r] with los := false } s.health[r]).getD
            s.health[r].state ∧
        t.tx[r].current = s.tx[r].current ∧ s.RouteFrame t r ∧
        (t.health[r].state = s.health[r].state →
          t = { s with lanes := s.lanes.set r { s.lanes[r] with los := false } }))

/-- A record that is not 11 bytes, fails its CRC or is of another kind adds 1 to the bad-report count. A sound report on a lane
that is not RADIO adds 1 to the ignored count. On a RADIO lane the clamped report becomes the latest, the silence timer
restarts, SILENT ends, with LOS released the clamped RSL enters the ring of eight and the trend is formed from it, the
counts rise, and the route takes the transition of R64 for the new facts, as R65 and R66 say; with none, nothing else
changes. A trend that moves into FALLING or RISING from any other raises RSL_TREND with the route and the new trend at every
port; any other evaluation, and one that LOS holds back, raises none. The trend is STEADY below eight values, and else
judged from the oldest and the newest by SLOPE. (R28, R29, R30, R64, R65, R66, R197) -/
def Obligations.LaneReportTaken : Prop :=
  (∀ (s : State) (r : RouteIx),
    (∀ bs : List Byte, bs.length ≠ 11 ∨ field bs 7 4 ≠ (crc32 (bs.take 7)).toNat ∨ field bs 0 1 ≠ 1 →
      exec (.laneReport r bs) s = .next
        { s with
          lanes := s.lanes.set r
            { s.lanes[r] with counts := { s.lanes[r].counts with bad := s.lanes[r].counts.bad + 1 } } }) ∧
    ∀ (rsl : Int) (step quality : Nat) (alarms : Byte), -32768 ≤ rsl → rsl ≤ 32767 → step < 256 → quality < 65536 →
      (s.cfg.lanes[r].type ≠ .radio →
        exec (.laneReport r (withCrc (1 :: bytesOfInt 2 rsl ++ bytesOf 1 step ++ bytesOf 2 quality ++ [alarms]))) s = .next
          { s with
            lanes := s.lanes.set r
              { s.lanes[r] with counts := { s.lanes[r].counts with ignored := s.lanes[r].counts.ignored + 1 } } }) ∧
      (s.cfg.lanes[r].type = .radio →
        ∃ t, exec (.laneReport r
              (withCrc (1 :: bytesOfInt 2 rsl ++ bytesOf 1 step ++ bytesOf 2 quality ++ [alarms]))) s = .next t ∧
          t.lanes[r] =
            { s.lanes[r] with
              latest := some
                { rsl := max (-1000) (min 0 rsl), step := min 7 step, quality := min 500 quality
                  fault := alarms.getLsbD 0, temp := alarms.getLsbD 1, mute := alarms.getLsbD 2 }
              timer := some s.time.et
              silent := false
              ring := if s.lanes[r].los then s.lanes[r].ring else pushRsl s.lanes[r].ring (max (-1000) (min 0 rsl))
              trend :=
                if s.lanes[r].los then s.lanes[r].trend
                else trendOf s.cfg.health.slope (pushRsl s.lanes[r].ring (max (-1000) (min 0 rsl)))
              counts :=
                { s.lanes[r].counts with
                  reports := s.lanes[r].counts.reports + 1
                  clamped := s.lanes[r].counts.clamped +
                    (if rsl < -1000 ∨ 0 < rsl ∨ 7 < step ∨ 500 < quality then 1 else 0) } } ∧
          t.health[r].state =
            (evalTarget s.cfg.health .radio t.lanes[r] s.health[r]).getD s.health[r].state ∧ s.RouteFrame t r ∧
          (∀ p : PortIx, t.ports[p].records[(3 : Fin 8)] =
            if s.lanes[r].los = false ∧ t.lanes[r].trend ≠ s.lanes[r].trend ∧ t.lanes[r].trend ≠ .steady then
              (s.ports[p].record (.rslTrend r t.lanes[r].trend)).records[(3 : Fin 8)]
            else s.ports[p].records[(3 : Fin 8)]) ∧
          (t.health[r].state = s.health[r].state →
            t = { s with
                  lanes := s.lanes.set r t.lanes[r]
                  ports :=
                    if s.lanes[r].los = false ∧ t.lanes[r].trend ≠ s.lanes[r].trend ∧ t.lanes[r].trend ≠ .steady then
                      s.ports.map fun p => p.record (.rslTrend r t.lanes[r].trend)
                    else s.ports }))) ∧
  ∀ (slope : Nat) (ring mid : List Int) (oldest newest : Int),
    (ring.length < 8 → pushRsl ring newest = ring ++ [newest] ∧ trendOf slope ring = .steady) ∧
    (ring = oldest :: mid → mid.length = 7 → pushRsl ring newest = mid ++ [newest]) ∧
    (ring = oldest :: mid ++ [newest] → mid.length = 6 →
      trendOf slope ring =
        if (slope : Int) ≤ oldest - newest then .falling
        else if (slope : Int) ≤ newest - oldest then .rising else .steady)

/-- SILENCE_EXPIRY on a RADIO lane that is not SILENT, whose timer has run 3 report intervals, makes it SILENT with its timer
stopped, its ring empty and its trend STEADY, adds 1 to the silence count and leaves a route not DISABLED in DOWN, the
change made as R65 and R66 say; a route already in DOWN or DISABLED keeps all else. Where the lane is not RADIO, runs no
timer, is SILENT already, or the timer has not run so long, nothing changes. (R31, R63, R64, R65, R66) -/
def Obligations.SilenceFalls : Prop :=
  ∀ (s : State) (r : RouteIx),
    (∀ since, s.cfg.lanes[r].type = .radio → s.lanes[r].timer = some since → s.lanes[r].silent = false →
      3 * s.cfg.lanes[r].interval * 125000 ≤ (s.time.et - since).toNat →
      ∃ t, exec (.silenceExpiry r) s = .next t ∧
        t.lanes[r] =
          { s.lanes[r] with
            silent := true, timer := none, ring := [], trend := .steady
            counts := { s.lanes[r].counts with silences := s.lanes[r].counts.silences + 1 } } ∧
        t.health[r].state = (if s.health[r].state = .disabled then .disabled else .down) ∧ s.RouteFrame t r ∧
        ((s.health[r].state = .disabled ∨ s.health[r].state = .down) →
          t = { s with lanes := s.lanes.set r t.lanes[r] })) ∧
    ((s.cfg.lanes[r].type ≠ .radio ∨ s.lanes[r].timer = none ∨ s.lanes[r].silent = true ∨
        ∃ since, s.lanes[r].timer = some since ∧
          (s.time.et - since).toNat < 3 * s.cfg.lanes[r].interval * 125000) →
      exec (.silenceExpiry r) s = .next s)

/-- An authorised SET_LANE in range answers DONE and replaces the lane's settings. With the type unchanged and no silence expiry
brought on by the new interval, nothing else changes. A RADIO lane that stays RADIO, whose timer has run three of the new
report intervals and is not SILENT, falls silent at once as R31 says and its route is evaluated. With the type changed, the
frames on the lane end, a close pending on the circuit of a copy so ended falls by 1 and at 0 the circuit is CLOSED, the
report state is cleared, the silence timer runs only on RADIO, LOS and the lane's LOS count stay, and the route stands in
PROVING when its enable, its enabled peer and the new type permit it, through DISABLED if it was not DISABLED, else in
DISABLED; each change is made as R65 and R66 say, and other routes keep their records. A lane, type or report interval out
of range is BAD_ARG, and nothing else changes. (R33, R34, R60, R31, R64, R65, R66, R86, R193) -/
def Obligations.SetLaneTakesEffect : Prop :=
  (∀ (s : State) (d : Directive) (r : RouteIx) (x : LaneSettings), s.Authorised d 10 7 → x.InRange →
    d.args = bytesOf 1 r.val ++ laneRecord x →
    (x.type = s.cfg.lanes[r].type → silenceDue s.time.et x s.lanes[r] = false →
      exec (.setLane d) s = .next (State.answered { s with cfg := s.cfg.withLane r x } d .done [])) ∧
    (∀ since, x.type = .radio → s.cfg.lanes[r].type = .radio → s.lanes[r].timer = some since → s.lanes[r].silent = false →
      3 * x.interval * 125000 ≤ (s.time.et - since).toNat →
      ∃ t, exec (.setLane d) s = .next t ∧ t.cfg = s.cfg.withLane r x ∧
        t.lanes[r] =
          { s.lanes[r] with
            silent := true, timer := none, ring := [], trend := .steady
            counts := { s.lanes[r].counts with silences := s.lanes[r].counts.silences + 1 } } ∧
        t.health[r].state = (if s.health[r].state = .disabled then .disabled else .down) ∧ t.peers = s.peers ∧
        s.RoutesFrame t (fun q => q = r) ∧ s.ChangesMade t (s.oneChange t) ∧ s.Answers t d .done [] ∧
        ((s.health[r].state = .disabled ∨ s.health[r].state = .down) →
          t = State.answered { s with cfg := t.cfg, lanes := s.lanes.set r t.lanes[r] } d .done [])) ∧
    (x.type ≠ s.cfg.lanes[r].type →
      ∃ t, exec (.setLane d) s = .next t ∧ t.cfg = s.cfg.withLane r x ∧
        t.lanes[r] =
          { s.lanes[r] with
            latest := none, ring := [], trend := .steady, silent := false, rx := none
            timer := if x.type = .radio then some s.time.et else none
            counts :=
              { s.lanes[r].counts with
                abandoned := s.lanes[r].counts.abandoned + (if s.lanes[r].rx.isSome then 1 else 0) } } ∧
        t.tx[r].current = none ∧
        t.health[r].state =
          (if s.cfg.routes[r].enable = true ∧ s.cfg.peers[s.cfg.routes[r].peer].enabled = true ∧ x.type ≠ .unused then
            .proving
          else .disabled) ∧
        (s.health[r].state ≠ .disabled → t.probes[r].ring = [] ∧ t.probes[r].outstanding = []) ∧
        t.peers = s.peers ∧ (s.copyEnds r).RoutesFrame t (fun q => q = r) ∧
        s.ChangesMade t (fun q =>
          if q = r then
            (if s.health[r].state = .disabled then [] else [.disabled]) ++
              (if s.cfg.routes[r].enable = true ∧ s.cfg.peers[s.cfg.routes[r].peer].enabled = true ∧ x.type ≠ .unused then
                [.proving]
              else [])
          else []) ∧
        s.Answers t d .done [])) ∧
  ∀ (s : State) (d : Directive), s.Authorised d 10 7 →
    (15 < (d.args.getD 0 0).toNat ∨ 2 < (d.args.getD 1 0).toNat ∨ (d.args.getD 6 0).toNat = 0 ∨
      100 < (d.args.getD 6 0).toNat) →
    exec (.setLane d) s = .next (s.answered d .badArg [])

/-- When the probe interval has passed since the last request fell due, PROBE_REQUEST places a PROBE in an empty entry or adds 1
to the replaced-skip count, and the next request falls due one interval later; nothing else changes. TEST_REQUEST of a
proving route does the same with the TEST entry and the TEST skip count, and then the route takes the transition of R64,
made as R65 and R66 say, which withdraws the TEST. Before the interval has passed, or with the schedule stopped, nothing
changes (log entry 4). (R37, R67, R64, R54, R65, R66) -/
def Obligations.ScheduledRequests : Prop :=
  ∀ (s : State) (r : RouteIx),
    (s.probes[r].due = none → exec (.probeRequest r) s = .next s) ∧
    (s.health[r].testDue = none → exec (.testRequest r) s = .next s) ∧
    ∀ (due iv : Ticks), iv = BitVec.ofNat 64 (s.cfg.probe.interval * 125000) →
      s.cfg.probe.interval * 125000 < 2 ^ 64 →
      (s.probes[r].due = some due →
        ((s.time.et - (due - iv)).toNat < iv.toNat → exec (.probeRequest r) s = .next s) ∧
        (iv.toNat ≤ (s.time.et - (due - iv)).toNat →
          exec (.probeRequest r) s = .next
            { s with
              tx := s.tx.set r { s.tx[r] with probeEntry := true }
              probes := s.probes.set r
                { s.probes[r] with
                  due := some (due + iv)
                  counts :=
                    { s.probes[r].counts with
                      replacedSkips := s.probes[r].counts.replacedSkips + (if s.tx[r].probeEntry then 1 else 0) } } })) ∧
      (s.health[r].testDue = some due →
        ((s.time.et - (due - iv)).toNat < iv.toNat → exec (.testRequest r) s = .next s) ∧
        (iv.toNat ≤ (s.time.et - (due - iv)).toNat →
          (s.evaluation r = none →
            exec (.testRequest r) s = .next
              { s with
                tx := s.tx.set r { s.tx[r] with testEntry := true }
                health := s.health.set r
                  { s.health[r] with
                    testDue := some (due + iv)
                    counts :=
                      { s.health[r].counts with
                        testSkips := s.health[r].counts.testSkips + (if s.tx[r].testEntry then 1 else 0) } } }) ∧
          ∀ new, s.evaluation r = some new → s.health[r].state = .proving →
            ∃ t, exec (.testRequest r) s = .next t ∧ t.health[r].state = new ∧ t.health[r].testDue = none ∧
              t.tx[r].testEntry = false ∧ s.RouteFrame t r))

/-- When an outstanding record of a route has reached the probe timeout and none before it has, PROBE_TIMEOUT adds 1 to the LOST
count, raises the error count by 8 up to 255 and sets the good-window count of a proving route to 0. If the route then takes
no transition, the record alone is removed and nothing else changes; otherwise the route stands in the state R64 gives, the
change made as R65 and R66 say. When no record has reached the timeout, nothing changes. (R39, R48, R61, R64, R65, R66, R70) -/
def Obligations.ProbeTimeoutLosesOldest : Prop :=
  ∀ (s : State) (r : RouteIx),
    ((∀ o ∈ s.probes[r].outstanding, (s.time.et - o.sentAt).toNat < s.cfg.probe.timeout * 125000) →
      exec (.probeTimeout r) s = .next s) ∧
    ∀ (before after : List Outstanding) (o : Outstanding) (h : Health),
      s.probes[r].outstanding = before ++ o :: after →
      (∀ x ∈ before, (s.time.et - x.sentAt).toNat < s.cfg.probe.timeout * 125000) →
      s.cfg.probe.timeout * 125000 ≤ (s.time.et - o.sentAt).toNat →
      h = { s.health[r] with
            error := min 255 (s.health[r].error + 8)
            good := if s.health[r].state = .proving then 0 else s.health[r].good } →
      ∃ t, exec (.probeTimeout r) s = .next t ∧
        t.probes[r].counts = { s.probes[r].counts with lost := s.probes[r].counts.lost + 1 } ∧
        t.health[r].state =
          (evalTarget s.cfg.health s.cfg.lanes[r].type s.lanes[r] h).getD s.health[r].state ∧ s.RouteFrame t r ∧
        (evalTarget s.cfg.health s.cfg.lanes[r].type s.lanes[r] h = none →
          t = { s with
                health := s.health.set r h
                probes := s.probes.set r
                  { s.probes[r] with
                    outstanding := before ++ after
                    counts := { s.probes[r].counts with lost := s.probes[r].counts.lost + 1 } } })

/-- An authorised SET_PROBE whose arguments pass the checks of R56 answers DONE and replaces the three settings, and leaves no
outstanding record that has reached the new timeout. Where some have, on the route of least index first (that routes come in
this order is the model's choice, log entry 24) and on each route the oldest first (R57), the directive does what it does
once PROBE_TIMEOUT under the new settings has made that record LOST. When none had, every running PROBE schedule falls due
one new interval from now, every running TEST schedule too if the interval changed, and nothing else changes. Arguments that
fail the checks are answered BAD_ARG and change no setting. (R56, R57, R67, R48) -/
def Obligations.SetProbeTakesEffect : Prop :=
  ∀ (s : State) (d : Directive) (x : ProbeSettings), s.Authorised d 12 4 → d.args = probeRecord x → x.interval < 256 →
    x.timeout < 256 → x.gate < 65536 →
    (x.ok = false → exec (.setProbe d) s = .next (s.answered d .badArg [])) ∧
    (x.ok = true →
      (∃ t, exec (.setProbe d) s = .next t ∧ t.cfg = { s.cfg with probe := x } ∧ s.Answers t d .done [] ∧
        (∀ r : RouteIx, t.probes[r].due =
          s.probes[r].due.map fun _ => s.time.et + BitVec.ofNat 64 (x.interval * 125000)) ∧
        ∀ r : RouteIx, ∀ o ∈ t.probes[r].outstanding, (s.time.et - o.sentAt).toNat < x.timeout * 125000) ∧
      (∀ (r : RouteIx) (s' : State),
        (∃ o ∈ s.probes[r].outstanding, x.timeout * 125000 ≤ (s.time.et - o.sentAt).toNat) →
        (∀ q : RouteIx, q < r → ∀ o ∈ s.probes[q].outstanding, (s.time.et - o.sentAt).toNat < x.timeout * 125000) →
        exec (.probeTimeout r) { s with cfg := { s.cfg with probe := x } } = .next s' →
        exec (.setProbe d) s = exec (.setProbe d) { s' with cfg := s.cfg }) ∧
      ((∀ r : RouteIx, ∀ o ∈ s.probes[r].outstanding, (s.time.et - o.sentAt).toNat < x.timeout * 125000) →
        exec (.setProbe d) s = .next
          (State.answered
            { s with
              cfg := { s.cfg with probe := x }
              probes := Vector.ofFn fun r =>
                { s.probes[r] with due := s.probes[r].due.map fun _ => s.time.et + BitVec.ofNat 64 (x.interval * 125000) }
              health := Vector.ofFn fun r =>
                { s.health[r] with
                  testDue :=
                    if x.interval = s.cfg.probe.interval then s.health[r].testDue
                    else s.health[r].testDue.map fun _ => s.time.et + BitVec.ofNat 64 (x.interval * 125000) } }
            d .done [])))

/-- For an ECHO with a good CRC and its peer's id, on a route not DISABLED: with no record of its number the late-echo count
alone rises. With a record, the record goes and the peer view is replaced; if its t1 differs or the RTT is below 0 the
BAD_SAMPLE count rises, else the good-reply count rises and the sample enters the ring as the newest of eight, unless the
route goes DOWN and is flushed. The error count and, in PROVING, the good-window count move by R61 and R70, and the route
takes the transition of R64, made as R65 and R66 say; with none, nothing else changes but what an accepted offset does. A
GOOD sample of a FOLLOWER, whose route is the time route with it and whose RTT is at most M plus GATE, hands over its offset
(D - A)/2, rounded down, over the probe interval, and terminal time accepts it by R6 to R9; else, and for a REFERENCE, the
time base keeps all but its time route. Other routes keep their records. (R6, R7, R8, R9, R45, R46, R47, R48, R51, R52, R61,
R70) -/
def Obligations.EchoResolved : Prop :=
  ∀ (s : State) (r : RouteIx) (rx : Rx) (rest : List Byte) (number errors view : Byte) (t1 t2 t3 : Stamp),
    s.lanes[r].rx = some rx → rx.store = .buffer → s.health[r].state ≠ .disabled →
    rx.first :: rest =
      withCrc ([3, s.cfg.peers[s.cfg.routes[r].peer].termId, number, errors, view] ++ bytesOf 8 t1.toNat ++
        bytesOf 8 t2.toNat ++ bytesOf 8 t3.toNat) →
    ((∀ o ∈ s.probes[r].outstanding, o.number ≠ number) →
      exec (.frameEnd r rest) s = .next
        { s with
          lanes := s.lanes.set r { s.lanes[r] with rx := none }
          score := s.score.set r { s.score[r] with echoes := s.score[r].echoes + 1 }
          probes := s.probes.set r
            { s.probes[r] with
              counts := { s.probes[r].counts with lateEcho := s.probes[r].counts.lateEcho + 1 } } }) ∧
    ∀ (before after : List Outstanding) (o : Outstanding), s.probes[r].outstanding = before ++ o :: after →
      (∀ x ∈ before, x.number ≠ number) → o.number = number →
      ∃ t, exec (.frameEnd r rest) s = .next t ∧ t.lanes = s.lanes.set r { s.lanes[r] with rx := none } ∧
        t.score = s.score.set r { s.score[r] with echoes := s.score[r].echoes + 1 } ∧
        t.probes[r].peerView = some { state := view, errors := errors, at_ := s.time.et } ∧
        (t.health[r].state = s.health[r].state ∨ t.health[r].state ≠ .down →
          t.probes[r].outstanding = before ++ after) ∧
        (t.health[r].state ≠ s.health[r].state → t.health[r].state = .down → t.probes[r].outstanding = []) ∧
        ((o.t1 ≠ t1 ∨ roundTrip t1 t2 t3 rx.stamp < 0) →
          t.probes[r].counts = { s.probes[r].counts with badSample := s.probes[r].counts.badSample + 1 } ∧
          t.health[r].state =
            (evalTarget s.cfg.health s.cfg.lanes[r].type s.lanes[r]
              { s.health[r] with
                error := min 255 (s.health[r].error + (if errors = 0 then 8 else 9))
                good := if s.health[r].state = .proving then 0 else s.health[r].good }).getD s.health[r].state ∧
          (t.health[r].state = s.health[r].state →
            t.health[r].error = min 255 (s.health[r].error + (if errors = 0 then 8 else 9)) ∧
            t.health[r].good = if s.health[r].state = .proving then 0 else s.health[r].good) ∧
          { t.time with timeRoute := s.time.timeRoute } = s.time ∧
          s.RouteFrame { t with lanes := s.lanes, score := s.score } r ∧
          (t.health[r].state = s.health[r].state →
            t = { s with
                  lanes := s.lanes.set r { s.lanes[r] with rx := none }
                  score := s.score.set r { s.score[r] with echoes := s.score[r].echoes + 1 }
                  health := s.health.set r
                    { s.health[r] with
                      error := min 255 (s.health[r].error + (if errors = 0 then 8 else 9))
                      good := if s.health[r].state = .proving then 0 else s.health[r].good }
                  probes := s.probes.set r
                    { s.probes[r] with
                      outstanding := before ++ after
                      peerView := some { state := view, errors := errors, at_ := s.time.et }
                      counts := { s.probes[r].counts with badSample := s.probes[r].counts.badSample + 1 } } })) ∧
        (o.t1 = t1 → 0 ≤ roundTrip t1 t2 t3 rx.stamp → ∀ x : Sample,
          x = { number := number, rtt := (roundTrip t1 t2 t3 rx.stamp).toNat, d := offsetTerm t1 t2 t3 rx.stamp
                at_ := s.time.et } →
          ∀ error : Nat, error = min 255 (s.health[r].error - (if errors = 0 then 1 else 0)) →
          ∀ good : Nat, good = (if s.health[r].state = .proving then
              (if errors = 0 then min 255 (s.health[r].good + 1) else 0)
            else s.health[r].good) →
          ∀ θ : Int, θ = (x.d - s.cfg.routes[r].a) / 2 →
          (t.health[r].state = s.health[r].state ∨ t.health[r].state ≠ .down →
            t.probes[r].ring = enterSample s.probes[r].ring x) ∧
          (t.health[r].state ≠ s.health[r].state → t.health[r].state = .down → t.probes[r].ring = []) ∧
          t.health[r].state =
            (evalTarget s.cfg.health s.cfg.lanes[r].type s.lanes[r]
              { s.health[r] with error := error, good := good }).getD s.health[r].state ∧
          ((s.health[r].state = .proving ∨ t.health[r].state ≠ .proving) →
            t.health[r].error = error ∧ t.health[r].good = good) ∧
          (s.health[r].state ≠ .proving → t.health[r].state = .proving → t.health[r].error = 0 ∧ t.health[r].good = 0) ∧
          t.TimeRouteSound ∧
          (s.cfg.time.role = .reference → ¬ s.GateOpens r x) ∧
          (¬ s.GateOpens r x →
            t.probes[r].counts = { s.probes[r].counts with good := s.probes[r].counts.good + 1 } ∧
            (∀ p : PortIx, t.ports[p].records[(0 : Fin 8)] = s.ports[p].records[(0 : Fin 8)] ∧
              t.ports[p].records[(2 : Fin 8)] = s.ports[p].records[(2 : Fin 8)]) ∧
            s.RouteFrame { t with lanes := s.lanes, score := s.score } r) ∧
          (s.GateOpens r x →
            t.probes[r].counts =
              { s.probes[r].counts with
                good := s.probes[r].counts.good + 1, offsetsHanded := s.probes[r].counts.offsetsHanded + 1 } ∧
            s.Disciplined t θ (s.cfg.probe.interval * 1000) ∧
            s.RouteFrame { t with lanes := s.lanes, score := s.score, time := s.time } r) ∧
          (t.health[r].state = s.health[r].state →
            (¬ s.GateOpens r x →
              t.time = { s.time with timeRoute := (s.withSample r x).bestTimeRoute } ∧ t.ports = s.ports) ∧
            t = { s with
                  lanes := s.lanes.set r { s.lanes[r] with rx := none }
                  score := s.score.set r { s.score[r] with echoes := s.score[r].echoes + 1 }
                  health := s.health.set r { s.health[r] with error := error, good := good }
                  probes := s.probes.set r
                    { s.probes[r] with
                      outstanding := before ++ after
                      ring := enterSample s.probes[r].ring x
                      peerView := some { state := view, errors := errors, at_ := s.time.et }
                      counts := t.probes[r].counts }
                  time := t.time
                  ports := t.ports }))

/-- For a PROBE with a good CRC and its peer's id on a route not DISABLED, an ECHO holding its number, its t1, the arrival
stamp, the pattern-error count to report and the route's state joins the ECHO entries, and that count becomes 0; with four
waiting it is dropped and counted. For a TEST, the TESTs-checked count rises; when its pattern bytes are not the 256 of its
seed, the TESTs-failed count and the pattern-error count to report, saturating at 255, rise too. Nothing else changes but
the received counts. (R42, R43, R69, R137, R139, R195, R196) -/
def Obligations.ProbesAnsweredTestsChecked : Prop :=
  ∀ (s : State) (r : RouteIx) (rx : Rx) (rest : List Byte), s.lanes[r].rx = some rx → rx.store = .buffer →
    s.health[r].state ≠ .disabled →
    (∀ (number : Byte) (t1 : Stamp),
      rx.first :: rest = withCrc ([2, s.cfg.peers[s.cfg.routes[r].peer].termId, number] ++ bytesOf 8 t1.toNat) →
      (s.tx[r].echoes.length < 4 →
        exec (.frameEnd r rest) s = .next
          { s with
            lanes := s.lanes.set r { s.lanes[r] with rx := none }
            score := s.score.set r { s.score[r] with probes := s.score[r].probes + 1 }
            tx := s.tx.set r
              { s.tx[r] with
                echoes := s.tx[r].echoes ++
                  [{ number := number, t1 := t1, t2 := rx.stamp, errors := s.probes[r].errorsToTell
                     state := s.health[r].state }] }
            probes := s.probes.set r { s.probes[r] with errorsToTell := 0 } }) ∧
      (4 ≤ s.tx[r].echoes.length →
        exec (.frameEnd r rest) s = .next
          { s with
            lanes := s.lanes.set r { s.lanes[r] with rx := none }
            score := s.score.set r { s.score[r] with probes := s.score[r].probes + 1 }
            probes := s.probes.set r
              { s.probes[r] with
                counts := { s.probes[r].counts with echoesDropped := s.probes[r].counts.echoesDropped + 1 } } })) ∧
    ∀ (seed : BitVec 16) (received : List Byte), received.length ≤ 1524 →
      rx.first :: rest =
        withCrc ([4, s.cfg.peers[s.cfg.routes[r].peer].termId] ++ bytesOf 2 seed.toNat) ++ received →
      (received = pattern seed →
        exec (.frameEnd r rest) s = .next
          { s with
            lanes := s.lanes.set r { s.lanes[r] with rx := none }
            score := s.score.set r { s.score[r] with tests := s.score[r].tests + 1 }
            health := s.health.set r
              { s.health[r] with
                counts := { s.health[r].counts with testsChecked := s.health[r].counts.testsChecked + 1 } } }) ∧
      (received ≠ pattern seed →
        exec (.frameEnd r rest) s = .next
          { s with
            lanes := s.lanes.set r { s.lanes[r] with rx := none }
            score := s.score.set r { s.score[r] with tests := s.score[r].tests + 1 }
            health := s.health.set r
              { s.health[r] with
                counts :=
                  { s.health[r].counts with
                    testsChecked := s.health[r].counts.testsChecked + 1
                    testsFailed := s.health[r].counts.testsFailed + 1 } }
            probes := s.probes.set r
              { s.probes[r] with errorsToTell := min 255 (s.probes[r].errorsToTell + 1) } })

/-- FRAME_END of a frame that is unreceived, or on a DISABLED route, ends it, releases its slot if it took one, and counts
nothing. On a route not DISABLED, a frame of at most 1,532 bytes that fails its CRC ends, adds 1 to the CRC-failure count
and 1, up to 255, to the error count, and the route takes the transition of R64, made as R65 and R66 say; with none taken,
only its lane, health and slot change. LENGTH_LIMIT_END adds 1 to the oversize count and is otherwise the same. With no
frame being received nothing changes. (R24, R61, R62, R64, R65, R66, R136, R137, R158, R195) -/
def Obligations.FramesFailAndEnd : Prop :=
  ∀ (s : State) (r : RouteIx) (rest : List Byte),
    (s.lanes[r].rx = none →
      exec (.frameEnd r rest) s = .next s ∧ exec (.lengthLimitEnd r) s = .next s) ∧
    ∀ rx : Rx, s.lanes[r].rx = some rx →
      (rest.length < 1532 → (rx.store = .unreceived ∨ s.health[r].state = .disabled) →
        exec (.frameEnd r rest) s = .next
          { s with lanes := s.lanes.set r { s.lanes[r] with rx := none }, pool := s.poolWithout rx }) ∧
      ((rx.store = .unreceived ∨ s.health[r].state = .disabled) →
        exec (.lengthLimitEnd r) s = .next
          { s with
            pool := s.poolWithout rx
            lanes := s.lanes.set r
              { s.lanes[r] with
                rx := none
                counts := { s.lanes[r].counts with oversize := s.lanes[r].counts.oversize + 1 } } }) ∧
      ∀ h : Health,
        h = { s.health[r] with
              error := min 255 (s.health[r].error + 1)
              counts := { s.health[r].counts with crcFailures := s.health[r].counts.crcFailures + 1 } } →
        rx.store ≠ .unreceived → s.health[r].state ≠ .disabled →
        (rest.length < 1532 → frameCrcGood (rx.first :: rest) = false →
          ∃ t, exec (.frameEnd r rest) s = .next t ∧
            t.health[r].state =
              (evalTarget s.cfg.health s.cfg.lanes[r].type s.lanes[r] h).getD s.health[r].state ∧
            t.lanes = s.lanes.set r { s.lanes[r] with rx := none } ∧
            s.RouteFrame { t with lanes := s.lanes } r ∧
            (evalTarget s.cfg.health s.cfg.lanes[r].type s.lanes[r] h = none →
              t = { s with
                    lanes := s.lanes.set r { s.lanes[r] with rx := none }
                    pool := s.poolWithout rx
                    health := s.health.set r h })) ∧
        ∃ t, exec (.lengthLimitEnd r) s = .next t ∧
          t.health[r].state =
            (evalTarget s.cfg.health s.cfg.lanes[r].type s.lanes[r] h).getD s.health[r].state ∧
          t.lanes[r] =
            { s.lanes[r] with
              rx := none
              counts := { s.lanes[r].counts with oversize := s.lanes[r].counts.oversize + 1 } } ∧
          s.RouteFrame t r ∧
          (evalTarget s.cfg.health s.cfg.lanes[r].type s.lanes[r] h = none →
            t = { s with
                  pool := s.poolWithout rx
                  health := s.health.set r h
                  lanes := s.lanes.set r
                    { s.lanes[r] with
                      rx := none
                      counts := { s.lanes[r].counts with oversize := s.lanes[r].counts.oversize + 1 } } })

/-- For every lane, error count and set of health thresholds that passes the checks of SET_HEALTH: FADE and CLEAR do not both
hold, and CUT without the error-count term and RECOVER do not both hold; and a RADIO lane that holds no report meets CUT and
not RECOVER. (R63, R77) -/
def Obligations.ConditionsExclude : Prop :=
  ∀ (h : HealthSettings) (ty : LaneType) (l : Lane) (error : Nat), h.ok = true →
    ¬ (fadeHolds h ty l error = true ∧ clearHolds h ty l error = true) ∧
    ¬ (cutLane h ty l = true ∧ recoverHolds h ty l = true) ∧
    (ty = .radio → l.latest = none → cutLane h ty l = true ∧ recoverHolds h ty l = false)

/-- An authorised SET_ROUTE in range answers DONE and replaces the route's enable, peer and A. With enable off the route stands
in DISABLED; with enable on, a changed peer or a DISABLED route leads to PROVING when the peer is enabled and the lane not
UNUSED, else to DISABLED; otherwise the state stays. Each change of state, a changed peer through DISABLED, is made as R65
and R66 say. A changed peer clears the old peer's forced route when it names this route, and the forced routes otherwise
stay. Other routes keep their records. A route, enable, peer or A out of range is BAD_ARG, and nothing else changes. (R72,
R73, R55, R60, R65, R66, R114) -/
def Obligations.SetRouteTakesEffect : Prop :=
  (∀ (s : State) (d : Directive) (r : RouteIx) (x : RouteSettings), s.Authorised d 9 7 →
    d.args = bytesOf 1 r.val ++ routeRecord x → -1000000 ≤ x.a → x.a ≤ 1000000 →
    ∃ t, exec (.setRoute d) s = .next t ∧ t.cfg = s.cfg.withRoute r x ∧ t.lanes = s.lanes ∧
      t.health[r].state =
        (if x.enable = false then .disabled
        else if x.peer ≠ s.cfg.routes[r].peer ∨ s.health[r].state = .disabled then
          (if s.cfg.peers[x.peer].enabled = true ∧ s.cfg.lanes[r].type ≠ .unused then .proving else .disabled)
        else s.health[r].state) ∧
      (∀ p : PeerIx,
        t.peers[p] =
          if p = s.cfg.routes[r].peer ∧ x.peer ≠ p ∧ s.peers[p].forced = some r then { s.peers[p] with forced := none }
          else s.peers[p]) ∧
      (x.peer ≠ s.cfg.routes[r].peer → s.health[r].state ≠ .disabled →
        t.probes[r].ring = [] ∧ t.probes[r].outstanding = []) ∧
      s.ChangesMade t (fun q =>
        if q = r then
          (if s.health[r].state ≠ .disabled ∧ (x.enable = false ∨ x.peer ≠ s.cfg.routes[r].peer) then [.disabled]
          else []) ++
            (if x.enable = true ∧ (x.peer ≠ s.cfg.routes[r].peer ∨ s.health[r].state = .disabled) ∧
                s.cfg.peers[x.peer].enabled = true ∧ s.cfg.lanes[r].type ≠ .unused then
              [.proving]
            else [])
        else []) ∧
      s.RoutesFrame t (fun q => q = r) ∧ s.Answers t d .done []) ∧
  ∀ (s : State) (d : Directive), s.Authorised d 9 7 →
    (15 < (d.args.getD 0 0).toNat ∨ 1 < (d.args.getD 1 0).toNat ∨ 3 < (d.args.getD 2 0).toNat ∨
      signedField d.args 3 4 < -1000000 ∨ 1000000 < signedField d.args 3 4) →
    exec (.setRoute d) s = .next (s.answered d .badArg [])

/-- An authorised SET_PEER that enables the peer with this terminal's id, or with the id of another enabled peer, is answered
BAD_ARG and changes nothing; so is one that names a peer out of range, or whose enabled byte is neither 0 nor 1 (log entry
13). Otherwise it answers DONE and stores the settings; each route of the peer passes to DISABLED when the peer ceases to be
enabled, a DISABLED route that is enabled on a lane not UNUSED passes to PROVING when it becomes enabled, and a route not
DISABLED passes through DISABLED to PROVING when the id changes while it stays enabled. Each change is made as R65 and R66
say, the notices in route order (R76). Routes of other peers keep their records. (R74, R75, R60, R65, R66, R76) -/
def Obligations.SetPeerTakesEffect : Prop :=
  (∀ (s : State) (d : Directive) (p : PeerIx) (x : PeerSettings), s.Authorised d 8 3 →
    d.args = bytesOf 1 p.val ++ peerRecord x →
    (x.enabled = true →
      (x.termId = s.cfg.termId ∨
        ∃ q : PeerIx, q ≠ p ∧ s.cfg.peers[q].enabled = true ∧ s.cfg.peers[q].termId = x.termId) →
      exec (.setPeer d) s = .next (s.answered d .badArg [])) ∧
    ((x.enabled = true →
        x.termId ≠ s.cfg.termId ∧
        ∀ q : PeerIx, q ≠ p → s.cfg.peers[q].enabled = true → s.cfg.peers[q].termId ≠ x.termId) →
      ∃ t, exec (.setPeer d) s = .next t ∧ t.cfg = s.cfg.withPeer p x ∧ t.peers = s.peers ∧ t.lanes = s.lanes ∧
        (∀ r : RouteIx, s.cfg.routes[r].peer = p →
          t.health[r].state =
            match s.cfg.peers[p].enabled, x.enabled with
            | true, false => .disabled
            | false, true =>
              if s.health[r].state = .disabled ∧ s.cfg.routes[r].enable = true ∧ s.cfg.lanes[r].type ≠ .unused then
                .proving
              else s.health[r].state
            | true, true =>
              if s.cfg.peers[p].termId ≠ x.termId ∧ s.health[r].state ≠ .disabled then .proving
              else s.health[r].state
            | false, false => s.health[r].state) ∧
        s.ChangesMade t (fun r =>
          if s.cfg.routes[r].peer = p then
            match s.cfg.peers[p].enabled, x.enabled with
            | true, false => if s.health[r].state = .disabled then [] else [.disabled]
            | false, true =>
              if s.health[r].state = .disabled ∧ s.cfg.routes[r].enable = true ∧ s.cfg.lanes[r].type ≠ .unused then
                [.proving]
              else []
            | true, true =>
              if s.cfg.peers[p].termId ≠ x.termId ∧ s.health[r].state ≠ .disabled then [.disabled, .proving] else []
            | false, false => []
          else []) ∧
        s.RoutesFrame t (fun r => s.cfg.routes[r].peer = p) ∧ s.Answers t d .done [])) ∧
  ∀ (s : State) (d : Directive), s.Authorised d 8 3 →
    (3 < (d.args.getD 0 0).toNat ∨ 1 < (d.args.getD 1 0).toNat) →
    exec (.setPeer d) s = .next (s.answered d .badArg [])

/-- An authorised SET_HEALTH whose arguments pass the checks of R77 answers DONE, replaces the seven thresholds, and every route
stands in the state that one evaluation under R64 against the new thresholds gives, the changes made as R65 and R66 say and
their notices in route order (R76); a route that takes no transition keeps its records, if none takes one nothing else
changes, and no lane record changes. Arguments that fail a check are answered BAD_ARG and change no setting. (R76, R77, R64,
R65, R66) -/
def Obligations.SetHealthTakesEffect : Prop :=
  ∀ (s : State) (d : Directive) (x : HealthSettings), s.Authorised d 11 9 → d.args = healthRecord x →
    (x.ok = true →
      ∃ t, exec (.setHealth d) s = .next t ∧ t.cfg = { s.cfg with health := x } ∧ t.lanes = s.lanes ∧ t.peers = s.peers ∧
        (∀ r : RouteIx,
          t.health[r].state =
            (evalTarget x s.cfg.lanes[r].type s.lanes[r] s.health[r]).getD s.health[r].state) ∧
        s.RoutesFrame t (fun r => evalTarget x s.cfg.lanes[r].type s.lanes[r] s.health[r] ≠ none) ∧
        s.ChangesMade t (s.oneChange t) ∧ s.Answers t d .done [] ∧
        ((∀ r : RouteIx, evalTarget x s.cfg.lanes[r].type s.lanes[r] s.health[r] = none) →
          t = State.answered { s with cfg := t.cfg } d .done [])) ∧
    (x.ok = false → x.warn < 256 → x.cut < 256 → -32768 ≤ x.rslFade → x.rslFade ≤ 32767 → -32768 ≤ x.rslCut →
      x.rslCut ≤ 32767 → x.hyst < 256 → x.slope < 256 → x.proveWindows < 256 →
      exec (.setHealth d) s = .next (s.answered d .badArg []))

/-- An authorised TEST_ROUTE of a DISABLED route, or of none, is answered BAD_ARG and changes nothing else. Of a PROVING route
it answers DONE and sets both counts to 0. Of any other it answers DONE: the route stands in PROVING with both counts 0, its
TEST waiting and the next request due one interval on, its sample ring kept, ROUTE_STATE raised at every port. With no copy
waiting on a route in UP or FADING, nothing else changes. Each waiting copy in turn, from the head, is re-steered: a frame
held on another route only releases its slot; else one at its max age is EXPIRED; else it joins the tail of the forced route
or of the route of least expected arrival among the eligible others; else it is discarded NO_ROUTE: the directive does what
it does on the state without that copy and with that outcome, its counts, its held frame's tally, its notice and its slot.
(R37, R65, R67, R71, R91, R92, R100, R103, R110, R115, R124, R128) -/
def Obligations.TestRouteProves : Prop :=
  (∀ (s : State) (d : Directive) (r : RouteIx), s.Authorised d 19 1 → d.args = [BitVec.ofNat 8 r.val] →
    (s.health[r].state = .disabled → exec (.testRoute d) s = .next (s.answered d .badArg [])) ∧
    (s.health[r].state = .proving →
      exec (.testRoute d) s = .next
        (State.answered { s with health := s.health.set r { s.health[r] with error := 0, good := 0 } } d .done [])) ∧
    (s.health[r].state ≠ .disabled → s.health[r].state ≠ .proving →
      ∃ t, exec (.testRoute d) s = .next t ∧ t.health[r].state = .proving ∧ t.health[r].error = 0 ∧
        t.health[r].good = 0 ∧
        t.health[r].testDue = some (s.time.et + BitVec.ofNat 64 (s.cfg.probe.interval * 125000)) ∧
        t.tx[r].testEntry = true ∧ t.probes[r] = s.probes[r] ∧ t.lanes = s.lanes ∧ t.cfg = s.cfg ∧ t.peers = s.peers ∧
        ((s.health[r].state = .up ∨ s.health[r].state = .fading) → t.tx[r].queue = []) ∧
        s.RoutesFrame t (fun q => q = r) ∧ s.Answers t d .done []) ∧
    (∀ health : Vector Health 16,
      (s.health[r].state = .down ∨ ((s.health[r].state = .up ∨ s.health[r].state = .fading) ∧ s.tx[r].queue = [])) →
      health = s.health.set r
        { s.health[r] with
          state := .proving, error := 0, good := 0, lastChange := some s.time.et
          testDue := some (s.time.et + BitVec.ofNat 64 (s.cfg.probe.interval * 125000))
          counts :=
            { s.health[r].counts with
              changes := s.health[r].counts.changes + 1
              testSkips := s.health[r].counts.testSkips + (if s.tx[r].testEntry then 1 else 0) } } →
      exec (.testRoute d) s = .next
        (State.answered
          { s with
            health := health
            tx := s.tx.set r { s.tx[r] with testEntry := true }
            time := { s.time with timeRoute := State.bestTimeRoute { s with health := health } }
            ports := Vector.ofFn fun p => s.ports[p].record (.routeState r s.health[r].state .proving) }
          d .done [])) ∧
    ∀ (c : Copy) (rest : List Copy) (f : Frame) (port : PortIx) (peer : PeerIx) (far : CircIx) (cls : TrafficClass)
      (maxAge : Nat),
      (s.health[r].state = .up ∨ s.health[r].state = .fading) → s.tx[r].queue = c :: rest →
      s.pool.frame c.slot = some f →
      s.circuits[c.circuit].defn = some { port := port, peer := peer, flow := .out far cls maxAge } →
      (s.HeldOnOther r c.slot →
        exec (.testRoute d) s = exec (.testRoute d)
          { s with
            pool := s.pool.release c.slot
            tx := s.tx.set r
              { s.tx[r] with
                queue := rest
                counts :=
                  { s.tx[r].counts with releasedResteer := s.tx[r].counts.releasedResteer + 1 } } }) ∧
      (¬ s.HeldOnOther r c.slot → (s.time.et - c.origin).toNat * 8 < maxAge * 1000 →
        ∀ q : RouteIx, s.ResteersTo peer c.len r q →
        exec (.testRoute d) s = exec (.testRoute d)
          { s with
            sel := s.sel.set q { s.sel[q] with resteeredIn := s.sel[q].resteeredIn + 1 }
            tx := (s.tx.set r
              { s.tx[r] with
                queue := rest
                counts := { s.tx[r].counts with resteeredOut := s.tx[r].counts.resteeredOut + 1 } }).set q
              { s.tx[q] with queue := s.tx[q].queue ++ [c] } }) ∧
      (¬ s.HeldOnOther r c.slot → maxAge * 1000 ≤ (s.time.et - c.origin).toNat * 8 →
        exec (.testRoute d) s = exec (.testRoute d)
          { s with
            pool := s.pool.release c.slot
            tx := s.tx.set r
              { s.tx[r] with
                queue := rest
                counts := { s.tx[r].counts with expiredResteer := s.tx[r].counts.expiredResteer + 1 } }
            circuits :=
              if f.started then s.circuits
              else s.circuits.set c.circuit
                { s.circuits[c.circuit] with
                  out :=
                    { s.circuits[c.circuit].out with
                      expired := s.circuits[c.circuit].out.expired + 1
                      held := s.circuits[c.circuit].out.held - 1 } }
            ports :=
              if f.started then s.ports
              else s.ports.set c.port (s.ports[c.port].record (.circuitDiscard c.circuit .expired c.seq)) }) ∧
      (¬ s.HeldOnOther r c.slot → (s.time.et - c.origin).toNat * 8 < maxAge * 1000 →
          (∀ q : RouteIx, ¬ s.ResteersTo peer c.len r q) →
        exec (.testRoute d) s = exec (.testRoute d)
          { s with
            pool := s.pool.release c.slot
            tx := s.tx.set r
              { s.tx[r] with
                queue := rest
                counts := { s.tx[r].counts with noRouteResteer := s.tx[r].counts.noRouteResteer + 1 } }
            circuits :=
              if f.started then s.circuits
              else s.circuits.set c.circuit
                { s.circuits[c.circuit] with
                  out :=
                    { s.circuits[c.circuit].out with
                      noRoute := s.circuits[c.circuit].out.noRoute + 1
                      held := s.circuits[c.circuit].out.held - 1 } }
            ports :=
              if f.started then s.ports
              else s.ports.set c.port (s.ports[c.port].record (.circuitDiscard c.circuit .noRoute c.seq)) })) ∧
  ∀ (s : State) (d : Directive), s.Authorised d 19 1 → 15 < (d.args.getD 0 0).toNat →
    exec (.testRoute d) s = .next (s.answered d .badArg [])

/-- An authorised OPEN_CIRCUIT of a circuit that is not CLOSED, or has a close pending, is answered IN_USE whatever its other
arguments; of one out of range, or of a CLOSED one with an argument out of the ranges of R83, or a relay present byte that
is neither yes nor no (log entry 13), BAD_ARG. With arguments in range: for OUT, when another circuit that is not CLOSED is
OUT with the same peer and far circuit, BAD_ARG; each with no other change. Otherwise it is answered DONE and the record is
OPEN with the given fields, next sequence 0, an invalid window with 64 unseen entries and every tally 0, and nothing else
changes; an IN circuit's far circuit, class and max age, and its relay target when none is present, are not read. (R82, R83,
R84, R193) -/
def Obligations.OpenCircuitSetsRecord : Prop :=
  (∀ (s : State) (d : Directive) (n : CircIx) (defn : CircuitDef), s.Authorised d 15 10 → defn.InRange n →
    (d.args = (circuitRecord { number := n, paused := false, defn := defn }).drop 1 ∨
      ∃ (relay : Option CircIx) (unread : List Byte) (target : Byte), defn.flow = .inn relay ∧ unread.length = 4 ∧
        d.args = bytesOf 1 n.val ++ [1] ++ bytesOf 1 defn.port.val ++ bytesOf 1 defn.peer.val ++ unread ++
          (match relay with
          | none => [0, target]
          | some m => [1] ++ bytesOf 1 m.val)) →
    ((s.circuits[n].state ≠ .closed ∨ s.circuits[n].closing ≠ none) →
      exec (.openCircuit d) s = .next (s.answered d .inUse [])) ∧
    (s.circuits[n].state = .closed → s.circuits[n].closing = none →
      ((∃ (far : CircIx) (cls : TrafficClass) (maxAge : Nat), defn.flow = .out far cls maxAge ∧
          ∃ m : CircIx, m ≠ n ∧ s.circuits[m].feeds defn.peer far = true) →
        exec (.openCircuit d) s = .next (s.answered d .badArg [])) ∧
      ((∀ (far : CircIx) (cls : TrafficClass) (maxAge : Nat), defn.flow = .out far cls maxAge →
          ∀ m : CircIx, m ≠ n → s.circuits[m].feeds defn.peer far = false) →
        exec (.openCircuit d) s = .next
          (State.answered
            { s with
              circuits := s.circuits.set n
                { state := .opened, closing := none, defn := some defn, nextSeq := 0
                  window := { valid := false, h := 0, entries := List.replicate 64 none }, out := {}, inn := {} } }
            d .done [])))) ∧
  ∀ (s : State) (d : Directive) (a : Nat → Nat), s.Authorised d 15 10 → (∀ i : Nat, a i = (d.args.getD i 0).toNat) →
    (63 < a 0 → exec (.openCircuit d) s = .next (s.answered d .badArg [])) ∧
    ∀ n : CircIx, n.val = a 0 →
      ((s.circuits[n].state ≠ .closed ∨ s.circuits[n].closing ≠ none) →
        exec (.openCircuit d) s = .next (s.answered d .inUse [])) ∧
      (s.circuits[n].state = .closed → s.circuits[n].closing = none →
        (1 < a 1 ∨ 5 < a 2 ∨ 3 < a 3 ∨
          (a 1 = 0 ∧ (63 < a 4 ∨ 1 < a 5 ∨ (a 6 = 0 ∧ a 7 = 0) ∨ a 8 ≠ 0)) ∨
          (a 1 = 1 ∧ (1 < a 8 ∨ (a 8 = 1 ∧ (63 < a 9 ∨ a 9 = a 0))))) →
        exec (.openCircuit d) s = .next (s.answered d .badArg []))

/-- For a circuit OPEN or PAUSED with no close pending: PAUSE and RESUME of an OUT circuit, sent by its own port without a code
or by any port with the operator code, answer DONE and make it PAUSED and OPEN; of an IN circuit, BAD_ARG. CLEAR_COUNTS
answers DONE and makes an OUT circuit's accepted tally its held tally, keeps held and clears the rest, or clears an IN
circuit's tallies. Another port without a code gets NOT_OWNER, and a CLOSED circuit, be it never opened, or one with a close
pending NOT_FOUND. A circuit out of range is BAD_ARG. Nothing else changes. (R82, R88, R95, R168) -/
def Obligations.OwnedCircuitDirectives : Prop :=
  (∀ (s : State) (d : Directive) (n : CircIx) (defn : CircuitDef), d.args = [BitVec.ofNat 8 n.val] →
    s.circuits[n].defn = some defn →
    (s.circuits[n].state ≠ .closed → s.circuits[n].closing = none →
      (s.MaySteer d defn →
        (s.profile.save = none →
          (∀ far cls maxAge, defn.flow = .out far cls maxAge →
            (s.Reaches d 4 1 →
              exec (.pause d) s = .next
                (State.answered { s with circuits := s.circuits.set n { s.circuits[n] with state := .paused } } d .done [])) ∧
            (s.Reaches d 5 1 →
              exec (.resume d) s = .next
                (State.answered { s with circuits := s.circuits.set n { s.circuits[n] with state := .opened } } d .done []))) ∧
          (∀ relay, defn.flow = .inn relay →
            (s.Reaches d 4 1 → exec (.pause d) s = .next (s.answered d .badArg [])) ∧
            (s.Reaches d 5 1 → exec (.resume d) s = .next (s.answered d .badArg [])))) ∧
        (s.Reaches d 6 1 →
          (∀ far cls maxAge, defn.flow = .out far cls maxAge →
            exec (.clearCounts d) s = .next
              (State.answered
                { s with
                  circuits := s.circuits.set n
                    { s.circuits[n] with
                      out := { accepted := s.circuits[n].out.held, sent := 0, expired := 0, noRoute := 0, flushed := 0
                               held := s.circuits[n].out.held, shadowMissed := 0 } } }
                d .done [])) ∧
          (∀ relay, defn.flow = .inn relay →
            exec (.clearCounts d) s = .next
              (State.answered { s with circuits := s.circuits.set n { s.circuits[n] with inn := {} } } d .done [])))) ∧
      (d.present = 0 → d.port ≠ defn.port →
        (s.profile.save = none →
          (s.Reaches d 4 1 → exec (.pause d) s = .next (s.answered d .notOwner [])) ∧
          (s.Reaches d 5 1 → exec (.resume d) s = .next (s.answered d .notOwner []))) ∧
        (s.Reaches d 6 1 → exec (.clearCounts d) s = .next (s.answered d .notOwner []))))) ∧
  (∀ (s : State) (d : Directive) (n : CircIx), d.args = [BitVec.ofNat 8 n.val] →
    (s.circuits[n].state = .closed ∨ s.circuits[n].closing ≠ none) → (d.present = 0 ∨ d.code = s.cfg.opCode) →
    (s.profile.save = none →
      (s.Reaches d 4 1 → exec (.pause d) s = .next (s.answered d .notFound [])) ∧
      (s.Reaches d 5 1 → exec (.resume d) s = .next (s.answered d .notFound []))) ∧
    (s.Reaches d 6 1 → exec (.clearCounts d) s = .next (s.answered d .notFound []))) ∧
  ∀ (s : State) (d : Directive), 63 < (d.args.getD 0 0).toNat → (d.present = 0 ∨ d.code = s.cfg.opCode) →
    (s.profile.save = none →
      (s.Reaches d 4 1 → exec (.pause d) s = .next (s.answered d .badArg [])) ∧
      (s.Reaches d 5 1 → exec (.resume d) s = .next (s.answered d .badArg []))) ∧
    (s.Reaches d 6 1 → exec (.clearCounts d) s = .next (s.answered d .badArg []))

/-- An authorised CLOSE_CIRCUIT of an OUT circuit answers DONE: every waiting queue is left without the circuit's copies,
otherwise in order, each removed releasing its slot; with sound frame memory and copies, each frame not started whose last
copies these are moves from held to flushed and raises CIRCUIT_DISCARD at the circuit's port; the circuit is CLOSED, or has
a close pending equal to its current copies when there are any. Of an OPEN IN circuit, the frames behind a DELIVER under way
leave the delivery queue, each released, counted as withdrawn and raised as CIRCUIT_DISCARD WITHDRAWN at its port, head
first (log entry 24); the circuit is CLOSED, its window invalid. A pending close is answered DONE, a CLOSED circuit
NOT_FOUND, a circuit out of range BAD_ARG. Nothing else changes. (R85, R86, R87, R91, R92, R155, R173) -/
def Obligations.CloseCircuitTakesEffect : Prop :=
  (∀ (s : State) (d : Directive) (n : CircIx), s.Authorised d 16 1 → d.args = [BitVec.ofNat 8 n.val] →
    (s.circuits[n].closing ≠ none → exec (.closeCircuit d) s = .next (s.answered d .done [])) ∧
    (s.circuits[n].state = .closed → s.circuits[n].closing = none →
      exec (.closeCircuit d) s = .next (s.answered d .notFound [])) ∧
    ∀ (port : PortIx) (peer : PeerIx), s.circuits[n].state ≠ .closed → s.circuits[n].closing = none →
      (∀ far cls maxAge, s.circuits[n].defn = some { port := port, peer := peer, flow := .out far cls maxAge } →
        ∃ (t : State) (k : Count), exec (.closeCircuit d) s = .next t ∧ s.Answers t d .done [] ∧
          (∀ r : RouteIx,
            t.tx[r] = { s.tx[r] with queue := s.tx[r].queue.filter fun c => decide (c.circuit ≠ n) }) ∧
          t.circuits = s.circuits.set n
            { s.circuits[n] with
              state := if s.currentCopies n = 0 then .closed else s.circuits[n].state
              closing := if s.currentCopies n = 0 then none else some (s.currentCopies n)
              out := { s.circuits[n].out with
                       flushed := s.circuits[n].out.flushed + k, held := s.circuits[n].out.held - k } } ∧
          t.pool = (s.waitingOf n).foldl (fun q c => q.release c.slot) s.pool ∧
          { t with tx := s.tx, circuits := s.circuits, pool := s.pool, ports := s.ports } = s ∧
          (s.waitingOf n = [] → k = 0 ∧ t.ports = (s.answered d .done []).ports) ∧
          (s.SlotsSound → s.CopiesSound → ∀ m : Nat, m = (List.range 1024).countP (s.flushes n) →
            k = BitVec.ofNat 32 m ∧
            (m = 0 → t.ports = (s.answered d .done []).ports) ∧
            (m ≠ 0 → ∃ c ∈ s.waitingOf n, s.flushes n c.slot = true ∧
              t.ports = (State.answered
                { s with
                  ports := s.ports.set port
                    (if s.ports[port].up = true ∧ s.ports[port].watch.getLsbD 5 = true then
                      { s.ports[port] with
                        records := s.ports[port].records.set (5 : Fin 8)
                          { count := min 255 (s.ports[port].records[(5 : Fin 8)].count + m)
                            latest := some (.circuitDiscard n .flushed c.seq) } }
                    else s.ports[port]) }
                d .done []).ports))) ∧
      (∀ (relay : Option CircIx) (gone : List DeliveryEntry),
        s.circuits[n].defn = some { port := port, peer := peer, flow := .inn relay } →
        gone = s.ports[port].splitDelivery.2.filter (fun e => decide (e.circuit = n)) →
        exec (.closeCircuit d) s = .next
          (State.answered
            { s with
              pool := gone.foldl (fun q e => q.release e.slot) s.pool
              circuits := s.circuits.set n
                { s.circuits[n] with
                  state := .closed, window := { valid := false, h := 0, entries := List.replicate 64 none }
                  inn := { s.circuits[n].inn with
                           withdrawn := s.circuits[n].inn.withdrawn + BitVec.ofNat 32 gone.length } }
              ports := s.ports.set port
                (gone.foldl (fun x e => x.record (.circuitDiscard n .withdrawn e.seq))
                  { s.ports[port] with
                    delivery := s.ports[port].splitDelivery.1 ++
                      s.ports[port].splitDelivery.2.filter (fun e => decide (e.circuit ≠ n)) }) }
            d .done [])) ∧
      s.ports[port].splitDelivery.1 ++ s.ports[port].splitDelivery.2 = s.ports[port].delivery ∧
      (∀ o : Outbound, s.ports[port].outbound = some o → o.kind = .deliver → o.cut = false →
        s.ports[port].splitDelivery.1 = s.ports[port].delivery.take 1) ∧
      ((∀ o : Outbound, s.ports[port].outbound = some o → o.kind ≠ .deliver ∨ o.cut = true) →
        s.ports[port].splitDelivery.1 = [])) ∧
  ∀ (s : State) (d : Directive), s.Authorised d 16 1 → 63 < (d.args.getD 0 0).toNat →
    exec (.closeCircuit d) s = .next (s.answered d .badArg [])

/-- For every state, peer, payload length and route, with E the expected arrival of R101 and eligibility that of R100: route r
is the primary just when it is the peer's forced route and eligible, or no eligible route is forced and r is the eligible
route with the least E, a tie going to the lowest index; and there is no primary just when no route is eligible. (R103) -/
def Obligations.PrimaryIsForcedOrLeast : Prop :=
  ∀ (s : State) (peer : PeerIx) (len : Nat) (E : RouteIx → Nat),
    (∀ q : RouteIx,
      E q = min 4294967295
        (((s.tx[q].backlog + len + 32) * (byteTime s.cfg.lanes[q].type s.lanes[q]).getD 0 + 15) / 16 +
          (s.forward q).getD 0)) →
    (∀ r : RouteIx,
      s.primary peer len (s.eligible peer) = some r ↔
        (s.peers[peer].forced = some r ∧ s.Eligible peer r) ∨
        ((∀ f : RouteIx, s.peers[peer].forced = some f → ¬ s.Eligible peer f) ∧ LeastRoute (s.Eligible peer) E r)) ∧
    (s.primary peer len (s.eligible peer) = none ↔ ∀ r : RouteIx, ¬ s.Eligible peer r)

/-- An authorised FORCE_ROUTE makes a route its own peer's forced route; with a route of another peer, or a peer or route out of
range, it is answered BAD_ARG. RELEASE_ROUTE makes the forced route absent; a peer out of range is BAD_ARG. SET_CALENDAR
replaces a route's sixteen slots and sets its pointer to 0; a route out of range, or a slot value that names neither a port
nor FREE, is BAD_ARG. An effect is answered DONE. Nothing else changes. (R112, R113, R131, R132) -/
def Obligations.SelectorDirectives : Prop :=
  ∀ (s : State) (d : Directive),
    (∀ p r : Byte, s.Authorised d 17 2 → d.args = [p, r] →
      (∀ (pi : PeerIx) (ri : RouteIx), pi.val = p.toNat → ri.val = r.toNat →
        (s.cfg.routes[ri].peer = pi →
          exec (.forceRoute d) s = .next
            (State.answered { s with peers := s.peers.set pi { s.peers[pi] with forced := some ri } } d .done [])) ∧
        (s.cfg.routes[ri].peer ≠ pi → exec (.forceRoute d) s = .next (s.answered d .badArg []))) ∧
      ((4 ≤ p.toNat ∨ 16 ≤ r.toNat) → exec (.forceRoute d) s = .next (s.answered d .badArg []))) ∧
    (∀ p : Byte, s.Authorised d 18 1 → d.args = [p] →
      (∀ pi : PeerIx, pi.val = p.toNat →
        exec (.releaseRoute d) s = .next
          (State.answered { s with peers := s.peers.set pi { s.peers[pi] with forced := none } } d .done [])) ∧
      (4 ≤ p.toNat → exec (.releaseRoute d) s = .next (s.answered d .badArg []))) ∧
    (∀ (r : Byte) (slots : List Byte), s.Authorised d 14 17 → d.args = r :: slots →
      (∀ (ri : RouteIx) (cal : Calendar), ri.val = r.toNat → slots = cal.toList.map (fun x => BitVec.ofNat 8 (slotCode x)) →
        exec (.setCalendar d) s = .next
          (State.answered
            { s with
              cfg := { s.cfg with calendars := s.cfg.calendars.set ri cal }
              tx := s.tx.set ri { s.tx[ri] with pointer := 0 } }
            d .done [])) ∧
      ((16 ≤ r.toNat ∨ ∃ v ∈ slots, 6 ≤ v.toNat ∧ v.toNat ≠ 255) →
        exec (.setCalendar d) s = .next (s.answered d .badArg [])))

/-- At the first byte of a SEND on a link that is UP and receives none: with HOLD asserted and 64 or fewer slots free, the SEND
is NO_BUFFER, counted at the port and the pool, and HOLD_IGNORED with the free count is raised at the port; nothing else
changes. Otherwise, in sound frame memory, it takes a free slot with the port, TT, ET and one reference, is counted if HOLD
is asserted, and HOLD and the low-water mark are judged on the new free count. The run of misses ends. On a link that is
DOWN, or receiving a SEND, nothing changes (log entry 4). (R156, R154, R155, R159, R4, R193) -/
def Obligations.SendStartTakesSlot : Prop :=
  ∀ (s : State) (p : PortIx),
    ((s.ports[p].up = false ∨ s.ports[p].inbound ≠ .idle) → exec (.sendStart p) s = .next s) ∧
    (s.ports[p].up = true → s.ports[p].inbound = .idle →
      (s.pool.hold = true → s.pool.free ≤ 64 →
        exec (.sendStart p) s = .next
          { s with
            pool := { s.pool with sendNoBuffer := s.pool.sendNoBuffer + 1 }
            ports := s.ports.set p
              (Port.record
                { s.ports[p] with
                  misses := 0, inbound := .ignored
                  counts := { s.ports[p].counts with noBuffer := s.ports[p].counts.noBuffer + 1 } }
                (.holdIgnored s.pool.free)) }) ∧
      ((s.pool.hold = false ∨ 64 < s.pool.free) → s.pool.Sound → 1 ≤ s.pool.free →
        ∃ (t : State) (k : Nat), exec (.sendStart p) s = .next t ∧ k < 1024 ∧ s.pool.frame k = none ∧
          t.pool.frame k =
            some { source := .send p, stamp := s.time.tt, et := s.time.et, bytes := [], refs := 1, started := false } ∧
          (∀ j : Nat, j ≠ k → t.pool.frame j = s.pool.frame j) ∧ t.pool.free = s.pool.free - 1 ∧
          t.pool.hold = (s.pool.hold || decide (t.pool.free < 64)) ∧ t.pool.lowWater = min s.pool.lowWater t.pool.free ∧
          t.pool.underHold = s.pool.underHold + (if s.pool.hold then 1 else 0) ∧
          t.pool.holds = s.pool.holds + (if s.pool.hold = false ∧ t.pool.free < 64 then 1 else 0) ∧
          t.pool.sendNoBuffer = s.pool.sendNoBuffer ∧ t.pool.arrivalNoBuffer = s.pool.arrivalNoBuffer ∧
          t.ports = s.ports.set p { s.ports[p] with misses := 0, inbound := .slot k } ∧
          { t with pool := s.pool, ports := s.ports } = s))

/-- SEND_END of a SEND in a slot, with a good link CRC, a payload of 1 to 1,500 bytes, on an OPEN OUT circuit of its own port
with no close pending and an eligible route: one copy with the circuit's next sequence joins the tail of the primary's queue
and one that of the shadow's, sought for SURE and for FAST on a FADING primary; the slot keeps the bytes received, up to
2,048, with as many references as copies; the circuit's next sequence, accepted and held rise by 1, and shadow-missed when a
shadow was sought and none found; the port's accepted count and the routes' counts rise; nothing else changes. (R89, R90,
R100, R101, R103, R104, R105, R107, R164, R193) -/
def Obligations.SendAccepted : Prop :=
  ∀ (s : State) (p : PortIx) (k : Nat) (status : Byte) (body : List Byte) (n : CircIx) (peer : PeerIx) (far : CircIx)
    (cls : TrafficClass) (maxAge : Nat) (f : Frame) (r : RouteIx) (sh : Option RouteIx) (copy : Copy),
    s.ports[p].inbound = .slot k → s.pool.frame k = some f → s.profile.load = .running → 5 < body.length →
    body.length ≤ 1505 → (body.getD 0 0).toNat = n.val → s.circuits[n].state = .opened → s.circuits[n].closing = none →
    s.circuits[n].defn = some { port := p, peer := peer, flow := .out far cls maxAge } →
    s.primary peer (body.length - 5) (s.eligible peer) = some r →
    (∀ q : RouteIx, sh = some q ↔
      (cls = .sure ∨ s.health[r].state = .fading) ∧
        LeastRoute (fun q' => s.Eligible peer q' ∧ q' ≠ r) (s.expectedArrival (body.length - 5)) q) →
    copy = { slot := k, circuit := n, seq := s.circuits[n].nextSeq, len := body.length - 5, origin := f.et, port := p } →
    exec (.sendEnd p status body (crc32 ([0xA1, status] ++ bytesOf 2 body.length ++ body))) s = .next
      { s with
        tx := Vector.ofFn fun q =>
          if q = r ∨ sh = some q then { s.tx[q] with queue := s.tx[q].queue ++ [copy] } else s.tx[q]
        sel := Vector.ofFn fun q =>
          if q = r then { s.sel[q] with primaries := s.sel[q].primaries + 1 }
          else if sh = some q then { s.sel[q] with shadows := s.sel[q].shadows + 1 } else s.sel[q]
        pool := s.pool.update k fun f =>
          { f with
            bytes := (withCrc ([0xA1, status] ++ bytesOf 2 body.length ++ body)).take 2048
            refs := if sh.isSome then 2 else 1
            started := false }
        circuits := s.circuits.set n
          { s.circuits[n] with
            nextSeq := s.circuits[n].nextSeq + 1
            out :=
              { s.circuits[n].out with
                accepted := s.circuits[n].out.accepted + 1
                held := s.circuits[n].out.held + 1
                shadowMissed := s.circuits[n].out.shadowMissed +
                  (if (cls = .sure ∨ s.health[r].state = .fading) ∧ sh = none then 1 else 0) } }
        ports := s.ports.set p
          { s.ports[p] with
            inbound := .idle, counts := { s.ports[p].counts with accepted := s.ports[p].counts.accepted + 1 } } }

/-- SEND_END of a SEND in a slot with one reference: with a bad link CRC it is discarded, its slot released and the bad-frame
count raised. With a good CRC, the first reason of R164 and R89 that applies (NOT_READY, TOO_LONG, NOT_OPEN, NOT_OWNER,
PAUSED) refuses it: its slot is released, the port's refused count and the count of the reason rise, and SEND_REFUSED with
the circuit, reason and tag is raised at the port. With no eligible route the reason is NO_ROUTE, and the peer's no-route
count rises too. A SEND discarded NO_BUFFER ends with no check; with no SEND being received nothing changes, which is the
model's choice (log entry 4). Nothing else changes. (R89, R106, R156, R164, R165, R193) -/
def Obligations.SendRefused : Prop :=
  ∀ (s : State) (p : PortIx) (status : Byte) (body : List Byte) (crc : BitVec 32),
    (s.ports[p].inbound = .idle → exec (.sendEnd p status body crc) s = .next s) ∧
    (s.ports[p].inbound = .ignored →
      exec (.sendEnd p status body crc) s = .next
        { s with ports := s.ports.set p { s.ports[p] with inbound := .idle } }) ∧
    ∀ (k : Nat) (f : Frame), s.ports[p].inbound = .slot k → s.pool.frame k = some f → f.refs = 1 →
      (crc ≠ crc32 ([0xA1, status] ++ bytesOf 2 body.length ++ body) →
        exec (.sendEnd p status body crc) s = .next
          { s with
            pool := s.pool.release k
            ports := s.ports.set p
              { s.ports[p] with
                inbound := .idle, counts := { s.ports[p].counts with badFrames := s.ports[p].counts.badFrames + 1 } } }) ∧
      (crc = crc32 ([0xA1, status] ++ bytesOf 2 body.length ++ body) →
        (∀ reason : RefusalReason, s.RefusesSend p body reason →
          exec (.sendEnd p status body crc) s = .next
            { s with
              pool := s.pool.release k
              ports := s.ports.set p
                (Port.record { s.ports[p] with inbound := .idle, counts := s.ports[p].counts.refuse reason }
                  (.sendRefused (body.getD 0 0) reason (BitVec.ofNat 32 (field body 1 4)))) }) ∧
        (∀ (n : CircIx) (peer : PeerIx) (far : CircIx) (cls : TrafficClass) (maxAge : Nat), s.profile.load = .running →
          5 < body.length → body.length ≤ 1505 → (body.getD 0 0).toNat = n.val → s.circuits[n].state = .opened →
          s.circuits[n].closing = none →
          s.circuits[n].defn = some { port := p, peer := peer, flow := .out far cls maxAge } →
          (∀ r : RouteIx, ¬ s.Eligible peer r) →
          exec (.sendEnd p status body crc) s = .next
            { s with
              pool := s.pool.release k
              peers := s.peers.set peer { s.peers[peer] with noRoute := s.peers[peer].noRoute + 1 }
              ports := s.ports.set p
                (Port.record { s.ports[p] with inbound := .idle, counts := s.ports[p].counts.refuse .noRoute }
                  (.sendRefused (body.getD 0 0) .noRoute (BitVec.ofNat 32 (field body 1 4)))) })) ∧
      ∀ c : PortCounts,
        (∀ reason, (c.refuse reason).refused = c.refused + 1) ∧ (c.refuse .notOpen).notOpen = c.notOpen + 1 ∧
        (c.refuse .notOwner).notOwner = c.notOwner + 1 ∧ (c.refuse .paused).paused = c.paused + 1 ∧
        (c.refuse .tooLong).tooLong = c.tooLong + 1 ∧ (c.refuse .noRoute).noRoute = c.noRoute + 1 ∧
        (c.refuse .notReady).notReady = c.notReady + 1

/-- On a lane that is not ready an OFFER changes nothing. On a ready lane: the oldest ECHO entry starts; with none, the waiting
PROBE starts with the next number and its record of t1 and ET joins the outstanding table, or is skipped and counted when
the table holds 8, and the offer then does what it does on the state with the entry empty and that count; with neither, in
PROVING, the waiting TEST starts with the next seed. The frame that starts becomes the current frame with its bytes as R195
lays them out, all of them untaken but the first, which the lane takes in the start event (R23); its entry empties, and its
sent count rises. With nothing to serve, nothing changes. Nothing else changes. (R23, R40, R44, R68, R120, R121, R195, R4,
R5) -/
def Obligations.OfferServesControl : Prop :=
  ∀ (s : State) (r : RouteIx) (stamp : Stamp), stamp = s.time.tt + BitVec.ofNat 64 s.cfg.lanes[r].txc →
    ((s.cfg.lanes[r].type = .unused ∨ s.lanes[r].los = true ∨ s.tx[r].current ≠ none) → exec (.offer r) s = .next s) ∧
    (s.cfg.lanes[r].type ≠ .unused → s.lanes[r].los = false → s.tx[r].current = none →
      (∀ (e : EchoEntry) (rest : List EchoEntry), s.tx[r].echoes = e :: rest →
        exec (.offer r) s = .next
          { s with
            tx := s.tx.set r
              { s.tx[r] with
                echoes := rest
                current := some
                  { kind := .echo, copy := none, untaken := 32
                    bytes := withCrc ([3, s.cfg.termId, e.number] ++ bytesOf 1 e.errors ++ bytesOf 1 e.state.code ++
                      bytesOf 8 e.t1.toNat ++ bytesOf 8 e.t2.toNat ++ bytesOf 8 stamp.toNat) } }
            probes := s.probes.set r
              { s.probes[r] with
                counts := { s.probes[r].counts with echoesSent := s.probes[r].counts.echoesSent + 1 } } }) ∧
      (s.tx[r].echoes = [] →
        (s.tx[r].probeEntry = true → s.probes[r].outstanding.length < 8 →
          exec (.offer r) s = .next
            { s with
              tx := s.tx.set r
                { s.tx[r] with
                  probeEntry := false
                  current := some
                    { kind := .probe, copy := none, untaken := 14
                      bytes := withCrc ([2, s.cfg.termId, s.probes[r].nextNumber] ++ bytesOf 8 stamp.toNat) } }
              probes := s.probes.set r
                { s.probes[r] with
                  nextNumber := s.probes[r].nextNumber + 1
                  outstanding := s.probes[r].outstanding ++
                    [{ number := s.probes[r].nextNumber, t1 := stamp, sentAt := s.time.et }]
                  counts := { s.probes[r].counts with sent := s.probes[r].counts.sent + 1 } } }) ∧
        (s.tx[r].probeEntry = false → s.tx[r].testEntry = true → s.health[r].state = .proving →
          exec (.offer r) s = .next
            { s with
              tx := s.tx.set r
                { s.tx[r] with
                  testEntry := false
                  current := some
                    { kind := .test, copy := none, untaken := 263
                      bytes := withCrc ([4, s.cfg.termId] ++ bytesOf 2 s.health[r].seed.toNat) ++
                        pattern s.health[r].seed } }
              health := s.health.set r
                { s.health[r] with
                  seed := s.health[r].seed + 1
                  counts := { s.health[r].counts with testsSent := s.health[r].counts.testsSent + 1 } } }) ∧
        (s.tx[r].probeEntry = true → 8 ≤ s.probes[r].outstanding.length →
          exec (.offer r) s = exec (.offer r)
            { s with
              tx := s.tx.set r { s.tx[r] with probeEntry := false }
              probes := s.probes.set r
                { s.probes[r] with
                  counts := { s.probes[r].counts with fullSkips := s.probes[r].counts.fullSkips + 1 } } }) ∧
        ((s.tx[r].testEntry = false ∨ s.health[r].state ≠ .proving) →
          (s.tx[r].queue = [] ∨ (s.health[r].state ≠ .up ∧ s.health[r].state ≠ .fading)) →
          (s.tx[r].probeEntry = false → exec (.offer r) s = .next s) ∧
          (s.tx[r].probeEntry = true → 8 ≤ s.probes[r].outstanding.length →
            exec (.offer r) s = .next
              { s with
                tx := s.tx.set r { s.tx[r] with probeEntry := false }
                probes := s.probes.set r
                  { s.probes[r] with
                    counts := { s.probes[r].counts with fullSkips := s.probes[r].counts.fullSkips + 1 } } }))))

/-- On a ready lane whose route is UP or FADING with no ECHO and no PROBE waiting, the copy the calendar grants starts if its
age is below its circuit's max age: it leaves the queue and becomes the current frame with the bytes of R195, all of its
trunk size untaken but the first byte (R23), CARGO-sent rises, a slotted grant moves the pointer past its slot and an
unslotted one is counted; the first start of a frame moves it from held to sent. A granted copy at or above the max age is
removed, released and counted; when the frame has not started and has no copy on another route the held frame counts EXPIRED
and CIRCUIT_DISCARD is raised, else the circuit counts nothing; and the offer does what it does on the state so left: the
search begins again from the pointer's slot. Nothing else changes. (R23, R91, R92, R120, R123, R124, R125, R195, R4, R5) -/
def Obligations.OfferStartsCargo : Prop :=
  ∀ (s : State) (r : RouteIx) (c : Copy) (slot : Option (Fin 16)) (f : Frame) (port : PortIx) (peer : PeerIx)
    (far : CircIx) (cls : TrafficClass) (maxAge : Nat),
    s.cfg.lanes[r].type ≠ .unused → s.lanes[r].los = false → s.tx[r].current = none → s.tx[r].echoes = [] →
    s.tx[r].probeEntry = false → (s.health[r].state = .up ∨ s.health[r].state = .fading) →
    grant s.cfg.calendars[r] s.tx[r].pointer s.tx[r].queue = some (c, slot) → s.pool.frame c.slot = some f →
    s.circuits[c.circuit].defn = some { port := port, peer := peer, flow := .out far cls maxAge } →
    ((s.time.et - c.origin).toNat * 8 < maxAge * 1000 →
      exec (.offer r) s = .next
        { s with
          tx := s.tx.set r
            { s.tx[r] with
              queue := s.tx[r].queue.erase c
              current := some
                { kind := .cargo, copy := some c, untaken := c.len + 31
                  bytes := withCrc ([1, s.cfg.termId] ++ bytesOf 2 far.val ++ bytesOf 2 c.seq.toNat ++ bytesOf 2 c.len ++
                    bytesOf 4 f.tag ++ bytesOf 8 f.ingress ++
                    bytesOf 8 (s.time.tt + BitVec.ofNat 64 s.cfg.lanes[r].txc).toNat ++ f.payload c.len) }
              cargoSent := s.tx[r].cargoSent + 1
              pointer := match slot with
                | some i => i + 1
                | none => s.tx[r].pointer
              counts :=
                { s.tx[r].counts with
                  unslotted := s.tx[r].counts.unslotted + (if slot.isNone then 1 else 0) } }
          pool := if f.started then s.pool else s.pool.update c.slot fun f => { f with started := true }
          circuits :=
            if f.started then s.circuits
            else s.circuits.set c.circuit
              { s.circuits[c.circuit] with
                out :=
                  { s.circuits[c.circuit].out with
                    sent := s.circuits[c.circuit].out.sent + 1, held := s.circuits[c.circuit].out.held - 1 } } }) ∧
    (maxAge * 1000 ≤ (s.time.et - c.origin).toNat * 8 → ∀ left : State,
      left =
        { s with
          tx := s.tx.set r
            { s.tx[r] with
              queue := s.tx[r].queue.erase c
              counts :=
                { s.tx[r].counts with
                  expiredAtStart := s.tx[r].counts.expiredAtStart + 1
                  unslotted := s.tx[r].counts.unslotted + (if slot.isNone then 1 else 0) } }
          pool := s.pool.release c.slot } →
      ((f.started = true ∨ s.HeldOnOther r c.slot) → exec (.offer r) s = exec (.offer r) left) ∧
      (f.started = false → ¬ s.HeldOnOther r c.slot →
        exec (.offer r) s = exec (.offer r)
          { left with
            circuits := s.circuits.set c.circuit
              { s.circuits[c.circuit] with
                out :=
                  { s.circuits[c.circuit].out with
                    expired := s.circuits[c.circuit].out.expired + 1, held := s.circuits[c.circuit].out.held - 1 } }
            ports := s.ports.set c.port (s.ports[c.port].record (.circuitDiscard c.circuit .expired c.seq)) }))

/-- For every calendar, pointer and queue: the first slot from the pointer on whose port has a copy waiting grants the oldest
copy charged to that port; with no such slot and a copy waiting, the oldest copy of the queue is granted unslotted; an empty
queue gets no grant. While a port holds a slot and has a copy waiting no grant is unslotted, and a grant to another port
moves the pointer to a place from which that slot is fewer slots away; since the distance is at most 15, at most 15 such
starts come before the port's own. (R122, R123) -/
def Obligations.CalendarGrants : Prop :=
  ∀ (cal : Calendar) (pointer : Fin 16) (queue : List Copy),
    (queue = [] → grant cal pointer queue = none) ∧
    (∀ (before after : List Copy) (c : Copy) (j : Fin 16), queue = before ++ c :: after → cal[pointer + j] = some c.port →
      (∀ x ∈ before, x.port ≠ c.port) → (∀ i : Fin 16, i < j → ∀ x ∈ queue, cal[pointer + i] ≠ some x.port) →
      grant cal pointer queue = some (c, some (pointer + j))) ∧
    (∀ (c : Copy) (rest : List Copy), queue = c :: rest → (∀ i : Fin 16, ∀ x ∈ queue, cal[i] ≠ some x.port) →
      grant cal pointer queue = some (c, none)) ∧
    ∀ (m : Fin 16) (x c : Copy) (slot : Option (Fin 16)), x ∈ queue → cal[m] = some x.port →
      grant cal pointer queue = some (c, slot) →
      c ∈ queue ∧ ∃ i : Fin 16, slot = some i ∧ cal[i] = some c.port ∧
        (c.port ≠ x.port → (m - (i + 1)).val < (m - pointer).val)

/-- LANE_BYTE_TAKEN lowers the untaken bytes of the current frame by 1, and changes nothing when there is no byte to take.
TRANSMIT_END with at most the last byte untaken makes the current frame absent; a CARGO copy releases its slot, and a close
pending on its circuit falls by 1, and at 0 the circuit is CLOSED. Without a current frame, or with more bytes untaken, it
changes nothing (log entries 4 and 5). Nothing else changes. (R86, R119, R126, R155) -/
def Obligations.BytesAndTransmitEnd : Prop :=
  ∀ (s : State) (r : RouteIx),
    (s.tx[r].current = none → exec (.laneByteTaken r) s = .next s ∧ exec (.transmitEnd r) s = .next s) ∧
    ∀ cur : Current, s.tx[r].current = some cur →
      exec (.laneByteTaken r) s = .next
        { s with tx := s.tx.set r { s.tx[r] with current := some { cur with untaken := cur.untaken - 1 } } } ∧
      (1 < cur.untaken → exec (.transmitEnd r) s = .next s) ∧
      (cur.untaken ≤ 1 →
        (cur.copy = none →
          exec (.transmitEnd r) s = .next { s with tx := s.tx.set r { s.tx[r] with current := none } }) ∧
        ∀ c : Copy, cur.copy = some c →
          exec (.transmitEnd r) s = .next
            { s with
              tx := s.tx.set r { s.tx[r] with current := none }
              pool := s.pool.release c.slot
              circuits := s.circuits.set c.circuit
                (match s.circuits[c.circuit].closing with
                | none => s.circuits[c.circuit]
                | some k =>
                  if k ≤ 1 then { s.circuits[c.circuit] with state := .closed, closing := none }
                  else { s.circuits[c.circuit] with closing := some (k - 1) }) })

/-- On a RADIO or FIBER lane with LOS released that is receiving no frame, FRAME_START takes TT less RXC and ET. On a DISABLED
route the frame is unreceived. Otherwise a first byte other than CARGO goes to the receive buffer; CARGO with no slot free
is NO_BUFFER, counted on the route and the pool, and unreceived; CARGO in sound frame memory with a free slot takes one with
the route, stamp, ET and one reference, and HOLD and the low-water mark are judged. Nothing else changes. On any other lane,
or during another frame, nothing changes (log entry 4). (R24, R136, R154, R155, R157, R159, R4) -/
def Obligations.FrameStartTakesStore : Prop :=
  ∀ (s : State) (r : RouteIx) (first : Byte) (stamp : Stamp), stamp = s.time.tt - BitVec.ofNat 64 s.cfg.lanes[r].rxc →
    ((s.cfg.lanes[r].type = .unused ∨ s.lanes[r].los = true ∨ s.lanes[r].rx ≠ none) →
      exec (.frameStart r first) s = .next s) ∧
    (s.cfg.lanes[r].type ≠ .unused → s.lanes[r].los = false → s.lanes[r].rx = none →
      (s.health[r].state = .disabled →
        exec (.frameStart r first) s = .next
          { s with
            lanes := s.lanes.set r
              { s.lanes[r] with rx := some { stamp := stamp, et := s.time.et, first := first, store := .unreceived } } }) ∧
      (s.health[r].state ≠ .disabled →
        (first.toNat ≠ 1 →
          exec (.frameStart r first) s = .next
            { s with
              lanes := s.lanes.set r
                { s.lanes[r] with rx := some { stamp := stamp, et := s.time.et, first := first, store := .buffer } } }) ∧
        (first.toNat = 1 → s.pool.free = 0 →
          exec (.frameStart r first) s = .next
            { s with
              pool := { s.pool with arrivalNoBuffer := s.pool.arrivalNoBuffer + 1 }
              score := s.score.set r { s.score[r] with noBuffer := s.score[r].noBuffer + 1 }
              lanes := s.lanes.set r
                { s.lanes[r] with rx := some { stamp := stamp, et := s.time.et, first := first, store := .unreceived } } }) ∧
        (first.toNat = 1 → s.pool.Sound → 1 ≤ s.pool.free →
          ∃ (t : State) (k : Nat), exec (.frameStart r first) s = .next t ∧ k < 1024 ∧ s.pool.frame k = none ∧
            t.pool.frame k =
              some { source := .cargo r, stamp := stamp, et := s.time.et, bytes := [], refs := 1, started := false } ∧
            (∀ j : Nat, j ≠ k → t.pool.frame j = s.pool.frame j) ∧ t.pool.free = s.pool.free - 1 ∧
            t.pool.hold = (s.pool.hold || decide (t.pool.free < 64)) ∧ t.pool.lowWater = min s.pool.lowWater t.pool.free ∧
            t.pool.holds = s.pool.holds + (if s.pool.hold = false ∧ t.pool.free < 64 then 1 else 0) ∧
            t.pool.underHold = s.pool.underHold ∧ t.pool.sendNoBuffer = s.pool.sendNoBuffer ∧
            t.pool.arrivalNoBuffer = s.pool.arrivalNoBuffer ∧
            t.lanes = s.lanes.set r
              { s.lanes[r] with rx := some { stamp := stamp, et := s.time.et, first := first, store := .slot k } } ∧
            { t with pool := s.pool, lanes := s.lanes } = s)))

/-- FRAME_END of a frame of at most 1,532 bytes with a good CRC, received on a route not DISABLED: of no known kind, or a PROBE
or ECHO not of its length, it counts bad-kind; of a known kind with a sender id other than its peer's, MISDIRECTED; a CARGO
in a slot past both that is malformed under R140 counts malformed; and one not malformed that names no OPEN IN circuit whose
peer is the route's peer counts UNKNOWN_CIRCUIT. The frame ends and its slot, if it took one, is released; nothing else
changes. (R137, R140, R158, R195) -/
def Obligations.SoundFramesDiscarded : Prop :=
  ∀ (s : State) (r : RouteIx) (rx : Rx) (rest bs : List Byte), s.lanes[r].rx = some rx → bs = rx.first :: rest →
    bs.length ≤ 1532 → rx.store ≠ .unreceived → s.health[r].state ≠ .disabled → frameCrcGood bs = true →
    ((rx.first.toNat = 0 ∨ 4 < rx.first.toNat ∨ (rx.first.toNat = 2 ∧ bs.length ≠ 15) ∨
        (rx.first.toNat = 3 ∧ bs.length ≠ 33)) →
      exec (.frameEnd r rest) s = .next
        { s with
          lanes := s.lanes.set r { s.lanes[r] with rx := none }
          pool := s.poolWithout rx
          score := s.score.set r { s.score[r] with badKind := s.score[r].badKind + 1 } }) ∧
    ((rx.first.toNat = 1 ∨ rx.first.toNat = 4 ∨ (rx.first.toNat = 2 ∧ bs.length = 15) ∨
        (rx.first.toNat = 3 ∧ bs.length = 33)) →
      (bs.getD 1 0 ≠ s.cfg.peers[s.cfg.routes[r].peer].termId →
        exec (.frameEnd r rest) s = .next
          { s with
            lanes := s.lanes.set r { s.lanes[r] with rx := none }
            pool := s.poolWithout rx
            score := s.score.set r { s.score[r] with misdirected := s.score[r].misdirected + 1 } }) ∧
      (bs.getD 1 0 = s.cfg.peers[s.cfg.routes[r].peer].termId → rx.first.toNat = 1 → ∀ k : Nat, rx.store = .slot k →
        ((bs.length < 32 ∨ field bs 6 2 < 1 ∨ 1500 < field bs 6 2 ∨ bs.length ≠ field bs 6 2 + 32) →
          exec (.frameEnd r rest) s = .next
            { s with
              lanes := s.lanes.set r { s.lanes[r] with rx := none }
              pool := s.pool.release k
              score := s.score.set r { s.score[r] with malformed := s.score[r].malformed + 1 } }) ∧
        (32 ≤ bs.length → 1 ≤ field bs 6 2 → field bs 6 2 ≤ 1500 → bs.length = field bs 6 2 + 32 →
          (∀ n : CircIx, n.val = field bs 2 2 →
            s.circuits[n].state ≠ .opened ∨
              ∀ (port : PortIx) (relay : Option CircIx),
                s.circuits[n].defn ≠ some { port := port, peer := s.cfg.routes[r].peer, flow := .inn relay }) →
          exec (.frameEnd r rest) s = .next
            { s with
              lanes := s.lanes.set r { s.lanes[r] with rx := none }
              pool := s.pool.release k
              score := s.score.set r { s.score[r] with unknownCircuit := s.score[r].unknownCircuit + 1 } })))

/-- FRAME_END of a well-formed CARGO frame in a slot with one reference, for an OPEN IN circuit of the route's peer. Whether it
has a relay target or none, DUPLICATE: lates rises by 1, the lateness sum by the stamp difference if positive, saturating,
duplicates by 1. STALE: stale rises by 1. Accepted with no relay target (one with a target is CargoRelayed): the window
takes the number with its route and stamp, firsts and accepted rise; the frame joins the delivery queue, or with the link
down or 64 waiting counts overrun, with DELIVERY_OVERRUN only in the second case. A frame not queued releases its slot.
Nothing else changes. (R140, R142, R143, R144, R145, R146, R149, R152, R93, R195) -/
def Obligations.CargoJudgedAndDelivered : Prop :=
  ∀ (s : State) (r : RouteIx) (rx : Rx) (rest payload : List Byte) (k : Nat) (f : Frame) (n : CircIx) (port : PortIx)
    (relay : Option CircIx) (seq : BitVec 16) (tag : BitVec 32) (ingress sent : Stamp),
    s.lanes[r].rx = some rx → rx.store = .slot k → s.pool.frame k = some f → f.refs = 1 → s.health[r].state ≠ .disabled →
    1 ≤ payload.length → payload.length ≤ 1500 →
    rx.first :: rest =
      withCrc ([1, s.cfg.peers[s.cfg.routes[r].peer].termId] ++ bytesOf 2 n.val ++ bytesOf 2 seq.toNat ++
        bytesOf 2 payload.length ++ bytesOf 4 tag.toNat ++ bytesOf 8 ingress.toNat ++ bytesOf 8 sent.toNat ++ payload) →
    s.circuits[n].state = .opened →
    s.circuits[n].defn = some { port := port, peer := s.cfg.routes[r].peer, flow := .inn relay } →
    (∀ e : WinEntry, s.circuits[n].window.judge seq = .duplicate e →
      exec (.frameEnd r rest) s = .next
        { s with
          lanes := s.lanes.set r { s.lanes[r] with rx := none }
          pool := s.pool.release k
          score := s.score.set r
            { s.score[r] with
              lates := s.score[r].lates + 1
              lateness := min 281474976710655 (s.score[r].lateness + (rx.stamp - e.stamp).toInt.toNat) }
          circuits := s.circuits.set n
            { s.circuits[n] with
              inn := { s.circuits[n].inn with duplicates := s.circuits[n].inn.duplicates + 1 } } }) ∧
    (s.circuits[n].window.judge seq = .stale →
      exec (.frameEnd r rest) s = .next
        { s with
          lanes := s.lanes.set r { s.lanes[r] with rx := none }
          pool := s.pool.release k
          circuits := s.circuits.set n
            { s.circuits[n] with inn := { s.circuits[n].inn with stale := s.circuits[n].inn.stale + 1 } } }) ∧
    ∀ (v : Verdict) (u : State), relay = none → s.circuits[n].window.judge seq = v → (∀ e : WinEntry, v ≠ .duplicate e) → v ≠ .stale →
      u = { s with
            lanes := s.lanes.set r { s.lanes[r] with rx := none }
            score := s.score.set r { s.score[r] with firsts := s.score[r].firsts + 1 }
            circuits := s.circuits.set n
              { s.circuits[n] with
                window := s.circuits[n].window.accept seq { route := r, stamp := rx.stamp } v
                inn := { s.circuits[n].inn with accepted := s.circuits[n].inn.accepted + 1 } } } →
      (s.ports[port].up = true → s.ports[port].delivery.length < 64 →
        exec (.frameEnd r rest) s = .next
          { u with
            pool := s.pool.update k fun f => { f with bytes := rx.first :: rest }
            ports := s.ports.set port
              { s.ports[port] with
                delivery := s.ports[port].delivery ++ [{ slot := k, circuit := n, seq := seq }] } }) ∧
      ((s.ports[port].up = false ∨ 64 ≤ s.ports[port].delivery.length) →
        exec (.frameEnd r rest) s = .next
          { u with
            pool := s.pool.release k
            circuits := u.circuits.set n
              { u.circuits[n] with inn := { u.circuits[n].inn with overrun := s.circuits[n].inn.overrun + 1 } }
            ports := s.ports.set port
              (if s.ports[port].up then s.ports[port].record (.deliveryOverrun n seq) else s.ports[port]) })

/-- FRAME_END of a well-formed CARGO frame in a slot with one reference that the window of an OPEN IN circuit accepts, its relay
target present. With the target OUT, OPEN and with no close pending and an eligible route, the frame keeps its slot with its
bytes and as many references as copies: one with the target's next sequence, the frame's length and its arrival ET joins the
primary's queue, and one that of the shadow, sought for SURE and for FAST on a FADING primary; the target's next sequence,
accepted and held rise, shadow-missed when a shadow was sought and none found, and relayed by 1. With no eligible route, or
a target not OPEN, not OUT or with a close pending, the slot is released, relay failures rise by 1, CIRCUIT_DISCARD
RELAY_FAILED is raised at the IN circuit's port and no queue changes. Nothing else changes. (R94, R104, R105, R106, R107,
R109, R144, R152, R90, R92) -/
def Obligations.CargoRelayed : Prop :=
  ∀ (s : State) (r : RouteIx) (rx : Rx) (rest payload : List Byte) (k : Nat) (f : Frame) (n target : CircIx) (port : PortIx)
    (seq : BitVec 16) (tag : BitVec 32) (ingress sent : Stamp) (v : Verdict),
    s.lanes[r].rx = some rx → rx.store = .slot k → s.pool.frame k = some f → f.refs = 1 → s.health[r].state ≠ .disabled →
    1 ≤ payload.length → payload.length ≤ 1500 →
    rx.first :: rest =
      withCrc ([1, s.cfg.peers[s.cfg.routes[r].peer].termId] ++ bytesOf 2 n.val ++ bytesOf 2 seq.toNat ++
        bytesOf 2 payload.length ++ bytesOf 4 tag.toNat ++ bytesOf 8 ingress.toNat ++ bytesOf 8 sent.toNat ++ payload) →
    s.circuits[n].state = .opened →
    s.circuits[n].defn = some { port := port, peer := s.cfg.routes[r].peer, flow := .inn (some target) } →
    s.circuits[n].window.judge seq = v → (∀ e : WinEntry, v ≠ .duplicate e) → v ≠ .stale →
    (∀ (outPort : PortIx) (peer : PeerIx) (far : CircIx) (cls : TrafficClass) (maxAge : Nat) (q : RouteIx)
        (sh : Option RouteIx) (copy : Copy),
      s.circuits[target].state = .opened → s.circuits[target].closing = none →
      s.circuits[target].defn = some { port := outPort, peer := peer, flow := .out far cls maxAge } →
      s.primary peer payload.length (s.eligible peer) = some q →
      (∀ q' : RouteIx, sh = some q' ↔
        (cls = .sure ∨ s.health[q].state = .fading) ∧
          LeastRoute (fun x => s.Eligible peer x ∧ x ≠ q) (s.expectedArrival payload.length) q') →
      copy =
        { slot := k, circuit := target, seq := s.circuits[target].nextSeq, len := payload.length, origin := rx.et
          port := outPort } →
      exec (.frameEnd r rest) s = .next
        { s with
          lanes := s.lanes.set r { s.lanes[r] with rx := none }
          score := s.score.set r { s.score[r] with firsts := s.score[r].firsts + 1 }
          tx := Vector.ofFn fun x =>
            if x = q ∨ sh = some x then { s.tx[x] with queue := s.tx[x].queue ++ [copy] } else s.tx[x]
          sel := Vector.ofFn fun x =>
            if x = q then { s.sel[x] with primaries := s.sel[x].primaries + 1 }
            else if sh = some x then { s.sel[x] with shadows := s.sel[x].shadows + 1 } else s.sel[x]
          pool := s.pool.update k fun f =>
            { f with bytes := rx.first :: rest, refs := if sh.isSome then 2 else 1, started := false }
          circuits := (s.circuits.set n
            { s.circuits[n] with
              window := s.circuits[n].window.accept seq { route := r, stamp := rx.stamp } v
              inn :=
                { s.circuits[n].inn with
                  accepted := s.circuits[n].inn.accepted + 1, relayed := s.circuits[n].inn.relayed + 1 } }).set target
            { s.circuits[target] with
              nextSeq := s.circuits[target].nextSeq + 1
              out :=
                { s.circuits[target].out with
                  accepted := s.circuits[target].out.accepted + 1
                  held := s.circuits[target].out.held + 1
                  shadowMissed := s.circuits[target].out.shadowMissed +
                    (if (cls = .sure ∨ s.health[q].state = .fading) ∧ sh = none then 1 else 0) } } }) ∧
    (∀ u : State,
      u = { s with
            lanes := s.lanes.set r { s.lanes[r] with rx := none }
            score := s.score.set r { s.score[r] with firsts := s.score[r].firsts + 1 }
            pool := s.pool.release k
            circuits := s.circuits.set n
              { s.circuits[n] with
                window := s.circuits[n].window.accept seq { route := r, stamp := rx.stamp } v
                inn :=
                  { s.circuits[n].inn with
                    accepted := s.circuits[n].inn.accepted + 1
                    relayFailures := s.circuits[n].inn.relayFailures + 1 } }
            ports := s.ports.set port (s.ports[port].record (.circuitDiscard n .relayFailed seq)) } →
      ((s.circuits[target].state ≠ .opened ∨ s.circuits[target].closing ≠ none ∨
          ∀ (outPort : PortIx) (peer : PeerIx) (far : CircIx) (cls : TrafficClass) (maxAge : Nat),
            s.circuits[target].defn ≠ some { port := outPort, peer := peer, flow := .out far cls maxAge }) →
        exec (.frameEnd r rest) s = .next u) ∧
      ∀ (outPort : PortIx) (peer : PeerIx) (far : CircIx) (cls : TrafficClass) (maxAge : Nat),
        s.circuits[target].state = .opened → s.circuits[target].closing = none →
        s.circuits[target].defn = some { port := outPort, peer := peer, flow := .out far cls maxAge } →
        (∀ q : RouteIx, ¬ s.Eligible peer q) →
        exec (.frameEnd r rest) s = .next
          { u with peers := s.peers.set peer { s.peers[peer] with noRoute := s.peers[peer].noRoute + 1 } })

/-- An invalid window accepts any number; a valid one finds a number 1 to 32,767 ahead of H ahead, one 0 to 63 behind a
duplicate if seen and acceptable if not, and one 64 or more behind stale. Accepting marks the number seen with its route and
stamp: judged again at once it is a duplicate. After an acceptance H is the number if it was ahead or first, else as before,
and a number seen before is still a duplicate of the same entry while at most 63 behind the new H, and stale when farther
behind. (R141, R142, R143, R144) -/
def Obligations.WindowVerdicts : Prop :=
  ∀ (w : Window) (seq : BitVec 16) (e : WinEntry),
    (w.valid = false → w.judge seq = .first) ∧
    (w.valid = true →
      (1 ≤ (seq - w.h).toNat → (seq - w.h).toNat ≤ 32767 → w.judge seq = .ahead (seq - w.h).toNat) ∧
      ((w.h - seq).toNat ≤ 63 →
        w.judge seq =
          match w.entries.getD (w.h - seq).toNat none with
          | some x => .duplicate x
          | none => .fill (w.h - seq).toNat) ∧
      (64 ≤ (w.h - seq).toNat → (w.h - seq).toNat ≤ 32768 → w.judge seq = .stale)) ∧
    ((∀ x : WinEntry, w.judge seq ≠ .duplicate x) → w.judge seq ≠ .stale →
      (w.accept seq e (w.judge seq)).valid = true ∧ (w.accept seq e (w.judge seq)).judge seq = .duplicate e ∧
      (∀ b : Nat, w.judge seq = .fill b → (w.accept seq e (w.judge seq)).h = w.h) ∧
      ((∀ b : Nat, w.judge seq ≠ .fill b) → (w.accept seq e (w.judge seq)).h = seq) ∧
      ∀ (old : BitVec 16) (x : WinEntry), w.valid = true → w.judge old = .duplicate x →
        (((w.accept seq e (w.judge seq)).h - old).toNat ≤ 63 →
          (w.accept seq e (w.judge seq)).judge old = .duplicate x) ∧
        (64 ≤ ((w.accept seq e (w.judge seq)).h - old).toNat → ((w.accept seq e (w.judge seq)).h - old).toNat ≤ 32768 →
          (w.accept seq e (w.judge seq)).judge old = .stale))

/-- On an idle link that is UP, OUTBOUND_TURN starts the urgent pending record of highest priority, else the head answer, else
the DELIVER of the head of the delivery queue, else the other pending record of highest priority, each in the envelope of
R193 with the HOLD status; a NOTICE clears its record, an ANSWER leaves its queue, a DELIVER records its stamp and stays
queued. With nothing present nothing changes. OUTBOUND_FRAME_END ends the frame, a DELIVER not cut leaves the queue and
releases its slot, and the turn of the state so left is taken (log entry 12). That a turn on a link DOWN or busy, and
OUTBOUND_FRAME_END with no outbound frame, change nothing is the model's choice (log entry 4). The unit that leaves is the
frame under way, and with none a fill word: 0x5A and the HOLD status, the link UP or DOWN. (R150, R174, R175, R176, R193,
R194, R153) -/
def Obligations.OutboundTurnsInOrder : Prop :=
  ∀ (s : State) (p : PortIx) (status : Byte), status = (if s.pool.hold then 1 else 0) →
    (s.ports[p].outbound = none → s.linkUnit p = [0x5A, status]) ∧
    (∀ o : Outbound, s.ports[p].outbound = some o → s.linkUnit p = o.bytes) ∧
    ((s.ports[p].up = false ∨ s.ports[p].outbound ≠ none) → exec (.outboundTurn p) s = .next s) ∧
    (s.ports[p].up = true → s.ports[p].outbound = none →
      (∀ (k : Fin 8) (n : Notice), 0 < s.ports[p].records[k].count → s.ports[p].records[k].latest = some n →
        (∀ j : Fin 8, j < k → s.ports[p].records[j].count = 0) →
        (k ≤ 1 ∨ (s.ports[p].answers = [] ∧ s.ports[p].delivery = [])) →
        exec (.outboundTurn p) s = .next
          { s with
            ports := s.ports.set p
              { s.ports[p] with
                outbound := some
                  { kind := .notice, cut := false
                    bytes := envelope 0xA5 status (bytesOf 1 (k.val + 1) ++ bytesOf 1 s.ports[p].records[k].count ++
                      bytesOf 2 (n.subject.getD 0xFFFF) ++ n.detail) }
                records := s.ports[p].records.set k { count := 0, latest := none } } }) ∧
      (s.ports[p].records[(0 : Fin 8)].count = 0 → s.ports[p].records[(1 : Fin 8)].count = 0 →
        (∀ (a : Answer) (rest : List Answer), s.ports[p].answers = a :: rest →
          exec (.outboundTurn p) s = .next
            { s with
              ports := s.ports.set p
                { s.ports[p] with
                  answers := rest
                  outbound := some
                    { kind := .answer, cut := false
                      bytes := envelope 0xA4 status ([a.request] ++ bytesOf 1 a.status.code ++ a.results) } } }) ∧
        (s.ports[p].answers = [] →
          (∀ (e : DeliveryEntry) (rest : List DeliveryEntry) (f : Frame) (from_ : RouteIx),
            s.ports[p].delivery = e :: rest → s.pool.frame e.slot = some f → f.source = .cargo from_ →
            exec (.outboundTurn p) s = .next
              { s with
                ports := s.ports.set p
                  { s.ports[p] with
                    lastDelivery := some { circuit := e.circuit, seq := e.seq, stamp := s.time.tt }
                    outbound := some
                      { kind := .deliver, cut := false
                        bytes := envelope 0xA3 status
                          (bytesOf 1 e.circuit.val ++ bytesOf 2 e.seq.toNat ++ bytesOf 1 from_.val ++
                            bytesOf 4 (field f.bytes 8 4) ++ bytesOf 8 (field f.bytes 12 8) ++
                            bytesOf 8 (field f.bytes 20 8) ++ bytesOf 8 f.stamp.toNat ++
                            (f.bytes.drop 28).take (field f.bytes 6 2)) } } }) ∧
          (s.ports[p].delivery = [] → (∀ k : Fin 8, s.ports[p].records[k].count = 0) →
            exec (.outboundTurn p) s = .next s)))) ∧
    (s.ports[p].outbound = none → exec (.outboundFrameEnd p) s = .next s) ∧
    (s.ports[p].up = true → ∀ o : Outbound, s.ports[p].outbound = some o →
      ((o.kind ≠ .deliver ∨ o.cut = true) →
        ∃ t, exec (.outboundTurn p) { s with ports := s.ports.set p { s.ports[p] with outbound := none } } = .next t ∧
          exec (.outboundFrameEnd p) s = .next t) ∧
      (∀ (e : DeliveryEntry) (rest : List DeliveryEntry), o.kind = .deliver → o.cut = false →
        s.ports[p].delivery = e :: rest →
        ∃ t, exec (.outboundTurn p)
            { s with
              pool := s.pool.release e.slot
              ports := s.ports.set p { s.ports[p] with outbound := none, delivery := rest } } = .next t ∧
          exec (.outboundFrameEnd p) s = .next t))

/-- LINK_DOWN of a port that is UP, when 100 µs have passed since the last byte of its link, or no byte has come as a byte (log
entry 11), releases a SEND being received and every queued delivery, counts the deliveries as link-flush, empties the
answers, clears the outbound frame, the owed SAVE and RESTART answers and all pending records, counts the fall, and has the
receiver begin again at a boundary with no run; the rest of the port stays. LINK_UP of a port that is DOWN, when its run
holds 16 fill words, or no byte has come as a byte (log entry 11), restores all eight kinds to the watch set, counts and
ends the run. MISS on a port that is UP sets its run of misses to one more, or to 1 when a marker came between; the eighth
takes the link DOWN in the same way. Otherwise nothing changes (log entries 4 and 11). The receiver of a link that is DOWN
makes LINK_UP at the last byte of the sixteenth fill word of an unbroken run and no command before it, and on a link that is
UP it counts no run; a byte at a boundary that is no marker is a miss and breaks the run, as an envelope does (log entry
11). An envelope, whatever its CRC, makes SEND_START at its marker and SEND_END at its end, or the directive that its body
names with its fields, or UNKNOWN_DIRECTIVE when it names none, or BAD_INBOUND_ENVELOPE for an outbound marker. (R151, R162,
R163, R193, R158) -/
def Obligations.LinksRiseAndFall : Prop :=
  (∀ (s : State) (p : PortIx),
    (s.ports[p].up = false → exec (.linkDown p) s = .next s ∧ (∀ b : Bool, exec (.miss p b) s = .next s)) ∧
    (s.ports[p].up = true → exec (.linkUp p) s = .next s) ∧
    (s.ports[p].up = false →
      ((s.ports[p].receiver.lastByte = none ∨ 16 ≤ s.ports[p].receiver.fills) →
        exec (.linkUp p) s = .next
          { s with
            ports := s.ports.set p
              { s.ports[p] with
                up := true, misses := 0, watch := 0xFF
                receiver := { s.ports[p].receiver with fills := 0 }
                counts := { s.ports[p].counts with linkUp := s.ports[p].counts.linkUp + 1 } } }) ∧
      (s.ports[p].receiver.lastByte ≠ none → s.ports[p].receiver.fills < 16 → exec (.linkUp p) s = .next s)) ∧
    (s.ports[p].up = true → ∀ fallen : State,
      fallen =
        { s with
          pool := s.ports[p].delivery.foldl (fun q e => q.release e.slot)
            (match s.ports[p].inbound with
            | .slot k => s.pool.release k
            | _ => s.pool)
          ports := s.ports.set p
            { s.ports[p] with
              up := false, misses := 0, inbound := .idle, delivery := [], answers := [], saveOwed := none, outbound := none
              receiver := { unit := [], fills := 0, hunting := false, lastByte := s.ports[p].receiver.lastByte }
              records := Vector.replicate 8 { count := 0, latest := none }
              counts :=
                { s.ports[p].counts with
                  linkFlush := s.ports[p].counts.linkFlush + BitVec.ofNat 32 s.ports[p].delivery.length
                  linkDown := s.ports[p].counts.linkDown + 1 } }
          profile :=
            { s.profile with
              restartOwed := if s.profile.restartOwed.map Prod.fst = some p then none else s.profile.restartOwed } } →
      (s.ports[p].receiver.lastByte = none → exec (.linkDown p) s = .next fallen) ∧
      (∀ last : Ticks, s.ports[p].receiver.lastByte = some last →
        (12500 ≤ (s.time.et - last).toNat → exec (.linkDown p) s = .next fallen) ∧
        ((s.time.et - last).toNat < 12500 → exec (.linkDown p) s = .next s)) ∧
      exec (.miss p true) s = .next { s with ports := s.ports.set p { s.ports[p] with misses := 1 } } ∧
      (s.ports[p].misses < 7 →
        exec (.miss p false) s = .next
          { s with ports := s.ports.set p { s.ports[p] with misses := s.ports[p].misses + 1 } }) ∧
      (7 ≤ s.ports[p].misses → exec (.miss p false) s = .next fallen))) ∧
  ∀ (x : Receiver) (p : PortIx) (now : Ticks), x.unit = [] →
    (∀ statuses : List Byte,
      (x.fills + statuses.length < 16 →
        (x.takeAll p false now (statuses.flatMap fun b => [0x5A, b])).2 = []) ∧
      (statuses ≠ [] → x.fills + statuses.length = 16 →
        (x.takeAll p false now (statuses.flatMap fun b => [0x5A, b])).2 = [.linkUp p]) ∧
      (x.takeAll p true now (statuses.flatMap fun b => [0x5A, b])).2 = [] ∧
      (statuses ≠ [] → ∀ up : Bool,
        (x.takeAll p up now (statuses.flatMap fun b => [0x5A, b])).1 =
          { unit := [], fills := if up then 0 else x.fills + statuses.length, hunting := false, lastByte := some now })) ∧
    (∀ (b : Byte) (up : Bool), b ∉ ([0x5A, 0xA1, 0xA2, 0xA3, 0xA4, 0xA5] : List Byte) →
      x.take p up now b = ({ unit := [], fills := 0, hunting := true, lastByte := some now }, [.miss p (!x.hunting)])) ∧
    ∀ (marker status : Byte) (body unit : List Byte) (crc : BitVec 32) (up : Bool) (end_ : Receiver),
      body.length < 65536 → unit = [marker, status] ++ bytesOf 2 body.length ++ body ++ bytesOf 4 crc.toNat →
      end_ = { unit := [], fills := 0, hunting := false, lastByte := some now } →
      (marker = 0xA1 → x.takeAll p up now unit = (end_, [.sendStart p, .sendEnd p status body crc])) ∧
      (marker = 0xA2 →
        (∀ y ∈ directives, ∀ d : Directive, d.port = p → d.status = status → d.crc = crc → body = directiveBody y.2.1 d →
          x.takeAll p up now unit = (end_, [y.1 d])) ∧
        ((body.length < 5 ∨ (body.getD 0 0).toNat = 0 ∨ 21 < (body.getD 0 0).toNat) →
          x.takeAll p up now unit = (end_, [.unknownDirective p status body crc]))) ∧
      (marker ∈ ([0xA3, 0xA4, 0xA5] : List Byte) → x.takeAll p up now unit = (end_, [.badInboundEnvelope p]))

/-- BAD_INBOUND_ENVELOPE on a link that is UP ends the run of misses and raises the bad-frame count; on a link that is DOWN
nothing changes. A DIRECTIVE envelope that names no known directive, on a link that is UP with a good CRC and fewer than 16
answers waiting, is answered UNKNOWN, or STARTING during LOADING; with a bad CRC it raises the bad-frame count, with 16
answers waiting the directive-overflow count, and it is not answered. A body of fewer than 5 bytes names directive 0.
Nothing else changes. (R166, R167, R193) -/
def Obligations.UnitsRejected : Prop :=
  ∀ (s : State) (p : PortIx),
    (s.ports[p].up = false → exec (.badInboundEnvelope p) s = .next s) ∧
    (s.ports[p].up = true →
      exec (.badInboundEnvelope p) s = .next
        { s with
          ports := s.ports.set p
            { s.ports[p] with
              misses := 0
              counts := { s.ports[p].counts with badFrames := s.ports[p].counts.badFrames + 1 } } }) ∧
    ∀ (status : Byte) (body : List Byte) (crc : BitVec 32),
      (body.length < 5 ∨ (body.getD 0 0).toNat = 0 ∨ 21 < (body.getD 0 0).toNat) →
      (s.ports[p].up = false → exec (.unknownDirective p status body crc) s = .next s) ∧
      (s.ports[p].up = true →
        (crc ≠ crc32 ([0xA2, status] ++ bytesOf 2 body.length ++ body) →
          exec (.unknownDirective p status body crc) s = .next
            { s with
              ports := s.ports.set p
                { s.ports[p] with
                  misses := 0
                  counts := { s.ports[p].counts with badFrames := s.ports[p].counts.badFrames + 1 } } }) ∧
        (crc = crc32 ([0xA2, status] ++ bytesOf 2 body.length ++ body) →
          (16 ≤ s.ports[p].answers.length →
            exec (.unknownDirective p status body crc) s = .next
              { s with
                ports := s.ports.set p
                  { s.ports[p] with
                    misses := 0
                    counts := { s.ports[p].counts with overflow := s.ports[p].counts.overflow + 1 } } }) ∧
          (s.ports[p].answers.length < 16 →
            exec (.unknownDirective p status body crc) s = .next
              { s with
                ports := s.ports.set p
                  { s.ports[p] with
                    misses := 0
                    lastRequest := some (body.getD 1 0)
                    counts := { s.ports[p].counts with taken := s.ports[p].counts.taken + 1 }
                    answers := s.ports[p].answers ++
                      [{ request := body.getD 1 0
                         status := if s.profile.load = .loading then .starting else .unknown, results := [] }] } })))

/-- For each of the 21 directives: with the link DOWN nothing changes; with a bad link CRC the bad-frame count alone rises, and
with 16 answers waiting the overflow count alone, each ending the run of misses; a directive taken during LOADING is
answered STARTING, and one taken in RUNNING whose arguments are not of its length or whose code-present byte is neither 0
nor 1 is answered BAD_ARG, each with no effect but the answer. (R166, R167, R193) -/
def Obligations.DirectivesTaken : Prop :=
  ∀ x ∈ directives, ∀ (s : State) (d : Directive),
    (s.ports[d.port].up = false → exec (x.1 d) s = .next s) ∧
    (s.ports[d.port].up = true →
      (d.crc ≠ crc32 (covered 0xA2 d.status (directiveBody x.2.1 d)) →
        exec (x.1 d) s = .next
          { s with
            ports := s.ports.set d.port
              { s.ports[d.port] with
                misses := 0
                counts := { s.ports[d.port].counts with badFrames := s.ports[d.port].counts.badFrames + 1 } } }) ∧
      (d.crc = crc32 (covered 0xA2 d.status (directiveBody x.2.1 d)) → 16 ≤ s.ports[d.port].answers.length →
        exec (x.1 d) s = .next
          { s with
            ports := s.ports.set d.port
              { s.ports[d.port] with
                misses := 0
                counts := { s.ports[d.port].counts with overflow := s.ports[d.port].counts.overflow + 1 } } })) ∧
    (s.Takes d x.2.1 → s.profile.load = .loading → exec (x.1 d) s = .next (s.answered d .starting [])) ∧
    (s.Takes d x.2.1 → s.profile.load = .running → (d.args.length ≠ x.2.2 ∨ 1 < d.present.toNat) →
      exec (x.1 d) s = .next (s.answered d .badArg []))

/-- For each of the 15 operator directives that reaches its owner in form and in RUNNING: while a SAVE is in flight it is
answered BUSY with no other effect; with no SAVE in flight and the code absent or different from the live one it is answered
DENIED, the port's denied count rises by 1, and nothing else changes. PAUSE and RESUME are BUSY during a SAVE, and PAUSE,
RESUME and CLEAR_COUNTS with a wrong code present are DENIED and counted. (R82, R167, R168) -/
def Obligations.OperatorAuthority : Prop :=
  ∀ (s : State) (d : Directive),
    (∀ x ∈ operatorDirectives, s.Reaches d x.2.1 x.2.2 →
      (s.profile.save ≠ none → exec (x.1 d) s = .next (s.answered d .busy [])) ∧
      (s.profile.save = none → (d.present = 0 ∨ d.code ≠ s.cfg.opCode) →
        exec (x.1 d) s = .next
          (State.answered
            { s with
              ports := s.ports.set d.port
                { s.ports[d.port] with
                  counts := { s.ports[d.port].counts with denied := s.ports[d.port].counts.denied + 1 } } }
            d .denied []))) ∧
    (∀ x ∈ [(Instr.pause, 4), (Instr.resume, 5)], s.Reaches d x.2 1 → s.profile.save ≠ none →
      exec (x.1 d) s = .next (s.answered d .busy [])) ∧
    (∀ x ∈ [(Instr.pause, 4), (Instr.resume, 5), (Instr.clearCounts, 6)], s.Reaches d x.2 1 → s.profile.save = none →
      d.present = 1 → d.code ≠ s.cfg.opCode →
      exec (x.1 d) s = .next
        (State.answered
          { s with
            ports := s.ports.set d.port
              { s.ports[d.port] with
                counts := { s.ports[d.port].counts with denied := s.ports[d.port].counts.denied + 1 } } }
          d .denied []))

/-- READ_TIME from any port, in form and in RUNNING, answers DONE with the fields of R19. READ_TABLE answers DONE with the
reading of its table and index as the state stands once the directive is taken; an index outside the table's range is
answered NOT_FOUND, a table code outside the list BAD_ARG. Nothing else changes. Each reading is the fields of its rules in
table order, each in its width, a field that may be absent behind its presence byte and a list behind its count: ROUTE of
R79, R115 and R133; LANE of R35; PEER of R78 and R115; CIRCUIT of R96; CALENDAR of R133; SAMPLES of R58; SCORE of R148; POOL
of R160; PORT of R171 with the start-up fields of R191. The widths no row of R192 names, and the fields that share a
presence byte or have none, are log entry 8. (R19, R35, R58, R96, R115, R133, R148, R160, R171, R191, R192, R194) -/
def Obligations.ReadingsChangeNothing : Prop :=
  (∀ (s : State) (d : Directive),
    (s.Reaches d 1 0 →
      exec (.readTime d) s = .next (s.answered d .done s.timeReading) ∧ s.timeReading.length = 74 ∧
      s.timeReading.take 18 =
        bytesOf 8 s.time.tt.toNat ++ bytesOf 8 s.time.et.toNat ++
          [BitVec.ofNat 8 s.time.state.code, BitVec.ofNat 8 s.cfg.time.role.code]) ∧
    (s.Reaches d 2 2 → ∀ code i : Byte, d.args = [code, i] →
      (∀ r : RouteIx, r.val = i.toNat →
        (code = 0 → exec (.readTable d) s = .next (s.answered d .done ((s.taken d).routeReading r))) ∧
        (code = 1 → exec (.readTable d) s = .next (s.answered d .done ((s.taken d).laneReading r))) ∧
        (code = 4 → exec (.readTable d) s = .next (s.answered d .done ((s.taken d).calendarReading r))) ∧
        (code = 5 → exec (.readTable d) s = .next (s.answered d .done ((s.taken d).samplesReading r))) ∧
        (code = 6 → exec (.readTable d) s = .next (s.answered d .done ((s.taken d).scoreReading r)))) ∧
      (code = 2 → ∀ p : PeerIx, p.val = i.toNat →
        exec (.readTable d) s = .next (s.answered d .done ((s.taken d).peerReading p))) ∧
      (code = 3 → ∀ n : CircIx, n.val = i.toNat →
        exec (.readTable d) s = .next (s.answered d .done ((s.taken d).circuitReading n))) ∧
      (code = 7 → i = 0 → exec (.readTable d) s = .next (s.answered d .done (s.taken d).poolReading)) ∧
      (code = 8 → ∀ p : PortIx, p.val = i.toNat →
        exec (.readTable d) s = .next (s.answered d .done ((s.taken d).portReading p))) ∧
      (code.toNat < 9 → [16, 16, 4, 64, 16, 16, 16, 1, 6].getD code.toNat 0 ≤ i.toNat →
        exec (.readTable d) s = .next (s.answered d .notFound [])) ∧
      (9 ≤ code.toNat → exec (.readTable d) s = .next (s.answered d .badArg [])))) ∧
  (∀ (n : Nat) (bs : List Byte),
    optBytes n id (some bs) = 1 :: bs ∧ optBytes n (id : List Byte → List Byte) none = 0 :: List.replicate n 0) ∧
  (∀ xs : List (List Byte), listBytes id xs = BitVec.ofNat 8 xs.length :: xs.flatten) ∧
  ∀ u : State,
    u.timeReading = List.flatten
      [bytesOf 8 u.time.tt.toNat, bytesOf 8 u.time.et.toNat, bytesOf 1 u.time.state.code, bytesOf 1 u.cfg.time.role.code,
       bytesOfInt 4 u.time.fc, bytesOfInt 8 u.time.sl, bytesOfInt 4 u.time.p, bytesOf 4 u.time.good,
       optBytes 1 id (u.time.timeRoute.map fun r => bytesOf 1 r.val),
       optBytes 8 id (u.time.capture.map fun c => bytesOf 8 c.toNat), bytesOf 4 u.time.accepted.toNat,
       bytesOf 4 u.time.glitches.toNat, optBytes 8 id (u.time.lastEdge.map fun e => bytesOf 8 e.toNat),
       bytesOf 8 u.time.lastFired] ∧
    (∀ r : RouteIx,
      u.routeReading r = List.flatten
        [bytesOf 1 (boolCode u.cfg.routes[r].enable), bytesOf 1 u.cfg.routes[r].peer.val, bytesOf 1 u.health[r].state.code,
         optBytes 8 id (u.health[r].lastChange.map fun e => bytesOf 8 ((u.time.et - e).toNat * 8)),
         bytesOf 4 u.health[r].error, bytesOf 4 u.health[r].good, bytesOf 2 u.health[r].seed.toNat,
         bytesOf 1 (boolCode u.tx[r].testEntry), bytesOf 4 u.health[r].counts.changes.toNat,
         bytesOf 4 u.health[r].counts.crcFailures.toNat, bytesOf 4 u.health[r].counts.testsSent.toNat,
         bytesOf 4 u.health[r].counts.testSkips.toNat, bytesOf 4 u.health[r].counts.testsChecked.toNat,
         bytesOf 4 u.health[r].counts.testsFailed.toNat,
         bytesOf 1 (if (u.health[r].state = .up ∨ u.health[r].state = .fading) ∧ u.cfg.lanes[r].type ≠ .unused ∧
           u.tx[r].queue.length < 48 then 1 else 0),
         bytesOf 4 u.sel[r].primaries.toNat, bytesOf 4 u.sel[r].shadows.toNat, bytesOf 4 u.sel[r].resteeredIn.toNat,
         bytesOf 4 u.tx[r].queue.length, bytesOf 4 u.tx[r].backlog,
         optBytes 9 id (u.tx[r].current.map fun c => List.flatten
           [bytesOf 1 c.kind.code, optBytes 3 id (c.copy.map fun x => bytesOf 1 x.circuit.val ++ bytesOf 2 x.seq.toNat),
            bytesOf 4 c.untaken]),
         bytesOf 4 u.tx[r].echoes.length, bytesOf 1 (boolCode u.tx[r].probeEntry), bytesOf 1 (boolCode u.tx[r].testEntry),
         bytesOf 4 u.tx[r].counts.expiredAtStart.toNat, bytesOf 4 u.tx[r].counts.releasedResteer.toNat,
         bytesOf 4 u.tx[r].counts.expiredResteer.toNat, bytesOf 4 u.tx[r].counts.noRouteResteer.toNat,
         bytesOf 4 u.tx[r].counts.resteeredOut.toNat, bytesOf 4 u.tx[r].counts.abandoned.toNat,
         bytesOf 4 u.tx[r].counts.unslotted.toNat] ∧
      u.tx[r].backlog = (u.tx[r].queue.map fun c => c.len + 32).sum + ((u.tx[r].current.map Current.untaken).getD 0) ∧
      u.laneReading r = List.flatten
        [bytesOf 1 u.cfg.lanes[r].type.code, bytesOf 2 u.cfg.lanes[r].txc, bytesOf 2 u.cfg.lanes[r].rxc,
         bytesOf 1 u.cfg.lanes[r].interval, bytesOf 1 (boolCode u.lanes[r].los), bytesOf 1 (boolCode u.lanes[r].silent),
         optBytes 6 id (u.lanes[r].latest.map fun x => List.flatten
           [bytesOfInt 2 x.rsl, bytesOf 1 x.step, bytesOf 2 x.quality,
            bytesOf 1 (boolCode x.fault + 2 * boolCode x.temp + 4 * boolCode x.mute)]),
         optBytes 1 id (if u.cfg.lanes[r].type = .radio then some (bytesOf 1 u.lanes[r].effectiveStep) else none),
         optBytes 2 id ((byteTime u.cfg.lanes[r].type u.lanes[r]).map (bytesOf 2)),
         listBytes id (u.lanes[r].ring.map (bytesOfInt 2)), bytesOf 1 u.lanes[r].trend.code,
         bytesOf 4 u.lanes[r].counts.reports.toNat, bytesOf 4 u.lanes[r].counts.clamped.toNat,
         bytesOf 4 u.lanes[r].counts.ignored.toNat, bytesOf 4 u.lanes[r].counts.bad.toNat,
         bytesOf 4 u.lanes[r].counts.silences.toNat, bytesOf 4 u.lanes[r].counts.los.toNat,
         bytesOf 4 u.lanes[r].counts.oversize.toNat, bytesOf 4 u.lanes[r].counts.abandoned.toNat] ∧
      u.calendarReading r = List.flatten
        [u.cfg.calendars[r].toList.flatMap fun x => bytesOf 1 (match x with | none => 255 | some p => p.val),
         bytesOf 1 u.tx[r].pointer.val,
         (List.finRange 6).flatMap fun p => List.flatten
           [bytesOf 4 (u.tx[r].queue.countP fun c => decide (c.port = p)),
            optBytes 3 id ((u.tx[r].queue.find? fun c => decide (c.port = p)).map fun c =>
              bytesOf 1 c.circuit.val ++ bytesOf 2 c.seq.toNat)]] ∧
      u.samplesReading r = List.flatten
        [bytesOfInt 4 u.cfg.routes[r].a, optBytes 8 id (u.probes[r].m.map (bytesOf 8)),
         optBytes 8 id (u.probes[r].m.map fun m => bytesOf 8 ((m + u.cfg.routes[r].a) / 2).toNat),
         listBytes id (u.probes[r].ring.map fun x => List.flatten
           [[x.number], bytesOf 8 x.rtt, bytesOfInt 8 x.d, bytesOfInt 8 ((x.d - u.cfg.routes[r].a) / 2),
            bytesOf 8 ((u.time.et - x.at_).toNat * 8)]),
         listBytes id (u.probes[r].outstanding.map fun o => List.flatten
           [[o.number], bytesOf 8 o.t1.toNat, bytesOf 8 ((u.time.et - o.sentAt).toNat * 8)]),
         [u.probes[r].nextNumber], bytesOf 1 (boolCode u.tx[r].probeEntry), bytesOf 4 u.tx[r].echoes.length,
         bytesOf 4 u.probes[r].errorsToTell,
         optBytes 13 id (u.probes[r].peerView.map fun v => List.flatten
           [[v.state], bytesOf 4 v.errors.toNat, bytesOf 8 ((u.time.et - v.at_).toNat * 8)]),
         bytesOf 4 u.probes[r].counts.sent.toNat, bytesOf 4 u.probes[r].counts.fullSkips.toNat,
         bytesOf 4 u.probes[r].counts.replacedSkips.toNat, bytesOf 4 u.probes[r].counts.echoesSent.toNat,
         bytesOf 4 u.probes[r].counts.echoesDropped.toNat, bytesOf 4 u.probes[r].counts.good.toNat,
         bytesOf 4 u.probes[r].counts.badSample.toNat, bytesOf 4 u.probes[r].counts.lost.toNat,
         bytesOf 4 u.probes[r].counts.lateEcho.toNat, bytesOf 4 u.probes[r].counts.offsetsHanded.toNat,
         bytesOf 1 u.cfg.probe.interval, bytesOf 1 u.cfg.probe.timeout, bytesOf 2 u.cfg.probe.gate] ∧
      u.scoreReading r = List.flatten
        [bytesOf 4 u.tx[r].cargoSent.toNat, bytesOf 4 u.score[r].firsts.toNat, bytesOf 4 u.score[r].lates.toNat,
         bytesOf 6 u.score[r].lateness, bytesOf 4 u.score[r].probes.toNat, bytesOf 4 u.score[r].echoes.toNat,
         bytesOf 4 u.score[r].tests.toNat, bytesOf 4 u.score[r].noBuffer.toNat, bytesOf 4 u.score[r].badKind.toNat,
         bytesOf 4 u.score[r].misdirected.toNat, bytesOf 4 u.score[r].malformed.toNat,
         bytesOf 4 u.score[r].unknownCircuit.toNat]) ∧
    (∀ p : PeerIx,
      u.peerReading p = List.flatten
        [bytesOf 1 (boolCode u.cfg.peers[p].enabled), [u.cfg.peers[p].termId],
         listBytes id (((List.finRange 16).filter fun r => decide (u.cfg.routes[r].peer = p)).map fun r =>
           bytesOf 1 r.val ++ bytesOf 1 u.health[r].state.code),
         optBytes 1 id (u.peers[p].forced.map fun r => bytesOf 1 r.val), bytesOf 4 u.peers[p].noRoute.toNat]) ∧
    (∀ (n : CircIx) (outTallies window inTallies : List Byte) (port : PortIx) (peer : PeerIx),
      outTallies = List.flatten
        [bytesOf 4 u.circuits[n].out.accepted.toNat, bytesOf 4 u.circuits[n].out.sent.toNat,
         bytesOf 4 u.circuits[n].out.expired.toNat, bytesOf 4 u.circuits[n].out.noRoute.toNat,
         bytesOf 4 u.circuits[n].out.flushed.toNat, bytesOf 4 u.circuits[n].out.held.toNat,
         bytesOf 4 u.circuits[n].out.shadowMissed.toNat] →
      inTallies = List.flatten
        [bytesOf 4 u.circuits[n].inn.accepted.toNat, bytesOf 4 u.circuits[n].inn.duplicates.toNat,
         bytesOf 4 u.circuits[n].inn.stale.toNat, bytesOf 4 u.circuits[n].inn.overrun.toNat,
         bytesOf 4 u.circuits[n].inn.relayed.toNat, bytesOf 4 u.circuits[n].inn.relayFailures.toNat,
         bytesOf 4 u.circuits[n].inn.withdrawn.toNat] →
      window = List.flatten
        [bytesOf 1 (boolCode u.circuits[n].window.valid),
         optBytes 2 id (if u.circuits[n].window.valid then some (bytesOf 2 u.circuits[n].window.h.toNat) else none),
         listBytes id ((List.range 64).reverse.filterMap fun b =>
           (u.circuits[n].window.entries.getD b none).map fun e => List.flatten
             [bytesOf 2 (u.circuits[n].window.h - BitVec.ofNat 16 b).toNat, bytesOf 1 e.route.val,
              bytesOf 8 e.stamp.toNat])] →
      (∀ (far : CircIx) (cls : TrafficClass) (maxAge : Nat),
        u.circuits[n].defn = some { port := port, peer := peer, flow := .out far cls maxAge } →
        u.circuitReading n = List.flatten
          [bytesOf 1 u.circuits[n].state.code, optBytes 4 id (u.circuits[n].closing.map (bytesOf 4)),
           [1, 0], [1, BitVec.ofNat 8 port.val], [1, BitVec.ofNat 8 peer.val], [1, BitVec.ofNat 8 far.val],
           [1, BitVec.ofNat 8 cls.code], 1 :: bytesOf 2 maxAge, 1 :: bytesOf 2 u.circuits[n].nextSeq.toNat,
           outTallies]) ∧
      (∀ relay : Option CircIx, u.circuits[n].defn = some { port := port, peer := peer, flow := .inn relay } →
        u.circuitReading n = List.flatten
          [bytesOf 1 u.circuits[n].state.code, optBytes 4 id (u.circuits[n].closing.map (bytesOf 4)),
           [1, 1], [1, BitVec.ofNat 8 port.val], [1, BitVec.ofNat 8 peer.val],
           optBytes 1 id (relay.map fun m => bytesOf 1 m.val), window, inTallies]) ∧
      (u.circuits[n].defn = none →
        u.circuitReading n = List.flatten
          [bytesOf 1 u.circuits[n].state.code, optBytes 4 id (u.circuits[n].closing.map (bytesOf 4)),
           [0, 0], [0, 0], [0, 0], [0, 0], [0, 0], [0, 0, 0], [0, 0, 0], outTallies, [0, 0], window, inTallies])) ∧
    (∀ (sends arrivals : Nat),
      sends = ((List.finRange 6).countP fun p => match u.ports[p].inbound with | .slot _ => true | _ => false) →
      arrivals = ((List.finRange 16).countP fun r =>
        match u.lanes[r].rx with | some { store := .slot _, .. } => true | _ => false) →
      u.poolReading = List.flatten
        [bytesOf 2 (1024 - u.pool.slots.length), bytesOf 1 (boolCode u.pool.hold), bytesOf 2 u.pool.lowWater,
         bytesOf 4 sends, bytesOf 4 arrivals,
         bytesOf 4 ((u.pool.slots.countP fun e => decide (e.2.refs = 1)) - sends - arrivals),
         bytesOf 4 (u.pool.slots.countP fun e => decide (e.2.refs = 2)), bytesOf 4 u.pool.holds.toNat,
         bytesOf 4 u.pool.underHold.toNat, bytesOf 4 u.pool.sendNoBuffer.toNat,
         bytesOf 4 u.pool.arrivalNoBuffer.toNat]) ∧
    ∀ p : PortIx,
      u.portReading p = List.flatten
        [bytesOf 1 (boolCode u.ports[p].up), bytesOf 4 u.ports[p].delivery.length,
         optBytes 3 id (u.ports[p].delivery.head?.map fun e => bytesOf 1 e.circuit.val ++ bytesOf 2 e.seq.toNat),
         bytesOf 4 u.ports[p].answers.length, optBytes 1 id (u.ports[p].saveOwed.map fun q => [q]),
         [0, u.ports[p].watch],
         (List.finRange 8).flatMap fun k => List.flatten
           [bytesOf 4 u.ports[p].records[k].count,
            optBytes 2 id ((u.ports[p].records[k].latest.bind Notice.subject).map (bytesOf 2)),
            optBytes 8 id (u.ports[p].records[k].latest.map Notice.detail)],
         optBytes 11 id (u.ports[p].lastDelivery.map fun x =>
           List.flatten [bytesOf 1 x.circuit.val, bytesOf 2 x.seq.toNat, bytesOf 8 x.stamp.toNat]),
         optBytes 1 id (u.ports[p].lastRequest.map fun q => [q]), bytesOf 4 u.ports[p].counts.accepted.toNat,
         bytesOf 4 u.ports[p].counts.refused.toNat, bytesOf 4 u.ports[p].counts.notOpen.toNat,
         bytesOf 4 u.ports[p].counts.notOwner.toNat, bytesOf 4 u.ports[p].counts.paused.toNat,
         bytesOf 4 u.ports[p].counts.tooLong.toNat, bytesOf 4 u.ports[p].counts.noRoute.toNat,
         bytesOf 4 u.ports[p].counts.notReady.toNat, bytesOf 4 u.ports[p].counts.noBuffer.toNat,
         bytesOf 4 u.ports[p].counts.badFrames.toNat, bytesOf 4 u.ports[p].counts.taken.toNat,
         bytesOf 4 u.ports[p].counts.overflow.toNat, bytesOf 4 u.ports[p].counts.denied.toNat,
         bytesOf 4 u.ports[p].counts.linkFlush.toNat, bytesOf 4 u.ports[p].counts.linkUp.toNat,
         bytesOf 4 u.ports[p].counts.linkDown.toNat, [u.cfg.termId], bytesOf 1 u.profile.load.code,
         optBytes 1 id (u.profile.outcome.map fun o => bytesOf 1 (outcomeCode (some o))),
         optBytes 1 id (u.profile.failing.map fun x => bytesOf 1 (failingCode (some x))),
         bytesOf 1 (boolCode u.profile.save.isSome),
         optBytes 3 id (u.profile.lastSave.map fun x =>
           match x with | .done => [0, 0, 0] | .flashError step => [9, 1, BitVec.ofNat 8 (step.val + 1)]),
         bytesOf 4 u.profile.loads.toNat, bytesOf 4 u.profile.savesDone.toNat, bytesOf 4 u.profile.savesFailed.toNat]

/-- WATCH from any port, in form and in RUNNING, with a set of the eight kinds answers DONE with the set in 2 bytes, replaces
the port's watch set, and leaves a pending record only for a kind in both sets; a set with a higher bit is BAD_ARG. An
authorised SET_IDENTITY replaces the terminal id and the operator code and answers DONE, or BAD_ARG with no setting changed
when an enabled peer has the id. Nothing else changes. (R168, R169, R172, R194) -/
def Obligations.WatchAndIdentity : Prop :=
  ∀ (s : State) (d : Directive),
    (s.Reaches d 3 2 → ∀ high low : Byte, d.args = [high, low] →
      (high ≠ 0 → exec (.watch d) s = .next (s.answered d .badArg [])) ∧
      (high = 0 →
        exec (.watch d) s = .next
          (State.answered
            { s with
              ports := s.ports.set d.port
                { s.ports[d.port] with
                  watch := low
                  records := Vector.ofFn fun k : Fin 8 =>
                    if s.ports[d.port].watch.getLsbD k.val = true ∧ low.getLsbD k.val = true then s.ports[d.port].records[k]
                    else { count := 0, latest := none } } }
            d .done [0, low]))) ∧
    (s.Authorised d 7 3 → ∀ (id : Byte) (code : BitVec 16), d.args = id :: bytesOf 2 code.toNat →
      ((∃ p : PeerIx, s.cfg.peers[p].enabled = true ∧ s.cfg.peers[p].termId = id) →
        exec (.setIdentity d) s = .next (s.answered d .badArg [])) ∧
      ((∀ p : PeerIx, s.cfg.peers[p].enabled = true → s.cfg.peers[p].termId ≠ id) →
        exec (.setIdentity d) s = .next
          (State.answered { s with cfg := { s.cfg with termId := id, opCode := code } } d .done [])))

/-- An authorised SAVE_PROFILE is accepted: its snapshot holds the live settings and a record of each circuit OPEN or PAUSED
with no close pending, its port is owed the answer, and none joins now. SAVE_COMPLETE with every step done within 400 ms
leaves the image written and the marker erased, outcome DONE and the count of SAVEs completed up by 1; with a failed step,
or later (step 5, log entry 10), FLASH_ERROR with the step and the count failed; the port owed gets the answer and is owed
none. The bytes that programming and a failed step leave in the flash are those of log entries 7 and 17. That SAVE_COMPLETE
with no SAVE in flight changes nothing is the model's choice (log entry 4). Nothing else changes. (R166, R176, R186, R187,
R188) -/
def Obligations.SavesTakeAndEnd : Prop :=
  ∀ s : State,
    (∀ d : Directive, s.Authorised d 20 0 →
      exec (.saveProfile d) s = .next
        { s with
          profile := { s.profile with save := some { snapshot := s.snapshot, started := s.time.et } }
          ports := s.ports.set d.port
            { s.ports[d.port] with
              misses := 0, lastRequest := some d.request, saveOwed := some d.request
              counts := { s.ports[d.port].counts with taken := s.ports[d.port].counts.taken + 1 } } }) ∧
    s.snapshot.settings = s.cfg ∧
    (∀ c : SavedCircuit, c ∈ s.snapshot.circuits ↔
      s.circuits[c.number].defn = some c.defn ∧ s.circuits[c.number].closing = none ∧
        s.circuits[c.number].state = (if c.paused then .paused else .opened)) ∧
    (s.profile.save = none → ∀ result : SaveResult, exec (.saveComplete result) s = .next s) ∧
    ∀ job : SaveJob, s.profile.save = some job →
      ((s.time.et - job.started).toNat ≤ 50000000 →
        exec (.saveComplete .done) s = .next
          { s with
            flash := clearMarker (writeImage (setMarker s.flash) (encodeImage job.snapshot))
            profile :=
              { s.profile with save := none, lastSave := some .done, savesDone := s.profile.savesDone + 1 }
            ports := Vector.ofFn fun p =>
              match s.ports[p].saveOwed with
              | none => s.ports[p]
              | some q =>
                { s.ports[p] with
                  saveOwed := none
                  answers := s.ports[p].answers ++ [{ request := q, status := .done, results := [] }] } }) ∧
      ∀ (result : SaveResult) (left : FlashLeft),
        ((result = .failed left ∧ left.wf = true) ∨
          (result = .done ∧ 50000000 < (s.time.et - job.started).toNat ∧
            left = { step := 4, bytes := List.replicate 16 0 })) →
        exec (.saveComplete result) s = .next
          { s with
            flash := leaveFlash s.flash (encodeImage job.snapshot) left
            profile :=
              { s.profile with
                save := none, lastSave := some (.flashError left.step), savesFailed := s.profile.savesFailed + 1 }
            ports := Vector.ofFn fun p =>
              match s.ports[p].saveOwed with
              | none => s.ports[p]
              | some q =>
                { s.ports[p] with
                  saveOwed := none
                  answers := s.ports[p].answers ++
                    [{ request := q, status := .flashError, results := [BitVec.ofNat 8 (left.step.val + 1)] }] } }

/-- For the flash as read, erased throughout when it does not answer: a set marker is CHECKSUM_ERROR, an erased header EMPTY, a
length below 10 or above 16,384 or a wrong CRC-32 CHECKSUM_ERROR, a format number other than 1 FORMAT_ERROR in HEADER, a
failing section FORMAT_ERROR in it (log entry 18), else LOADED. LOAD_END during LOADING makes the terminal RUNNING with that
outcome and answers an owed RESTART. LOADED: the settings replace the live ones, permitted DISABLED routes pass to PROVING
as R65 and R66 say, RADIO timers start, circuits are restored fresh. Otherwise they stay. The effects of R18 follow on every
outcome (log entry 22). That LOAD_END in RUNNING changes nothing is the model's choice (log entry 4). (R18, R31, R65, R66,
R76, R97, R183, R184, R185, R190) -/
def Obligations.LoadEndTakesEffect : Prop :=
  ∀ (s : State) (answers : Bool) (m : List Host.Cell), m = (if answers then s.flash else []) →
    (s.profile.load = .running → exec (.loadEnd answers) s = .next s) ∧
    ((∃ a : Nat, 65280 ≤ a ∧ a < 65536 ∧ readFlash m a ≠ 0xFF) → judgeFlash m = .error (.checksumError, none)) ∧
    ((∀ a : Nat, 65280 ≤ a → a < 65536 → readFlash m a = 0xFF) →
      ((∀ a : Nat, a < 10 → readFlash m a = 0xFF) → judgeFlash m = .error (.empty, none)) ∧
      ((∃ a : Nat, a < 10 ∧ readFlash m a ≠ 0xFF) → ∀ len : Nat, len = field (flashBytes m 0 10) 2 4 →
        ((len < 10 ∨ 16384 < len) → judgeFlash m = .error (.checksumError, none)) ∧
        (10 ≤ len → len ≤ 16384 →
          (field (flashBytes m 0 10) 6 4 ≠ (crc32 (flashBytes m 0 6 ++ flashBytes m 10 (len - 10))).toNat →
            judgeFlash m = .error (.checksumError, none)) ∧
          (field (flashBytes m 0 10) 6 4 = (crc32 (flashBytes m 0 6 ++ flashBytes m 10 (len - 10))).toNat →
            (field (flashBytes m 0 10) 0 2 ≠ 1 → judgeFlash m = .error (.formatError, some .header)) ∧
            (field (flashBytes m 0 10) 0 2 = 1 →
              (∀ part, readSections (flashBytes m 10 (len - 10)) = .error part →
                judgeFlash m = .error (.formatError, some part)) ∧
              (∀ i, readSections (flashBytes m 10 (len - 10)) = .ok i → judgeFlash m = .ok i)))))) ∧
    (s.profile.load = .loading →
      ∃ (t : State) (o : LoadOutcome) (part : Option ImagePart), exec (.loadEnd answers) s = .next t ∧
        t.profile =
          { s.profile with
            load := .running, outcome := some o, failing := part, loads := s.profile.loads + 1, restartOwed := none } ∧
        (∀ p : PortIx, t.ports[p].answers = s.ports[p].answers ++
          match s.profile.restartOwed with
          | some (q, request) =>
            if q = p then
              [{ request := request, status := .done
                 results := bytesOf 1 (outcomeCode (some o)) ++ bytesOf 1 (failingCode part) }]
            else []
          | none => []) ∧
        t.TimeRouteSound ∧
        (if State.holdoverDue { s with cfg := t.cfg } = true then
          t.time.state = .holdover ∧ t.time.fc = s.time.fc ∧ t.time.sl = 0 ∧ t.time.good = 0
        else { t.time with timeRoute := s.time.timeRoute } = s.time) ∧
        (∀ e, judgeFlash m = .error e →
          o = e.1 ∧ part = e.2 ∧ { t with time := s.time, profile := s.profile, ports := s.ports } = s) ∧
        ∀ i, judgeFlash m = .ok i →
          o = .loaded ∧ part = none ∧ t.cfg = i.settings ∧ t.tx.map Tx.queue = s.tx.map Tx.queue ∧ t.pool = s.pool ∧
          (∀ r : RouteIx,
            t.health[r].state =
              (if s.health[r].state = .disabled ∧ i.settings.routes[r].enable = true ∧
                  i.settings.peers[i.settings.routes[r].peer].enabled = true ∧ i.settings.lanes[r].type ≠ .unused then
                .proving
              else s.health[r].state) ∧
            t.lanes[r] =
              { s.lanes[r] with
                timer := if i.settings.lanes[r].type = .radio then some s.time.et else s.lanes[r].timer }) ∧
          s.ChangesMade t (s.oneChange t) ∧
          (∀ c ∈ i.circuits,
            t.circuits[c.number] =
              { state := if c.paused then .paused else .opened, closing := none, defn := some c.defn, nextSeq := 0
                window := { valid := false, h := 0, entries := List.replicate 64 none }, out := {}, inn := {} }) ∧
          ∀ n : CircIx, (∀ c ∈ i.circuits, c.number ≠ n) → t.circuits[n] = s.circuits[n])

/-- An authorised RESTART leaves the SAFE settings live and the load LOADING with its answer owed and none joined; TT, ET, FC
and the time state as they were and SL 0 with no time route; lanes clear but for LOS; every route DISABLED with its counts
0; circuits, probes, selector, transmit and arrival records as after cold reset; each port with no delivery, no last
delivery and counts 0, its link, watch set, answers and SEND being received kept and a DELIVER under way cut: after the
bytes that have left, a free value (log entry 26), it goes on as bytes of 0 to its length and closes with the complement of
their CRC, so that it fails its CRC wherever it is cut. With every slot accounted for, only SENDs being received keep slots,
HOLD is released and the low-water mark is the free count. That no holdover is judged here is log entry 22, and that the
head and the last CRC byte of a cut DELIVER are left alone is log entry 12. (R21, R36, R59, R80, R97, R116, R135, R153,
R161, R179, R189, R183) -/
def Obligations.RestartStartsAfresh : Prop :=
  (∀ (s : State) (d : Directive), s.Authorised d 21 0 →
    ∃ t, exec (.restart d) s = .next t ∧ t.cfg = Settings.safe ∧ t.flash = s.flash ∧ t.pending = s.pending ∧
      t.arriving = s.arriving ∧
      t.profile =
        { s.profile with
          load := .loading, restartOwed := some (d.port, d.request), restarts := s.profile.restarts + 1 } ∧
      t.time =
        { s.time with
          sl := 0, p := max (-500000) (min 500000 s.time.fc), inc := incOf (max (-500000) (min 500000 s.time.fc))
          timeRoute := none } ∧
      (∀ r : RouteIx,
        t.lanes[r] =
          { los := s.lanes[r].los, latest := none, ring := [], trend := .steady, silent := false, timer := none
            rx := none, counts := {} } ∧
        t.health[r] =
          { state := .disabled, error := 0, good := 0, seed := 0, testDue := none, counts := {}
            lastChange := if s.health[r].state = .disabled then s.health[r].lastChange else some s.time.et } ∧
        t.probes[r] = Probe.blank ∧ t.sel[r] = {} ∧ t.score[r] = {} ∧
        t.tx[r] =
          { queue := [], echoes := [], probeEntry := false, testEntry := false, current := none, pointer := 0
            cargoSent := 0, counts := {} }) ∧
      (∀ n : CircIx, t.circuits[n] = Circuit.blank) ∧ (∀ p : PeerIx, t.peers[p] = { forced := none, noRoute := 0 }) ∧
      (∀ p : PortIx,
        t.ports[p] =
          { s.ports[p] with
            misses := if p = d.port then 0 else s.ports[p].misses
            lastRequest := if p = d.port then some d.request else s.ports[p].lastRequest
            delivery := [], lastDelivery := none, counts := {}
            outbound := s.ports[p].outbound.map fun o =>
              if o.kind = .deliver ∧ o.cut = false then
                { o with cut := true, bytes := cutEnvelope o.bytes (Config.cutPoint s.profile.restarts p) }
              else o
            records := t.ports[p].records } ∧
        (∀ k : Fin 8, k ≠ 1 → t.ports[p].records[k] = s.ports[p].records[k]) ∧
        (s.ports[p].records[(1 : Fin 8)].count ≤ 255 →
          t.ports[p].records[(1 : Fin 8)].count =
            if s.ports[p].up = true ∧ s.ports[p].watch.getLsbD 1 = true then
              min 255 (s.ports[p].records[(1 : Fin 8)].count +
                (List.finRange 16).countP fun r => decide (s.health[r].state ≠ .disabled))
            else s.ports[p].records[(1 : Fin 8)].count)) ∧
      (s.SlotsSound →
        t.pool.hold = false ∧ t.pool.lowWater = t.pool.free ∧ t.pool.holds = 0 ∧ t.pool.underHold = 0 ∧
        t.pool.sendNoBuffer = 0 ∧ t.pool.arrivalNoBuffer = 0 ∧
        t.pool.free + ((List.finRange 6).countP fun p =>
          match s.ports[p].inbound with
          | .slot _ => true
          | _ => false) = 1024)) ∧
  ∀ (status : Byte) (body e : List Byte) (n : Nat), e = envelope 0xA3 status body →
    (cutEnvelope e n).length = e.length ∧
    (∀ i : Nat, i < e.length - 1 → (i < 4 ∨ i < n) → (cutEnvelope e n).getD i 0 = e.getD i 0) ∧
    (∀ i : Nat, 4 ≤ i → n ≤ i → i < e.length - 4 → (cutEnvelope e n).getD i 0 = 0) ∧
    ((n ≤ e.length - 4) →
      (cutEnvelope e n).drop (e.length - 4) =
        bytesOf 4 (~~~ crc32 ((cutEnvelope e n).take (e.length - 4))).toNat) ∧
    (cutEnvelope e n).drop (e.length - 4) ≠ bytesOf 4 (crc32 ((cutEnvelope e n).take (e.length - 4))).toNat

/-- COLD_RESET leaves the reset state, but that each LOS level and link state is as sensed, the flash is kept, what waits or is
to come stays, and a link's receiver stands at a boundary, its last byte counted from now; with a SAVE in flight the flash
is as the step under way left it. The reset state has TT, ET, FC, SL and P 0, INC 34,359,738,368, FREE; load LOADING; every
circuit CLOSED and route DISABLED; 1,024 slots free with HOLD released; all eight kinds watched; and the SAFE settings. That
commands wait through it and how a receiver begins are the model's choice (log entries 1 and 2), as is the link-up count 0
of a link sensed UP (log entry 14), and the levels and flash of the state at power-up are those of log entries 1 and 2; the
draws of log entry 26 go on counting. (R20, R36, R56, R77, R134, R161, R178, R182, R183, R188, R191, R33) -/
def Obligations.ColdResetRestoresReset : Prop :=
  (∀ (s : State) (left : FlashLeft) (m : List Host.Cell),
    ((s.profile.save = none ∧ m = s.flash) ∨
      ∃ job : SaveJob, s.profile.save = some job ∧ left.wf = true ∧ m = leaveFlash s.flash (encodeImage job.snapshot) left) →
    exec (.coldReset left) s = .next
      { State.reset with
        lanes := Vector.ofFn fun r => { State.reset.lanes[r] with los := s.lanes[r].los }
        ports := Vector.ofFn fun p =>
          { State.reset.ports[p] with
            up := s.ports[p].up
            receiver :=
              { unit := [], fills := 0, hunting := false, lastByte := s.ports[p].receiver.lastByte.map fun _ => 0 } }
        profile := { State.reset.profile with restarts := s.profile.restarts }
        flash := m
        pending := s.pending
        arriving := s.arriving }) ∧
  State.reset.time =
    { tt := 0, frac := 0, et := 0, fc := 0, sl := 0, p := 0, inc := 34359738368, state := .free, good := 0
      lastOffset := none, capture := none, accepted := 0, glitches := 0, lastEdge := none, lastFired := 0
      timeRoute := none, ppsEdgesOut := 0 } ∧
  State.reset.profile =
    { load := .loading, outcome := none, failing := none, save := none, restartOwed := none, lastSave := none, loads := 0
      savesDone := 0, savesFailed := 0, restarts := 0 } ∧
  State.reset.pool =
    { slots := [], hold := false, lowWater := 1024, holds := 0, underHold := 0, sendNoBuffer := 0, arrivalNoBuffer := 0 } ∧
  State.reset.cfg.termId = 0 ∧ State.reset.cfg.opCode = 0 ∧
  State.reset.cfg.health =
    { warn := 32, cut := 96, rslFade := -550, rslCut := -700, hyst := 30, slope := 30, proveWindows := 32 } ∧
  State.reset.cfg.probe = { interval := 2, timeout := 16, gate := 2000 } ∧
  State.reset.cfg.time =
    { role := .reference, followed := 0, ppsEnable := false, stepLimit := 100000, lockLimit := 500, ki := 4, kp := 1
      holdover := 1000 } ∧
  (∀ p : PeerIx, State.reset.cfg.peers[p] = { enabled := false, termId := 0 }) ∧
  (∀ r : RouteIx,
    State.reset.cfg.lanes[r] = { type := .unused, txc := 0, rxc := 0, interval := 10 } ∧
    State.reset.cfg.routes[r] = { enable := false, peer := 0, a := 0 } ∧
    (∀ i : Fin 16, State.reset.cfg.calendars[r][i] =
      if h : i.val < 12 then some (⟨i.val % 6, Nat.mod_lt _ (by decide)⟩ : PortIx) else none) ∧
    State.reset.health[r].state = .disabled ∧ State.reset.tx[r].queue = [] ∧ State.reset.lanes[r].rx = none) ∧
  (∀ n : CircIx, State.reset.circuits[n].state = .closed ∧ State.reset.circuits[n].defn = none) ∧
  ∀ p : PortIx, State.reset.ports[p].watch = 0xFF ∧ State.reset.ports[p].delivery = [] ∧ State.reset.ports[p].answers = []

/-- For every SAVE in flight whose snapshot is in the ranges of the directives, over a well-formed flash: once it completes DONE
in time, a load of the flash reads exactly the snapshot, settings and circuits. If it fails, or a cold reset stops it, in
steps 2 to 5, or it overruns 400 ms, the load is CHECKSUM_ERROR; in step 1 the load is CHECKSUM_ERROR if the marker reads
set, and otherwise what a load of the flash before the SAVE would give. The late completion rests on log entry 10; the bytes
a stopped step leaves, those of step 1 among them, rest on log entries 7 and 17, the model's choices. (R180, R181, R184,
R186, R187, R188, R198) -/
def Obligations.SaveIsWholeOrRefused : Prop :=
  ∀ (s : State) (job : SaveJob), s.profile.save = some job → job.snapshot.InRange → flashWf s.flash = true →
    ((s.time.et - job.started).toNat ≤ 50000000 →
      ∃ t, exec (.saveComplete .done) s = .next t ∧ judgeFlash t.flash = .ok job.snapshot) ∧
    (50000000 < (s.time.et - job.started).toNat →
      ∃ t, exec (.saveComplete .done) s = .next t ∧ judgeFlash t.flash = .error (.checksumError, none)) ∧
    ∀ left : FlashLeft, left.wf = true → ∀ c ∈ [Instr.saveComplete (.failed left), Instr.coldReset left],
      ∃ t, exec c s = .next t ∧
        (left.step ≠ 0 → judgeFlash t.flash = .error (.checksumError, none)) ∧
        (left.step = 0 →
          (markerIsSet t.flash = true → judgeFlash t.flash = .error (.checksumError, none)) ∧
          (markerIsSet t.flash = false → judgeFlash t.flash = judgeFlash s.flash))

/-- In a sound time base P and INC are those of FC and SL, FC is within 200,000 ppb, the good-offset count is 8 just in LOCKED
and never more, and 0 in FREE, and out of FREE an offset has been accepted. If the time base of s is sound and step s
answers next t, the time base of t is sound; and if the time route of s is the one R15 chooses, so is that of t. (R2, R8,
R9, R15, R16, R20, R21) -/
def Obligations.TimeKept : Prop :=
  ∀ s t : State, step s = .next t →
    (s.time.Sound → t.time.Sound) ∧ (s.TimeRouteSound → t.TimeRouteSound)

/-- If every RSL ring, outstanding table, sample ring, waiting queue, ECHO queue and delivery queue of s is within its capacity
and every saturating count within its range, the same holds after a step. If at most 17 answers wait at each port, 16 where
one is owed, a SAVE answer is owed only during a SAVE, a RESTART answer only during its load, and no SAVE is in flight
during a load, the same holds after a step. (R28, R39, R47, R61, R70, R100, R118, R145, R149, R166, R173, R176) -/
def Obligations.BoundsAndAnswersKept : Prop :=
  ∀ s t : State, step s = .next t → (s.Bounded → t.Bounded) ∧ (s.AnswersSound → t.AnswersSound)

/-- If in s every route that R60 holds is DISABLED; a DISABLED route runs no schedule and holds no sample, record, PROBE or
ECHO, any other runs its probe schedule, and the TEST schedule and entry live in PROVING alone; no route in DOWN, PROVING or
DISABLED holds a waiting copy; and a forced route belongs to its peer, and none is forced in LOADING: then all of this holds
after a step. (R37, R53, R54, R60, R65, R67, R100, R114, R116, R129) -/
def Obligations.RouteLawsKept : Prop :=
  ∀ s t : State, step s = .next t →
    s.HeldDisabled → (∀ r : RouteIx, s.QuietRoute r) → s.EmptyOffRoute → s.ForceSound →
    t.HeldDisabled ∧ (∀ r : RouteIx, t.QuietRoute r) ∧ t.EmptyOffRoute ∧ t.ForceSound

/-- If in s every route that R60 holds is DISABLED, the health thresholds pass the checks of R77, no latest report has a rate
step above 7, each route in UP or FADING has a byte time and a sample, and each proving route with a good reply since it
entered PROVING has a sample, then all of this holds after a step. (R27, R53, R60, R63, R64, R70, R77, R100) -/
def Obligations.EligibleRoutesHaveFigures : Prop :=
  ∀ s t : State, step s = .next t →
    s.HeldDisabled → s.cfg.health.ok = true → (∀ r : RouteIx, s.FiguredRoute r) →
    t.HeldDisabled ∧ t.cfg.health.ok = true ∧ ∀ r : RouteIx, t.FiguredRoute r

/-- If on every circuit record of s the accepted tally equals sent plus EXPIRED plus NO_ROUTE plus FLUSHED plus held, modulo
2^32, and step s answers next t, the same holds of t. (R84, R90, R91, R95, R97, R128) -/
def Obligations.TalliesKept : Prop :=
  ∀ s t : State, step s = .next t → s.TalliesBalanced → t.TalliesBalanced

/-- If in s the taken slots stand in order below 1,024, HOLD and the low-water mark are as R159 judges them, each taken slot's
reference count is the number of its holders among queues, current frames and frames being received, at least 1, and just 1
while it is being received, and a free slot has no holder: then all of this holds after a step. If besides the settings and
circuits are sound, no route holds two copies of one frame, and each waiting copy is of an OUT circuit of the port it is
charged to, not CLOSED and with no close pending, that too holds after a step; and if besides each close pending count is
the number, at least 1, of lanes' current frames that are the circuit's copies, a CLOSED circuit has no copy waiting or
current, and a copy is current only of an OUT circuit, that holds as well, and besides no close pending count rises, and a
circuit whose close pending ends is CLOSED. (R85, R86, R105, R107, R128, R154, R155, R158, R159, R161) -/
def Obligations.SlotsKept : Prop :=
  ∀ s t : State, step s = .next t → s.SlotsSound →
    t.SlotsSound ∧ (s.ProfileSound → s.CopiesSound → t.CopiesSound ∧
      (s.ClosesSound → t.ClosesSound ∧
        ∀ (n : CircIx) (k : Nat), s.circuits[n].closing = some k →
          (∀ k' ∈ t.circuits[n].closing, k' ≤ k) ∧ (t.circuits[n].closing = none → t.circuits[n].state = .closed)))

/-- If in s the live settings are within the ranges and checks of the directives that set them, each circuit record is one R83
to R88 allow, every circuit is CLOSED during LOADING, the snapshot of a SAVE in flight is in range and the flash is in its
canonical form, then all of this holds after a step. (R17, R33, R56, R72, R74, R77, R83, R97, R169, R181, R186) -/
def Obligations.ProfileKept : Prop :=
  ∀ s t : State, step s = .next t → s.ProfileSound → t.ProfileSound
end

