-- ==== Sys2Proof/Laws/State.lean ====
section
/-! SUPPORT. What each update of State leaves in each field, one lemma per field per update, and what a field with an index reads
after an update of one index. -/

namespace Sys2Proof.Machine

@[simp] theorem State.setCfg_cfg (s : State) (c : Settings) : (s.setCfg c).cfg = c := rfl
@[simp] theorem State.setCfg_time (s : State) (c : Settings) : (s.setCfg c).time = s.time := rfl
@[simp] theorem State.setCfg_lanes (s : State) (c : Settings) : (s.setCfg c).lanes = s.lanes := rfl
@[simp] theorem State.setCfg_probes (s : State) (c : Settings) : (s.setCfg c).probes = s.probes := rfl
@[simp] theorem State.setCfg_health (s : State) (c : Settings) : (s.setCfg c).health = s.health := rfl
@[simp] theorem State.setCfg_circuits (s : State) (c : Settings) : (s.setCfg c).circuits = s.circuits := rfl
@[simp] theorem State.setCfg_peers (s : State) (c : Settings) : (s.setCfg c).peers = s.peers := rfl
@[simp] theorem State.setCfg_sel (s : State) (c : Settings) : (s.setCfg c).sel = s.sel := rfl
@[simp] theorem State.setCfg_tx (s : State) (c : Settings) : (s.setCfg c).tx = s.tx := rfl
@[simp] theorem State.setCfg_score (s : State) (c : Settings) : (s.setCfg c).score = s.score := rfl
@[simp] theorem State.setCfg_pool (s : State) (c : Settings) : (s.setCfg c).pool = s.pool := rfl
@[simp] theorem State.setCfg_ports (s : State) (c : Settings) : (s.setCfg c).ports = s.ports := rfl
@[simp] theorem State.setCfg_profile (s : State) (c : Settings) : (s.setCfg c).profile = s.profile := rfl
@[simp] theorem State.setCfg_flash (s : State) (c : Settings) : (s.setCfg c).flash = s.flash := rfl
@[simp] theorem State.setCfg_pending (s : State) (c : Settings) : (s.setCfg c).pending = s.pending := rfl
@[simp] theorem State.setCfg_arriving (s : State) (c : Settings) : (s.setCfg c).arriving = s.arriving := rfl

@[simp] theorem State.setTime_cfg (s : State) (t : TimeBase) : (s.setTime t).cfg = s.cfg := rfl
@[simp] theorem State.setTime_time (s : State) (t : TimeBase) : (s.setTime t).time = t := rfl
@[simp] theorem State.setTime_lanes (s : State) (t : TimeBase) : (s.setTime t).lanes = s.lanes := rfl
@[simp] theorem State.setTime_probes (s : State) (t : TimeBase) : (s.setTime t).probes = s.probes := rfl
@[simp] theorem State.setTime_health (s : State) (t : TimeBase) : (s.setTime t).health = s.health := rfl
@[simp] theorem State.setTime_circuits (s : State) (t : TimeBase) : (s.setTime t).circuits = s.circuits := rfl
@[simp] theorem State.setTime_peers (s : State) (t : TimeBase) : (s.setTime t).peers = s.peers := rfl
@[simp] theorem State.setTime_sel (s : State) (t : TimeBase) : (s.setTime t).sel = s.sel := rfl
@[simp] theorem State.setTime_tx (s : State) (t : TimeBase) : (s.setTime t).tx = s.tx := rfl
@[simp] theorem State.setTime_score (s : State) (t : TimeBase) : (s.setTime t).score = s.score := rfl
@[simp] theorem State.setTime_pool (s : State) (t : TimeBase) : (s.setTime t).pool = s.pool := rfl
@[simp] theorem State.setTime_ports (s : State) (t : TimeBase) : (s.setTime t).ports = s.ports := rfl
@[simp] theorem State.setTime_profile (s : State) (t : TimeBase) : (s.setTime t).profile = s.profile := rfl
@[simp] theorem State.setTime_flash (s : State) (t : TimeBase) : (s.setTime t).flash = s.flash := rfl
@[simp] theorem State.setTime_pending (s : State) (t : TimeBase) : (s.setTime t).pending = s.pending := rfl
@[simp] theorem State.setTime_arriving (s : State) (t : TimeBase) : (s.setTime t).arriving = s.arriving := rfl

@[simp] theorem State.setPool_cfg (s : State) (p : Pool) : (s.setPool p).cfg = s.cfg := rfl
@[simp] theorem State.setPool_time (s : State) (p : Pool) : (s.setPool p).time = s.time := rfl
@[simp] theorem State.setPool_lanes (s : State) (p : Pool) : (s.setPool p).lanes = s.lanes := rfl
@[simp] theorem State.setPool_probes (s : State) (p : Pool) : (s.setPool p).probes = s.probes := rfl
@[simp] theorem State.setPool_health (s : State) (p : Pool) : (s.setPool p).health = s.health := rfl
@[simp] theorem State.setPool_circuits (s : State) (p : Pool) : (s.setPool p).circuits = s.circuits := rfl
@[simp] theorem State.setPool_peers (s : State) (p : Pool) : (s.setPool p).peers = s.peers := rfl
@[simp] theorem State.setPool_sel (s : State) (p : Pool) : (s.setPool p).sel = s.sel := rfl
@[simp] theorem State.setPool_tx (s : State) (p : Pool) : (s.setPool p).tx = s.tx := rfl
@[simp] theorem State.setPool_score (s : State) (p : Pool) : (s.setPool p).score = s.score := rfl
@[simp] theorem State.setPool_pool (s : State) (p : Pool) : (s.setPool p).pool = p := rfl
@[simp] theorem State.setPool_ports (s : State) (p : Pool) : (s.setPool p).ports = s.ports := rfl
@[simp] theorem State.setPool_profile (s : State) (p : Pool) : (s.setPool p).profile = s.profile := rfl
@[simp] theorem State.setPool_flash (s : State) (p : Pool) : (s.setPool p).flash = s.flash := rfl
@[simp] theorem State.setPool_pending (s : State) (p : Pool) : (s.setPool p).pending = s.pending := rfl
@[simp] theorem State.setPool_arriving (s : State) (p : Pool) : (s.setPool p).arriving = s.arriving := rfl

@[simp] theorem State.setProfile_cfg (s : State) (p : Profile) : (s.setProfile p).cfg = s.cfg := rfl
@[simp] theorem State.setProfile_time (s : State) (p : Profile) : (s.setProfile p).time = s.time := rfl
@[simp] theorem State.setProfile_lanes (s : State) (p : Profile) : (s.setProfile p).lanes = s.lanes := rfl
@[simp] theorem State.setProfile_probes (s : State) (p : Profile) : (s.setProfile p).probes = s.probes := rfl
@[simp] theorem State.setProfile_health (s : State) (p : Profile) : (s.setProfile p).health = s.health := rfl
@[simp] theorem State.setProfile_circuits (s : State) (p : Profile) : (s.setProfile p).circuits = s.circuits := rfl
@[simp] theorem State.setProfile_peers (s : State) (p : Profile) : (s.setProfile p).peers = s.peers := rfl
@[simp] theorem State.setProfile_sel (s : State) (p : Profile) : (s.setProfile p).sel = s.sel := rfl
@[simp] theorem State.setProfile_tx (s : State) (p : Profile) : (s.setProfile p).tx = s.tx := rfl
@[simp] theorem State.setProfile_score (s : State) (p : Profile) : (s.setProfile p).score = s.score := rfl
@[simp] theorem State.setProfile_pool (s : State) (p : Profile) : (s.setProfile p).pool = s.pool := rfl
@[simp] theorem State.setProfile_ports (s : State) (p : Profile) : (s.setProfile p).ports = s.ports := rfl
@[simp] theorem State.setProfile_profile (s : State) (p : Profile) : (s.setProfile p).profile = p := rfl
@[simp] theorem State.setProfile_flash (s : State) (p : Profile) : (s.setProfile p).flash = s.flash := rfl
@[simp] theorem State.setProfile_pending (s : State) (p : Profile) : (s.setProfile p).pending = s.pending := rfl
@[simp] theorem State.setProfile_arriving (s : State) (p : Profile) : (s.setProfile p).arriving = s.arriving := rfl

@[simp] theorem State.setFlash_cfg (s : State) (m : List Host.Cell) : (s.setFlash m).cfg = s.cfg := rfl
@[simp] theorem State.setFlash_time (s : State) (m : List Host.Cell) : (s.setFlash m).time = s.time := rfl
@[simp] theorem State.setFlash_lanes (s : State) (m : List Host.Cell) : (s.setFlash m).lanes = s.lanes := rfl
@[simp] theorem State.setFlash_probes (s : State) (m : List Host.Cell) : (s.setFlash m).probes = s.probes := rfl
@[simp] theorem State.setFlash_health (s : State) (m : List Host.Cell) : (s.setFlash m).health = s.health := rfl
@[simp] theorem State.setFlash_circuits (s : State) (m : List Host.Cell) : (s.setFlash m).circuits = s.circuits := rfl
@[simp] theorem State.setFlash_peers (s : State) (m : List Host.Cell) : (s.setFlash m).peers = s.peers := rfl
@[simp] theorem State.setFlash_sel (s : State) (m : List Host.Cell) : (s.setFlash m).sel = s.sel := rfl
@[simp] theorem State.setFlash_tx (s : State) (m : List Host.Cell) : (s.setFlash m).tx = s.tx := rfl
@[simp] theorem State.setFlash_score (s : State) (m : List Host.Cell) : (s.setFlash m).score = s.score := rfl
@[simp] theorem State.setFlash_pool (s : State) (m : List Host.Cell) : (s.setFlash m).pool = s.pool := rfl
@[simp] theorem State.setFlash_ports (s : State) (m : List Host.Cell) : (s.setFlash m).ports = s.ports := rfl
@[simp] theorem State.setFlash_profile (s : State) (m : List Host.Cell) : (s.setFlash m).profile = s.profile := rfl
@[simp] theorem State.setFlash_flash (s : State) (m : List Host.Cell) : (s.setFlash m).flash = m := rfl
@[simp] theorem State.setFlash_pending (s : State) (m : List Host.Cell) : (s.setFlash m).pending = s.pending := rfl
@[simp] theorem State.setFlash_arriving (s : State) (m : List Host.Cell) : (s.setFlash m).arriving = s.arriving := rfl

@[simp] theorem State.modLane_cfg (s : State) (r : RouteIx) (f : Lane → Lane) : (s.modLane r f).cfg = s.cfg := rfl
@[simp] theorem State.modLane_time (s : State) (r : RouteIx) (f : Lane → Lane) : (s.modLane r f).time = s.time := rfl
@[simp] theorem State.modLane_lanes (s : State) (r : RouteIx) (f : Lane → Lane) : (s.modLane r f).lanes = s.lanes.set r (f s.lanes[r]) := rfl
@[simp] theorem State.modLane_probes (s : State) (r : RouteIx) (f : Lane → Lane) : (s.modLane r f).probes = s.probes := rfl
@[simp] theorem State.modLane_health (s : State) (r : RouteIx) (f : Lane → Lane) : (s.modLane r f).health = s.health := rfl
@[simp] theorem State.modLane_circuits (s : State) (r : RouteIx) (f : Lane → Lane) : (s.modLane r f).circuits = s.circuits := rfl
@[simp] theorem State.modLane_peers (s : State) (r : RouteIx) (f : Lane → Lane) : (s.modLane r f).peers = s.peers := rfl
@[simp] theorem State.modLane_sel (s : State) (r : RouteIx) (f : Lane → Lane) : (s.modLane r f).sel = s.sel := rfl
@[simp] theorem State.modLane_tx (s : State) (r : RouteIx) (f : Lane → Lane) : (s.modLane r f).tx = s.tx := rfl
@[simp] theorem State.modLane_score (s : State) (r : RouteIx) (f : Lane → Lane) : (s.modLane r f).score = s.score := rfl
@[simp] theorem State.modLane_pool (s : State) (r : RouteIx) (f : Lane → Lane) : (s.modLane r f).pool = s.pool := rfl
@[simp] theorem State.modLane_ports (s : State) (r : RouteIx) (f : Lane → Lane) : (s.modLane r f).ports = s.ports := rfl
@[simp] theorem State.modLane_profile (s : State) (r : RouteIx) (f : Lane → Lane) : (s.modLane r f).profile = s.profile := rfl
@[simp] theorem State.modLane_flash (s : State) (r : RouteIx) (f : Lane → Lane) : (s.modLane r f).flash = s.flash := rfl
@[simp] theorem State.modLane_pending (s : State) (r : RouteIx) (f : Lane → Lane) : (s.modLane r f).pending = s.pending := rfl
@[simp] theorem State.modLane_arriving (s : State) (r : RouteIx) (f : Lane → Lane) : (s.modLane r f).arriving = s.arriving := rfl
theorem State.modLane_get (s : State) (r r' : RouteIx) (f : Lane → Lane) :
    (s.modLane r f).lanes[r'] = if r' = r then f s.lanes[r] else s.lanes[r'] := by
  simp [Vector.getElem_set, Fin.ext_iff, eq_comm]
theorem State.modLane_get_self (s : State) (r : RouteIx) (f : Lane → Lane) : (s.modLane r f).lanes[r] = f s.lanes[r] := by
  simp
theorem State.modLane_get_other (s : State) (r r' : RouteIx) (f : Lane → Lane) (h : r' ≠ r) :
    (s.modLane r f).lanes[r'] = s.lanes[r'] := by
  rw [State.modLane_get, if_neg h]

@[simp] theorem State.modProbe_cfg (s : State) (r : RouteIx) (f : Probe → Probe) : (s.modProbe r f).cfg = s.cfg := rfl
@[simp] theorem State.modProbe_time (s : State) (r : RouteIx) (f : Probe → Probe) : (s.modProbe r f).time = s.time := rfl
@[simp] theorem State.modProbe_lanes (s : State) (r : RouteIx) (f : Probe → Probe) : (s.modProbe r f).lanes = s.lanes := rfl
@[simp] theorem State.modProbe_probes (s : State) (r : RouteIx) (f : Probe → Probe) : (s.modProbe r f).probes = s.probes.set r (f s.probes[r]) := rfl
@[simp] theorem State.modProbe_health (s : State) (r : RouteIx) (f : Probe → Probe) : (s.modProbe r f).health = s.health := rfl
@[simp] theorem State.modProbe_circuits (s : State) (r : RouteIx) (f : Probe → Probe) : (s.modProbe r f).circuits = s.circuits := rfl
@[simp] theorem State.modProbe_peers (s : State) (r : RouteIx) (f : Probe → Probe) : (s.modProbe r f).peers = s.peers := rfl
@[simp] theorem State.modProbe_sel (s : State) (r : RouteIx) (f : Probe → Probe) : (s.modProbe r f).sel = s.sel := rfl
@[simp] theorem State.modProbe_tx (s : State) (r : RouteIx) (f : Probe → Probe) : (s.modProbe r f).tx = s.tx := rfl
@[simp] theorem State.modProbe_score (s : State) (r : RouteIx) (f : Probe → Probe) : (s.modProbe r f).score = s.score := rfl
@[simp] theorem State.modProbe_pool (s : State) (r : RouteIx) (f : Probe → Probe) : (s.modProbe r f).pool = s.pool := rfl
@[simp] theorem State.modProbe_ports (s : State) (r : RouteIx) (f : Probe → Probe) : (s.modProbe r f).ports = s.ports := rfl
@[simp] theorem State.modProbe_profile (s : State) (r : RouteIx) (f : Probe → Probe) : (s.modProbe r f).profile = s.profile := rfl
@[simp] theorem State.modProbe_flash (s : State) (r : RouteIx) (f : Probe → Probe) : (s.modProbe r f).flash = s.flash := rfl
@[simp] theorem State.modProbe_pending (s : State) (r : RouteIx) (f : Probe → Probe) : (s.modProbe r f).pending = s.pending := rfl
@[simp] theorem State.modProbe_arriving (s : State) (r : RouteIx) (f : Probe → Probe) : (s.modProbe r f).arriving = s.arriving := rfl
theorem State.modProbe_get (s : State) (r r' : RouteIx) (f : Probe → Probe) :
    (s.modProbe r f).probes[r'] = if r' = r then f s.probes[r] else s.probes[r'] := by
  simp [Vector.getElem_set, Fin.ext_iff, eq_comm]
theorem State.modProbe_get_self (s : State) (r : RouteIx) (f : Probe → Probe) : (s.modProbe r f).probes[r] = f s.probes[r] := by
  simp
theorem State.modProbe_get_other (s : State) (r r' : RouteIx) (f : Probe → Probe) (h : r' ≠ r) :
    (s.modProbe r f).probes[r'] = s.probes[r'] := by
  rw [State.modProbe_get, if_neg h]

@[simp] theorem State.modHealth_cfg (s : State) (r : RouteIx) (f : Health → Health) : (s.modHealth r f).cfg = s.cfg := rfl
@[simp] theorem State.modHealth_time (s : State) (r : RouteIx) (f : Health → Health) : (s.modHealth r f).time = s.time := rfl
@[simp] theorem State.modHealth_lanes (s : State) (r : RouteIx) (f : Health → Health) : (s.modHealth r f).lanes = s.lanes := rfl
@[simp] theorem State.modHealth_probes (s : State) (r : RouteIx) (f : Health → Health) : (s.modHealth r f).probes = s.probes := rfl
@[simp] theorem State.modHealth_health (s : State) (r : RouteIx) (f : Health → Health) : (s.modHealth r f).health = s.health.set r (f s.health[r]) := rfl
@[simp] theorem State.modHealth_circuits (s : State) (r : RouteIx) (f : Health → Health) : (s.modHealth r f).circuits = s.circuits := rfl
@[simp] theorem State.modHealth_peers (s : State) (r : RouteIx) (f : Health → Health) : (s.modHealth r f).peers = s.peers := rfl
@[simp] theorem State.modHealth_sel (s : State) (r : RouteIx) (f : Health → Health) : (s.modHealth r f).sel = s.sel := rfl
@[simp] theorem State.modHealth_tx (s : State) (r : RouteIx) (f : Health → Health) : (s.modHealth r f).tx = s.tx := rfl
@[simp] theorem State.modHealth_score (s : State) (r : RouteIx) (f : Health → Health) : (s.modHealth r f).score = s.score := rfl
@[simp] theorem State.modHealth_pool (s : State) (r : RouteIx) (f : Health → Health) : (s.modHealth r f).pool = s.pool := rfl
@[simp] theorem State.modHealth_ports (s : State) (r : RouteIx) (f : Health → Health) : (s.modHealth r f).ports = s.ports := rfl
@[simp] theorem State.modHealth_profile (s : State) (r : RouteIx) (f : Health → Health) : (s.modHealth r f).profile = s.profile := rfl
@[simp] theorem State.modHealth_flash (s : State) (r : RouteIx) (f : Health → Health) : (s.modHealth r f).flash = s.flash := rfl
@[simp] theorem State.modHealth_pending (s : State) (r : RouteIx) (f : Health → Health) : (s.modHealth r f).pending = s.pending := rfl
@[simp] theorem State.modHealth_arriving (s : State) (r : RouteIx) (f : Health → Health) : (s.modHealth r f).arriving = s.arriving := rfl
theorem State.modHealth_get (s : State) (r r' : RouteIx) (f : Health → Health) :
    (s.modHealth r f).health[r'] = if r' = r then f s.health[r] else s.health[r'] := by
  simp [Vector.getElem_set, Fin.ext_iff, eq_comm]
theorem State.modHealth_get_self (s : State) (r : RouteIx) (f : Health → Health) : (s.modHealth r f).health[r] = f s.health[r] := by
  simp
theorem State.modHealth_get_other (s : State) (r r' : RouteIx) (f : Health → Health) (h : r' ≠ r) :
    (s.modHealth r f).health[r'] = s.health[r'] := by
  rw [State.modHealth_get, if_neg h]

@[simp] theorem State.modCircuit_cfg (s : State) (c : CircIx) (f : Circuit → Circuit) : (s.modCircuit c f).cfg = s.cfg := rfl
@[simp] theorem State.modCircuit_time (s : State) (c : CircIx) (f : Circuit → Circuit) : (s.modCircuit c f).time = s.time := rfl
@[simp] theorem State.modCircuit_lanes (s : State) (c : CircIx) (f : Circuit → Circuit) : (s.modCircuit c f).lanes = s.lanes := rfl
@[simp] theorem State.modCircuit_probes (s : State) (c : CircIx) (f : Circuit → Circuit) : (s.modCircuit c f).probes = s.probes := rfl
@[simp] theorem State.modCircuit_health (s : State) (c : CircIx) (f : Circuit → Circuit) : (s.modCircuit c f).health = s.health := rfl
@[simp] theorem State.modCircuit_circuits (s : State) (c : CircIx) (f : Circuit → Circuit) : (s.modCircuit c f).circuits = s.circuits.set c (f s.circuits[c]) := rfl
@[simp] theorem State.modCircuit_peers (s : State) (c : CircIx) (f : Circuit → Circuit) : (s.modCircuit c f).peers = s.peers := rfl
@[simp] theorem State.modCircuit_sel (s : State) (c : CircIx) (f : Circuit → Circuit) : (s.modCircuit c f).sel = s.sel := rfl
@[simp] theorem State.modCircuit_tx (s : State) (c : CircIx) (f : Circuit → Circuit) : (s.modCircuit c f).tx = s.tx := rfl
@[simp] theorem State.modCircuit_score (s : State) (c : CircIx) (f : Circuit → Circuit) : (s.modCircuit c f).score = s.score := rfl
@[simp] theorem State.modCircuit_pool (s : State) (c : CircIx) (f : Circuit → Circuit) : (s.modCircuit c f).pool = s.pool := rfl
@[simp] theorem State.modCircuit_ports (s : State) (c : CircIx) (f : Circuit → Circuit) : (s.modCircuit c f).ports = s.ports := rfl
@[simp] theorem State.modCircuit_profile (s : State) (c : CircIx) (f : Circuit → Circuit) : (s.modCircuit c f).profile = s.profile := rfl
@[simp] theorem State.modCircuit_flash (s : State) (c : CircIx) (f : Circuit → Circuit) : (s.modCircuit c f).flash = s.flash := rfl
@[simp] theorem State.modCircuit_pending (s : State) (c : CircIx) (f : Circuit → Circuit) : (s.modCircuit c f).pending = s.pending := rfl
@[simp] theorem State.modCircuit_arriving (s : State) (c : CircIx) (f : Circuit → Circuit) : (s.modCircuit c f).arriving = s.arriving := rfl
theorem State.modCircuit_get (s : State) (c c' : CircIx) (f : Circuit → Circuit) :
    (s.modCircuit c f).circuits[c'] = if c' = c then f s.circuits[c] else s.circuits[c'] := by
  simp [Vector.getElem_set, Fin.ext_iff, eq_comm]
theorem State.modCircuit_get_self (s : State) (c : CircIx) (f : Circuit → Circuit) : (s.modCircuit c f).circuits[c] = f s.circuits[c] := by
  simp
theorem State.modCircuit_get_other (s : State) (c c' : CircIx) (f : Circuit → Circuit) (h : c' ≠ c) :
    (s.modCircuit c f).circuits[c'] = s.circuits[c'] := by
  rw [State.modCircuit_get, if_neg h]

@[simp] theorem State.modPeer_cfg (s : State) (p : PeerIx) (f : PeerSel → PeerSel) : (s.modPeer p f).cfg = s.cfg := rfl
@[simp] theorem State.modPeer_time (s : State) (p : PeerIx) (f : PeerSel → PeerSel) : (s.modPeer p f).time = s.time := rfl
@[simp] theorem State.modPeer_lanes (s : State) (p : PeerIx) (f : PeerSel → PeerSel) : (s.modPeer p f).lanes = s.lanes := rfl
@[simp] theorem State.modPeer_probes (s : State) (p : PeerIx) (f : PeerSel → PeerSel) : (s.modPeer p f).probes = s.probes := rfl
@[simp] theorem State.modPeer_health (s : State) (p : PeerIx) (f : PeerSel → PeerSel) : (s.modPeer p f).health = s.health := rfl
@[simp] theorem State.modPeer_circuits (s : State) (p : PeerIx) (f : PeerSel → PeerSel) : (s.modPeer p f).circuits = s.circuits := rfl
@[simp] theorem State.modPeer_peers (s : State) (p : PeerIx) (f : PeerSel → PeerSel) : (s.modPeer p f).peers = s.peers.set p (f s.peers[p]) := rfl
@[simp] theorem State.modPeer_sel (s : State) (p : PeerIx) (f : PeerSel → PeerSel) : (s.modPeer p f).sel = s.sel := rfl
@[simp] theorem State.modPeer_tx (s : State) (p : PeerIx) (f : PeerSel → PeerSel) : (s.modPeer p f).tx = s.tx := rfl
@[simp] theorem State.modPeer_score (s : State) (p : PeerIx) (f : PeerSel → PeerSel) : (s.modPeer p f).score = s.score := rfl
@[simp] theorem State.modPeer_pool (s : State) (p : PeerIx) (f : PeerSel → PeerSel) : (s.modPeer p f).pool = s.pool := rfl
@[simp] theorem State.modPeer_ports (s : State) (p : PeerIx) (f : PeerSel → PeerSel) : (s.modPeer p f).ports = s.ports := rfl
@[simp] theorem State.modPeer_profile (s : State) (p : PeerIx) (f : PeerSel → PeerSel) : (s.modPeer p f).profile = s.profile := rfl
@[simp] theorem State.modPeer_flash (s : State) (p : PeerIx) (f : PeerSel → PeerSel) : (s.modPeer p f).flash = s.flash := rfl
@[simp] theorem State.modPeer_pending (s : State) (p : PeerIx) (f : PeerSel → PeerSel) : (s.modPeer p f).pending = s.pending := rfl
@[simp] theorem State.modPeer_arriving (s : State) (p : PeerIx) (f : PeerSel → PeerSel) : (s.modPeer p f).arriving = s.arriving := rfl
theorem State.modPeer_get (s : State) (p p' : PeerIx) (f : PeerSel → PeerSel) :
    (s.modPeer p f).peers[p'] = if p' = p then f s.peers[p] else s.peers[p'] := by
  simp [Vector.getElem_set, Fin.ext_iff, eq_comm]
theorem State.modPeer_get_self (s : State) (p : PeerIx) (f : PeerSel → PeerSel) : (s.modPeer p f).peers[p] = f s.peers[p] := by
  simp
theorem State.modPeer_get_other (s : State) (p p' : PeerIx) (f : PeerSel → PeerSel) (h : p' ≠ p) :
    (s.modPeer p f).peers[p'] = s.peers[p'] := by
  rw [State.modPeer_get, if_neg h]

@[simp] theorem State.modSel_cfg (s : State) (r : RouteIx) (f : RouteSel → RouteSel) : (s.modSel r f).cfg = s.cfg := rfl
@[simp] theorem State.modSel_time (s : State) (r : RouteIx) (f : RouteSel → RouteSel) : (s.modSel r f).time = s.time := rfl
@[simp] theorem State.modSel_lanes (s : State) (r : RouteIx) (f : RouteSel → RouteSel) : (s.modSel r f).lanes = s.lanes := rfl
@[simp] theorem State.modSel_probes (s : State) (r : RouteIx) (f : RouteSel → RouteSel) : (s.modSel r f).probes = s.probes := rfl
@[simp] theorem State.modSel_health (s : State) (r : RouteIx) (f : RouteSel → RouteSel) : (s.modSel r f).health = s.health := rfl
@[simp] theorem State.modSel_circuits (s : State) (r : RouteIx) (f : RouteSel → RouteSel) : (s.modSel r f).circuits = s.circuits := rfl
@[simp] theorem State.modSel_peers (s : State) (r : RouteIx) (f : RouteSel → RouteSel) : (s.modSel r f).peers = s.peers := rfl
@[simp] theorem State.modSel_sel (s : State) (r : RouteIx) (f : RouteSel → RouteSel) : (s.modSel r f).sel = s.sel.set r (f s.sel[r]) := rfl
@[simp] theorem State.modSel_tx (s : State) (r : RouteIx) (f : RouteSel → RouteSel) : (s.modSel r f).tx = s.tx := rfl
@[simp] theorem State.modSel_score (s : State) (r : RouteIx) (f : RouteSel → RouteSel) : (s.modSel r f).score = s.score := rfl
@[simp] theorem State.modSel_pool (s : State) (r : RouteIx) (f : RouteSel → RouteSel) : (s.modSel r f).pool = s.pool := rfl
@[simp] theorem State.modSel_ports (s : State) (r : RouteIx) (f : RouteSel → RouteSel) : (s.modSel r f).ports = s.ports := rfl
@[simp] theorem State.modSel_profile (s : State) (r : RouteIx) (f : RouteSel → RouteSel) : (s.modSel r f).profile = s.profile := rfl
@[simp] theorem State.modSel_flash (s : State) (r : RouteIx) (f : RouteSel → RouteSel) : (s.modSel r f).flash = s.flash := rfl
@[simp] theorem State.modSel_pending (s : State) (r : RouteIx) (f : RouteSel → RouteSel) : (s.modSel r f).pending = s.pending := rfl
@[simp] theorem State.modSel_arriving (s : State) (r : RouteIx) (f : RouteSel → RouteSel) : (s.modSel r f).arriving = s.arriving := rfl
theorem State.modSel_get (s : State) (r r' : RouteIx) (f : RouteSel → RouteSel) :
    (s.modSel r f).sel[r'] = if r' = r then f s.sel[r] else s.sel[r'] := by
  simp [Vector.getElem_set, Fin.ext_iff, eq_comm]
theorem State.modSel_get_self (s : State) (r : RouteIx) (f : RouteSel → RouteSel) : (s.modSel r f).sel[r] = f s.sel[r] := by
  simp
theorem State.modSel_get_other (s : State) (r r' : RouteIx) (f : RouteSel → RouteSel) (h : r' ≠ r) :
    (s.modSel r f).sel[r'] = s.sel[r'] := by
  rw [State.modSel_get, if_neg h]

@[simp] theorem State.modTx_cfg (s : State) (r : RouteIx) (f : Tx → Tx) : (s.modTx r f).cfg = s.cfg := rfl
@[simp] theorem State.modTx_time (s : State) (r : RouteIx) (f : Tx → Tx) : (s.modTx r f).time = s.time := rfl
@[simp] theorem State.modTx_lanes (s : State) (r : RouteIx) (f : Tx → Tx) : (s.modTx r f).lanes = s.lanes := rfl
@[simp] theorem State.modTx_probes (s : State) (r : RouteIx) (f : Tx → Tx) : (s.modTx r f).probes = s.probes := rfl
@[simp] theorem State.modTx_health (s : State) (r : RouteIx) (f : Tx → Tx) : (s.modTx r f).health = s.health := rfl
@[simp] theorem State.modTx_circuits (s : State) (r : RouteIx) (f : Tx → Tx) : (s.modTx r f).circuits = s.circuits := rfl
@[simp] theorem State.modTx_peers (s : State) (r : RouteIx) (f : Tx → Tx) : (s.modTx r f).peers = s.peers := rfl
@[simp] theorem State.modTx_sel (s : State) (r : RouteIx) (f : Tx → Tx) : (s.modTx r f).sel = s.sel := rfl
@[simp] theorem State.modTx_tx (s : State) (r : RouteIx) (f : Tx → Tx) : (s.modTx r f).tx = s.tx.set r (f s.tx[r]) := rfl
@[simp] theorem State.modTx_score (s : State) (r : RouteIx) (f : Tx → Tx) : (s.modTx r f).score = s.score := rfl
@[simp] theorem State.modTx_pool (s : State) (r : RouteIx) (f : Tx → Tx) : (s.modTx r f).pool = s.pool := rfl
@[simp] theorem State.modTx_ports (s : State) (r : RouteIx) (f : Tx → Tx) : (s.modTx r f).ports = s.ports := rfl
@[simp] theorem State.modTx_profile (s : State) (r : RouteIx) (f : Tx → Tx) : (s.modTx r f).profile = s.profile := rfl
@[simp] theorem State.modTx_flash (s : State) (r : RouteIx) (f : Tx → Tx) : (s.modTx r f).flash = s.flash := rfl
@[simp] theorem State.modTx_pending (s : State) (r : RouteIx) (f : Tx → Tx) : (s.modTx r f).pending = s.pending := rfl
@[simp] theorem State.modTx_arriving (s : State) (r : RouteIx) (f : Tx → Tx) : (s.modTx r f).arriving = s.arriving := rfl
theorem State.modTx_get (s : State) (r r' : RouteIx) (f : Tx → Tx) :
    (s.modTx r f).tx[r'] = if r' = r then f s.tx[r] else s.tx[r'] := by
  simp [Vector.getElem_set, Fin.ext_iff, eq_comm]
theorem State.modTx_get_self (s : State) (r : RouteIx) (f : Tx → Tx) : (s.modTx r f).tx[r] = f s.tx[r] := by
  simp
theorem State.modTx_get_other (s : State) (r r' : RouteIx) (f : Tx → Tx) (h : r' ≠ r) :
    (s.modTx r f).tx[r'] = s.tx[r'] := by
  rw [State.modTx_get, if_neg h]

@[simp] theorem State.modScore_cfg (s : State) (r : RouteIx) (f : Score → Score) : (s.modScore r f).cfg = s.cfg := rfl
@[simp] theorem State.modScore_time (s : State) (r : RouteIx) (f : Score → Score) : (s.modScore r f).time = s.time := rfl
@[simp] theorem State.modScore_lanes (s : State) (r : RouteIx) (f : Score → Score) : (s.modScore r f).lanes = s.lanes := rfl
@[simp] theorem State.modScore_probes (s : State) (r : RouteIx) (f : Score → Score) : (s.modScore r f).probes = s.probes := rfl
@[simp] theorem State.modScore_health (s : State) (r : RouteIx) (f : Score → Score) : (s.modScore r f).health = s.health := rfl
@[simp] theorem State.modScore_circuits (s : State) (r : RouteIx) (f : Score → Score) : (s.modScore r f).circuits = s.circuits := rfl
@[simp] theorem State.modScore_peers (s : State) (r : RouteIx) (f : Score → Score) : (s.modScore r f).peers = s.peers := rfl
@[simp] theorem State.modScore_sel (s : State) (r : RouteIx) (f : Score → Score) : (s.modScore r f).sel = s.sel := rfl
@[simp] theorem State.modScore_tx (s : State) (r : RouteIx) (f : Score → Score) : (s.modScore r f).tx = s.tx := rfl
@[simp] theorem State.modScore_score (s : State) (r : RouteIx) (f : Score → Score) : (s.modScore r f).score = s.score.set r (f s.score[r]) := rfl
@[simp] theorem State.modScore_pool (s : State) (r : RouteIx) (f : Score → Score) : (s.modScore r f).pool = s.pool := rfl
@[simp] theorem State.modScore_ports (s : State) (r : RouteIx) (f : Score → Score) : (s.modScore r f).ports = s.ports := rfl
@[simp] theorem State.modScore_profile (s : State) (r : RouteIx) (f : Score → Score) : (s.modScore r f).profile = s.profile := rfl
@[simp] theorem State.modScore_flash (s : State) (r : RouteIx) (f : Score → Score) : (s.modScore r f).flash = s.flash := rfl
@[simp] theorem State.modScore_pending (s : State) (r : RouteIx) (f : Score → Score) : (s.modScore r f).pending = s.pending := rfl
@[simp] theorem State.modScore_arriving (s : State) (r : RouteIx) (f : Score → Score) : (s.modScore r f).arriving = s.arriving := rfl
theorem State.modScore_get (s : State) (r r' : RouteIx) (f : Score → Score) :
    (s.modScore r f).score[r'] = if r' = r then f s.score[r] else s.score[r'] := by
  simp [Vector.getElem_set, Fin.ext_iff, eq_comm]
theorem State.modScore_get_self (s : State) (r : RouteIx) (f : Score → Score) : (s.modScore r f).score[r] = f s.score[r] := by
  simp
theorem State.modScore_get_other (s : State) (r r' : RouteIx) (f : Score → Score) (h : r' ≠ r) :
    (s.modScore r f).score[r'] = s.score[r'] := by
  rw [State.modScore_get, if_neg h]

@[simp] theorem State.modPort_cfg (s : State) (p : PortIx) (f : Port → Port) : (s.modPort p f).cfg = s.cfg := rfl
@[simp] theorem State.modPort_time (s : State) (p : PortIx) (f : Port → Port) : (s.modPort p f).time = s.time := rfl
@[simp] theorem State.modPort_lanes (s : State) (p : PortIx) (f : Port → Port) : (s.modPort p f).lanes = s.lanes := rfl
@[simp] theorem State.modPort_probes (s : State) (p : PortIx) (f : Port → Port) : (s.modPort p f).probes = s.probes := rfl
@[simp] theorem State.modPort_health (s : State) (p : PortIx) (f : Port → Port) : (s.modPort p f).health = s.health := rfl
@[simp] theorem State.modPort_circuits (s : State) (p : PortIx) (f : Port → Port) : (s.modPort p f).circuits = s.circuits := rfl
@[simp] theorem State.modPort_peers (s : State) (p : PortIx) (f : Port → Port) : (s.modPort p f).peers = s.peers := rfl
@[simp] theorem State.modPort_sel (s : State) (p : PortIx) (f : Port → Port) : (s.modPort p f).sel = s.sel := rfl
@[simp] theorem State.modPort_tx (s : State) (p : PortIx) (f : Port → Port) : (s.modPort p f).tx = s.tx := rfl
@[simp] theorem State.modPort_score (s : State) (p : PortIx) (f : Port → Port) : (s.modPort p f).score = s.score := rfl
@[simp] theorem State.modPort_pool (s : State) (p : PortIx) (f : Port → Port) : (s.modPort p f).pool = s.pool := rfl
@[simp] theorem State.modPort_ports (s : State) (p : PortIx) (f : Port → Port) : (s.modPort p f).ports = s.ports.set p (f s.ports[p]) := rfl
@[simp] theorem State.modPort_profile (s : State) (p : PortIx) (f : Port → Port) : (s.modPort p f).profile = s.profile := rfl
@[simp] theorem State.modPort_flash (s : State) (p : PortIx) (f : Port → Port) : (s.modPort p f).flash = s.flash := rfl
@[simp] theorem State.modPort_pending (s : State) (p : PortIx) (f : Port → Port) : (s.modPort p f).pending = s.pending := rfl
@[simp] theorem State.modPort_arriving (s : State) (p : PortIx) (f : Port → Port) : (s.modPort p f).arriving = s.arriving := rfl
theorem State.modPort_get (s : State) (p p' : PortIx) (f : Port → Port) :
    (s.modPort p f).ports[p'] = if p' = p then f s.ports[p] else s.ports[p'] := by
  simp [Vector.getElem_set, Fin.ext_iff, eq_comm]
theorem State.modPort_get_self (s : State) (p : PortIx) (f : Port → Port) : (s.modPort p f).ports[p] = f s.ports[p] := by
  simp
theorem State.modPort_get_other (s : State) (p p' : PortIx) (f : Port → Port) (h : p' ≠ p) :
    (s.modPort p f).ports[p'] = s.ports[p'] := by
  rw [State.modPort_get, if_neg h]

@[simp] theorem State.mapPorts_cfg (s : State) (f : Port → Port) : (s.mapPorts f).cfg = s.cfg := rfl
@[simp] theorem State.mapPorts_time (s : State) (f : Port → Port) : (s.mapPorts f).time = s.time := rfl
@[simp] theorem State.mapPorts_lanes (s : State) (f : Port → Port) : (s.mapPorts f).lanes = s.lanes := rfl
@[simp] theorem State.mapPorts_probes (s : State) (f : Port → Port) : (s.mapPorts f).probes = s.probes := rfl
@[simp] theorem State.mapPorts_health (s : State) (f : Port → Port) : (s.mapPorts f).health = s.health := rfl
@[simp] theorem State.mapPorts_circuits (s : State) (f : Port → Port) : (s.mapPorts f).circuits = s.circuits := rfl
@[simp] theorem State.mapPorts_peers (s : State) (f : Port → Port) : (s.mapPorts f).peers = s.peers := rfl
@[simp] theorem State.mapPorts_sel (s : State) (f : Port → Port) : (s.mapPorts f).sel = s.sel := rfl
@[simp] theorem State.mapPorts_tx (s : State) (f : Port → Port) : (s.mapPorts f).tx = s.tx := rfl
@[simp] theorem State.mapPorts_score (s : State) (f : Port → Port) : (s.mapPorts f).score = s.score := rfl
@[simp] theorem State.mapPorts_pool (s : State) (f : Port → Port) : (s.mapPorts f).pool = s.pool := rfl
@[simp] theorem State.mapPorts_ports (s : State) (f : Port → Port) : (s.mapPorts f).ports = Vector.ofFn fun p => f s.ports[p] := rfl
@[simp] theorem State.mapPorts_profile (s : State) (f : Port → Port) : (s.mapPorts f).profile = s.profile := rfl
@[simp] theorem State.mapPorts_flash (s : State) (f : Port → Port) : (s.mapPorts f).flash = s.flash := rfl
@[simp] theorem State.mapPorts_pending (s : State) (f : Port → Port) : (s.mapPorts f).pending = s.pending := rfl
@[simp] theorem State.mapPorts_arriving (s : State) (f : Port → Port) : (s.mapPorts f).arriving = s.arriving := rfl
theorem State.mapPorts_get (s : State) (p : PortIx) (f : Port → Port) : (s.mapPorts f).ports[p] = f s.ports[p] := by
  simp

/-- An effect taken for each route keeps whatever it keeps at each. -/
theorem State.forRoutes_induct {motive : State → Prop} (s : State) (f : RouteIx → State → State) (h0 : motive s)
    (h : ∀ r s, motive s → motive (f r s)) : motive (s.forRoutes f) := by
  unfold State.forRoutes
  generalize List.finRange 16 = rs
  induction rs generalizing s with
  | nil => exact h0
  | cons r rs ih => exact ih _ (h r s h0)

end Sys2Proof.Machine
end

