-- ==== Sys2Proof/Laws/Ops.lean ====
section
/-! SUPPORT. What each shared operation of Ops.lean leaves alone: the one lemma a proof about a command cites for it. -/

namespace Sys2Proof.Machine

/-- A projection that no element of a fold changes is unchanged by the fold. -/
theorem foldl_leaves {σ α β : Type} (proj : σ → β) (f : σ → α → σ) (h : ∀ s a, proj (f s a) = proj s) (l : List α) (s : σ) :
    proj (l.foldl f s) = proj s := by
  induction l generalizing s with
  | nil => rfl
  | cons a l ih => rw [List.foldl_cons, ih, h]

/-- A projection that no route's effect changes is unchanged by the effect taken for each route. -/
theorem forRoutes_leaves {β : Type} (proj : State → β) (f : RouteIx → State → State) (h : ∀ s r, proj (f r s) = proj s)
    (s : State) : proj (s.forRoutes f) = proj s := foldl_leaves proj _ h _ s

@[simp] theorem State.raiseAt_leaves (s : State) (p : PortIx) (n : Notice) :
    (s.raiseAt p n).cfg = s.cfg ∧ (s.raiseAt p n).time = s.time ∧ (s.raiseAt p n).lanes = s.lanes ∧
    (s.raiseAt p n).probes = s.probes ∧ (s.raiseAt p n).health = s.health ∧ (s.raiseAt p n).circuits = s.circuits ∧
    (s.raiseAt p n).peers = s.peers ∧ (s.raiseAt p n).sel = s.sel ∧ (s.raiseAt p n).tx = s.tx ∧
    (s.raiseAt p n).score = s.score ∧ (s.raiseAt p n).pool = s.pool ∧ (s.raiseAt p n).profile = s.profile ∧
    (s.raiseAt p n).flash = s.flash ∧ (s.raiseAt p n).pending = s.pending ∧ (s.raiseAt p n).arriving = s.arriving := by
  simp [State.raiseAt]

@[simp] theorem State.raiseAll_leaves (s : State) (n : Notice) :
    (s.raiseAll n).cfg = s.cfg ∧ (s.raiseAll n).time = s.time ∧ (s.raiseAll n).lanes = s.lanes ∧
    (s.raiseAll n).probes = s.probes ∧ (s.raiseAll n).health = s.health ∧ (s.raiseAll n).circuits = s.circuits ∧
    (s.raiseAll n).peers = s.peers ∧ (s.raiseAll n).sel = s.sel ∧ (s.raiseAll n).tx = s.tx ∧
    (s.raiseAll n).score = s.score ∧ (s.raiseAll n).pool = s.pool ∧ (s.raiseAll n).profile = s.profile ∧
    (s.raiseAll n).flash = s.flash ∧ (s.raiseAll n).pending = s.pending ∧ (s.raiseAll n).arriving = s.arriving := by
  simp [State.raiseAll]

@[simp] theorem State.answer_leaves (s : State) (p : PortIx) (a : Answer) :
    (s.answer p a).cfg = s.cfg ∧ (s.answer p a).time = s.time ∧ (s.answer p a).lanes = s.lanes ∧
    (s.answer p a).probes = s.probes ∧ (s.answer p a).health = s.health ∧ (s.answer p a).circuits = s.circuits ∧
    (s.answer p a).peers = s.peers ∧ (s.answer p a).sel = s.sel ∧ (s.answer p a).tx = s.tx ∧
    (s.answer p a).score = s.score ∧ (s.answer p a).pool = s.pool ∧ (s.answer p a).profile = s.profile ∧
    (s.answer p a).flash = s.flash ∧ (s.answer p a).pending = s.pending ∧ (s.answer p a).arriving = s.arriving := by
  simp [State.answer]

@[simp] theorem State.release_leaves (s : State) (k : Nat) :
    (s.release k).cfg = s.cfg ∧ (s.release k).time = s.time ∧ (s.release k).lanes = s.lanes ∧
    (s.release k).probes = s.probes ∧ (s.release k).health = s.health ∧ (s.release k).circuits = s.circuits ∧
    (s.release k).peers = s.peers ∧ (s.release k).sel = s.sel ∧ (s.release k).tx = s.tx ∧
    (s.release k).score = s.score ∧ (s.release k).ports = s.ports ∧ (s.release k).profile = s.profile ∧
    (s.release k).flash = s.flash ∧ (s.release k).pending = s.pending ∧ (s.release k).arriving = s.arriving := by
  simp [State.release]

@[simp] theorem State.updateFrame_leaves (s : State) (k : Nat) (g : Frame → Frame) :
    (s.updateFrame k g).cfg = s.cfg ∧ (s.updateFrame k g).time = s.time ∧ (s.updateFrame k g).lanes = s.lanes ∧
    (s.updateFrame k g).probes = s.probes ∧ (s.updateFrame k g).health = s.health ∧
    (s.updateFrame k g).circuits = s.circuits ∧ (s.updateFrame k g).peers = s.peers ∧
    (s.updateFrame k g).sel = s.sel ∧ (s.updateFrame k g).tx = s.tx ∧ (s.updateFrame k g).score = s.score ∧
    (s.updateFrame k g).ports = s.ports ∧ (s.updateFrame k g).profile = s.profile ∧
    (s.updateFrame k g).flash = s.flash ∧ (s.updateFrame k g).pending = s.pending ∧
    (s.updateFrame k g).arriving = s.arriving := by
  simp [State.updateFrame]

@[simp] theorem State.enterTimeState_leaves (s : State) (new : TimeState) :
    (s.enterTimeState new).cfg = s.cfg ∧ (s.enterTimeState new).lanes = s.lanes ∧
    (s.enterTimeState new).probes = s.probes ∧ (s.enterTimeState new).health = s.health ∧
    (s.enterTimeState new).circuits = s.circuits ∧ (s.enterTimeState new).peers = s.peers ∧
    (s.enterTimeState new).sel = s.sel ∧ (s.enterTimeState new).tx = s.tx ∧ (s.enterTimeState new).score = s.score ∧
    (s.enterTimeState new).pool = s.pool ∧ (s.enterTimeState new).profile = s.profile ∧
    (s.enterTimeState new).flash = s.flash ∧ (s.enterTimeState new).pending = s.pending ∧
    (s.enterTimeState new).arriving = s.arriving := by
  unfold State.enterTimeState
  split <;> simp

@[simp] theorem State.stepTime_leaves (s : State) (θ : Int) :
    (s.stepTime θ).cfg = s.cfg ∧ (s.stepTime θ).lanes = s.lanes ∧ (s.stepTime θ).probes = s.probes ∧
    (s.stepTime θ).health = s.health ∧ (s.stepTime θ).circuits = s.circuits ∧ (s.stepTime θ).peers = s.peers ∧
    (s.stepTime θ).sel = s.sel ∧ (s.stepTime θ).tx = s.tx ∧ (s.stepTime θ).score = s.score ∧
    (s.stepTime θ).pool = s.pool ∧ (s.stepTime θ).profile = s.profile ∧ (s.stepTime θ).flash = s.flash ∧
    (s.stepTime θ).pending = s.pending ∧ (s.stepTime θ).arriving = s.arriving := by
  simp [State.stepTime]

@[simp] theorem State.acceptOffset_leaves (s : State) (θ : Int) (i : Nat) :
    (s.acceptOffset θ i).cfg = s.cfg ∧ (s.acceptOffset θ i).lanes = s.lanes ∧ (s.acceptOffset θ i).probes = s.probes ∧
    (s.acceptOffset θ i).health = s.health ∧ (s.acceptOffset θ i).circuits = s.circuits ∧
    (s.acceptOffset θ i).peers = s.peers ∧ (s.acceptOffset θ i).sel = s.sel ∧ (s.acceptOffset θ i).tx = s.tx ∧
    (s.acceptOffset θ i).score = s.score ∧ (s.acceptOffset θ i).pool = s.pool ∧
    (s.acceptOffset θ i).profile = s.profile ∧ (s.acceptOffset θ i).flash = s.flash ∧
    (s.acceptOffset θ i).pending = s.pending ∧ (s.acceptOffset θ i).arriving = s.arriving := by
  unfold State.acceptOffset
  dsimp only
  split <;> simp

@[simp] theorem State.judgeHoldover_leaves (s : State) :
    (s.judgeHoldover).cfg = s.cfg ∧ (s.judgeHoldover).lanes = s.lanes ∧ (s.judgeHoldover).probes = s.probes ∧
    (s.judgeHoldover).health = s.health ∧ (s.judgeHoldover).circuits = s.circuits ∧
    (s.judgeHoldover).peers = s.peers ∧ (s.judgeHoldover).sel = s.sel ∧ (s.judgeHoldover).tx = s.tx ∧
    (s.judgeHoldover).score = s.score ∧ (s.judgeHoldover).pool = s.pool ∧ (s.judgeHoldover).profile = s.profile ∧
    (s.judgeHoldover).flash = s.flash ∧ (s.judgeHoldover).pending = s.pending ∧
    (s.judgeHoldover).arriving = s.arriving := by
  unfold State.judgeHoldover
  split <;> simp

@[simp] theorem State.rechoose_leaves (s : State) :
    (s.rechoose).cfg = s.cfg ∧ (s.rechoose).lanes = s.lanes ∧ (s.rechoose).probes = s.probes ∧
    (s.rechoose).health = s.health ∧ (s.rechoose).circuits = s.circuits ∧ (s.rechoose).peers = s.peers ∧
    (s.rechoose).sel = s.sel ∧ (s.rechoose).tx = s.tx ∧ (s.rechoose).score = s.score ∧ (s.rechoose).pool = s.pool ∧
    (s.rechoose).ports = s.ports ∧ (s.rechoose).profile = s.profile ∧ (s.rechoose).flash = s.flash ∧
    (s.rechoose).pending = s.pending ∧ (s.rechoose).arriving = s.arriving := by
  simp [State.rechoose]

@[simp] theorem State.countDiscard_leaves (s : State) (r : RouteIx) (c : Copy) (reason : DiscardReason) :
    (s.countDiscard r c reason).cfg = s.cfg ∧ (s.countDiscard r c reason).time = s.time ∧
    (s.countDiscard r c reason).lanes = s.lanes ∧ (s.countDiscard r c reason).probes = s.probes ∧
    (s.countDiscard r c reason).health = s.health ∧ (s.countDiscard r c reason).peers = s.peers ∧
    (s.countDiscard r c reason).sel = s.sel ∧ (s.countDiscard r c reason).tx = s.tx ∧
    (s.countDiscard r c reason).score = s.score ∧ (s.countDiscard r c reason).pool = s.pool ∧
    (s.countDiscard r c reason).profile = s.profile ∧ (s.countDiscard r c reason).flash = s.flash ∧
    (s.countDiscard r c reason).pending = s.pending ∧ (s.countDiscard r c reason).arriving = s.arriving := by
  unfold State.countDiscard
  split <;> simp

@[simp] theorem State.endCurrent_leaves (s : State) (r : RouteIx) :
    (s.endCurrent r).cfg = s.cfg ∧ (s.endCurrent r).time = s.time ∧ (s.endCurrent r).lanes = s.lanes ∧
    (s.endCurrent r).probes = s.probes ∧ (s.endCurrent r).health = s.health ∧ (s.endCurrent r).peers = s.peers ∧
    (s.endCurrent r).sel = s.sel ∧ (s.endCurrent r).score = s.score ∧ (s.endCurrent r).ports = s.ports ∧
    (s.endCurrent r).profile = s.profile ∧ (s.endCurrent r).flash = s.flash ∧ (s.endCurrent r).pending = s.pending ∧
    (s.endCurrent r).arriving = s.arriving := by
  unfold State.endCurrent
  (repeat' split) <;> simp

@[simp] theorem State.abandonCurrent_leaves (s : State) (r : RouteIx) :
    (s.abandonCurrent r).cfg = s.cfg ∧ (s.abandonCurrent r).time = s.time ∧ (s.abandonCurrent r).lanes = s.lanes ∧
    (s.abandonCurrent r).probes = s.probes ∧ (s.abandonCurrent r).health = s.health ∧
    (s.abandonCurrent r).peers = s.peers ∧ (s.abandonCurrent r).sel = s.sel ∧ (s.abandonCurrent r).score = s.score ∧
    (s.abandonCurrent r).ports = s.ports ∧ (s.abandonCurrent r).profile = s.profile ∧
    (s.abandonCurrent r).flash = s.flash ∧ (s.abandonCurrent r).pending = s.pending ∧
    (s.abandonCurrent r).arriving = s.arriving := by
  unfold State.abandonCurrent
  split <;> simp

@[simp] theorem State.dropRx_leaves (s : State) (r : RouteIx) :
    (s.dropRx r).cfg = s.cfg ∧ (s.dropRx r).time = s.time ∧ (s.dropRx r).probes = s.probes ∧
    (s.dropRx r).health = s.health ∧ (s.dropRx r).circuits = s.circuits ∧ (s.dropRx r).peers = s.peers ∧
    (s.dropRx r).sel = s.sel ∧ (s.dropRx r).tx = s.tx ∧ (s.dropRx r).score = s.score ∧ (s.dropRx r).ports = s.ports ∧
    (s.dropRx r).profile = s.profile ∧ (s.dropRx r).flash = s.flash ∧ (s.dropRx r).pending = s.pending ∧
    (s.dropRx r).arriving = s.arriving := by
  unfold State.dropRx
  (repeat' split) <;> simp

@[simp] theorem State.abandonRx_leaves (s : State) (r : RouteIx) :
    (s.abandonRx r).cfg = s.cfg ∧ (s.abandonRx r).time = s.time ∧ (s.abandonRx r).probes = s.probes ∧
    (s.abandonRx r).health = s.health ∧ (s.abandonRx r).circuits = s.circuits ∧ (s.abandonRx r).peers = s.peers ∧
    (s.abandonRx r).sel = s.sel ∧ (s.abandonRx r).tx = s.tx ∧ (s.abandonRx r).score = s.score ∧
    (s.abandonRx r).ports = s.ports ∧ (s.abandonRx r).profile = s.profile ∧ (s.abandonRx r).flash = s.flash ∧
    (s.abandonRx r).pending = s.pending ∧ (s.abandonRx r).arriving = s.arriving := by
  unfold State.abandonRx
  split <;> simp

@[simp] theorem State.enqueue_leaves (s : State) (r : RouteIx) (c : Copy) :
    (s.enqueue r c).cfg = s.cfg ∧ (s.enqueue r c).time = s.time ∧ (s.enqueue r c).lanes = s.lanes ∧
    (s.enqueue r c).probes = s.probes ∧ (s.enqueue r c).health = s.health ∧ (s.enqueue r c).circuits = s.circuits ∧
    (s.enqueue r c).peers = s.peers ∧ (s.enqueue r c).sel = s.sel ∧ (s.enqueue r c).score = s.score ∧
    (s.enqueue r c).pool = s.pool ∧ (s.enqueue r c).ports = s.ports ∧ (s.enqueue r c).profile = s.profile ∧
    (s.enqueue r c).flash = s.flash ∧ (s.enqueue r c).pending = s.pending ∧ (s.enqueue r c).arriving = s.arriving := by
  simp [State.enqueue]

@[simp] theorem State.countNoRoute_leaves (s : State) (p : PeerIx) :
    (s.countNoRoute p).cfg = s.cfg ∧ (s.countNoRoute p).time = s.time ∧ (s.countNoRoute p).lanes = s.lanes ∧
    (s.countNoRoute p).probes = s.probes ∧ (s.countNoRoute p).health = s.health ∧
    (s.countNoRoute p).circuits = s.circuits ∧ (s.countNoRoute p).sel = s.sel ∧ (s.countNoRoute p).tx = s.tx ∧
    (s.countNoRoute p).score = s.score ∧ (s.countNoRoute p).pool = s.pool ∧ (s.countNoRoute p).ports = s.ports ∧
    (s.countNoRoute p).profile = s.profile ∧ (s.countNoRoute p).flash = s.flash ∧
    (s.countNoRoute p).pending = s.pending ∧ (s.countNoRoute p).arriving = s.arriving := by
  simp [State.countNoRoute]

/-- A placement touches the queues, the selector's counts, the slot and the circuit. -/
theorem State.place_leaves {s s' : State} {n : CircIx} {port : PortIx} {peer : PeerIx} {cls : TrafficClass} {k len : Nat}
    {o : Ticks} (h : s.place n port peer cls k len o = some s') :
    s'.cfg = s.cfg ∧ s'.time = s.time ∧ s'.lanes = s.lanes ∧ s'.probes = s.probes ∧ s'.health = s.health ∧
    s'.peers = s.peers ∧ s'.score = s.score ∧ s'.ports = s.ports ∧ s'.profile = s.profile ∧ s'.flash = s.flash ∧
    s'.pending = s.pending ∧ s'.arriving = s.arriving := by
  unfold State.place at h
  simp only [] at h
  split at h
  · cases h
  · simp only [Option.some.injEq] at h
    subst h
    refine ⟨?_, ?_, ?_, ?_, ?_, ?_, ?_, ?_, ?_, ?_, ?_, ?_⟩ <;>
      (simp only [State.modCircuit_cfg, State.modCircuit_time, State.modCircuit_lanes, State.modCircuit_probes,
        State.modCircuit_health, State.modCircuit_peers, State.modCircuit_score, State.modCircuit_ports,
        State.modCircuit_profile, State.modCircuit_flash, State.modCircuit_pending, State.modCircuit_arriving,
        State.updateFrame_leaves]
       split <;> simp)

@[simp] theorem State.resteerCopy_leaves (s : State) (r : RouteIx) (c : Copy) :
    (s.resteerCopy r c).cfg = s.cfg ∧ (s.resteerCopy r c).time = s.time ∧ (s.resteerCopy r c).lanes = s.lanes ∧
    (s.resteerCopy r c).probes = s.probes ∧ (s.resteerCopy r c).health = s.health ∧
    (s.resteerCopy r c).peers = s.peers ∧ (s.resteerCopy r c).score = s.score ∧
    (s.resteerCopy r c).profile = s.profile ∧ (s.resteerCopy r c).flash = s.flash ∧
    (s.resteerCopy r c).pending = s.pending ∧ (s.resteerCopy r c).arriving = s.arriving := by
  unfold State.resteerCopy
  (repeat' split) <;> simp

@[simp] theorem State.resteer_leaves (s : State) (r : RouteIx) :
    (s.resteer r).cfg = s.cfg ∧ (s.resteer r).time = s.time ∧ (s.resteer r).lanes = s.lanes ∧
    (s.resteer r).probes = s.probes ∧ (s.resteer r).health = s.health ∧ (s.resteer r).peers = s.peers ∧
    (s.resteer r).score = s.score ∧ (s.resteer r).profile = s.profile ∧ (s.resteer r).flash = s.flash ∧
    (s.resteer r).pending = s.pending ∧ (s.resteer r).arriving = s.arriving := by
  refine ⟨?_, ?_, ?_, ?_, ?_, ?_, ?_, ?_, ?_, ?_, ?_⟩
  · unfold State.resteer; rw [foldl_leaves State.cfg _ (by intros; simp)]; simp
  · unfold State.resteer; rw [foldl_leaves State.time _ (by intros; simp)]; simp
  · unfold State.resteer; rw [foldl_leaves State.lanes _ (by intros; simp)]; simp
  · unfold State.resteer; rw [foldl_leaves State.probes _ (by intros; simp)]; simp
  · unfold State.resteer; rw [foldl_leaves State.health _ (by intros; simp)]; simp
  · unfold State.resteer; rw [foldl_leaves State.peers _ (by intros; simp)]; simp
  · unfold State.resteer; rw [foldl_leaves State.score _ (by intros; simp)]; simp
  · unfold State.resteer; rw [foldl_leaves State.profile _ (by intros; simp)]; simp
  · unfold State.resteer; rw [foldl_leaves State.flash _ (by intros; simp)]; simp
  · unfold State.resteer; rw [foldl_leaves State.pending _ (by intros; simp)]; simp
  · unfold State.resteer; rw [foldl_leaves State.arriving _ (by intros; simp)]; simp

@[simp] theorem State.requestProbe_leaves (s : State) (r : RouteIx) :
    (s.requestProbe r).cfg = s.cfg ∧ (s.requestProbe r).time = s.time ∧ (s.requestProbe r).lanes = s.lanes ∧
    (s.requestProbe r).health = s.health ∧ (s.requestProbe r).circuits = s.circuits ∧
    (s.requestProbe r).peers = s.peers ∧ (s.requestProbe r).sel = s.sel ∧ (s.requestProbe r).score = s.score ∧
    (s.requestProbe r).pool = s.pool ∧ (s.requestProbe r).ports = s.ports ∧ (s.requestProbe r).profile = s.profile ∧
    (s.requestProbe r).flash = s.flash ∧ (s.requestProbe r).pending = s.pending ∧
    (s.requestProbe r).arriving = s.arriving := by
  unfold State.requestProbe
  split <;> simp

@[simp] theorem State.requestTest_leaves (s : State) (r : RouteIx) :
    (s.requestTest r).cfg = s.cfg ∧ (s.requestTest r).time = s.time ∧ (s.requestTest r).lanes = s.lanes ∧
    (s.requestTest r).probes = s.probes ∧ (s.requestTest r).circuits = s.circuits ∧
    (s.requestTest r).peers = s.peers ∧ (s.requestTest r).sel = s.sel ∧ (s.requestTest r).score = s.score ∧
    (s.requestTest r).pool = s.pool ∧ (s.requestTest r).ports = s.ports ∧ (s.requestTest r).profile = s.profile ∧
    (s.requestTest r).flash = s.flash ∧ (s.requestTest r).pending = s.pending ∧
    (s.requestTest r).arriving = s.arriving := by
  unfold State.requestTest
  split <;> simp

@[simp] theorem State.startProbes_leaves (s : State) (r : RouteIx) :
    (s.startProbes r).cfg = s.cfg ∧ (s.startProbes r).time = s.time ∧ (s.startProbes r).lanes = s.lanes ∧
    (s.startProbes r).health = s.health ∧ (s.startProbes r).circuits = s.circuits ∧
    (s.startProbes r).peers = s.peers ∧ (s.startProbes r).sel = s.sel ∧ (s.startProbes r).score = s.score ∧
    (s.startProbes r).pool = s.pool ∧ (s.startProbes r).ports = s.ports ∧ (s.startProbes r).profile = s.profile ∧
    (s.startProbes r).flash = s.flash ∧ (s.startProbes r).pending = s.pending ∧
    (s.startProbes r).arriving = s.arriving := by
  simp [State.startProbes]

@[simp] theorem State.enterProving_leaves (s : State) (r : RouteIx) :
    (s.enterProving r).cfg = s.cfg ∧ (s.enterProving r).time = s.time ∧ (s.enterProving r).lanes = s.lanes ∧
    (s.enterProving r).probes = s.probes ∧ (s.enterProving r).circuits = s.circuits ∧
    (s.enterProving r).peers = s.peers ∧ (s.enterProving r).sel = s.sel ∧ (s.enterProving r).score = s.score ∧
    (s.enterProving r).pool = s.pool ∧ (s.enterProving r).ports = s.ports ∧ (s.enterProving r).profile = s.profile ∧
    (s.enterProving r).flash = s.flash ∧ (s.enterProving r).pending = s.pending ∧
    (s.enterProving r).arriving = s.arriving := by
  simp [State.enterProving]

@[simp] theorem State.leaveProving_leaves (s : State) (r : RouteIx) :
    (s.leaveProving r).cfg = s.cfg ∧ (s.leaveProving r).time = s.time ∧ (s.leaveProving r).lanes = s.lanes ∧
    (s.leaveProving r).probes = s.probes ∧ (s.leaveProving r).circuits = s.circuits ∧
    (s.leaveProving r).peers = s.peers ∧ (s.leaveProving r).sel = s.sel ∧ (s.leaveProving r).score = s.score ∧
    (s.leaveProving r).pool = s.pool ∧ (s.leaveProving r).ports = s.ports ∧ (s.leaveProving r).profile = s.profile ∧
    (s.leaveProving r).flash = s.flash ∧ (s.leaveProving r).pending = s.pending ∧
    (s.leaveProving r).arriving = s.arriving := by
  simp [State.leaveProving]

@[simp] theorem State.flush_leaves (s : State) (r : RouteIx) :
    (s.flush r).cfg = s.cfg ∧ (s.flush r).time = s.time ∧ (s.flush r).lanes = s.lanes ∧
    (s.flush r).health = s.health ∧ (s.flush r).circuits = s.circuits ∧ (s.flush r).peers = s.peers ∧
    (s.flush r).sel = s.sel ∧ (s.flush r).tx = s.tx ∧ (s.flush r).score = s.score ∧ (s.flush r).pool = s.pool ∧
    (s.flush r).ports = s.ports ∧ (s.flush r).profile = s.profile ∧ (s.flush r).flash = s.flash ∧
    (s.flush r).pending = s.pending ∧ (s.flush r).arriving = s.arriving := by
  simp [State.flush]

@[simp] theorem State.disableEffects_leaves (s : State) (r : RouteIx) :
    (s.disableEffects r).cfg = s.cfg ∧ (s.disableEffects r).time = s.time ∧ (s.disableEffects r).lanes = s.lanes ∧
    (s.disableEffects r).health = s.health ∧ (s.disableEffects r).circuits = s.circuits ∧
    (s.disableEffects r).peers = s.peers ∧ (s.disableEffects r).sel = s.sel ∧ (s.disableEffects r).score = s.score ∧
    (s.disableEffects r).pool = s.pool ∧ (s.disableEffects r).ports = s.ports ∧
    (s.disableEffects r).profile = s.profile ∧ (s.disableEffects r).flash = s.flash ∧
    (s.disableEffects r).pending = s.pending ∧ (s.disableEffects r).arriving = s.arriving := by
  simp [State.disableEffects]

@[simp] theorem State.recordChange_leaves (s : State) (r : RouteIx) (new : RouteState) :
    (s.recordChange r new).cfg = s.cfg ∧ (s.recordChange r new).time = s.time ∧
    (s.recordChange r new).lanes = s.lanes ∧ (s.recordChange r new).probes = s.probes ∧
    (s.recordChange r new).circuits = s.circuits ∧ (s.recordChange r new).peers = s.peers ∧
    (s.recordChange r new).sel = s.sel ∧ (s.recordChange r new).tx = s.tx ∧ (s.recordChange r new).score = s.score ∧
    (s.recordChange r new).pool = s.pool ∧ (s.recordChange r new).ports = s.ports ∧
    (s.recordChange r new).profile = s.profile ∧ (s.recordChange r new).flash = s.flash ∧
    (s.recordChange r new).pending = s.pending ∧ (s.recordChange r new).arriving = s.arriving := by
  simp [State.recordChange]

@[simp] theorem State.consequences_leaves (s : State) (r : RouteIx) (old new : RouteState) :
    (s.consequences r old new).cfg = s.cfg ∧ (s.consequences r old new).lanes = s.lanes ∧
    (s.consequences r old new).peers = s.peers ∧ (s.consequences r old new).score = s.score ∧
    (s.consequences r old new).profile = s.profile ∧ (s.consequences r old new).flash = s.flash ∧
    (s.consequences r old new).pending = s.pending ∧ (s.consequences r old new).arriving = s.arriving := by
  unfold State.consequences
  (repeat' split) <;> simp

@[simp] theorem State.recordMove_leaves (s : State) (m : Move) :
    (s.recordMove m).cfg = s.cfg ∧ (s.recordMove m).time = s.time ∧ (s.recordMove m).lanes = s.lanes ∧
    (s.recordMove m).probes = s.probes ∧ (s.recordMove m).circuits = s.circuits ∧ (s.recordMove m).peers = s.peers ∧
    (s.recordMove m).sel = s.sel ∧ (s.recordMove m).tx = s.tx ∧ (s.recordMove m).score = s.score ∧
    (s.recordMove m).pool = s.pool ∧ (s.recordMove m).ports = s.ports ∧ (s.recordMove m).profile = s.profile ∧
    (s.recordMove m).flash = s.flash ∧ (s.recordMove m).pending = s.pending ∧
    (s.recordMove m).arriving = s.arriving := by
  refine ⟨?_, ?_, ?_, ?_, ?_, ?_, ?_, ?_, ?_, ?_, ?_, ?_, ?_, ?_, ?_⟩
  · unfold State.recordMove; rw [foldl_leaves State.cfg _ (by intros; simp)]
  · unfold State.recordMove; rw [foldl_leaves State.time _ (by intros; simp)]
  · unfold State.recordMove; rw [foldl_leaves State.lanes _ (by intros; simp)]
  · unfold State.recordMove; rw [foldl_leaves State.probes _ (by intros; simp)]
  · unfold State.recordMove; rw [foldl_leaves State.circuits _ (by intros; simp)]
  · unfold State.recordMove; rw [foldl_leaves State.peers _ (by intros; simp)]
  · unfold State.recordMove; rw [foldl_leaves State.sel _ (by intros; simp)]
  · unfold State.recordMove; rw [foldl_leaves State.tx _ (by intros; simp)]
  · unfold State.recordMove; rw [foldl_leaves State.score _ (by intros; simp)]
  · unfold State.recordMove; rw [foldl_leaves State.pool _ (by intros; simp)]
  · unfold State.recordMove; rw [foldl_leaves State.ports _ (by intros; simp)]
  · unfold State.recordMove; rw [foldl_leaves State.profile _ (by intros; simp)]
  · unfold State.recordMove; rw [foldl_leaves State.flash _ (by intros; simp)]
  · unfold State.recordMove; rw [foldl_leaves State.pending _ (by intros; simp)]
  · unfold State.recordMove; rw [foldl_leaves State.arriving _ (by intros; simp)]

@[simp] theorem State.moveConsequences_leaves (s : State) (r : RouteIx) (old : RouteState) (via : List RouteState) :
    (s.moveConsequences r old via).cfg = s.cfg ∧ (s.moveConsequences r old via).lanes = s.lanes ∧
    (s.moveConsequences r old via).peers = s.peers ∧ (s.moveConsequences r old via).score = s.score ∧
    (s.moveConsequences r old via).profile = s.profile ∧ (s.moveConsequences r old via).flash = s.flash ∧
    (s.moveConsequences r old via).pending = s.pending ∧ (s.moveConsequences r old via).arriving = s.arriving := by
  induction via generalizing s old with | nil => simp [State.moveConsequences] | cons new via ih => simp [State.moveConsequences, ih]

@[simp] theorem State.applyMoves_leaves (s : State) (ms : List Move) :
    (s.applyMoves ms).cfg = s.cfg ∧ (s.applyMoves ms).lanes = s.lanes ∧ (s.applyMoves ms).peers = s.peers ∧
    (s.applyMoves ms).score = s.score ∧ (s.applyMoves ms).profile = s.profile ∧ (s.applyMoves ms).flash = s.flash ∧
    (s.applyMoves ms).pending = s.pending ∧ (s.applyMoves ms).arriving = s.arriving := by
  refine ⟨?_, ?_, ?_, ?_, ?_, ?_, ?_, ?_⟩
  · unfold State.applyMoves; rw [foldl_leaves State.cfg _ (by intros; simp), foldl_leaves State.cfg _ (by intros; simp)]
  · unfold State.applyMoves; rw [foldl_leaves State.lanes _ (by intros; simp), foldl_leaves State.lanes _ (by intros; simp)]
  · unfold State.applyMoves; rw [foldl_leaves State.peers _ (by intros; simp), foldl_leaves State.peers _ (by intros; simp)]
  · unfold State.applyMoves; rw [foldl_leaves State.score _ (by intros; simp), foldl_leaves State.score _ (by intros; simp)]
  · unfold State.applyMoves; rw [foldl_leaves State.profile _ (by intros; simp), foldl_leaves State.profile _ (by intros; simp)]
  · unfold State.applyMoves; rw [foldl_leaves State.flash _ (by intros; simp), foldl_leaves State.flash _ (by intros; simp)]
  · unfold State.applyMoves; rw [foldl_leaves State.pending _ (by intros; simp), foldl_leaves State.pending _ (by intros; simp)]
  · unfold State.applyMoves; rw [foldl_leaves State.arriving _ (by intros; simp), foldl_leaves State.arriving _ (by intros; simp)]

@[simp] theorem State.moveRoute_leaves (s : State) (r : RouteIx) (via : List RouteState) :
    (s.moveRoute r via).cfg = s.cfg ∧ (s.moveRoute r via).lanes = s.lanes ∧ (s.moveRoute r via).peers = s.peers ∧
    (s.moveRoute r via).score = s.score ∧ (s.moveRoute r via).profile = s.profile ∧
    (s.moveRoute r via).flash = s.flash ∧ (s.moveRoute r via).pending = s.pending ∧
    (s.moveRoute r via).arriving = s.arriving := by
  simp [State.moveRoute]

@[simp] theorem State.disableRoute_leaves (s : State) (r : RouteIx) :
    (s.disableRoute r).cfg = s.cfg ∧ (s.disableRoute r).lanes = s.lanes ∧ (s.disableRoute r).peers = s.peers ∧
    (s.disableRoute r).score = s.score ∧ (s.disableRoute r).profile = s.profile ∧ (s.disableRoute r).flash = s.flash ∧
    (s.disableRoute r).pending = s.pending ∧ (s.disableRoute r).arriving = s.arriving := by
  unfold State.disableRoute
  split <;> simp

@[simp] theorem State.evaluate_leaves (s : State) (r : RouteIx) :
    (s.evaluate r).cfg = s.cfg ∧ (s.evaluate r).lanes = s.lanes ∧ (s.evaluate r).peers = s.peers ∧
    (s.evaluate r).score = s.score ∧ (s.evaluate r).profile = s.profile ∧ (s.evaluate r).flash = s.flash ∧
    (s.evaluate r).pending = s.pending ∧ (s.evaluate r).arriving = s.arriving := by
  unfold State.evaluate
  split <;> simp

@[simp] theorem State.resolve_leaves (s : State) (r : RouteIx) (res : Resolution) :
    (s.resolve r res).cfg = s.cfg ∧ (s.resolve r res).lanes = s.lanes ∧ (s.resolve r res).peers = s.peers ∧
    (s.resolve r res).score = s.score ∧ (s.resolve r res).profile = s.profile ∧ (s.resolve r res).flash = s.flash ∧
    (s.resolve r res).pending = s.pending ∧ (s.resolve r res).arriving = s.arriving := by
  simp [State.resolve]

@[simp] theorem State.crcFailure_leaves (s : State) (r : RouteIx) :
    (s.crcFailure r).cfg = s.cfg ∧ (s.crcFailure r).lanes = s.lanes ∧ (s.crcFailure r).peers = s.peers ∧
    (s.crcFailure r).score = s.score ∧ (s.crcFailure r).profile = s.profile ∧ (s.crcFailure r).flash = s.flash ∧
    (s.crcFailure r).pending = s.pending ∧ (s.crcFailure r).arriving = s.arriving := by
  simp [State.crcFailure]

@[simp] theorem State.loseProbe_leaves (s : State) (r : RouteIx) (o : Outstanding) :
    (s.loseProbe r o).cfg = s.cfg ∧ (s.loseProbe r o).lanes = s.lanes ∧ (s.loseProbe r o).peers = s.peers ∧
    (s.loseProbe r o).score = s.score ∧ (s.loseProbe r o).profile = s.profile ∧ (s.loseProbe r o).flash = s.flash ∧
    (s.loseProbe r o).pending = s.pending ∧ (s.loseProbe r o).arriving = s.arriving := by
  simp [State.loseProbe]

@[simp] theorem State.judgeSilence_leaves (s : State) (r : RouteIx) :
    (s.judgeSilence r).cfg = s.cfg ∧ (s.judgeSilence r).peers = s.peers ∧ (s.judgeSilence r).score = s.score ∧
    (s.judgeSilence r).profile = s.profile ∧ (s.judgeSilence r).flash = s.flash ∧
    (s.judgeSilence r).pending = s.pending ∧ (s.judgeSilence r).arriving = s.arriving := by
  unfold State.judgeSilence
  split <;> simp

end Sys2Proof.Machine
end

