-- ==== Sys2Proof/Laws/Commands.lean ====
section
/-! SUPPORT. What each operation behind the commands leaves alone. -/

namespace Sys2Proof.Machine

@[simp] theorem State.startControl_leaves (s : State) (r : RouteIx) (kind : TrunkKind) (bytes : List Byte) :
    (s.startControl r kind bytes).cfg = s.cfg ∧ (s.startControl r kind bytes).time = s.time ∧
    (s.startControl r kind bytes).lanes = s.lanes ∧ (s.startControl r kind bytes).probes = s.probes ∧
    (s.startControl r kind bytes).health = s.health ∧ (s.startControl r kind bytes).circuits = s.circuits ∧
    (s.startControl r kind bytes).peers = s.peers ∧ (s.startControl r kind bytes).sel = s.sel ∧
    (s.startControl r kind bytes).score = s.score ∧ (s.startControl r kind bytes).pool = s.pool ∧
    (s.startControl r kind bytes).ports = s.ports ∧ (s.startControl r kind bytes).profile = s.profile ∧
    (s.startControl r kind bytes).flash = s.flash ∧ (s.startControl r kind bytes).pending = s.pending ∧
    (s.startControl r kind bytes).arriving = s.arriving := by
  simp [State.startControl]

@[simp] theorem State.sendEcho_leaves (s : State) (r : RouteIx) (e : EchoEntry) (rest : List EchoEntry) :
    (s.sendEcho r e rest).cfg = s.cfg ∧ (s.sendEcho r e rest).time = s.time ∧ (s.sendEcho r e rest).lanes = s.lanes ∧
    (s.sendEcho r e rest).health = s.health ∧ (s.sendEcho r e rest).circuits = s.circuits ∧
    (s.sendEcho r e rest).peers = s.peers ∧ (s.sendEcho r e rest).sel = s.sel ∧
    (s.sendEcho r e rest).score = s.score ∧ (s.sendEcho r e rest).pool = s.pool ∧
    (s.sendEcho r e rest).ports = s.ports ∧ (s.sendEcho r e rest).profile = s.profile ∧
    (s.sendEcho r e rest).flash = s.flash ∧ (s.sendEcho r e rest).pending = s.pending ∧
    (s.sendEcho r e rest).arriving = s.arriving := by
  simp [State.sendEcho]

@[simp] theorem State.sendProbe_leaves (s : State) (r : RouteIx) :
    (s.sendProbe r).cfg = s.cfg ∧ (s.sendProbe r).time = s.time ∧ (s.sendProbe r).lanes = s.lanes ∧
    (s.sendProbe r).health = s.health ∧ (s.sendProbe r).circuits = s.circuits ∧ (s.sendProbe r).peers = s.peers ∧
    (s.sendProbe r).sel = s.sel ∧ (s.sendProbe r).score = s.score ∧ (s.sendProbe r).pool = s.pool ∧
    (s.sendProbe r).ports = s.ports ∧ (s.sendProbe r).profile = s.profile ∧ (s.sendProbe r).flash = s.flash ∧
    (s.sendProbe r).pending = s.pending ∧ (s.sendProbe r).arriving = s.arriving := by
  simp [State.sendProbe]

@[simp] theorem State.skipProbe_leaves (s : State) (r : RouteIx) :
    (s.skipProbe r).cfg = s.cfg ∧ (s.skipProbe r).time = s.time ∧ (s.skipProbe r).lanes = s.lanes ∧
    (s.skipProbe r).health = s.health ∧ (s.skipProbe r).circuits = s.circuits ∧ (s.skipProbe r).peers = s.peers ∧
    (s.skipProbe r).sel = s.sel ∧ (s.skipProbe r).score = s.score ∧ (s.skipProbe r).pool = s.pool ∧
    (s.skipProbe r).ports = s.ports ∧ (s.skipProbe r).profile = s.profile ∧ (s.skipProbe r).flash = s.flash ∧
    (s.skipProbe r).pending = s.pending ∧ (s.skipProbe r).arriving = s.arriving := by
  simp [State.skipProbe]

@[simp] theorem State.sendTest_leaves (s : State) (r : RouteIx) :
    (s.sendTest r).cfg = s.cfg ∧ (s.sendTest r).time = s.time ∧ (s.sendTest r).lanes = s.lanes ∧
    (s.sendTest r).probes = s.probes ∧ (s.sendTest r).circuits = s.circuits ∧ (s.sendTest r).peers = s.peers ∧
    (s.sendTest r).sel = s.sel ∧ (s.sendTest r).score = s.score ∧ (s.sendTest r).pool = s.pool ∧
    (s.sendTest r).ports = s.ports ∧ (s.sendTest r).profile = s.profile ∧ (s.sendTest r).flash = s.flash ∧
    (s.sendTest r).pending = s.pending ∧ (s.sendTest r).arriving = s.arriving := by
  simp [State.sendTest]

@[simp] theorem State.expireAtStart_leaves (s : State) (r : RouteIx) (c : Copy) :
    (s.expireAtStart r c).cfg = s.cfg ∧ (s.expireAtStart r c).time = s.time ∧ (s.expireAtStart r c).lanes = s.lanes ∧
    (s.expireAtStart r c).probes = s.probes ∧ (s.expireAtStart r c).health = s.health ∧
    (s.expireAtStart r c).peers = s.peers ∧ (s.expireAtStart r c).sel = s.sel ∧
    (s.expireAtStart r c).score = s.score ∧ (s.expireAtStart r c).profile = s.profile ∧
    (s.expireAtStart r c).flash = s.flash ∧ (s.expireAtStart r c).pending = s.pending ∧
    (s.expireAtStart r c).arriving = s.arriving := by
  simp [State.expireAtStart]

@[simp] theorem State.countStart_leaves (s : State) (c : Copy) :
    (s.countStart c).cfg = s.cfg ∧ (s.countStart c).time = s.time ∧ (s.countStart c).lanes = s.lanes ∧
    (s.countStart c).probes = s.probes ∧ (s.countStart c).health = s.health ∧ (s.countStart c).peers = s.peers ∧
    (s.countStart c).sel = s.sel ∧ (s.countStart c).tx = s.tx ∧ (s.countStart c).score = s.score ∧
    (s.countStart c).ports = s.ports ∧ (s.countStart c).profile = s.profile ∧ (s.countStart c).flash = s.flash ∧
    (s.countStart c).pending = s.pending ∧ (s.countStart c).arriving = s.arriving := by
  unfold State.countStart
  split <;> simp

@[simp] theorem State.startCargo_leaves (s : State) (r : RouteIx) (c : Copy) (slot : Option (Fin 16)) :
    (s.startCargo r c slot).cfg = s.cfg ∧ (s.startCargo r c slot).time = s.time ∧
    (s.startCargo r c slot).lanes = s.lanes ∧ (s.startCargo r c slot).probes = s.probes ∧
    (s.startCargo r c slot).health = s.health ∧ (s.startCargo r c slot).peers = s.peers ∧
    (s.startCargo r c slot).sel = s.sel ∧ (s.startCargo r c slot).score = s.score ∧
    (s.startCargo r c slot).ports = s.ports ∧ (s.startCargo r c slot).profile = s.profile ∧
    (s.startCargo r c slot).flash = s.flash ∧ (s.startCargo r c slot).pending = s.pending ∧
    (s.startCargo r c slot).arriving = s.arriving := by
  simp [State.startCargo]

@[simp] theorem State.grantLoop_leaves (s : State) (r : RouteIx) (fuel : Nat) :
    (s.grantLoop r fuel).cfg = s.cfg ∧ (s.grantLoop r fuel).time = s.time ∧ (s.grantLoop r fuel).lanes = s.lanes ∧
    (s.grantLoop r fuel).probes = s.probes ∧ (s.grantLoop r fuel).health = s.health ∧
    (s.grantLoop r fuel).peers = s.peers ∧ (s.grantLoop r fuel).sel = s.sel ∧ (s.grantLoop r fuel).score = s.score ∧
    (s.grantLoop r fuel).profile = s.profile ∧ (s.grantLoop r fuel).flash = s.flash ∧
    (s.grantLoop r fuel).pending = s.pending ∧ (s.grantLoop r fuel).arriving = s.arriving := by
  induction fuel generalizing s with
  | zero => simp [State.grantLoop]
  | succ fuel ih =>
    unfold State.grantLoop
    dsimp only
    split
    · simp
    · split <;> split <;> simp [ih]

@[simp] theorem State.offerCargo_leaves (s : State) (r : RouteIx) :
    (s.offerCargo r).cfg = s.cfg ∧ (s.offerCargo r).time = s.time ∧ (s.offerCargo r).lanes = s.lanes ∧
    (s.offerCargo r).probes = s.probes ∧ (s.offerCargo r).health = s.health ∧ (s.offerCargo r).peers = s.peers ∧
    (s.offerCargo r).sel = s.sel ∧ (s.offerCargo r).score = s.score ∧ (s.offerCargo r).profile = s.profile ∧
    (s.offerCargo r).flash = s.flash ∧ (s.offerCargo r).pending = s.pending ∧
    (s.offerCargo r).arriving = s.arriving := by
  unfold State.offerCargo
  split <;> simp

@[simp] theorem State.offerTest_leaves (s : State) (r : RouteIx) :
    (s.offerTest r).cfg = s.cfg ∧ (s.offerTest r).time = s.time ∧ (s.offerTest r).lanes = s.lanes ∧
    (s.offerTest r).probes = s.probes ∧ (s.offerTest r).peers = s.peers ∧ (s.offerTest r).sel = s.sel ∧
    (s.offerTest r).score = s.score ∧ (s.offerTest r).profile = s.profile ∧ (s.offerTest r).flash = s.flash ∧
    (s.offerTest r).pending = s.pending ∧ (s.offerTest r).arriving = s.arriving := by
  unfold State.offerTest
  split <;> simp

@[simp] theorem State.offerProbe_leaves (s : State) (r : RouteIx) :
    (s.offerProbe r).cfg = s.cfg ∧ (s.offerProbe r).time = s.time ∧ (s.offerProbe r).lanes = s.lanes ∧
    (s.offerProbe r).peers = s.peers ∧ (s.offerProbe r).sel = s.sel ∧ (s.offerProbe r).score = s.score ∧
    (s.offerProbe r).profile = s.profile ∧ (s.offerProbe r).flash = s.flash ∧ (s.offerProbe r).pending = s.pending ∧
    (s.offerProbe r).arriving = s.arriving := by
  unfold State.offerProbe
  (repeat' split) <;> simp

@[simp] theorem State.offer_leaves (s : State) (r : RouteIx) :
    (s.offer r).cfg = s.cfg ∧ (s.offer r).time = s.time ∧ (s.offer r).lanes = s.lanes ∧ (s.offer r).peers = s.peers ∧
    (s.offer r).sel = s.sel ∧ (s.offer r).score = s.score ∧ (s.offer r).profile = s.profile ∧
    (s.offer r).flash = s.flash ∧ (s.offer r).pending = s.pending ∧ (s.offer r).arriving = s.arriving := by
  unfold State.offer
  (repeat' split) <;> simp

@[simp] theorem State.beginRx_leaves (s : State) (r : RouteIx) (first : Byte) (store : RxStore) :
    (s.beginRx r first store).cfg = s.cfg ∧ (s.beginRx r first store).time = s.time ∧
    (s.beginRx r first store).probes = s.probes ∧ (s.beginRx r first store).health = s.health ∧
    (s.beginRx r first store).circuits = s.circuits ∧ (s.beginRx r first store).peers = s.peers ∧
    (s.beginRx r first store).sel = s.sel ∧ (s.beginRx r first store).tx = s.tx ∧
    (s.beginRx r first store).score = s.score ∧ (s.beginRx r first store).pool = s.pool ∧
    (s.beginRx r first store).ports = s.ports ∧ (s.beginRx r first store).profile = s.profile ∧
    (s.beginRx r first store).flash = s.flash ∧ (s.beginRx r first store).pending = s.pending ∧
    (s.beginRx r first store).arriving = s.arriving := by
  simp [State.beginRx]

@[simp] theorem State.frameStart_leaves (s : State) (r : RouteIx) (first : Byte) :
    (s.frameStart r first).cfg = s.cfg ∧ (s.frameStart r first).time = s.time ∧
    (s.frameStart r first).probes = s.probes ∧ (s.frameStart r first).health = s.health ∧
    (s.frameStart r first).circuits = s.circuits ∧ (s.frameStart r first).peers = s.peers ∧
    (s.frameStart r first).sel = s.sel ∧ (s.frameStart r first).tx = s.tx ∧ (s.frameStart r first).ports = s.ports ∧
    (s.frameStart r first).profile = s.profile ∧ (s.frameStart r first).flash = s.flash ∧
    (s.frameStart r first).pending = s.pending ∧ (s.frameStart r first).arriving = s.arriving := by
  unfold State.frameStart
  (repeat' split) <;> simp

@[simp] theorem State.answerProbe_leaves (s : State) (r : RouteIx) (n : Byte) (t1 t2 : Stamp) :
    (s.answerProbe r n t1 t2).cfg = s.cfg ∧ (s.answerProbe r n t1 t2).time = s.time ∧
    (s.answerProbe r n t1 t2).lanes = s.lanes ∧ (s.answerProbe r n t1 t2).health = s.health ∧
    (s.answerProbe r n t1 t2).circuits = s.circuits ∧ (s.answerProbe r n t1 t2).peers = s.peers ∧
    (s.answerProbe r n t1 t2).sel = s.sel ∧ (s.answerProbe r n t1 t2).score = s.score ∧
    (s.answerProbe r n t1 t2).pool = s.pool ∧ (s.answerProbe r n t1 t2).ports = s.ports ∧
    (s.answerProbe r n t1 t2).profile = s.profile ∧ (s.answerProbe r n t1 t2).flash = s.flash ∧
    (s.answerProbe r n t1 t2).pending = s.pending ∧ (s.answerProbe r n t1 t2).arriving = s.arriving := by
  unfold State.answerProbe
  split <;> simp

@[simp] theorem State.gateOffset_leaves (s : State) (r : RouteIx) (x : Sample) :
    (s.gateOffset r x).cfg = s.cfg ∧ (s.gateOffset r x).lanes = s.lanes ∧ (s.gateOffset r x).health = s.health ∧
    (s.gateOffset r x).circuits = s.circuits ∧ (s.gateOffset r x).peers = s.peers ∧ (s.gateOffset r x).sel = s.sel ∧
    (s.gateOffset r x).tx = s.tx ∧ (s.gateOffset r x).score = s.score ∧ (s.gateOffset r x).pool = s.pool ∧
    (s.gateOffset r x).profile = s.profile ∧ (s.gateOffset r x).flash = s.flash ∧
    (s.gateOffset r x).pending = s.pending ∧ (s.gateOffset r x).arriving = s.arriving := by
  unfold State.gateOffset
  split <;> simp

@[simp] theorem State.viewPeer_leaves (s : State) (r : RouteIx) (state errors : Byte) :
    (s.viewPeer r state errors).cfg = s.cfg ∧ (s.viewPeer r state errors).time = s.time ∧
    (s.viewPeer r state errors).lanes = s.lanes ∧ (s.viewPeer r state errors).health = s.health ∧
    (s.viewPeer r state errors).circuits = s.circuits ∧ (s.viewPeer r state errors).peers = s.peers ∧
    (s.viewPeer r state errors).sel = s.sel ∧ (s.viewPeer r state errors).tx = s.tx ∧
    (s.viewPeer r state errors).score = s.score ∧ (s.viewPeer r state errors).pool = s.pool ∧
    (s.viewPeer r state errors).ports = s.ports ∧ (s.viewPeer r state errors).profile = s.profile ∧
    (s.viewPeer r state errors).flash = s.flash ∧ (s.viewPeer r state errors).pending = s.pending ∧
    (s.viewPeer r state errors).arriving = s.arriving := by
  simp [State.viewPeer]

@[simp] theorem State.badSample_leaves (s : State) (r : RouteIx) (o : Outstanding) (state errors : Byte) :
    (s.badSample r o state errors).cfg = s.cfg ∧ (s.badSample r o state errors).lanes = s.lanes ∧
    (s.badSample r o state errors).peers = s.peers ∧ (s.badSample r o state errors).score = s.score ∧
    (s.badSample r o state errors).profile = s.profile ∧ (s.badSample r o state errors).flash = s.flash ∧
    (s.badSample r o state errors).pending = s.pending ∧ (s.badSample r o state errors).arriving = s.arriving := by
  simp [State.badSample]

@[simp] theorem State.goodSample_leaves (s : State) (r : RouteIx) (o : Outstanding) (x : Sample) (state errors : Byte) :
    (s.goodSample r o x state errors).cfg = s.cfg ∧ (s.goodSample r o x state errors).lanes = s.lanes ∧
    (s.goodSample r o x state errors).peers = s.peers ∧ (s.goodSample r o x state errors).score = s.score ∧
    (s.goodSample r o x state errors).profile = s.profile ∧ (s.goodSample r o x state errors).flash = s.flash ∧
    (s.goodSample r o x state errors).pending = s.pending ∧
    (s.goodSample r o x state errors).arriving = s.arriving := by
  simp [State.goodSample]

@[simp] theorem State.resolveEcho_leaves (s : State) (r : RouteIx) (n : Byte) (t1 t2 t3 t4 : Stamp) (errors state : Byte) :
    (s.resolveEcho r n t1 t2 t3 t4 errors state).cfg = s.cfg ∧
    (s.resolveEcho r n t1 t2 t3 t4 errors state).lanes = s.lanes ∧
    (s.resolveEcho r n t1 t2 t3 t4 errors state).peers = s.peers ∧
    (s.resolveEcho r n t1 t2 t3 t4 errors state).score = s.score ∧
    (s.resolveEcho r n t1 t2 t3 t4 errors state).profile = s.profile ∧
    (s.resolveEcho r n t1 t2 t3 t4 errors state).flash = s.flash ∧
    (s.resolveEcho r n t1 t2 t3 t4 errors state).pending = s.pending ∧
    (s.resolveEcho r n t1 t2 t3 t4 errors state).arriving = s.arriving := by
  unfold State.resolveEcho
  (repeat' split) <;> simp

@[simp] theorem State.checkTest_leaves (s : State) (r : RouteIx) (seed : BitVec 16) (bs : List Byte) :
    (s.checkTest r seed bs).cfg = s.cfg ∧ (s.checkTest r seed bs).time = s.time ∧
    (s.checkTest r seed bs).lanes = s.lanes ∧ (s.checkTest r seed bs).circuits = s.circuits ∧
    (s.checkTest r seed bs).peers = s.peers ∧ (s.checkTest r seed bs).sel = s.sel ∧
    (s.checkTest r seed bs).tx = s.tx ∧ (s.checkTest r seed bs).score = s.score ∧
    (s.checkTest r seed bs).pool = s.pool ∧ (s.checkTest r seed bs).ports = s.ports ∧
    (s.checkTest r seed bs).profile = s.profile ∧ (s.checkTest r seed bs).flash = s.flash ∧
    (s.checkTest r seed bs).pending = s.pending ∧ (s.checkTest r seed bs).arriving = s.arriving := by
  unfold State.checkTest
  split <;> simp

@[simp] theorem State.deliver_leaves (s : State) (n : CircIx) (p : PortIx) (k : Nat) (seq : BitVec 16) :
    (s.deliver n p k seq).cfg = s.cfg ∧ (s.deliver n p k seq).time = s.time ∧ (s.deliver n p k seq).lanes = s.lanes ∧
    (s.deliver n p k seq).probes = s.probes ∧ (s.deliver n p k seq).health = s.health ∧
    (s.deliver n p k seq).peers = s.peers ∧ (s.deliver n p k seq).sel = s.sel ∧ (s.deliver n p k seq).tx = s.tx ∧
    (s.deliver n p k seq).score = s.score ∧ (s.deliver n p k seq).profile = s.profile ∧
    (s.deliver n p k seq).flash = s.flash ∧ (s.deliver n p k seq).pending = s.pending ∧
    (s.deliver n p k seq).arriving = s.arriving := by
  unfold State.deliver
  (repeat' split) <;> simp

@[simp] theorem State.relayFails_leaves (s : State) (n : CircIx) (p : PortIx) (k : Nat) (seq : BitVec 16) :
    (s.relayFails n p k seq).cfg = s.cfg ∧ (s.relayFails n p k seq).time = s.time ∧
    (s.relayFails n p k seq).lanes = s.lanes ∧ (s.relayFails n p k seq).probes = s.probes ∧
    (s.relayFails n p k seq).health = s.health ∧ (s.relayFails n p k seq).peers = s.peers ∧
    (s.relayFails n p k seq).sel = s.sel ∧ (s.relayFails n p k seq).tx = s.tx ∧
    (s.relayFails n p k seq).score = s.score ∧ (s.relayFails n p k seq).profile = s.profile ∧
    (s.relayFails n p k seq).flash = s.flash ∧ (s.relayFails n p k seq).pending = s.pending ∧
    (s.relayFails n p k seq).arriving = s.arriving := by
  simp [State.relayFails]

@[simp] theorem State.relay_leaves (s : State) (n target : CircIx) (p : PortIx) (k len : Nat) (seq : BitVec 16) (o : Ticks) :
    (s.relay n target p k len seq o).cfg = s.cfg ∧ (s.relay n target p k len seq o).time = s.time ∧
    (s.relay n target p k len seq o).lanes = s.lanes ∧ (s.relay n target p k len seq o).probes = s.probes ∧
    (s.relay n target p k len seq o).health = s.health ∧ (s.relay n target p k len seq o).score = s.score ∧
    (s.relay n target p k len seq o).profile = s.profile ∧ (s.relay n target p k len seq o).flash = s.flash ∧
    (s.relay n target p k len seq o).pending = s.pending ∧ (s.relay n target p k len seq o).arriving = s.arriving := by
  unfold State.relay
  split
  · simp
  · split
    · rename_i h
      simp [State.place_leaves h]
    · simp

@[simp] theorem State.acceptCargo_leaves (s : State) (r : RouteIx) (n : CircIx) (p : PortIx) (relay : Option CircIx) (rx : Rx) (k len : Nat) (seq : BitVec 16) (v : Verdict) :
    (s.acceptCargo r n p relay rx k len seq v).cfg = s.cfg ∧
    (s.acceptCargo r n p relay rx k len seq v).time = s.time ∧
    (s.acceptCargo r n p relay rx k len seq v).lanes = s.lanes ∧
    (s.acceptCargo r n p relay rx k len seq v).probes = s.probes ∧
    (s.acceptCargo r n p relay rx k len seq v).health = s.health ∧
    (s.acceptCargo r n p relay rx k len seq v).profile = s.profile ∧
    (s.acceptCargo r n p relay rx k len seq v).flash = s.flash ∧
    (s.acceptCargo r n p relay rx k len seq v).pending = s.pending ∧
    (s.acceptCargo r n p relay rx k len seq v).arriving = s.arriving := by
  unfold State.acceptCargo
  split <;> simp

@[simp] theorem State.judgeCargo_leaves (s : State) (r : RouteIx) (n : CircIx) (p : PortIx) (relay : Option CircIx) (rx : Rx) (k len : Nat) (seq : BitVec 16) :
    (s.judgeCargo r n p relay rx k len seq).cfg = s.cfg ∧ (s.judgeCargo r n p relay rx k len seq).time = s.time ∧
    (s.judgeCargo r n p relay rx k len seq).lanes = s.lanes ∧
    (s.judgeCargo r n p relay rx k len seq).probes = s.probes ∧
    (s.judgeCargo r n p relay rx k len seq).health = s.health ∧
    (s.judgeCargo r n p relay rx k len seq).profile = s.profile ∧
    (s.judgeCargo r n p relay rx k len seq).flash = s.flash ∧
    (s.judgeCargo r n p relay rx k len seq).pending = s.pending ∧
    (s.judgeCargo r n p relay rx k len seq).arriving = s.arriving := by
  unfold State.judgeCargo
  split <;> simp

@[simp] theorem State.cargoArrived_leaves (s : State) (r : RouteIx) (rx : Rx) (k : Nat) (bs : List Byte) :
    (s.cargoArrived r rx k bs).cfg = s.cfg ∧ (s.cargoArrived r rx k bs).time = s.time ∧
    (s.cargoArrived r rx k bs).lanes = s.lanes ∧ (s.cargoArrived r rx k bs).probes = s.probes ∧
    (s.cargoArrived r rx k bs).health = s.health ∧ (s.cargoArrived r rx k bs).profile = s.profile ∧
    (s.cargoArrived r rx k bs).flash = s.flash ∧ (s.cargoArrived r rx k bs).pending = s.pending ∧
    (s.cargoArrived r rx k bs).arriving = s.arriving := by
  unfold State.cargoArrived
  (repeat' split) <;> simp

@[simp] theorem State.dispatch_leaves (s : State) (r : RouteIx) (rx : Rx) (kind : TrunkKind) (bs : List Byte) :
    (s.dispatch r rx kind bs).cfg = s.cfg ∧ (s.dispatch r rx kind bs).profile = s.profile ∧
    (s.dispatch r rx kind bs).flash = s.flash ∧ (s.dispatch r rx kind bs).pending = s.pending ∧
    (s.dispatch r rx kind bs).arriving = s.arriving := by
  unfold State.dispatch
  (repeat' split) <;> simp

@[simp] theorem State.frameJudged_leaves (s : State) (r : RouteIx) (rx : Rx) (bs : List Byte) :
    (s.frameJudged r rx bs).cfg = s.cfg ∧ (s.frameJudged r rx bs).profile = s.profile ∧
    (s.frameJudged r rx bs).flash = s.flash ∧ (s.frameJudged r rx bs).pending = s.pending ∧
    (s.frameJudged r rx bs).arriving = s.arriving := by
  unfold State.frameJudged
  (repeat' split) <;> simp

@[simp] theorem State.lengthLimit_leaves (s : State) (r : RouteIx) (rx : Rx) :
    (s.lengthLimit r rx).cfg = s.cfg ∧ (s.lengthLimit r rx).peers = s.peers ∧ (s.lengthLimit r rx).score = s.score ∧
    (s.lengthLimit r rx).profile = s.profile ∧ (s.lengthLimit r rx).flash = s.flash ∧
    (s.lengthLimit r rx).pending = s.pending ∧ (s.lengthLimit r rx).arriving = s.arriving := by
  unfold State.lengthLimit
  dsimp only
  split <;> simp

@[simp] theorem State.markerSeen_leaves (s : State) (p : PortIx) :
    (s.markerSeen p).cfg = s.cfg ∧ (s.markerSeen p).time = s.time ∧ (s.markerSeen p).lanes = s.lanes ∧
    (s.markerSeen p).probes = s.probes ∧ (s.markerSeen p).health = s.health ∧ (s.markerSeen p).circuits = s.circuits ∧
    (s.markerSeen p).peers = s.peers ∧ (s.markerSeen p).sel = s.sel ∧ (s.markerSeen p).tx = s.tx ∧
    (s.markerSeen p).score = s.score ∧ (s.markerSeen p).pool = s.pool ∧ (s.markerSeen p).profile = s.profile ∧
    (s.markerSeen p).flash = s.flash ∧ (s.markerSeen p).pending = s.pending ∧
    (s.markerSeen p).arriving = s.arriving := by
  simp [State.markerSeen]

@[simp] theorem State.noteTaken_leaves (s : State) (p : PortIx) (n : Byte) :
    (s.noteTaken p n).cfg = s.cfg ∧ (s.noteTaken p n).time = s.time ∧ (s.noteTaken p n).lanes = s.lanes ∧
    (s.noteTaken p n).probes = s.probes ∧ (s.noteTaken p n).health = s.health ∧
    (s.noteTaken p n).circuits = s.circuits ∧ (s.noteTaken p n).peers = s.peers ∧ (s.noteTaken p n).sel = s.sel ∧
    (s.noteTaken p n).tx = s.tx ∧ (s.noteTaken p n).score = s.score ∧ (s.noteTaken p n).pool = s.pool ∧
    (s.noteTaken p n).profile = s.profile ∧ (s.noteTaken p n).flash = s.flash ∧
    (s.noteTaken p n).pending = s.pending ∧ (s.noteTaken p n).arriving = s.arriving := by
  simp [State.noteTaken]

@[simp] theorem State.ppsEdge_leaves (s : State) :
    (s.ppsEdge).cfg = s.cfg ∧ (s.ppsEdge).lanes = s.lanes ∧ (s.ppsEdge).probes = s.probes ∧
    (s.ppsEdge).health = s.health ∧ (s.ppsEdge).circuits = s.circuits ∧ (s.ppsEdge).peers = s.peers ∧
    (s.ppsEdge).sel = s.sel ∧ (s.ppsEdge).tx = s.tx ∧ (s.ppsEdge).score = s.score ∧ (s.ppsEdge).pool = s.pool ∧
    (s.ppsEdge).profile = s.profile ∧ (s.ppsEdge).flash = s.flash ∧ (s.ppsEdge).pending = s.pending ∧
    (s.ppsEdge).arriving = s.arriving := by
  unfold State.ppsEdge
  dsimp only
  (repeat' split) <;> simp

@[simp] theorem State.applyTime_leaves (s : State) (t : TimeSettings) :
    (s.applyTime t).lanes = s.lanes ∧ (s.applyTime t).probes = s.probes ∧ (s.applyTime t).health = s.health ∧
    (s.applyTime t).circuits = s.circuits ∧ (s.applyTime t).peers = s.peers ∧ (s.applyTime t).sel = s.sel ∧
    (s.applyTime t).tx = s.tx ∧ (s.applyTime t).score = s.score ∧ (s.applyTime t).pool = s.pool ∧
    (s.applyTime t).profile = s.profile ∧ (s.applyTime t).flash = s.flash ∧ (s.applyTime t).pending = s.pending ∧
    (s.applyTime t).arriving = s.arriving := by
  simp [State.applyTime]

@[simp] theorem State.losEffects_leaves (s : State) (r : RouteIx) :
    (s.losEffects r).cfg = s.cfg ∧ (s.losEffects r).peers = s.peers ∧ (s.losEffects r).score = s.score ∧
    (s.losEffects r).profile = s.profile ∧ (s.losEffects r).flash = s.flash ∧ (s.losEffects r).pending = s.pending ∧
    (s.losEffects r).arriving = s.arriving := by
  simp [State.losEffects]

@[simp] theorem State.losAssert_leaves (s : State) (r : RouteIx) :
    (s.losAssert r).cfg = s.cfg ∧ (s.losAssert r).peers = s.peers ∧ (s.losAssert r).score = s.score ∧
    (s.losAssert r).profile = s.profile ∧ (s.losAssert r).flash = s.flash ∧ (s.losAssert r).pending = s.pending ∧
    (s.losAssert r).arriving = s.arriving := by
  unfold State.losAssert
  dsimp only
  (repeat' split) <;> simp

@[simp] theorem State.losRelease_leaves (s : State) (r : RouteIx) :
    (s.losRelease r).cfg = s.cfg ∧ (s.losRelease r).peers = s.peers ∧ (s.losRelease r).score = s.score ∧
    (s.losRelease r).profile = s.profile ∧ (s.losRelease r).flash = s.flash ∧ (s.losRelease r).pending = s.pending ∧
    (s.losRelease r).arriving = s.arriving := by
  unfold State.losRelease
  dsimp only
  (repeat' split) <;> simp

@[simp] theorem State.enterTrend_leaves (s : State) (r : RouteIx) (old new : Trend) :
    (s.enterTrend r old new).cfg = s.cfg ∧ (s.enterTrend r old new).time = s.time ∧
    (s.enterTrend r old new).lanes = s.lanes ∧ (s.enterTrend r old new).probes = s.probes ∧
    (s.enterTrend r old new).health = s.health ∧ (s.enterTrend r old new).circuits = s.circuits ∧
    (s.enterTrend r old new).peers = s.peers ∧ (s.enterTrend r old new).sel = s.sel ∧
    (s.enterTrend r old new).tx = s.tx ∧ (s.enterTrend r old new).score = s.score ∧
    (s.enterTrend r old new).pool = s.pool ∧ (s.enterTrend r old new).profile = s.profile ∧
    (s.enterTrend r old new).flash = s.flash ∧ (s.enterTrend r old new).pending = s.pending ∧
    (s.enterTrend r old new).arriving = s.arriving := by
  unfold State.enterTrend
  split <;> simp

@[simp] theorem State.pushReport_leaves (s : State) (r : RouteIx) (v : Int) :
    (s.pushReport r v).cfg = s.cfg ∧ (s.pushReport r v).time = s.time ∧ (s.pushReport r v).probes = s.probes ∧
    (s.pushReport r v).health = s.health ∧ (s.pushReport r v).circuits = s.circuits ∧
    (s.pushReport r v).peers = s.peers ∧ (s.pushReport r v).sel = s.sel ∧ (s.pushReport r v).tx = s.tx ∧
    (s.pushReport r v).score = s.score ∧ (s.pushReport r v).pool = s.pool ∧ (s.pushReport r v).profile = s.profile ∧
    (s.pushReport r v).flash = s.flash ∧ (s.pushReport r v).pending = s.pending ∧
    (s.pushReport r v).arriving = s.arriving := by
  unfold State.pushReport
  split <;> simp

@[simp] theorem State.laneReport_leaves (s : State) (r : RouteIx) (bs : List Byte) :
    (s.laneReport r bs).cfg = s.cfg ∧ (s.laneReport r bs).peers = s.peers ∧ (s.laneReport r bs).score = s.score ∧
    (s.laneReport r bs).profile = s.profile ∧ (s.laneReport r bs).flash = s.flash ∧
    (s.laneReport r bs).pending = s.pending ∧ (s.laneReport r bs).arriving = s.arriving := by
  unfold State.laneReport
  (repeat' split) <;> simp

@[simp] theorem State.returnRoute_leaves (s : State) (r : RouteIx) :
    (s.returnRoute r).cfg = s.cfg ∧ (s.returnRoute r).lanes = s.lanes ∧ (s.returnRoute r).peers = s.peers ∧
    (s.returnRoute r).score = s.score ∧ (s.returnRoute r).profile = s.profile ∧ (s.returnRoute r).flash = s.flash ∧
    (s.returnRoute r).pending = s.pending ∧ (s.returnRoute r).arriving = s.arriving := by
  unfold State.returnRoute
  split <;> simp

@[simp] theorem State.applyLane_leaves (s : State) (r : RouteIx) (x : LaneSettings) :
    (s.applyLane r x).peers = s.peers ∧ (s.applyLane r x).score = s.score ∧ (s.applyLane r x).profile = s.profile ∧
    (s.applyLane r x).flash = s.flash ∧ (s.applyLane r x).pending = s.pending ∧
    (s.applyLane r x).arriving = s.arriving := by
  unfold State.applyLane
  dsimp only
  split <;> simp

@[simp] theorem State.applyPeer_leaves (s : State) (p : PeerIx) (x : PeerSettings) :
    (s.applyPeer p x).lanes = s.lanes ∧ (s.applyPeer p x).peers = s.peers ∧ (s.applyPeer p x).score = s.score ∧
    (s.applyPeer p x).profile = s.profile ∧ (s.applyPeer p x).flash = s.flash ∧
    (s.applyPeer p x).pending = s.pending ∧ (s.applyPeer p x).arriving = s.arriving := by
  simp [State.applyPeer]

@[simp] theorem State.clearForce_leaves (s : State) (p : PeerIx) (r : RouteIx) :
    (s.clearForce p r).cfg = s.cfg ∧ (s.clearForce p r).time = s.time ∧ (s.clearForce p r).lanes = s.lanes ∧
    (s.clearForce p r).probes = s.probes ∧ (s.clearForce p r).health = s.health ∧
    (s.clearForce p r).circuits = s.circuits ∧ (s.clearForce p r).sel = s.sel ∧ (s.clearForce p r).tx = s.tx ∧
    (s.clearForce p r).score = s.score ∧ (s.clearForce p r).pool = s.pool ∧ (s.clearForce p r).ports = s.ports ∧
    (s.clearForce p r).profile = s.profile ∧ (s.clearForce p r).flash = s.flash ∧
    (s.clearForce p r).pending = s.pending ∧ (s.clearForce p r).arriving = s.arriving := by
  simp [State.clearForce]

@[simp] theorem State.changePeer_leaves (s : State) (r : RouteIx) (p : PeerIx) :
    (s.changePeer r p).lanes = s.lanes ∧ (s.changePeer r p).score = s.score ∧ (s.changePeer r p).profile = s.profile ∧
    (s.changePeer r p).flash = s.flash ∧ (s.changePeer r p).pending = s.pending ∧
    (s.changePeer r p).arriving = s.arriving := by
  unfold State.changePeer
  split <;> simp

@[simp] theorem State.applyRoute_leaves (s : State) (r : RouteIx) (x : RouteSettings) :
    (s.applyRoute r x).lanes = s.lanes ∧ (s.applyRoute r x).score = s.score ∧ (s.applyRoute r x).profile = s.profile ∧
    (s.applyRoute r x).flash = s.flash ∧ (s.applyRoute r x).pending = s.pending ∧
    (s.applyRoute r x).arriving = s.arriving := by
  unfold State.applyRoute
  split <;> simp

@[simp] theorem State.applyHealth_leaves (s : State) (h : HealthSettings) :
    (s.applyHealth h).lanes = s.lanes ∧ (s.applyHealth h).peers = s.peers ∧ (s.applyHealth h).score = s.score ∧
    (s.applyHealth h).profile = s.profile ∧ (s.applyHealth h).flash = s.flash ∧
    (s.applyHealth h).pending = s.pending ∧ (s.applyHealth h).arriving = s.arriving := by
  simp [State.applyHealth]

@[simp] theorem State.restartSchedules_leaves (s : State) (tests : Bool) (r : RouteIx) :
    (s.restartSchedules tests r).cfg = s.cfg ∧ (s.restartSchedules tests r).time = s.time ∧
    (s.restartSchedules tests r).lanes = s.lanes ∧ (s.restartSchedules tests r).circuits = s.circuits ∧
    (s.restartSchedules tests r).peers = s.peers ∧ (s.restartSchedules tests r).sel = s.sel ∧
    (s.restartSchedules tests r).tx = s.tx ∧ (s.restartSchedules tests r).score = s.score ∧
    (s.restartSchedules tests r).pool = s.pool ∧ (s.restartSchedules tests r).ports = s.ports ∧
    (s.restartSchedules tests r).profile = s.profile ∧ (s.restartSchedules tests r).flash = s.flash ∧
    (s.restartSchedules tests r).pending = s.pending ∧ (s.restartSchedules tests r).arriving = s.arriving := by
  simp [State.restartSchedules]

@[simp] theorem State.loseDue_leaves (s : State) (r : RouteIx) (fuel : Nat) :
    (s.loseDue r fuel).cfg = s.cfg ∧ (s.loseDue r fuel).lanes = s.lanes ∧ (s.loseDue r fuel).peers = s.peers ∧
    (s.loseDue r fuel).score = s.score ∧ (s.loseDue r fuel).profile = s.profile ∧ (s.loseDue r fuel).flash = s.flash ∧
    (s.loseDue r fuel).pending = s.pending ∧ (s.loseDue r fuel).arriving = s.arriving := by
  induction fuel generalizing s with | zero => simp [State.loseDue] | succ fuel ih => (unfold State.loseDue; split <;> (first | rfl | simp [ih]))

@[simp] theorem State.applyProbe_leaves (s : State) (p : ProbeSettings) :
    (s.applyProbe p).lanes = s.lanes ∧ (s.applyProbe p).peers = s.peers ∧ (s.applyProbe p).score = s.score ∧
    (s.applyProbe p).profile = s.profile ∧ (s.applyProbe p).flash = s.flash ∧ (s.applyProbe p).pending = s.pending ∧
    (s.applyProbe p).arriving = s.arriving := by
  refine ⟨?_, ?_, ?_, ?_, ?_, ?_, ?_⟩
  · unfold State.applyProbe; simp only []; rw [forRoutes_leaves State.lanes _ (by intros; simp), forRoutes_leaves State.lanes _ (by intros; simp)]; simp
  · unfold State.applyProbe; simp only []; rw [forRoutes_leaves State.peers _ (by intros; simp), forRoutes_leaves State.peers _ (by intros; simp)]; simp
  · unfold State.applyProbe; simp only []; rw [forRoutes_leaves State.score _ (by intros; simp), forRoutes_leaves State.score _ (by intros; simp)]; simp
  · unfold State.applyProbe; simp only []; rw [forRoutes_leaves State.profile _ (by intros; simp), forRoutes_leaves State.profile _ (by intros; simp)]; simp
  · unfold State.applyProbe; simp only []; rw [forRoutes_leaves State.flash _ (by intros; simp), forRoutes_leaves State.flash _ (by intros; simp)]; simp
  · unfold State.applyProbe; simp only []; rw [forRoutes_leaves State.pending _ (by intros; simp), forRoutes_leaves State.pending _ (by intros; simp)]; simp
  · unfold State.applyProbe; simp only []; rw [forRoutes_leaves State.arriving _ (by intros; simp), forRoutes_leaves State.arriving _ (by intros; simp)]; simp

@[simp] theorem State.testRoute_leaves (s : State) (r : RouteIx) :
    (s.testRoute r).cfg = s.cfg ∧ (s.testRoute r).lanes = s.lanes ∧ (s.testRoute r).peers = s.peers ∧
    (s.testRoute r).score = s.score ∧ (s.testRoute r).profile = s.profile ∧ (s.testRoute r).flash = s.flash ∧
    (s.testRoute r).pending = s.pending ∧ (s.testRoute r).arriving = s.arriving := by
  unfold State.testRoute
  split <;> simp

@[simp] theorem State.applyCalendar_leaves (s : State) (r : RouteIx) (cal : Calendar) :
    (s.applyCalendar r cal).time = s.time ∧ (s.applyCalendar r cal).lanes = s.lanes ∧
    (s.applyCalendar r cal).probes = s.probes ∧ (s.applyCalendar r cal).health = s.health ∧
    (s.applyCalendar r cal).circuits = s.circuits ∧ (s.applyCalendar r cal).peers = s.peers ∧
    (s.applyCalendar r cal).sel = s.sel ∧ (s.applyCalendar r cal).score = s.score ∧
    (s.applyCalendar r cal).pool = s.pool ∧ (s.applyCalendar r cal).ports = s.ports ∧
    (s.applyCalendar r cal).profile = s.profile ∧ (s.applyCalendar r cal).flash = s.flash ∧
    (s.applyCalendar r cal).pending = s.pending ∧ (s.applyCalendar r cal).arriving = s.arriving := by
  simp [State.applyCalendar]

@[simp] theorem State.flushCopy_leaves (s : State) (r : RouteIx) (c : Copy) :
    (s.flushCopy r c).cfg = s.cfg ∧ (s.flushCopy r c).time = s.time ∧ (s.flushCopy r c).lanes = s.lanes ∧
    (s.flushCopy r c).probes = s.probes ∧ (s.flushCopy r c).health = s.health ∧ (s.flushCopy r c).peers = s.peers ∧
    (s.flushCopy r c).sel = s.sel ∧ (s.flushCopy r c).tx = s.tx ∧ (s.flushCopy r c).score = s.score ∧
    (s.flushCopy r c).profile = s.profile ∧ (s.flushCopy r c).flash = s.flash ∧
    (s.flushCopy r c).pending = s.pending ∧ (s.flushCopy r c).arriving = s.arriving := by
  simp [State.flushCopy]

@[simp] theorem State.flushRoute_leaves (s : State) (n : CircIx) (r : RouteIx) :
    (s.flushRoute n r).cfg = s.cfg ∧ (s.flushRoute n r).time = s.time ∧ (s.flushRoute n r).lanes = s.lanes ∧
    (s.flushRoute n r).probes = s.probes ∧ (s.flushRoute n r).health = s.health ∧ (s.flushRoute n r).peers = s.peers ∧
    (s.flushRoute n r).sel = s.sel ∧ (s.flushRoute n r).score = s.score ∧ (s.flushRoute n r).profile = s.profile ∧
    (s.flushRoute n r).flash = s.flash ∧ (s.flushRoute n r).pending = s.pending ∧
    (s.flushRoute n r).arriving = s.arriving := by
  refine ⟨?_, ?_, ?_, ?_, ?_, ?_, ?_, ?_, ?_, ?_, ?_, ?_⟩
  · unfold State.flushRoute; rw [foldl_leaves State.cfg _ (by intros; simp)]; simp
  · unfold State.flushRoute; rw [foldl_leaves State.time _ (by intros; simp)]; simp
  · unfold State.flushRoute; rw [foldl_leaves State.lanes _ (by intros; simp)]; simp
  · unfold State.flushRoute; rw [foldl_leaves State.probes _ (by intros; simp)]; simp
  · unfold State.flushRoute; rw [foldl_leaves State.health _ (by intros; simp)]; simp
  · unfold State.flushRoute; rw [foldl_leaves State.peers _ (by intros; simp)]; simp
  · unfold State.flushRoute; rw [foldl_leaves State.sel _ (by intros; simp)]; simp
  · unfold State.flushRoute; rw [foldl_leaves State.score _ (by intros; simp)]; simp
  · unfold State.flushRoute; rw [foldl_leaves State.profile _ (by intros; simp)]; simp
  · unfold State.flushRoute; rw [foldl_leaves State.flash _ (by intros; simp)]; simp
  · unfold State.flushRoute; rw [foldl_leaves State.pending _ (by intros; simp)]; simp
  · unfold State.flushRoute; rw [foldl_leaves State.arriving _ (by intros; simp)]; simp

@[simp] theorem State.closeOut_leaves (s : State) (n : CircIx) :
    (s.closeOut n).cfg = s.cfg ∧ (s.closeOut n).time = s.time ∧ (s.closeOut n).lanes = s.lanes ∧
    (s.closeOut n).probes = s.probes ∧ (s.closeOut n).health = s.health ∧ (s.closeOut n).peers = s.peers ∧
    (s.closeOut n).sel = s.sel ∧ (s.closeOut n).score = s.score ∧ (s.closeOut n).profile = s.profile ∧
    (s.closeOut n).flash = s.flash ∧ (s.closeOut n).pending = s.pending ∧ (s.closeOut n).arriving = s.arriving := by
  refine ⟨?_, ?_, ?_, ?_, ?_, ?_, ?_, ?_, ?_, ?_, ?_, ?_⟩
  · unfold State.closeOut; simp only [State.modCircuit_cfg]; rw [forRoutes_leaves State.cfg _ (by intros; simp)]
  · unfold State.closeOut; simp only [State.modCircuit_time]; rw [forRoutes_leaves State.time _ (by intros; simp)]
  · unfold State.closeOut; simp only [State.modCircuit_lanes]; rw [forRoutes_leaves State.lanes _ (by intros; simp)]
  · unfold State.closeOut; simp only [State.modCircuit_probes]; rw [forRoutes_leaves State.probes _ (by intros; simp)]
  · unfold State.closeOut; simp only [State.modCircuit_health]; rw [forRoutes_leaves State.health _ (by intros; simp)]
  · unfold State.closeOut; simp only [State.modCircuit_peers]; rw [forRoutes_leaves State.peers _ (by intros; simp)]
  · unfold State.closeOut; simp only [State.modCircuit_sel]; rw [forRoutes_leaves State.sel _ (by intros; simp)]
  · unfold State.closeOut; simp only [State.modCircuit_score]; rw [forRoutes_leaves State.score _ (by intros; simp)]
  · unfold State.closeOut; simp only [State.modCircuit_profile]; rw [forRoutes_leaves State.profile _ (by intros; simp)]
  · unfold State.closeOut; simp only [State.modCircuit_flash]; rw [forRoutes_leaves State.flash _ (by intros; simp)]
  · unfold State.closeOut; simp only [State.modCircuit_pending]; rw [forRoutes_leaves State.pending _ (by intros; simp)]
  · unfold State.closeOut; simp only [State.modCircuit_arriving]; rw [forRoutes_leaves State.arriving _ (by intros; simp)]

@[simp] theorem State.withdrawEntry_leaves (s : State) (n : CircIx) (p : PortIx) (e : DeliveryEntry) :
    (s.withdrawEntry n p e).cfg = s.cfg ∧ (s.withdrawEntry n p e).time = s.time ∧
    (s.withdrawEntry n p e).lanes = s.lanes ∧ (s.withdrawEntry n p e).probes = s.probes ∧
    (s.withdrawEntry n p e).health = s.health ∧ (s.withdrawEntry n p e).peers = s.peers ∧
    (s.withdrawEntry n p e).sel = s.sel ∧ (s.withdrawEntry n p e).tx = s.tx ∧
    (s.withdrawEntry n p e).score = s.score ∧ (s.withdrawEntry n p e).profile = s.profile ∧
    (s.withdrawEntry n p e).flash = s.flash ∧ (s.withdrawEntry n p e).pending = s.pending ∧
    (s.withdrawEntry n p e).arriving = s.arriving := by
  simp [State.withdrawEntry]

@[simp] theorem State.closeIn_leaves (s : State) (n : CircIx) (p : PortIx) :
    (s.closeIn n p).cfg = s.cfg ∧ (s.closeIn n p).time = s.time ∧ (s.closeIn n p).lanes = s.lanes ∧
    (s.closeIn n p).probes = s.probes ∧ (s.closeIn n p).health = s.health ∧ (s.closeIn n p).peers = s.peers ∧
    (s.closeIn n p).sel = s.sel ∧ (s.closeIn n p).tx = s.tx ∧ (s.closeIn n p).score = s.score ∧
    (s.closeIn n p).profile = s.profile ∧ (s.closeIn n p).flash = s.flash ∧ (s.closeIn n p).pending = s.pending ∧
    (s.closeIn n p).arriving = s.arriving := by
  refine ⟨?_, ?_, ?_, ?_, ?_, ?_, ?_, ?_, ?_, ?_, ?_, ?_, ?_⟩
  · unfold State.closeIn; simp only [State.modCircuit_cfg]; rw [foldl_leaves State.cfg _ (by intros; simp)]; simp
  · unfold State.closeIn; simp only [State.modCircuit_time]; rw [foldl_leaves State.time _ (by intros; simp)]; simp
  · unfold State.closeIn; simp only [State.modCircuit_lanes]; rw [foldl_leaves State.lanes _ (by intros; simp)]; simp
  · unfold State.closeIn; simp only [State.modCircuit_probes]; rw [foldl_leaves State.probes _ (by intros; simp)]; simp
  · unfold State.closeIn; simp only [State.modCircuit_health]; rw [foldl_leaves State.health _ (by intros; simp)]; simp
  · unfold State.closeIn; simp only [State.modCircuit_peers]; rw [foldl_leaves State.peers _ (by intros; simp)]; simp
  · unfold State.closeIn; simp only [State.modCircuit_sel]; rw [foldl_leaves State.sel _ (by intros; simp)]; simp
  · unfold State.closeIn; simp only [State.modCircuit_tx]; rw [foldl_leaves State.tx _ (by intros; simp)]; simp
  · unfold State.closeIn; simp only [State.modCircuit_score]; rw [foldl_leaves State.score _ (by intros; simp)]; simp
  · unfold State.closeIn; simp only [State.modCircuit_profile]; rw [foldl_leaves State.profile _ (by intros; simp)]; simp
  · unfold State.closeIn; simp only [State.modCircuit_flash]; rw [foldl_leaves State.flash _ (by intros; simp)]; simp
  · unfold State.closeIn; simp only [State.modCircuit_pending]; rw [foldl_leaves State.pending _ (by intros; simp)]; simp
  · unfold State.closeIn; simp only [State.modCircuit_arriving]; rw [foldl_leaves State.arriving _ (by intros; simp)]; simp

@[simp] theorem State.countPort_leaves (s : State) (p : PortIx) (g : PortCounts → PortCounts) :
    (s.countPort p g).cfg = s.cfg ∧ (s.countPort p g).time = s.time ∧ (s.countPort p g).lanes = s.lanes ∧
    (s.countPort p g).probes = s.probes ∧ (s.countPort p g).health = s.health ∧
    (s.countPort p g).circuits = s.circuits ∧ (s.countPort p g).peers = s.peers ∧ (s.countPort p g).sel = s.sel ∧
    (s.countPort p g).tx = s.tx ∧ (s.countPort p g).score = s.score ∧ (s.countPort p g).pool = s.pool ∧
    (s.countPort p g).profile = s.profile ∧ (s.countPort p g).flash = s.flash ∧
    (s.countPort p g).pending = s.pending ∧ (s.countPort p g).arriving = s.arriving := by
  simp [State.countPort]

@[simp] theorem State.sendNoBuffer_leaves (s : State) (p : PortIx) :
    (s.sendNoBuffer p).cfg = s.cfg ∧ (s.sendNoBuffer p).time = s.time ∧ (s.sendNoBuffer p).lanes = s.lanes ∧
    (s.sendNoBuffer p).probes = s.probes ∧ (s.sendNoBuffer p).health = s.health ∧
    (s.sendNoBuffer p).circuits = s.circuits ∧ (s.sendNoBuffer p).peers = s.peers ∧ (s.sendNoBuffer p).sel = s.sel ∧
    (s.sendNoBuffer p).tx = s.tx ∧ (s.sendNoBuffer p).score = s.score ∧ (s.sendNoBuffer p).profile = s.profile ∧
    (s.sendNoBuffer p).flash = s.flash ∧ (s.sendNoBuffer p).pending = s.pending ∧
    (s.sendNoBuffer p).arriving = s.arriving := by
  simp [State.sendNoBuffer]

@[simp] theorem State.sendStart_leaves (s : State) (p : PortIx) :
    (s.sendStart p).cfg = s.cfg ∧ (s.sendStart p).time = s.time ∧ (s.sendStart p).lanes = s.lanes ∧
    (s.sendStart p).probes = s.probes ∧ (s.sendStart p).health = s.health ∧ (s.sendStart p).circuits = s.circuits ∧
    (s.sendStart p).peers = s.peers ∧ (s.sendStart p).sel = s.sel ∧ (s.sendStart p).tx = s.tx ∧
    (s.sendStart p).score = s.score ∧ (s.sendStart p).profile = s.profile ∧ (s.sendStart p).flash = s.flash ∧
    (s.sendStart p).pending = s.pending ∧ (s.sendStart p).arriving = s.arriving := by
  unfold State.sendStart
  (repeat' split) <;> simp

@[simp] theorem State.refuseSend_leaves (s : State) (p : PortIx) (k : Nat) (body : List Byte) (reason : RefusalReason) :
    (s.refuseSend p k body reason).cfg = s.cfg ∧ (s.refuseSend p k body reason).time = s.time ∧
    (s.refuseSend p k body reason).lanes = s.lanes ∧ (s.refuseSend p k body reason).probes = s.probes ∧
    (s.refuseSend p k body reason).health = s.health ∧ (s.refuseSend p k body reason).circuits = s.circuits ∧
    (s.refuseSend p k body reason).peers = s.peers ∧ (s.refuseSend p k body reason).sel = s.sel ∧
    (s.refuseSend p k body reason).tx = s.tx ∧ (s.refuseSend p k body reason).score = s.score ∧
    (s.refuseSend p k body reason).profile = s.profile ∧ (s.refuseSend p k body reason).flash = s.flash ∧
    (s.refuseSend p k body reason).pending = s.pending ∧ (s.refuseSend p k body reason).arriving = s.arriving := by
  simp [State.refuseSend]

@[simp] theorem State.judgeSend_leaves (s : State) (p : PortIx) (k : Nat) (body : List Byte) :
    (s.judgeSend p k body).cfg = s.cfg ∧ (s.judgeSend p k body).time = s.time ∧
    (s.judgeSend p k body).lanes = s.lanes ∧ (s.judgeSend p k body).probes = s.probes ∧
    (s.judgeSend p k body).health = s.health ∧ (s.judgeSend p k body).score = s.score ∧
    (s.judgeSend p k body).profile = s.profile ∧ (s.judgeSend p k body).flash = s.flash ∧
    (s.judgeSend p k body).pending = s.pending ∧ (s.judgeSend p k body).arriving = s.arriving := by
  unfold State.judgeSend; (repeat' split) <;> (first | (simp; done) | (rename_i h; simp [State.place_leaves h]))

@[simp] theorem State.sendEnd_leaves (s : State) (p : PortIx) (k : Nat) (status : Byte) (body : List Byte) (crc : BitVec 32) :
    (s.sendEnd p k status body crc).cfg = s.cfg ∧ (s.sendEnd p k status body crc).time = s.time ∧
    (s.sendEnd p k status body crc).lanes = s.lanes ∧ (s.sendEnd p k status body crc).probes = s.probes ∧
    (s.sendEnd p k status body crc).health = s.health ∧ (s.sendEnd p k status body crc).score = s.score ∧
    (s.sendEnd p k status body crc).profile = s.profile ∧ (s.sendEnd p k status body crc).flash = s.flash ∧
    (s.sendEnd p k status body crc).pending = s.pending ∧ (s.sendEnd p k status body crc).arriving = s.arriving := by
  unfold State.sendEnd
  split <;> simp

@[simp] theorem State.sendNotice_leaves (s : State) (p : PortIx) (k : Fin 8) :
    (s.sendNotice p k).cfg = s.cfg ∧ (s.sendNotice p k).time = s.time ∧ (s.sendNotice p k).lanes = s.lanes ∧
    (s.sendNotice p k).probes = s.probes ∧ (s.sendNotice p k).health = s.health ∧
    (s.sendNotice p k).circuits = s.circuits ∧ (s.sendNotice p k).peers = s.peers ∧ (s.sendNotice p k).sel = s.sel ∧
    (s.sendNotice p k).tx = s.tx ∧ (s.sendNotice p k).score = s.score ∧ (s.sendNotice p k).pool = s.pool ∧
    (s.sendNotice p k).profile = s.profile ∧ (s.sendNotice p k).flash = s.flash ∧
    (s.sendNotice p k).pending = s.pending ∧ (s.sendNotice p k).arriving = s.arriving := by
  simp [State.sendNotice]

@[simp] theorem State.sendAnswer_leaves (s : State) (p : PortIx) (x : Answer) (rest : List Answer) :
    (s.sendAnswer p x rest).cfg = s.cfg ∧ (s.sendAnswer p x rest).time = s.time ∧
    (s.sendAnswer p x rest).lanes = s.lanes ∧ (s.sendAnswer p x rest).probes = s.probes ∧
    (s.sendAnswer p x rest).health = s.health ∧ (s.sendAnswer p x rest).circuits = s.circuits ∧
    (s.sendAnswer p x rest).peers = s.peers ∧ (s.sendAnswer p x rest).sel = s.sel ∧
    (s.sendAnswer p x rest).tx = s.tx ∧ (s.sendAnswer p x rest).score = s.score ∧
    (s.sendAnswer p x rest).pool = s.pool ∧ (s.sendAnswer p x rest).profile = s.profile ∧
    (s.sendAnswer p x rest).flash = s.flash ∧ (s.sendAnswer p x rest).pending = s.pending ∧
    (s.sendAnswer p x rest).arriving = s.arriving := by
  simp [State.sendAnswer]

@[simp] theorem State.sendDeliver_leaves (s : State) (p : PortIx) (e : DeliveryEntry) :
    (s.sendDeliver p e).cfg = s.cfg ∧ (s.sendDeliver p e).time = s.time ∧ (s.sendDeliver p e).lanes = s.lanes ∧
    (s.sendDeliver p e).probes = s.probes ∧ (s.sendDeliver p e).health = s.health ∧
    (s.sendDeliver p e).circuits = s.circuits ∧ (s.sendDeliver p e).peers = s.peers ∧
    (s.sendDeliver p e).sel = s.sel ∧ (s.sendDeliver p e).tx = s.tx ∧ (s.sendDeliver p e).score = s.score ∧
    (s.sendDeliver p e).pool = s.pool ∧ (s.sendDeliver p e).profile = s.profile ∧
    (s.sendDeliver p e).flash = s.flash ∧ (s.sendDeliver p e).pending = s.pending ∧
    (s.sendDeliver p e).arriving = s.arriving := by
  simp [State.sendDeliver]

@[simp] theorem State.turnRest_leaves (s : State) (p : PortIx) :
    (s.turnRest p).cfg = s.cfg ∧ (s.turnRest p).time = s.time ∧ (s.turnRest p).lanes = s.lanes ∧
    (s.turnRest p).probes = s.probes ∧ (s.turnRest p).health = s.health ∧ (s.turnRest p).circuits = s.circuits ∧
    (s.turnRest p).peers = s.peers ∧ (s.turnRest p).sel = s.sel ∧ (s.turnRest p).tx = s.tx ∧
    (s.turnRest p).score = s.score ∧ (s.turnRest p).pool = s.pool ∧ (s.turnRest p).profile = s.profile ∧
    (s.turnRest p).flash = s.flash ∧ (s.turnRest p).pending = s.pending ∧ (s.turnRest p).arriving = s.arriving := by
  unfold State.turnRest
  (repeat' split) <;> simp

@[simp] theorem State.turn_leaves (s : State) (p : PortIx) :
    (s.turn p).cfg = s.cfg ∧ (s.turn p).time = s.time ∧ (s.turn p).lanes = s.lanes ∧ (s.turn p).probes = s.probes ∧
    (s.turn p).health = s.health ∧ (s.turn p).circuits = s.circuits ∧ (s.turn p).peers = s.peers ∧
    (s.turn p).sel = s.sel ∧ (s.turn p).tx = s.tx ∧ (s.turn p).score = s.score ∧ (s.turn p).pool = s.pool ∧
    (s.turn p).profile = s.profile ∧ (s.turn p).flash = s.flash ∧ (s.turn p).pending = s.pending ∧
    (s.turn p).arriving = s.arriving := by
  unfold State.turn
  (repeat' split) <;> simp

@[simp] theorem State.deliverEnd_leaves (s : State) (p : PortIx) :
    (s.deliverEnd p).cfg = s.cfg ∧ (s.deliverEnd p).time = s.time ∧ (s.deliverEnd p).lanes = s.lanes ∧
    (s.deliverEnd p).probes = s.probes ∧ (s.deliverEnd p).health = s.health ∧ (s.deliverEnd p).circuits = s.circuits ∧
    (s.deliverEnd p).peers = s.peers ∧ (s.deliverEnd p).sel = s.sel ∧ (s.deliverEnd p).tx = s.tx ∧
    (s.deliverEnd p).score = s.score ∧ (s.deliverEnd p).profile = s.profile ∧ (s.deliverEnd p).flash = s.flash ∧
    (s.deliverEnd p).pending = s.pending ∧ (s.deliverEnd p).arriving = s.arriving := by
  unfold State.deliverEnd
  split <;> simp

@[simp] theorem State.outboundEnd_leaves (s : State) (p : PortIx) (o : Outbound) :
    (s.outboundEnd p o).cfg = s.cfg ∧ (s.outboundEnd p o).time = s.time ∧ (s.outboundEnd p o).lanes = s.lanes ∧
    (s.outboundEnd p o).probes = s.probes ∧ (s.outboundEnd p o).health = s.health ∧
    (s.outboundEnd p o).circuits = s.circuits ∧ (s.outboundEnd p o).peers = s.peers ∧
    (s.outboundEnd p o).sel = s.sel ∧ (s.outboundEnd p o).tx = s.tx ∧ (s.outboundEnd p o).score = s.score ∧
    (s.outboundEnd p o).profile = s.profile ∧ (s.outboundEnd p o).flash = s.flash ∧
    (s.outboundEnd p o).pending = s.pending ∧ (s.outboundEnd p o).arriving = s.arriving := by
  unfold State.outboundEnd
  split <;> simp

@[simp] theorem State.dropInbound_leaves (s : State) (p : PortIx) :
    (s.dropInbound p).cfg = s.cfg ∧ (s.dropInbound p).time = s.time ∧ (s.dropInbound p).lanes = s.lanes ∧
    (s.dropInbound p).probes = s.probes ∧ (s.dropInbound p).health = s.health ∧
    (s.dropInbound p).circuits = s.circuits ∧ (s.dropInbound p).peers = s.peers ∧ (s.dropInbound p).sel = s.sel ∧
    (s.dropInbound p).tx = s.tx ∧ (s.dropInbound p).score = s.score ∧ (s.dropInbound p).ports = s.ports ∧
    (s.dropInbound p).profile = s.profile ∧ (s.dropInbound p).flash = s.flash ∧
    (s.dropInbound p).pending = s.pending ∧ (s.dropInbound p).arriving = s.arriving := by
  unfold State.dropInbound
  split <;> simp

@[simp] theorem State.emptyDelivery_leaves (s : State) (p : PortIx) :
    (s.emptyDelivery p).cfg = s.cfg ∧ (s.emptyDelivery p).time = s.time ∧ (s.emptyDelivery p).lanes = s.lanes ∧
    (s.emptyDelivery p).probes = s.probes ∧ (s.emptyDelivery p).health = s.health ∧
    (s.emptyDelivery p).circuits = s.circuits ∧ (s.emptyDelivery p).peers = s.peers ∧
    (s.emptyDelivery p).sel = s.sel ∧ (s.emptyDelivery p).tx = s.tx ∧ (s.emptyDelivery p).score = s.score ∧
    (s.emptyDelivery p).profile = s.profile ∧ (s.emptyDelivery p).flash = s.flash ∧
    (s.emptyDelivery p).pending = s.pending ∧ (s.emptyDelivery p).arriving = s.arriving := by
  refine ⟨?_, ?_, ?_, ?_, ?_, ?_, ?_, ?_, ?_, ?_, ?_, ?_, ?_, ?_⟩
  · unfold State.emptyDelivery; rw [foldl_leaves State.cfg _ (by intros; simp)]; simp
  · unfold State.emptyDelivery; rw [foldl_leaves State.time _ (by intros; simp)]; simp
  · unfold State.emptyDelivery; rw [foldl_leaves State.lanes _ (by intros; simp)]; simp
  · unfold State.emptyDelivery; rw [foldl_leaves State.probes _ (by intros; simp)]; simp
  · unfold State.emptyDelivery; rw [foldl_leaves State.health _ (by intros; simp)]; simp
  · unfold State.emptyDelivery; rw [foldl_leaves State.circuits _ (by intros; simp)]; simp
  · unfold State.emptyDelivery; rw [foldl_leaves State.peers _ (by intros; simp)]; simp
  · unfold State.emptyDelivery; rw [foldl_leaves State.sel _ (by intros; simp)]; simp
  · unfold State.emptyDelivery; rw [foldl_leaves State.tx _ (by intros; simp)]; simp
  · unfold State.emptyDelivery; rw [foldl_leaves State.score _ (by intros; simp)]; simp
  · unfold State.emptyDelivery; rw [foldl_leaves State.profile _ (by intros; simp)]; simp
  · unfold State.emptyDelivery; rw [foldl_leaves State.flash _ (by intros; simp)]; simp
  · unfold State.emptyDelivery; rw [foldl_leaves State.pending _ (by intros; simp)]; simp
  · unfold State.emptyDelivery; rw [foldl_leaves State.arriving _ (by intros; simp)]; simp

@[simp] theorem State.linkDown_leaves (s : State) (p : PortIx) :
    (s.linkDown p).cfg = s.cfg ∧ (s.linkDown p).time = s.time ∧ (s.linkDown p).lanes = s.lanes ∧
    (s.linkDown p).probes = s.probes ∧ (s.linkDown p).health = s.health ∧ (s.linkDown p).circuits = s.circuits ∧
    (s.linkDown p).peers = s.peers ∧ (s.linkDown p).sel = s.sel ∧ (s.linkDown p).tx = s.tx ∧
    (s.linkDown p).score = s.score ∧ (s.linkDown p).flash = s.flash ∧ (s.linkDown p).pending = s.pending ∧
    (s.linkDown p).arriving = s.arriving := by
  simp [State.linkDown]

@[simp] theorem State.miss_leaves (s : State) (p : PortIx) (first : Bool) :
    (s.miss p first).cfg = s.cfg ∧ (s.miss p first).time = s.time ∧ (s.miss p first).lanes = s.lanes ∧
    (s.miss p first).probes = s.probes ∧ (s.miss p first).health = s.health ∧ (s.miss p first).circuits = s.circuits ∧
    (s.miss p first).peers = s.peers ∧ (s.miss p first).sel = s.sel ∧ (s.miss p first).tx = s.tx ∧
    (s.miss p first).score = s.score ∧ (s.miss p first).flash = s.flash ∧ (s.miss p first).pending = s.pending ∧
    (s.miss p first).arriving = s.arriving := by
  unfold State.miss
  dsimp only
  split <;> split <;> simp

@[simp] theorem State.startTimers_leaves (s : State) :
    (s.startTimers).cfg = s.cfg ∧ (s.startTimers).time = s.time ∧ (s.startTimers).probes = s.probes ∧
    (s.startTimers).health = s.health ∧ (s.startTimers).circuits = s.circuits ∧ (s.startTimers).peers = s.peers ∧
    (s.startTimers).sel = s.sel ∧ (s.startTimers).tx = s.tx ∧ (s.startTimers).score = s.score ∧
    (s.startTimers).pool = s.pool ∧ (s.startTimers).ports = s.ports ∧ (s.startTimers).profile = s.profile ∧
    (s.startTimers).flash = s.flash ∧ (s.startTimers).pending = s.pending ∧ (s.startTimers).arriving = s.arriving := by
  refine ⟨?_, ?_, ?_, ?_, ?_, ?_, ?_, ?_, ?_, ?_, ?_, ?_, ?_, ?_, ?_⟩
  · unfold State.startTimers; rw [forRoutes_leaves State.cfg _ (by intros; simp)]
  · unfold State.startTimers; rw [forRoutes_leaves State.time _ (by intros; simp)]
  · unfold State.startTimers; rw [forRoutes_leaves State.probes _ (by intros; simp)]
  · unfold State.startTimers; rw [forRoutes_leaves State.health _ (by intros; simp)]
  · unfold State.startTimers; rw [forRoutes_leaves State.circuits _ (by intros; simp)]
  · unfold State.startTimers; rw [forRoutes_leaves State.peers _ (by intros; simp)]
  · unfold State.startTimers; rw [forRoutes_leaves State.sel _ (by intros; simp)]
  · unfold State.startTimers; rw [forRoutes_leaves State.tx _ (by intros; simp)]
  · unfold State.startTimers; rw [forRoutes_leaves State.score _ (by intros; simp)]
  · unfold State.startTimers; rw [forRoutes_leaves State.pool _ (by intros; simp)]
  · unfold State.startTimers; rw [forRoutes_leaves State.ports _ (by intros; simp)]
  · unfold State.startTimers; rw [forRoutes_leaves State.profile _ (by intros; simp)]
  · unfold State.startTimers; rw [forRoutes_leaves State.flash _ (by intros; simp)]
  · unfold State.startTimers; rw [forRoutes_leaves State.pending _ (by intros; simp)]
  · unfold State.startTimers; rw [forRoutes_leaves State.arriving _ (by intros; simp)]

@[simp] theorem State.restoreCircuits_leaves (s : State) (cs : List SavedCircuit) :
    (s.restoreCircuits cs).cfg = s.cfg ∧ (s.restoreCircuits cs).time = s.time ∧
    (s.restoreCircuits cs).lanes = s.lanes ∧ (s.restoreCircuits cs).probes = s.probes ∧
    (s.restoreCircuits cs).health = s.health ∧ (s.restoreCircuits cs).peers = s.peers ∧
    (s.restoreCircuits cs).sel = s.sel ∧ (s.restoreCircuits cs).tx = s.tx ∧ (s.restoreCircuits cs).score = s.score ∧
    (s.restoreCircuits cs).pool = s.pool ∧ (s.restoreCircuits cs).ports = s.ports ∧
    (s.restoreCircuits cs).profile = s.profile ∧ (s.restoreCircuits cs).flash = s.flash ∧
    (s.restoreCircuits cs).pending = s.pending ∧ (s.restoreCircuits cs).arriving = s.arriving := by
  refine ⟨?_, ?_, ?_, ?_, ?_, ?_, ?_, ?_, ?_, ?_, ?_, ?_, ?_, ?_, ?_⟩
  · unfold State.restoreCircuits; rw [foldl_leaves State.cfg _ (by intros; simp)]
  · unfold State.restoreCircuits; rw [foldl_leaves State.time _ (by intros; simp)]
  · unfold State.restoreCircuits; rw [foldl_leaves State.lanes _ (by intros; simp)]
  · unfold State.restoreCircuits; rw [foldl_leaves State.probes _ (by intros; simp)]
  · unfold State.restoreCircuits; rw [foldl_leaves State.health _ (by intros; simp)]
  · unfold State.restoreCircuits; rw [foldl_leaves State.peers _ (by intros; simp)]
  · unfold State.restoreCircuits; rw [foldl_leaves State.sel _ (by intros; simp)]
  · unfold State.restoreCircuits; rw [foldl_leaves State.tx _ (by intros; simp)]
  · unfold State.restoreCircuits; rw [foldl_leaves State.score _ (by intros; simp)]
  · unfold State.restoreCircuits; rw [foldl_leaves State.pool _ (by intros; simp)]
  · unfold State.restoreCircuits; rw [foldl_leaves State.ports _ (by intros; simp)]
  · unfold State.restoreCircuits; rw [foldl_leaves State.profile _ (by intros; simp)]
  · unfold State.restoreCircuits; rw [foldl_leaves State.flash _ (by intros; simp)]
  · unfold State.restoreCircuits; rw [foldl_leaves State.pending _ (by intros; simp)]
  · unfold State.restoreCircuits; rw [foldl_leaves State.arriving _ (by intros; simp)]

@[simp] theorem State.applyImage_leaves (s : State) (i : Image) :
    (s.applyImage i).peers = s.peers ∧ (s.applyImage i).score = s.score ∧ (s.applyImage i).profile = s.profile ∧
    (s.applyImage i).flash = s.flash ∧ (s.applyImage i).pending = s.pending ∧
    (s.applyImage i).arriving = s.arriving := by
  simp [State.applyImage]

@[simp] theorem State.answerRestart_leaves (s : State) :
    (s.answerRestart).cfg = s.cfg ∧ (s.answerRestart).time = s.time ∧ (s.answerRestart).lanes = s.lanes ∧
    (s.answerRestart).probes = s.probes ∧ (s.answerRestart).health = s.health ∧
    (s.answerRestart).circuits = s.circuits ∧ (s.answerRestart).peers = s.peers ∧ (s.answerRestart).sel = s.sel ∧
    (s.answerRestart).tx = s.tx ∧ (s.answerRestart).score = s.score ∧ (s.answerRestart).pool = s.pool ∧
    (s.answerRestart).flash = s.flash ∧ (s.answerRestart).pending = s.pending ∧
    (s.answerRestart).arriving = s.arriving := by
  unfold State.answerRestart
  split <;> simp

@[simp] theorem State.endLoad_leaves (s : State) (m : List Host.Cell) :
    (s.endLoad m).peers = s.peers ∧ (s.endLoad m).score = s.score ∧ (s.endLoad m).flash = s.flash ∧
    (s.endLoad m).pending = s.pending ∧ (s.endLoad m).arriving = s.arriving := by
  unfold State.endLoad
  split <;> simp

@[simp] theorem State.answerSave_leaves (s : State) (x : Option FlashLeft) :
    (s.answerSave x).cfg = s.cfg ∧ (s.answerSave x).time = s.time ∧ (s.answerSave x).lanes = s.lanes ∧
    (s.answerSave x).probes = s.probes ∧ (s.answerSave x).health = s.health ∧ (s.answerSave x).circuits = s.circuits ∧
    (s.answerSave x).peers = s.peers ∧ (s.answerSave x).sel = s.sel ∧ (s.answerSave x).tx = s.tx ∧
    (s.answerSave x).score = s.score ∧ (s.answerSave x).pool = s.pool ∧ (s.answerSave x).profile = s.profile ∧
    (s.answerSave x).flash = s.flash ∧ (s.answerSave x).pending = s.pending ∧
    (s.answerSave x).arriving = s.arriving := by
  simp [State.answerSave]

@[simp] theorem State.completeSave_leaves (s : State) (job : SaveJob) (x : Option FlashLeft) :
    (s.completeSave job x).cfg = s.cfg ∧ (s.completeSave job x).time = s.time ∧
    (s.completeSave job x).lanes = s.lanes ∧ (s.completeSave job x).probes = s.probes ∧
    (s.completeSave job x).health = s.health ∧ (s.completeSave job x).circuits = s.circuits ∧
    (s.completeSave job x).peers = s.peers ∧ (s.completeSave job x).sel = s.sel ∧ (s.completeSave job x).tx = s.tx ∧
    (s.completeSave job x).score = s.score ∧ (s.completeSave job x).pool = s.pool ∧
    (s.completeSave job x).pending = s.pending ∧ (s.completeSave job x).arriving = s.arriving := by
  simp [State.completeSave]

@[simp] theorem State.emptyRoute_leaves (s : State) (r : RouteIx) :
    (s.emptyRoute r).cfg = s.cfg ∧ (s.emptyRoute r).time = s.time ∧ (s.emptyRoute r).lanes = s.lanes ∧
    (s.emptyRoute r).probes = s.probes ∧ (s.emptyRoute r).health = s.health ∧ (s.emptyRoute r).peers = s.peers ∧
    (s.emptyRoute r).sel = s.sel ∧ (s.emptyRoute r).score = s.score ∧ (s.emptyRoute r).ports = s.ports ∧
    (s.emptyRoute r).profile = s.profile ∧ (s.emptyRoute r).flash = s.flash ∧ (s.emptyRoute r).pending = s.pending ∧
    (s.emptyRoute r).arriving = s.arriving := by
  refine ⟨?_, ?_, ?_, ?_, ?_, ?_, ?_, ?_, ?_, ?_, ?_, ?_, ?_⟩
  · unfold State.emptyRoute; simp only []; rw [foldl_leaves State.cfg _ (by intros; simp)]; simp
  · unfold State.emptyRoute; simp only []; rw [foldl_leaves State.time _ (by intros; simp)]; simp
  · unfold State.emptyRoute; simp only []; rw [foldl_leaves State.lanes _ (by intros; simp)]; simp
  · unfold State.emptyRoute; simp only []; rw [foldl_leaves State.probes _ (by intros; simp)]; simp
  · unfold State.emptyRoute; simp only []; rw [foldl_leaves State.health _ (by intros; simp)]; simp
  · unfold State.emptyRoute; simp only []; rw [foldl_leaves State.peers _ (by intros; simp)]; simp
  · unfold State.emptyRoute; simp only []; rw [foldl_leaves State.sel _ (by intros; simp)]; simp
  · unfold State.emptyRoute; simp only []; rw [foldl_leaves State.score _ (by intros; simp)]; simp
  · unfold State.emptyRoute; simp only []; rw [foldl_leaves State.ports _ (by intros; simp)]; simp
  · unfold State.emptyRoute; simp only []; rw [foldl_leaves State.profile _ (by intros; simp)]; simp
  · unfold State.emptyRoute; simp only []; rw [foldl_leaves State.flash _ (by intros; simp)]; simp
  · unfold State.emptyRoute; simp only []; rw [foldl_leaves State.pending _ (by intros; simp)]; simp
  · unfold State.emptyRoute; simp only []; rw [foldl_leaves State.arriving _ (by intros; simp)]; simp

@[simp] theorem State.emptyPort_leaves (s : State) (p : PortIx) :
    (s.emptyPort p).cfg = s.cfg ∧ (s.emptyPort p).time = s.time ∧ (s.emptyPort p).lanes = s.lanes ∧
    (s.emptyPort p).probes = s.probes ∧ (s.emptyPort p).health = s.health ∧ (s.emptyPort p).circuits = s.circuits ∧
    (s.emptyPort p).peers = s.peers ∧ (s.emptyPort p).sel = s.sel ∧ (s.emptyPort p).tx = s.tx ∧
    (s.emptyPort p).score = s.score ∧ (s.emptyPort p).profile = s.profile ∧ (s.emptyPort p).flash = s.flash ∧
    (s.emptyPort p).pending = s.pending ∧ (s.emptyPort p).arriving = s.arriving := by
  simp [State.emptyPort]

@[simp] theorem State.emptyAll_leaves (s : State) :
    (s.emptyAll).cfg = s.cfg ∧ (s.emptyAll).time = s.time ∧ (s.emptyAll).probes = s.probes ∧
    (s.emptyAll).health = s.health ∧ (s.emptyAll).peers = s.peers ∧ (s.emptyAll).sel = s.sel ∧
    (s.emptyAll).score = s.score ∧ (s.emptyAll).profile = s.profile ∧ (s.emptyAll).flash = s.flash ∧
    (s.emptyAll).pending = s.pending ∧ (s.emptyAll).arriving = s.arriving := by
  refine ⟨?_, ?_, ?_, ?_, ?_, ?_, ?_, ?_, ?_, ?_, ?_⟩
  · unfold State.emptyAll; simp only []; rw [foldl_leaves State.cfg _ (by intros; simp), forRoutes_leaves State.cfg _ (by intros; simp), forRoutes_leaves State.cfg _ (by intros; simp)]
  · unfold State.emptyAll; simp only []; rw [foldl_leaves State.time _ (by intros; simp), forRoutes_leaves State.time _ (by intros; simp), forRoutes_leaves State.time _ (by intros; simp)]
  · unfold State.emptyAll; simp only []; rw [foldl_leaves State.probes _ (by intros; simp), forRoutes_leaves State.probes _ (by intros; simp), forRoutes_leaves State.probes _ (by intros; simp)]
  · unfold State.emptyAll; simp only []; rw [foldl_leaves State.health _ (by intros; simp), forRoutes_leaves State.health _ (by intros; simp), forRoutes_leaves State.health _ (by intros; simp)]
  · unfold State.emptyAll; simp only []; rw [foldl_leaves State.peers _ (by intros; simp), forRoutes_leaves State.peers _ (by intros; simp), forRoutes_leaves State.peers _ (by intros; simp)]
  · unfold State.emptyAll; simp only []; rw [foldl_leaves State.sel _ (by intros; simp), forRoutes_leaves State.sel _ (by intros; simp), forRoutes_leaves State.sel _ (by intros; simp)]
  · unfold State.emptyAll; simp only []; rw [foldl_leaves State.score _ (by intros; simp), forRoutes_leaves State.score _ (by intros; simp), forRoutes_leaves State.score _ (by intros; simp)]
  · unfold State.emptyAll; simp only []; rw [foldl_leaves State.profile _ (by intros; simp), forRoutes_leaves State.profile _ (by intros; simp), forRoutes_leaves State.profile _ (by intros; simp)]
  · unfold State.emptyAll; simp only []; rw [foldl_leaves State.flash _ (by intros; simp), forRoutes_leaves State.flash _ (by intros; simp), forRoutes_leaves State.flash _ (by intros; simp)]
  · unfold State.emptyAll; simp only []; rw [foldl_leaves State.pending _ (by intros; simp), forRoutes_leaves State.pending _ (by intros; simp), forRoutes_leaves State.pending _ (by intros; simp)]
  · unfold State.emptyAll; simp only []; rw [foldl_leaves State.arriving _ (by intros; simp), forRoutes_leaves State.arriving _ (by intros; simp), forRoutes_leaves State.arriving _ (by intros; simp)]

@[simp] theorem State.restartBlocks_leaves (s : State) :
    (s.restartBlocks).cfg = s.cfg ∧ (s.restartBlocks).profile = s.profile ∧ (s.restartBlocks).flash = s.flash ∧
    (s.restartBlocks).pending = s.pending ∧ (s.restartBlocks).arriving = s.arriving := ⟨rfl, rfl, rfl, rfl, rfl⟩

@[simp] theorem State.beginLoad_leaves (s : State) :
    (s.beginLoad).lanes = s.lanes ∧ (s.beginLoad).probes = s.probes ∧ (s.beginLoad).health = s.health ∧
    (s.beginLoad).circuits = s.circuits ∧ (s.beginLoad).peers = s.peers ∧ (s.beginLoad).sel = s.sel ∧
    (s.beginLoad).tx = s.tx ∧ (s.beginLoad).score = s.score ∧ (s.beginLoad).pool = s.pool ∧
    (s.beginLoad).ports = s.ports ∧ (s.beginLoad).flash = s.flash ∧ (s.beginLoad).pending = s.pending ∧
    (s.beginLoad).arriving = s.arriving := by
  simp [State.beginLoad]

@[simp] theorem State.restart_leaves (s : State) (p : PortIx) (n : Byte) :
    (s.restart p n).flash = s.flash ∧ (s.restart p n).pending = s.pending ∧ (s.restart p n).arriving = s.arriving := by
  simp [State.restart]

end Sys2Proof.Machine
end

