-- ==== Sys2Proof/Laws/Flash.lean ====
section
/-! SUPPORT. The profile flash: reading after writing, and every operation keeps its canonical form. -/

namespace Sys2Proof.Machine

/-- The canonical form, said of the whole list: addresses rise, and every entry is inside the flash and not erased. -/
theorem flashWf_iff (m : List Host.Cell) :
    flashWf m = true ↔ m.Pairwise (fun a b => a.1 < b.1) ∧ ∀ c ∈ m, c.2 ≠ 0xFF ∧ c.1 < Config.flashBytes := by
  induction m with
  | nil => simp [flashWf]
  | cons c m ih =>
    cases m with
    | nil => simp [flashWf]
    | cons d m =>
      simp only [flashWf, Bool.and_eq_true, bne_iff_ne, decide_eq_true_eq, ih, List.pairwise_cons, List.mem_cons]
      constructor
      · rintro ⟨⟨hc, hcd⟩, ⟨hd, hm⟩, hall⟩
        refine ⟨⟨?_, hd, hm⟩, ?_⟩
        · rintro a (rfl | ha)
          · exact hcd
          · exact lt_trans hcd (hd a ha)
        · rintro a (rfl | ha)
          · exact ⟨hc, lt_trans hcd (hall d (Or.inl rfl)).2⟩
          · exact hall a ha
      · rintro ⟨⟨hcd, hd, hm⟩, hall⟩
        exact ⟨⟨(hall c (Or.inl rfl)).1, hcd d (Or.inl rfl)⟩, ⟨hd, hm⟩, fun a ha => hall a (Or.inr ha)⟩

/-- Every entry of the flash after a write is an old one or the byte written. -/
theorem mem_writeFlash {m : List Host.Cell} {a : Nat} {b : Byte} {c : Host.Cell} (h : c ∈ writeFlash m a b) :
    c ∈ m ∨ (c = (a, b) ∧ b ≠ 0xFF) := by
  induction m with
  | nil =>
    unfold writeFlash at h
    split at h
    · cases h
    · exact Or.inr ⟨by simpa using h, ‹_›⟩
  | cons d m ih =>
    obtain ⟨k, v⟩ := d
    simp only [writeFlash] at h
    split at h
    · split at h
      · exact Or.inl h
      · rcases List.mem_cons.1 h with rfl | h
        · exact Or.inr ⟨rfl, ‹_›⟩
        · exact Or.inl h
    · split at h
      · split at h
        · exact Or.inl (List.mem_cons_of_mem _ h)
        · rcases List.mem_cons.1 h with rfl | h
          · exact Or.inr ⟨rfl, ‹_›⟩
          · exact Or.inl (List.mem_cons_of_mem _ h)
      · rcases List.mem_cons.1 h with rfl | h
        · exact Or.inl (List.mem_cons_self ..)
        · exact (ih h).imp (List.mem_cons_of_mem _) id

/-- A write inside the flash keeps the canonical form. -/
theorem flashWf_writeFlash {m : List Host.Cell} {a : Nat} {b : Byte} (h : flashWf m = true) (ha : a < Config.flashBytes) :
    flashWf (writeFlash m a b) = true := by
  rw [flashWf_iff] at h ⊢
  refine ⟨?_, fun c hc => ?_⟩
  · have hp := h.1
    clear h
    induction m with
    | nil =>
      unfold writeFlash
      split <;> simp
    | cons d m ih =>
      obtain ⟨k, v⟩ := d
      rw [List.pairwise_cons] at hp
      simp only [writeFlash]
      split
      · split
        · exact List.pairwise_cons.2 hp
        · refine List.pairwise_cons.2 ⟨?_, List.pairwise_cons.2 hp⟩
          rintro c hc
          rcases List.mem_cons.1 hc with rfl | hc
          · assumption
          · exact lt_trans ‹a < k› (hp.1 c hc)
      · split
        · subst a
          split
          · exact hp.2
          · exact List.pairwise_cons.2 hp
        · refine List.pairwise_cons.2 ⟨?_, ih hp.2⟩
          intro c hc
          rcases mem_writeFlash hc with hc | ⟨rfl, -⟩
          · exact hp.1 c hc
          · exact lt_of_le_of_ne (not_lt.1 ‹_›) (Ne.symm ‹_›)
  · rcases mem_writeFlash hc with hc | ⟨rfl, hb⟩
    · exact h.2 c hc
    · exact ⟨hb, ha⟩

/-- Programming inside the flash keeps the canonical form. -/
theorem flashWf_programFlash {m : List Host.Cell} {a : Nat} {bs : List Byte} (h : flashWf m = true)
    (ha : a + bs.length ≤ Config.flashBytes) : flashWf (programFlash m a bs) = true := by
  induction bs generalizing m a with
  | nil => exact h
  | cons b bs ih =>
    rw [List.length_cons] at ha
    exact ih (flashWf_writeFlash h (by omega)) (by omega)

/-- Erasing keeps the canonical form. -/
theorem flashWf_eraseFlash {m : List Host.Cell} {a len : Nat} (h : flashWf m = true) :
    flashWf (eraseFlash m a len) = true := by
  rw [flashWf_iff] at h ⊢
  exact ⟨h.1.filter _, fun c hc => h.2 c (List.mem_of_mem_filter hc)⟩

/-- Setting the marker keeps the canonical form. -/
theorem flashWf_setMarker {m : List Host.Cell} (h : flashWf m = true) : flashWf (setMarker m) = true :=
  flashWf_programFlash h (by decide)

/-- Erasing the marker keeps the canonical form. -/
theorem flashWf_clearMarker {m : List Host.Cell} (h : flashWf m = true) : flashWf (clearMarker m) = true :=
  flashWf_eraseFlash h

/-- Writing an image that the flash has room for keeps the canonical form. -/
theorem flashWf_writeImage {m : List Host.Cell} {bs : List Byte} (h : flashWf m = true) (hb : bs.length ≤ Config.flashBytes) :
    flashWf (writeImage m bs) = true :=
  flashWf_programFlash (flashWf_eraseFlash h) (by omega)

/-- What a SAVE that stops leaves keeps the canonical form. -/
theorem flashWf_leaveFlash {m : List Host.Cell} {image : List Byte} {left : FlashLeft} (h : flashWf m = true)
    (hi : image.length ≤ Config.flashBytes) (hl : left.wf = true) : flashWf (leaveFlash m image left) = true := by
  unfold leaveFlash FlashLeft.wf at *
  split <;> rename_i hs
  · rw [hs] at hl
    simp only [decide_eq_true_eq] at hl
    exact flashWf_programFlash h (by simp only [Config.markerSet, Config.markerBase, Config.flashBytes] at *; omega)
  · rw [hs] at hl
    simp only [Bool.and_eq_true, decide_eq_true_eq] at hl
    refine flashWf_programFlash (flashWf_clearMarker (flashWf_writeImage (flashWf_setMarker h) hi)) ?_
    simp only [Config.markerSet, Config.markerBase, Config.flashBytes] at *
    omega
  · refine flashWf_writeImage (flashWf_setMarker h) ?_
    split at hl
    · exact absurd ‹_› ‹¬left.step = 0›
    · exact absurd ‹_› ‹¬left.step = 4›
    · simp only [decide_eq_true_eq, Config.imageArea, Config.flashBytes] at *
      omega

/-- A completed SAVE keeps the canonical form. -/
theorem flashWf_savedFlash {m : List Host.Cell} {image : List Byte} (h : flashWf m = true)
    (hi : image.length ≤ Config.flashBytes) : flashWf (savedFlash m image) = true :=
  flashWf_clearMarker (flashWf_writeImage (flashWf_setMarker h) hi)

/-- An address below every listed one reads as erased. -/
theorem lookup_none_of_lt {m : List Host.Cell} {a : Nat} (h : ∀ c ∈ m, a < c.1) : m.lookup a = none := by
  induction m with
  | nil => rfl
  | cons c m ih =>
    obtain ⟨k, v⟩ := c
    have hk : a < k := h (k, v) (List.mem_cons_self ..)
    have : (a == k) = false := by simp; omega
    rw [List.lookup_cons, this]
    exact ih fun c hc => h c (List.mem_cons_of_mem _ hc)

/-- What looking up an address finds in a list with one entry more. -/
theorem lookup_cons_if (k a : Nat) (v : Byte) (m : List Host.Cell) :
    ((k, v) :: m).lookup a = if a = k then some v else m.lookup a := by
  rw [List.lookup_cons]
  by_cases h : a = k
  · simp [h]
  · rw [if_neg h, beq_false_of_ne h]

/-- Reading after a write: the byte written at its address, every other address as before. -/
theorem readFlash_writeFlash {m : List Host.Cell} (h : flashWf m = true) (a a' : Nat) (b : Byte) :
    readFlash (writeFlash m a b) a' = if a' = a then b else readFlash m a' := by
  have hp := (flashWf_iff m).1 h |>.1
  clear h
  unfold readFlash
  induction m with
  | nil =>
    unfold writeFlash
    split
    · subst b; split <;> rfl
    · rw [lookup_cons_if]; split <;> rfl
  | cons d m ih =>
    obtain ⟨k, v⟩ := d
    rw [List.pairwise_cons] at hp
    simp only [writeFlash]
    split
    · have hn : ((k, v) :: m).lookup a = none := lookup_none_of_lt fun c hc => by
        rcases List.mem_cons.1 hc with rfl | hc
        · assumption
        · exact lt_trans ‹a < k› (hp.1 c hc)
      split
      · subst b
        split
        · subst a'; rw [hn]; rfl
        · rfl
      · rw [lookup_cons_if]
        split <;> rfl
    · split
      · subst k
        have hn : m.lookup a = none := lookup_none_of_lt hp.1
        split
        · subst b
          split
          · subst a'; rw [hn]; rfl
          · rw [lookup_cons_if, if_neg ‹_›]
        · rw [lookup_cons_if, lookup_cons_if]
          split
          · rfl
          · rfl
      · rw [lookup_cons_if, lookup_cons_if]
        by_cases ha : a' = k
        · subst ha
          rw [if_pos rfl, if_pos rfl, if_neg (Ne.symm ‹_›)]
        · rw [if_neg ha, if_neg ha]
          exact ih hp.2

/-- Reading an address outside an erased range. -/
theorem readFlash_eraseFlash (m : List Host.Cell) (a len a' : Nat) :
    readFlash (eraseFlash m a len) a' = if a ≤ a' ∧ a' < a + len then 0xFF else readFlash m a' := by
  unfold readFlash eraseFlash
  induction m with
  | nil => simp
  | cons c m ih =>
    obtain ⟨k, v⟩ := c
    by_cases hk : k < a ∨ a + len ≤ k
    · rw [List.filter_cons_of_pos (by simpa using hk), lookup_cons_if, lookup_cons_if]
      by_cases ha : a' = k
      · rw [if_pos ha, if_pos ha, if_neg (by omega)]
      · rw [if_neg ha, if_neg ha, ih]
    · rw [List.filter_cons_of_neg (by simpa using hk), ih, lookup_cons_if]
      by_cases hr : a ≤ a' ∧ a' < a + len
      · rw [if_pos hr, if_pos hr]
      · rw [if_neg hr, if_neg hr, if_neg (by omega)]

/-- The flash after cold reset at power-up has the canonical form. -/
theorem flashWf_reset : flashWf State.reset.flash = true := rfl

end Sys2Proof.Machine
end

