-- ==== Sys2Proof/Laws/Receiver.lean ====
section
/-! SUPPORT. What is taken when no command waits: the bytes of the tenant links change receivers and nothing else of a port, and
every other block stays. -/

namespace Sys2Proof.Machine

@[simp] theorem State.receive_leaves (s : State) (p : PortIx) (b : Byte) :
    (s.receive p b).cfg = s.cfg ∧ (s.receive p b).time = s.time ∧ (s.receive p b).lanes = s.lanes ∧
    (s.receive p b).probes = s.probes ∧ (s.receive p b).health = s.health ∧ (s.receive p b).circuits = s.circuits ∧
    (s.receive p b).peers = s.peers ∧ (s.receive p b).sel = s.sel ∧ (s.receive p b).tx = s.tx ∧
    (s.receive p b).score = s.score ∧ (s.receive p b).pool = s.pool ∧ (s.receive p b).profile = s.profile ∧
    (s.receive p b).flash = s.flash ∧ (s.receive p b).arriving = s.arriving := by
  simp [State.receive]

/-- A byte changes nothing of a port but its receiver. -/
theorem State.receive_port (s : State) (p : PortIx) (b : Byte) (q : PortIx) :
    { (s.receive p b).ports[q] with receiver := s.ports[q].receiver } = s.ports[q] := by
  by_cases h : p = q
  · subst h; simp [State.receive, State.modPort]
  · have h' : p.val ≠ q.val := fun e => h (Fin.ext e)
    simp [State.receive, State.modPort, h']

@[simp] theorem State.takeIn_leaves (s : State) :
    s.takeIn.cfg = s.cfg ∧ s.takeIn.time = s.time ∧ s.takeIn.lanes = s.lanes ∧ s.takeIn.probes = s.probes ∧
    s.takeIn.health = s.health ∧ s.takeIn.circuits = s.circuits ∧ s.takeIn.peers = s.peers ∧ s.takeIn.sel = s.sel ∧
    s.takeIn.tx = s.tx ∧ s.takeIn.score = s.score ∧ s.takeIn.pool = s.pool ∧ s.takeIn.profile = s.profile ∧
    s.takeIn.flash = s.flash := by
  unfold State.takeIn
  split
  · simp
  · split <;> simp

/-- What is taken when no command waits changes nothing of a port but its receiver. -/
theorem State.takeIn_port (s : State) (q : PortIx) :
    { s.takeIn.ports[q] with receiver := s.ports[q].receiver } = s.ports[q] := by
  unfold State.takeIn
  split
  · rfl
  · split
    · rfl
    · rfl
    · rename_i p b rest _
      exact State.receive_port { s with arriving := rest } p b q

end Sys2Proof.Machine
end

