-- ==== Sys2Proof/Tests/Slice0.lean ====
section
/-! SUPPORT. The tests: the checks of well-formed commands, the spec's own worked values, and for each statement of
Obligations.lean the states and operands that meet its hypotheses together, clause by clause. -/

open Sys2Proof Sys2Proof.Machine

namespace Sys2Proof.Tests

/-! ### One terminal

Terminal 5 with operator code 0x1234, RUNNING. Routes 0 (FIBER, UP) and 1 (RADIO, FADING) lead to peer P0, terminal 9. C0 is
T0's OUT circuit, C1 and C2 are IN circuits, C2 relayed to C0, and C3 is T1's OUT circuit, PAUSED. T0 and T1 are UP. -/

def sample : Sample := { number := 0, rtt := 4000, d := 0, at_ := 999000000 }

def flowOut : Flow := .out 3 .fast 10

def lane0 : LaneSettings := { type := .fiber, txc := 40, rxc := 60, interval := 10 }

def lane1 : LaneSettings := { type := .radio, txc := 0, rxc := 0, interval := 10 }

def route0 : RouteSettings := { enable := true, peer := 0, a := 0 }

def cfg0 : Settings :=
  { Settings.safe with
    termId := 5
    opCode := 0x1234
    peers := Settings.safe.peers.set 0 { enabled := true, termId := 9 }
    lanes := (Settings.safe.lanes.set 0 lane0).set 1 lane1
    routes := (Settings.safe.routes.set 0 route0).set 1 route0 }

def time0 : TimeBase := { TimeBase.coldReset with tt := 5000000000, et := 1000000000 }

def report1 : Report := { rsl := -400, step := 5, quality := 300, fault := false, temp := false, mute := false }

def laneRec1 : Lane := { Lane.coldReset false with latest := some report1, timer := some 999999000 }

def probe0 : Probe := { Probe.blank with ring := [sample], due := some 1000100000 }

def up0 : Health := { Health.coldReset with state := .up }

def circ (port : PortIx) (flow : Flow) : Circuit :=
  { Circuit.blank with state := .opened, defn := some { port := port, peer := 0, flow := flow } }

def port0 : Port := Port.coldReset true

def running : Profile := { Profile.coldReset with load := .running, outcome := some .loaded, loads := 1 }

def net : State :=
  { State.reset with
    cfg := cfg0
    time := time0
    lanes := State.reset.lanes.set 1 laneRec1
    probes := (State.reset.probes.set 0 probe0).set 1 probe0
    health := (State.reset.health.set 0 up0).set 1 { up0 with state := .fading }
    circuits :=
      (((State.reset.circuits.set 0 (circ 0 flowOut)).set 1 (circ 1 (.inn none))).set 2 (circ 1 (.inn (some 0)))).set 3
        { circ 1 (.out 4 .sure 1) with state := .paused }
    ports := (State.reset.ports.set 0 port0).set 1 port0
    profile := running }

/-- A directive from T0 with the operator code and a good link CRC. -/
def dir (name : Nat) (args : List Byte) : Directive :=
  let d : Directive := { port := 0, status := 0, request := 7, present := 1, code := 0x1234, args := args, crc := 0 }
  { d with crc := crc32 (covered 0xA2 0 (directiveBody name d)) }

/-- The same without a code. -/
def bare (name : Nat) (args : List Byte) : Directive :=
  let d : Directive := { port := 0, status := 0, request := 7, present := 0, code := 0, args := args, crc := 0 }
  { d with crc := crc32 (covered 0xA2 0 (directiveBody name d)) }

/-- A taken slot's frame from T0. -/
def frame0 : Frame := { source := .send 0, stamp := 5000000000, et := 1000000000, bytes := [], refs := 1, started := false }

/-- Frame memory with slot 7 taken. -/
def pool7 (f : Frame) : Pool := { Pool.coldReset with slots := [(7, f)], lowWater := 1023 }

def copy0 : Copy := { slot := 7, circuit := 0, seq := 0, len := 1, origin := 1000000000, port := 0 }

/-- Where every copy, current frame and delivery stands in slot 7 and nothing is being received, no other slot has a holder. -/
theorem holders_other (s : State) (k : Nat) (hk : k ≠ 7)
    (hq : ∀ r : RouteIx, (∀ c ∈ s.tx[r].queue, c.slot = 7) ∧ (∀ c ∈ s.tx[r].current.bind Current.copy, c.slot = 7) ∧
      s.lanes[r].rx = none)
    (hp : ∀ p : PortIx, s.ports[p].inbound = .idle ∧ s.ports[p].delivery = []) : s.holders k = 0 := by
  have h1 : ∀ r : RouteIx, s.tx[r].holds k = 0 := by
    intro r
    obtain ⟨h, hc, -⟩ := hq r
    have : (s.tx[r].queue.countP fun c => c.slot == k) = 0 := by
      rw [List.countP_eq_zero]
      intro c hcm
      simp [h c hcm, Ne.symm hk]
    unfold Tx.holds
    rw [this]
    split
    · rename_i c _ _ e
      rw [e] at hc
      rw [hc c rfl, if_neg (Ne.symm hk)]
    · rfl
  have h2 : ∀ r : RouteIx, s.lanes[r].holds k = 0 := by
    intro r
    unfold Lane.holds
    rw [(hq r).2.2]
  have h3 : ∀ p : PortIx, s.ports[p].inbound.holds k = 0 := by
    intro p
    rw [(hp p).1]
    rfl
  have h4 : ∀ p : PortIx, (s.ports[p].delivery.countP fun e => e.slot == k) = 0 := by
    intro p
    rw [(hp p).2]
    rfl
  unfold State.holders State.receiving
  simp only [h1, h2, h3, h4]
  decide

/-- `net` with one copy waiting on route 0. -/
def netCopy : State :=
  { net with
    tx := net.tx.set 0 { Tx.blank with queue := [copy0] }
    pool := pool7 frame0
    circuits := net.circuits.set 0 { circ 0 flowOut with nextSeq := 1, out := { accepted := 1, held := 1 } }
    pending := [.advance] }

theorem netCopy_slots : netCopy.SlotsSound := by
  refine ⟨by decide +kernel, fun k => ?_⟩
  by_cases hk : k = 7
  · subst hk; decide +kernel
  · have hf : netCopy.pool.frame k = none := by
      simp [netCopy, pool7, Pool.frame, List.lookup, beq_eq_false_iff_ne.mpr hk]
    refine ⟨fun _ => holders_other netCopy k hk (by decide +kernel) (by decide +kernel), fun f h => ?_⟩
    simp [hf] at h

/-- `net` in another time state, its last offset accepted so many ticks ago. -/
def netTime (state : TimeState) (ago : Nat) : State :=
  { net with time := { time0 with state := state, lastOffset := some (time0.et - BitVec.ofNat 64 ago), fc := 1000, sl := 5 } }

/-- `net` as a REFERENCE disciplined by PPS, the last edge accepted so many ticks ago. -/
def netPps (ago : Nat) (tt : Stamp) : State :=
  { net with
    cfg := { cfg0 with time := { cfg0.time with ppsEnable := true } }
    time := { time0 with tt := tt, lastEdge := some (time0.et - BitVec.ofNat 64 ago) } }

/-- `net` with LOS asserted on a lane. -/
def netLos (r : RouteIx) : State := net.modLane r fun l => { l with los := true }

/-- Time settings at the edges of their ranges. -/
def timeFast : TimeSettings := { TimeSettings.safe with stepLimit := 1000000000, ki := 7, kp := 4, holdover := 100 }

/-- A follower's. -/
def timeFollow : TimeSettings := { TimeSettings.safe with role := .follower, holdover := 10000 }

/-- One above STEP_LIMIT's range. -/
def timeWild : TimeSettings := { TimeSettings.safe with stepLimit := 1000000001 }

/-- Lane settings at the edges of their ranges. -/
def laneFar : LaneSettings := { type := .unused, txc := 65535, rxc := 65535, interval := 100 }

/-- A FIBER lane. -/
def laneFiber : LaneSettings := { type := .fiber, txc := 0, rxc := 0, interval := 1 }

/-- An UNUSED lane. -/
def laneOff : LaneSettings := { type := .unused, txc := 0, rxc := 0, interval := 1 }

/-- A timeout of more than eight intervals. -/
def probeWild : ProbeSettings := { interval := 1, timeout := 9, gate := 0 }

/-- Probe settings at the edges of their ranges. -/
def probeSlow : ProbeSettings := { interval := 10, timeout := 80, gate := 65535 }

/-- The fastest. -/
def probeFast : ProbeSettings := { interval := 1, timeout := 2, gate := 65535 }

/-- The health of route 0 after a LOST probe. -/
def health8 : Health := { up0 with error := 8 }

/-- The health of route 0 after a CRC failure. -/
def healthBad : Health := { up0 with error := 1, counts := { crcFailures := 1 } }

/-- `net` with lane 1's silence timer started at an ET. -/
def netTimer (since : Ticks) : State := net.modLane 1 fun l => { l with timer := some since }

/-- Route 0 DOWN for its LOS. -/
def netLosDown : State := (netLos 0).modHealth 0 fun h => { h with state := .down }

/-- A follower with PPS enabled. -/
def netFollowPps : State :=
  { netPps 62500000 0 with cfg := { cfg0 with time := { cfg0.time with role := .follower, ppsEnable := true } } }

/-- `net` with a command waiting. -/
def netQueue : State := { net with pending := [.advance] }

/-- `net` as a follower of P0, its routes tied on M. -/
def netFollower : State :=
  { net with
    cfg := { cfg0 with time := { cfg0.time with role := .follower, followed := 0 } }
    time := { time0 with timeRoute := some 0, state := .acquiring, lastOffset := some 900000000 } }

/-- `net` with lane 1 SILENT, its ring full and its route DOWN. -/
def netSilent : State :=
  (net.modLane 1 fun l => { l with silent := true, timer := none, ring := List.replicate 8 (-300) }).modHealth 1 fun h =>
    { h with state := .down }

/-- `net` with a request of route 0 due at an ET, a PROBE or a TEST still waiting or not. -/
def netDue (due : Ticks) (waiting : Bool) : State :=
  (net.modProbe 0 fun x => { x with due := some due }).modTx 0 fun t => { t with probeEntry := waiting }

/-- `net` with route 0 PROVING, its good-window count and its TEST request given. -/
def netProving (good : Nat) (due : Ticks) (waiting : Bool) : State :=
  (net.modHealth 0 fun h => { h with state := .proving, good := good, testDue := some due }).modTx 0 fun t =>
    { t with testEntry := waiting }

/-- `net` with these records outstanding on route 0. -/
def netOut (os : List Outstanding) : State := net.modProbe 0 fun x => { x with outstanding := os }

/-- The record of a PROBE sent so many ticks ago. -/
def sent (number : Byte) (ago : Nat) : Outstanding :=
  { number := number, t1 := 4999000000, sentAt := time0.et - BitVec.ofNat 64 ago }

/-- A state receiving on route 0 a frame whose bytes are `bs`. -/
def receives (s : State) (bs : List Byte) (store : RxStore) : State :=
  s.modLane 0 fun l =>
    { l with rx := some { stamp := 5000000000, et := 1000000000, first := bs.headD 0, store := store } }

/-- What route 0 is receiving then. -/
def rxOf (bs : List Byte) (store : RxStore) : Rx :=
  { stamp := 5000000000, et := 1000000000, first := bs.headD 0, store := store }

/-- An ECHO of P0's terminal. -/
def echo (number errors : Byte) (t1 t2 t3 : Stamp) : List Byte :=
  withCrc ([3, 9, number, errors, 2] ++ bytesOf 8 t1.toNat ++ bytesOf 8 t2.toNat ++ bytesOf 8 t3.toNat)

/-- A PROBE of P0's terminal. -/
def probeOf (id number : Byte) (t1 : Stamp) : List Byte := withCrc ([2, id, number] ++ bytesOf 8 t1.toNat)

/-- A TEST of P0's terminal with these bytes for its pattern. -/
def testOf (seed : BitVec 16) (received : List Byte) : List Byte := withCrc ([4, 9] ++ bytesOf 2 seed.toNat) ++ received

/-- `net` with this many ECHO entries on route 0. -/
def netEchoes (k : Nat) : State :=
  net.modTx 0 fun t => { t with echoes := List.replicate k { number := 1, t1 := 2, t2 := 3, errors := 4, state := .up } }

/-- `net` receiving on route 0, in slot 7 or the buffer or unreceived, a frame that opens with this byte. -/
def netRx (first : Byte) (store : RxStore) : State :=
  { receives net [first] store with
    pool := match store with
      | .slot _ => pool7 { frame0 with source := .cargo 0 }
      | _ => net.pool }

/-- Route 0 DISABLED during a frame in slot 7. -/
def netRxOff : State := (netRx 1 (.slot 7)).modHealth 0 fun h => { h with state := .disabled }

/-- `net` after a change of route 0's state. -/
def netHealth (state : RouteState) : State := net.modHealth 0 fun h => { h with state := state }

/-- `net` with a copy of C0 waiting on route 0, and that route forced for P0. -/
def netBusy : State :=
  { net with
    tx := net.tx.set 0 { Tx.blank with queue := [copy0] }
    pool := pool7 frame0
    circuits := net.circuits.set 0 { circ 0 flowOut with nextSeq := 1, out := { accepted := 1, held := 1 } }
    peers := net.peers.set 0 { forced := some 0, noRoute := 0 } }

def routeAway : RouteSettings := { enable := true, peer := 3, a := -1000000 }

def routeOff : RouteSettings := { enable := false, peer := 0, a := 1000000 }

def routeOn : RouteSettings := { enable := true, peer := 0, a := 0 }

def peerSame : PeerSettings := { enabled := true, termId := 5 }

def peerOff : PeerSettings := { enabled := false, termId := 9 }

def peerMoved : PeerSettings := { enabled := true, termId := 255 }

/-- `net` with P0 not enabled and its routes DISABLED. -/
def netPeerOff : State :=
  { net with
    cfg := { cfg0 with peers := cfg0.peers.set 0 peerOff }, probes := State.reset.probes, health := State.reset.health }

def route9 : PeerSettings := { enabled := true, termId := 9 }

def healthLow : HealthSettings :=
  { warn := 1, cut := 2, rslFade := 0, rslCut := -1, hyst := 0, slope := 200, proveWindows := 8 }

def healthWild : HealthSettings := { HealthSettings.safe with hyst := 201 }

def defOut : CircuitDef := { port := 5, peer := 3, flow := .out 63 .sure 65535 }

def defIn : CircuitDef := { port := 0, peer := 0, flow := .inn (some 0) }

def defTwin : CircuitDef := { port := 2, peer := 0, flow := .out 3 .fast 1 }

/-- OPEN_CIRCUIT of this circuit. -/
def opens (n : CircIx) (defn : CircuitDef) : Directive :=
  dir 15 ((circuitRecord { number := n, paused := false, defn := defn }).drop 1)

/-- `net` with a close pending on C0. -/
def netClosing : State :=
  { net with
    circuits := net.circuits.set 0 { circ 0 flowOut with closing := some 1 }
    tx := net.tx.set 0
      { Tx.blank with current := some { kind := .cargo, copy := some copy0, bytes := [], untaken := 1 } }
    pool := pool7 { frame0 with started := true } }

/-- `netClosing` with the end of its one copy in front. -/
def netEnding : State := { netClosing with pending := [.transmitEnd 0] }

theorem netEnding_slots : netEnding.SlotsSound := by
  refine ⟨by decide +kernel, fun k => ?_⟩
  by_cases hk : k = 7
  · subst hk; decide +kernel
  · have hf : netEnding.pool.frame k = none := by
      simp [netEnding, netClosing, pool7, Pool.frame, List.lookup, beq_eq_false_iff_ne.mpr hk]
    refine ⟨fun _ => holders_other netEnding k hk (by decide +kernel) (by decide +kernel), fun f h => ?_⟩
    rw [hf] at h
    cases h

def def0 : CircuitDef := { port := 0, peer := 0, flow := flowOut }

def def1 : CircuitDef := { port := 1, peer := 0, flow := .inn none }

def def3 : CircuitDef := { port := 1, peer := 0, flow := .out 4 .sure 1 }

/-- `net` with counts on its circuits. -/
def netCounts : State :=
  { net with
    circuits :=
      (net.circuits.set 0
        { circ 0 flowOut with
          out := { accepted := 9, sent := 4, expired := 1, noRoute := 1, flushed := 1, held := 2, shadowMissed := 3 } }).set 1
        { circ 1 (.inn none) with inn := { accepted := 5, duplicates := 2 } } }

/-- `net` with C0 CLOSED again. -/
def netShut : State := net.modCircuit 0 fun x => { x with state := .closed }

/-- `net` with a delivery of C1 under way at T1 and another behind it. -/
def netDelivering : State :=
  { net with
    pool :=
      { Pool.coldReset with
        slots := [(7, { frame0 with source := .cargo 0 }), (8, { frame0 with source := .cargo 1 })], lowWater := 1022 }
    ports := net.ports.set 1
      { port0 with
        delivery := [{ slot := 7, circuit := 1, seq := 0 }, { slot := 8, circuit := 1, seq := 1 }]
        outbound := some { kind := .deliver, bytes := [], cut := false } } }

/-- `netBusy` with C0's copy already started on lane 0 and another of its copies waiting there. -/
def netHalf : State :=
  { netBusy with
    tx := netBusy.tx.set 0
      { Tx.blank with
        queue := [{ copy0 with slot := 8, seq := 1 }]
        current := some { kind := .cargo, copy := some copy0, bytes := [], untaken := 9 } }
    pool := { Pool.coldReset with slots := [(7, { frame0 with started := true }), (8, frame0)], lowWater := 1022 } }

def halfCopy : Copy := { copy0 with slot := 8, seq := 1 }

/-- The expected arrivals of a frame on `net`. -/
def arrivals (len : Nat) (q : RouteIx) : Nat := net.expectedArrival len q

/-- A calendar with ports T0 and T5 and FREE slots. -/
def calAll : Calendar := (Vector.replicate 16 none).set 0 (some 5) |>.set 15 (some 0)

def slotBytes : List Byte := calAll.toList.map fun x => BitVec.ofNat 8 (slotCode x)

/-- `net` with a calendar pointer at slot 15. -/
def netPointer : State := net.modTx 15 fun t => { t with pointer := 15 }

/-- Frame memory with this many slots free. -/
def poolFree (free : Nat) (hold : Bool) : Pool :=
  { Pool.coldReset with
    slots := (List.range (1024 - free)).map fun k => (k, { frame0 with source := .cargo 0 })
    hold := hold, lowWater := free }

/-- `net` with this many slots free. -/
def netFree (free : Nat) (hold : Bool) : State := { net with pool := poolFree free hold }

theorem poolFree_free (free : Nat) (hold : Bool) (h : free ≤ 1024) : (poolFree free hold).free = free := by
  simp [poolFree, Pool.free, Config.slotCount]; omega

theorem poolFree_sound (free : Nat) (hold : Bool) (h : free ≤ 1024) (h1 : hold = false → Config.holdBelow ≤ free)
    (h2 : hold = true → free < Config.holdUntil) : (poolFree free hold).Sound := by
  have hf := poolFree_free free hold h
  refine ⟨?_, ?_, ?_, ?_, ?_⟩
  · simp [poolFree, Function.comp_def, List.pairwise_lt_range]
  · intro e he
    simp only [poolFree, List.mem_map, List.mem_range] at he
    obtain ⟨k, hk, rfl⟩ := he
    show k < 1024
    omega
  · rw [hf]; exact Nat.le_refl _
  · rw [hf]; exact h1
  · rw [hf]; exact h2

/-- `s` with T0 receiving a SEND in slot 7. -/
def sending (s : State) : State :=
  { s with ports := s.ports.set 0 { s.ports[(0 : PortIx)] with inbound := .slot 7 }, pool := pool7 frame0 }

def netSending (_ : List Byte) : State := sending net

/-- A SEND body to a circuit with a payload of this many bytes. -/
def sendBody (circuit : Byte) (len : Nat) : List Byte := [circuit, 0, 0, 0, 9] ++ List.replicate len 1

/-- `net` with C0 of class SURE. -/
def netSure : State := net.modCircuit 0 fun x => { x with defn := some { port := 0, peer := 0, flow := .out 3 .sure 10 } }

/-- `netSure` with route 0 the only route UP or FADING. -/
def netLone : State := netSure.modHealth 1 fun h => { h with state := .down }

/-- `net` with route 0 DOWN, so that a FAST frame's primary is FADING. -/
def netFading : State := (net.modHealth 0 fun h => { h with state := .down }).modLane 1 fun l => l

/-- The copy of a SEND with a payload of this length. -/
def sendCopy (len : Nat) : Copy := { copy0 with len := len }

/-- The CRC of a SEND with this body. -/
def sendCrc (body : List Byte) : BitVec 32 := crc32 ([0xA1, 0] ++ bytesOf 2 body.length ++ body)

/-- `net` with no route to P0 UP or FADING. -/
def netCut : State := netLone.modHealth 0 fun h => { h with state := .proving }

/-- `net` in LOADING. -/
def netLoading : State := { net with profile := Profile.coldReset }

/-- `net` with a SEND of T0 discarded NO_BUFFER under way. -/
def netIgnoring : State := net.modPort 0 fun x => { x with inbound := .ignored }

/-- `net` with C0 PAUSED. -/
def netPaused : State := net.modCircuit 0 fun x => { x with state := .paused }

/-- An ECHO entry. -/
def entry (number : Byte) : EchoEntry := { number := number, t1 := 2, t2 := 3, errors := 255, state := .proving }

/-- `net` with a current frame of one byte on lane 0. -/
def netCurrent (untaken : Nat) : State :=
  net.modTx 0 fun t => { t with current := some { kind := .probe, copy := none, bytes := [], untaken := untaken } }

/-- `net` with two ECHO entries on route 0. -/
def netEchoTwo : State := net.modTx 0 fun t => { t with echoes := [entry 1, entry 2], probeEntry := true }

/-- `net` with a PROBE waiting on route 0 and this many outstanding. -/
def netProbe (k : Nat) : State :=
  (netOut (List.replicate k (sent 5 9))).modTx 0 fun t => { t with probeEntry := true }

/-- `netBusy` so many ticks after its copy's origin. -/
def netAged (ticks : Nat) : State := { netBusy with time := { time0 with et := time0.et + BitVec.ofNat 64 ticks } }

def frameStarted : Frame := { frame0 with started := true }

/-- `netBusy` with the frame's other copy started before. -/
def netStarted : State := { netBusy with pool := pool7 frameStarted }

/-- `netBusy` with no slot for T0 in the calendar. -/
def netUnslotted : State :=
  { netBusy with cfg := { cfg0 with calendars := cfg0.calendars.set 0 (Vector.replicate 16 none) } }

def copyB : Copy := { copy0 with slot := 8, port := 5 }

def probing (untaken : Nat) : Current := { kind := .probe, copy := none, bytes := [], untaken := untaken }

def cargoLast : Current := { kind := .cargo, copy := some copy0, bytes := [], untaken := 1 }

/-- A CARGO frame from terminal `sender`. -/
def cargoFrame (sender : Byte) (n seq len : Nat) (payload : List Byte) : List Byte :=
  withCrc ([1, sender] ++ bytesOf 2 n ++ bytesOf 2 seq ++ bytesOf 2 len ++ bytesOf 4 7 ++ bytesOf 8 11 ++ bytesOf 8 12 ++
    payload)

/-- A slot's frame that arrives on route 0. -/
def frameIn : Frame := { frame0 with source := .cargo 0 }

/-- `s` receiving these bytes on route 0 in slot 7. -/
def arrives (s : State) (bs : List Byte) : State := { receives s bs (.slot 7) with pool := pool7 frameIn }

/-- `net` with C1 an IN circuit of P3. -/
def netFar : State := net.modCircuit 1 fun x => { x with defn := some { port := 1, peer := 3, flow := .inn none } }

/-- `net` with this window on C1 and on C2. -/
def netWin (w : Window) : State :=
  (net.modCircuit 1 fun x => { x with window := w }).modCircuit 2 fun x => { x with window := w }

/-- The entry of a frame seen on route 1, later than the one on route 0. -/
def entry1 : WinEntry := { route := 1, stamp := 5000000001 }

/-- A window at 5 with 5 seen. -/
def window5 : Window := { valid := true, h := 5, entries := (List.replicate 64 none).set 0 (some entry1) }

/-- `netWin window5` with so many deliveries waiting at T1. -/
def netWait (k : Nat) : State :=
  (netWin window5).modPort 1 fun p => { p with delivery := List.replicate k { slot := 8, circuit := 1, seq := 0 } }

/-- `netWin window5` with T1 DOWN. -/
def netMute : State := (netWin window5).modPort 1 fun p => { p with up := false }

/-- `net` with no route to P0 UP or FADING but the frame's own, which is PROVING. -/
def netCutIn : State := (net.modHealth 0 fun h => { h with state := .proving }).modHealth 1 fun h => { h with state := .down }

/-- `net` with a pending record of this kind at T0. -/
def netNotice (n : Notice) : State := net.modPort 0 fun p => p.record n

/-- `net` with an answer waiting at T0. -/
def netAnswer : State :=
  net.modPort 0 fun p => { p with answers := [{ request := 1, status := .done, results := [] }] }

/-- `net` with a delivery waiting at T1. -/
def netReady : State :=
  { net with
    pool := { Pool.coldReset with slots := [(7, frameIn)], lowWater := 1023 }
    ports := net.ports.set 1 { port0 with delivery := [{ slot := 7, circuit := 1, seq := 0 }] } }

/-- `net` with a frame under way at T0. -/
def netOutbound (kind : OutKind) (cut : Bool) : State :=
  net.modPort 0 fun p => { p with outbound := some { kind := kind, bytes := [], cut := cut } }

/-- `net` with this run of misses at T0. -/
def netMisses (k : Nat) : State := net.modPort 0 fun p => { p with misses := k }

/-- `net` with so many answers waiting at T0. -/
def netAnswers (k : Nat) : State :=
  net.modPort 0 fun p => { p with answers := List.replicate k { request := 1, status := .done, results := [] } }

/-- The CRC of a DIRECTIVE with this body. -/
def directiveCrc (body : List Byte) : BitVec 32 := crc32 ([0xA2, 0] ++ bytesOf 2 body.length ++ body)

/-- A DIRECTIVE of T0 with this code-present byte. -/
def presents (name : Nat) (present : Byte) (code : BitVec 16) (args : List Byte) : Directive :=
  let d : Directive := { port := 0, status := 0, request := 7, present := present, code := code, args := args, crc := 0 }
  { d with crc := crc32 (covered 0xA2 0 (directiveBody name d)) }

/-- A READ_TIME of T5 with a wrong CRC. -/
def spoilt (port : PortIx) : Directive :=
  { port := port, status := 0, request := 7, present := 0, code := 0, args := [], crc := 0 }

/-- `net` with a SAVE in flight, begun so many ticks ago, that T0 is owed the answer of. -/
def netSaving (ago : Nat) : State :=
  { net with
    profile := { running with save := some { snapshot := net.snapshot, started := time0.et - BitVec.ofNat 64 ago } }
    ports := net.ports.set 0 { port0 with saveOwed := some 7 } }

/-- `net` with kinds 1 and 8 watched at T0 and pending. -/
def netWatched : State :=
  net.modPort 0 fun p => ((p.record (.timeStep 1)).record (.holdIgnored 1)).record (.routeState 0 .up .down)

/-- What a failed first step left. -/
def left0 : FlashLeft := { step := 0, bytes := List.replicate 16 0 }

/-- What a failed fifth step left. -/
def left4 : FlashLeft := { step := 4, bytes := List.replicate 15 0xFF ++ [0xFE] }

/-- What a failed third step left. -/
def left2 : FlashLeft := { step := 2, bytes := [0, 1] }

def job0 (ago : Nat) : SaveJob := { snapshot := net.snapshot, started := time0.et - BitVec.ofNat 64 ago }

/-- The sections of the SAFE settings, with no calendar record. -/
def shortBody : List Byte :=
  sectionBytes 1 [identityRecord Settings.safe] ++ sectionBytes 2 (Settings.safe.peers.toList.map peerRecord) ++
    sectionBytes 3 (Settings.safe.lanes.toList.map laneRecord) ++
    sectionBytes 4 (Settings.safe.routes.toList.map routeRecord) ++
    sectionBytes 5 [healthRecord Settings.safe.health] ++ sectionBytes 6 [probeRecord Settings.safe.probe] ++
    sectionBytes 7 [timeRecord Settings.safe.time] ++ sectionBytes 8 [] ++ sectionBytes 9 []

/-- The bytes its CRC covers. -/
def shortCovered : List Byte := headerStart 259 ++ shortBody

theorem crc32_split (n : Nat) (bs : List Byte) (c d : BitVec 32) (h : (bs.take n).foldl crcByte c = d) :
    bs.foldl crcByte c = (bs.drop n).foldl crcByte d := by
  rw [← h, ← List.foldl_append, List.take_append_drop]

/-- The shortest image there is: 259 bytes (R198). -/
theorem test_shortImage : (shortBody.length = 249) ∧ crc32 shortCovered = 2175261337#32 := by
  refine ⟨by decide +kernel, ?_⟩
  unfold crc32
  rw [crc32_split 64 shortCovered _ 834828167#32 (by decide +kernel),
    crc32_split 64 (shortCovered.drop 64) _ 3113398285#32 (by decide +kernel),
    crc32_split 64 ((shortCovered.drop 64).drop 64) _ 1107241651#32 (by decide +kernel),
    show (((shortCovered.drop 64).drop 64).drop 64).foldl crcByte 1107241651#32 = 2119705958#32 from by decide +kernel]
  decide

/-- A flash that holds these bytes from address 0 on. -/
def cells (bs : List Byte) : List Host.Cell := ((List.range bs.length).zip bs).filter fun c => c.2 != 0xFF

/-- A flash with the header of this format, length and CRC, and these sections. -/
def flashOf (format len crc : Nat) (body : List Byte) : List Host.Cell :=
  cells (bytesOf 2 format ++ bytesOf 4 len ++ bytesOf 4 crc ++ body)

theorem readFlash_beyond {m : List Host.Cell} {b : Nat} (h : m.all (fun c => decide (c.1 < b)) = true) (a : Nat)
    (ha : b ≤ a) : readFlash m a = 0xFF := by
  induction m with
  | nil => rfl
  | cons c m ih =>
    simp only [List.all_cons, Bool.and_eq_true, decide_eq_true_eq] at h
    have hne : (a == c.1) = false := by simp; omega
    have := ih h.2
    unfold readFlash at this ⊢
    rwa [List.lookup_cons, hne]

def image0 : Image := { settings := Settings.safe, circuits := [] }

/-- A first step that had programmed nothing. -/
def left00 : FlashLeft := { step := 0, bytes := [] }

/-- Terminal 21 with PROBE 41 waiting on route 0 and TT at 1,000,000,000 less the lane's TXC. -/
def netProbe41 : State :=
  ({ net with cfg := { cfg0 with termId := 21 }, time := { time0 with tt := 999999960 } }.modProbe 0 fun x =>
    { x with nextNumber := 41 }).modTx 0 fun t => { t with probeEntry := true }

/-- `net` with the lanes, delays and backlog of chapter 06's worked case: its routes 7 and 4 as routes 0 and 1. -/
def netArrivals : State :=
  (((net.modProbe 0 fun x => { x with ring := [{ sample with rtt := 10760000 }] }).modProbe 1 fun x =>
    { x with ring := [{ sample with rtt := 7824800 }] }).modLane 1 fun l =>
      { l with latest := some { report1 with step := 7 } }).modTx 1 fun t => { t with current := some (probing 1200) }

/-- Chapter 07's calendar: T0 in slots 0, 2, 5, 8, T2 in 1, 6, 9, T3 in 4. -/
def cal07 : Calendar :=
  ⟨#[some 0, some 2, some 0, none, some 3, some 0, some 2, none, some 0, some 2, none, none, none, none, none, none], rfl⟩

def fa : Copy := { copy0 with slot := 1, port := 5 }
def fb : Copy := { copy0 with slot := 2, port := 2 }
def fc : Copy := { copy0 with slot := 3, port := 0 }
def fd : Copy := { copy0 with slot := 4, port := 0 }
def fe : Copy := { copy0 with slot := 5, port := 3 }
def ff : Copy := { copy0 with slot := 6, port := 5 }

/-- Chapter 08's window after steps 1, 3 and 4. -/
def win2 : Window := (Window.accept { window5 with h := 65530 } 65531 entry1 (.ahead 1))
def win3 : Window := win2.accept 2 entry1 (.ahead 7)
def win4 : Window := win3.accept 65533 entry1 (.fill 5)

def saved0 : SavedCircuit := { number := 0, paused := false, defn := def0 }

/-- A RADIO lane reporting every millisecond. -/
def laneQuick : LaneSettings := { type := .radio, txc := 0, rxc := 0, interval := 1 }

/-- `netFollower` with two records outstanding on route 0, and TT as given. -/
def netGate (tt : Stamp) : State :=
  { netFollower.modProbe 0 (fun x => { x with outstanding := [sent 4 9, sent 3 9] }) with
    time := { netFollower.time with tt := tt } }

/-- The sample of an ECHO numbered 3 with these times, received as `receives` has it. -/
def sampleOf (t2 t3 : Stamp) : Sample :=
  { number := 3, rtt := (roundTrip 4999000000 t2 t3 5000000000).toNat, d := offsetTerm 4999000000 t2 t3 5000000000
    at_ := 1000000000 }

/-- `netBusy` with the frame's other copy waiting on route 1. -/
def netTwin : State :=
  { netBusy with
    tx := netBusy.tx.set 1 { Tx.blank with queue := [copy0] }
    pool := pool7 { frame0 with refs := 2 } }

/-- `netBusy` with no other route UP or FADING. -/
def netStuck : State := netBusy.modHealth 1 fun h => { h with state := .down }

/-- `net` with C0 an IN circuit. -/
def netTargetIn : State := net.modCircuit 0 fun x => { x with defn := some { port := 0, peer := 0, flow := .inn none } }

/-- `netDelivering` with no frame under way. -/
def netQueued : State := netDelivering.modPort 1 fun x => { x with outbound := none }

/-- The DELIVER envelope of a body of three bytes. -/
def deliverEnv : List Byte := envelope 0xA3 1 [7, 8, 9]

/-- A receiver at a boundary, so many fill words in its run. -/
def receiver (fills : Nat) : Receiver := { unit := [], fills := fills, hunting := false, lastByte := some 0 }

/-- `net` with this receiver on the link of T5, which is UP or DOWN. -/
def netLink (up : Bool) (x : Receiver) : State := net.modPort 5 fun p => { p with up := up, receiver := x }

/-- A receiver whose last byte came so many ticks ago. -/
def heard (ago : Nat) : Receiver :=
  { unit := [], fills := 0, hunting := false, lastByte := some (time0.et - BitVec.ofNat 64 ago) }

/-- `netTwin` with its copy at the max age. -/
def netTwinAged : State := { netTwin with time := (netAged 1250).time }

/-! ### The checks of well-formed commands (WellFormed.lean): one ill-formed term each, refused -/

theorem test_wf_sendEnd (body : List Byte) (h : body.length = 65536) : (Instr.sendEnd 0 0 body 0).wf = false := by
  simp [Instr.wf, h]

theorem test_wf_directive (d : Directive) (h : d.args.length = 65531) : (Instr.readTime d).wf = false := by
  simp [Instr.wf, Directive.wf, h]

theorem test_wf_unknownDirective :
    (Instr.unknownDirective 0 0 [21, 0, 0, 0, 0] 0).wf = false ∧ (Instr.unknownDirective 0 0 [22, 0, 0, 0, 0] 0).wf = true ∧
    (Instr.unknownDirective 0 0 [21, 0, 0, 0] 0).wf = true := by decide

theorem test_wf_saveLeft :
    (Instr.coldReset { step := 0, bytes := List.replicate 17 0 }).wf = false ∧
    (Instr.saveComplete (.failed { step := 4, bytes := List.replicate 16 0xFF })).wf = false ∧
    (Instr.saveComplete (.failed left4)).wf = true := by decide

/-- An ill-formed command has no meaning and says so. -/
theorem test_illFormed_refused :
    exec (.unknownDirective 0 0 [21, 0, 0, 0, 0] 0) net = .refused .illFormed ∧
    exec (.saveComplete (.failed { step := 0, bytes := List.replicate 17 0 })) (netSaving 0) = .refused .illFormed :=
  ⟨rfl, rfl⟩

/-! ### Bytes (12_frame_and_record_formats.md) -/

/-- The check value of R192. -/
theorem test_crc32 : crc32 [0x31, 0x32, 0x33, 0x34, 0x35, 0x36, 0x37, 0x38, 0x39] = 0xCBF43926#32 := by
  decide +kernel

/-- PROBE 41 of terminal 21 at t1 = 1,000,000,000 (R195, the worked encoding). -/
theorem test_probe41 :
    (match exec (.offer 0) netProbe41 with
      | .next t => t.tx[0].current.map fun c => (c.bytes.take 11, c.bytes.length)
      | _ => none) = some ([0x02, 0x15, 0x29, 0x00, 0x00, 0x00, 0x00, 0x3B, 0x9A, 0xCA, 0x00], 15) := by decide +kernel

/-- Bytes on a link as they come (R193): the second byte of a sixteenth fill word on a link that is DOWN makes LINK_UP, which
ends the run; fill words on a link that is UP count no run; and 100 µs of silence make LINK_DOWN. -/
theorem test_linkBytes :
    (∃ t, step { netLink false { receiver 15 with unit := [0x5A] } with arriving := [.byte 5 1] } = .next t ∧
      t.pending = [.linkUp 5] ∧ t.arriving = [] ∧
      ∃ u, step t = .next u ∧ u.ports[(5 : PortIx)].up = true ∧ u.ports[(5 : PortIx)].receiver.fills = 0) ∧
    ((receiver 0).takeAll 5 true 0 (List.replicate 16 ([0x5A, 1] : List Byte)).flatten).1 = receiver 0 ∧
    (∃ t, step (netLink true (heard 12500)) = .next t ∧ t.pending = [.linkDown 5] ∧
      ∃ u, step t = .next u ∧ u.ports[(5 : PortIx)].up = false) := by
  refine ⟨⟨_, rfl, ?_, ?_, _, rfl, ?_, ?_⟩, ?_, ⟨_, rfl, ?_, _, rfl, ?_⟩⟩ <;> decide +kernel

/-- A fill word under HOLD, and sixteen of them in a row on a link that is DOWN (R193). -/
theorem test_fillWords :
    { net with pool := { net.pool with hold := true } }.linkUnit 5 = [0x5A, 1] ∧
    ((receiver 0).takeAll 5 false 0 (List.replicate 16 ([0x5A, 1] : List Byte)).flatten).2 = [.linkUp 5] ∧
    ((receiver 0).takeAll 5 false 0 ((List.replicate 15 ([0x5A, 1] : List Byte)).flatten ++ [0x00, 0x5A, 0])).2 =
      [.miss 5 true] := by
  decide +kernel

/-! ### Time (01_terminal_time.md) -/

/-- The table of R2. -/
theorem test_incOf :
    incOf 0 = 34359738368 ∧ incOf 77500 = 34362401248 ∧ incOf 500000 = 34376918237 ∧ incOf (-500000) = 34342558499 := by decide

/-- The first tick from reset: TT gains 8 ns and ET one tick (R1, R2). -/
theorem test_advance :
    exec .advance State.reset = .next { State.reset with time := { TimeBase.coldReset with tt := 8, et := 1 } } := rfl

/-- Edges a, c and d of the table of R13. -/
theorem test_ppsOffset :
    ppsOffset 7000000350 = -350 ∧ ppsOffset 7999900200 = 99800 ∧ ppsOffset 8500000000 = 500000000 := by decide

/-! ### Lanes (02_lanes_and_modem_reports.md) -/

/-- The worked example "a fade gathers": reports 7 to 12. -/
theorem test_trend :
    let r7 := [-470, -472, -471, -475, -480, -488, -495]
    let r8 := pushRsl r7 (-503)
    let r11 := pushRsl (pushRsl (pushRsl r8 (-512)) (-520)) (-505)
    trendOf 30 r7 = .steady ∧ trendOf 30 r8 = .falling ∧ r11 = [-475, -480, -488, -495, -503, -512, -520, -505] ∧
    trendOf 30 r11 = .falling ∧ trendOf 30 (pushRsl r11 (-498)) = .steady := by decide

/-! ### Routes (03, 06) -/

/-- The examples of R50 and R51. -/
theorem test_delays :
    forwardDelay 1221400 400 = 610900 ∧ forwardDelay 1221401 0 = 610700 ∧ forwardDelay 1221401 (-2) = 610699 ∧
    forwardDelay 300 (-1000) = 0 ∧ theta 2800 0 = 1400 ∧ theta (-2801) 0 = -1401 := by decide

/-- Step 1 of the worked case of chapter 06 on its routes 4 (radio, step 7, F 3,912,400, Q 1,200) and 7 (fiber,
F 5,380,000). -/
theorem test_expectedArrival : netArrivals.expectedArrival 200 1 = 3941040 ∧ netArrivals.expectedArrival 200 0 = 5380189 := by
  decide +kernel

/-- The worked grants of chapter 07: offers 1 to 6, each from the queue and pointer the one before left. -/
theorem test_grants :
    grant cal07 0 [fa, fb, fc, fd, fe, ff] = some (fc, some 0) ∧ grant cal07 1 [fa, fb, fd, fe, ff] = some (fb, some 1) ∧
    grant cal07 2 [fa, fd, fe, ff] = some (fd, some 2) ∧ grant cal07 3 [fa, fe, ff] = some (fe, some 4) ∧
    grant cal07 5 [fa, ff] = some (fa, none) ∧ grant cal07 5 [ff] = some (ff, none) := by decide

/-! ### The duplicate window (08): the worked case of chapter 08, steps 1 to 9 -/

theorem test_window :
    win2.judge 65531 = .duplicate entry1 ∧ win2.judge 2 = .ahead 7 ∧ win3.judge 65533 = .fill 5 ∧
    win4.judge 65533 = .duplicate entry1 ∧ win4.judge 65470 = .stale ∧ win4.judge 65531 = .duplicate entry1 ∧
    win4.judge 70 = .ahead 68 ∧ (win4.accept 70 entry1 (.ahead 68)).judge 2 = .stale := by decide +kernel

/-! ### The profile (11, 12) -/

/-- An image with every record is 1,235 bytes long (R198). -/
theorem test_longestImage :
    (imageSections { settings := Settings.safe, circuits := List.replicate 64 saved0 }).length = 1225 := by
  decide +kernel

/-- A load of an erased flash is EMPTY and leaves the SAFE settings live (R184, R185). -/
theorem test_load_empty :
    (match exec (.loadEnd true) State.reset with
      | .next t => decide (t.profile.outcome = some .empty ∧ t.profile.load = .running ∧ t.cfg = Settings.safe)
      | _ => false) = true := by decide +kernel

/-! ### The statements' hypotheses

`witness_<Name>` shows, for each clause of `Obligations.<Name>`, a state and operands that meet its hypotheses. -/

/-- A command in front; nothing to do; a link silent for 100 µs; and one tick short of it, a command or a byte to come. -/
theorem witness_StepRunsFrontCommand :
    (netQueue.pending = [.advance] ∧ net.pending = [] ∧ (∀ p : PortIx, net.silent p = false) ∧ net.arriving = []) ∧
    ((netLink true (heard 12500)).pending = [] ∧ (netLink true (heard 12500)).silent 5 = true) ∧
    ((netLink true (heard 12499)).pending = [] ∧ ∀ p : PortIx, (netLink true (heard 12499)).silent p = false) ∧
    ({ netLink true (heard 12499) with arriving := [.command .advance] }.arriving = .command .advance :: [] ∧
      { netLink true (heard 12499) with arriving := [.byte 5 0x5A] }.arriving = .byte 5 0x5A :: [] ∧
      (heard 12499).take 5 true net.time.et 0x5A = ({ heard 0 with unit := [0x5A] }, [])) := by
  refine ⟨?_, ?_, ?_, ?_⟩ <;> decide +kernel

theorem witness_WellFormedCommandsComplete :
    (∃ (c : Instr), c.wf = true) ∧
    (∃ (c : Instr), c.wf = false) := by
    refine ⟨⟨Instr.frameEnd 0 (List.replicate 1531 0), ?_⟩,
    ⟨Instr.frameEnd 0 (List.replicate 1532 0), ?_⟩⟩ <;> decide +kernel

theorem witness_HoldoverBegins :
    (∃ (s : State) (since : Ticks), s.time.state = .acquiring ∧ s.time.lastOffset = some since ∧ s.cfg.time.holdover *
      125000 ≤ (s.time.et - since).toNat) ∧
    (∃ (s : State) (since : Ticks), s.time.state = .locked ∧ s.time.lastOffset = some since ∧ s.cfg.time.holdover *
      125000 ≤ (s.time.et - since).toNat) ∧
    (∃ (s : State), s.time.state = .free) ∧
    (∃ (s : State), s.time.state = .holdover) ∧
    (∃ (s : State) (since : Ticks), s.time.lastOffset = some since ∧ (s.time.et - since).toNat < s.cfg.time.holdover *
      125000) := by
    refine ⟨⟨netTime .acquiring 125000000, 875000000, ?_⟩,
    ⟨netTime .locked 125000000, 875000000, ?_⟩,
    ⟨netTime .free 125000000, ?_⟩,
    ⟨netTime .holdover 125000000, ?_⟩,
    ⟨netTime .locked 124999999, 875000001, ?_⟩⟩ <;> decide +kernel

theorem witness_PpsEdgeJudged :
    (∃ (s : State) (since : Ticks), s.time.lastEdge = some since ∧ (s.time.et - since).toNat < 62500000) ∧
    (∃ (s : State), s.time.lastEdge.all (fun e => decide (62500000 ≤ (s.time.et - e).toNat)) = true ∧
      s.cfg.time.ppsEnable = false) ∧
    (∃ (s : State), s.time.lastEdge.all (fun e => decide (62500000 ≤ (s.time.et - e).toNat)) = true ∧ s.cfg.time.role
      = .follower) := by
    refine ⟨⟨netPps 62499999 0, 937500001, ?_⟩,
    ⟨net, ?_⟩,
    ⟨netFollowPps, ?_⟩⟩ <;> decide +kernel

theorem witness_PpsOffsetDisciplines :
    (∃ (s : State), s.time.lastEdge.all (fun e => decide (62500000 ≤ (s.time.et - e).toNat)) = true ∧ s.cfg.time.role
      = .reference ∧ s.cfg.time.ppsEnable = true ∧ s.cfg.time.stepLimit ≤ (100000 : Int).natAbs) ∧
    (∃ (s : State), s.time.lastEdge.all (fun e => decide (62500000 ≤ (s.time.et - e).toNat)) = true ∧ s.cfg.time.role
      = .reference ∧ s.cfg.time.ppsEnable = true ∧ (99999 : Int).natAbs < s.cfg.time.stepLimit) := by
    refine ⟨⟨netPps 62500000 4999900000, ?_⟩,
    ⟨netPps 62500000 4999900001, ?_⟩⟩ <;> decide +kernel

theorem witness_SetTimeTakesEffect :
    (∀ x ∈ [(netTime .locked 12499999, timeFast), (netTime .acquiring 12500000, timeFollow), (netTime .free 12500000, timeFast),
        (netTime .holdover 12500000, timeFast), (net, timeFast)],
      x.1.Authorised (dir 13 (timeRecord x.2)) 13 15 ∧ x.2.ok = true ∧
        (x.1.time.state = .free ∨ x.1.time.state = .holdover ∨ x.1.time.lastOffset = none ∨
          x.1.time.lastOffset.any (fun since => decide ((x.1.time.et - since).toNat < x.2.holdover * 125000)) = true)) ∧
    (∀ s ∈ [netTime .locked 12500000, netTime .acquiring 12500000],
      s.Authorised (dir 13 (timeRecord timeFast)) 13 15 ∧ timeFast.ok = true ∧
        (s.time.state = .acquiring ∨ s.time.state = .locked) ∧ s.time.lastOffset = some (time0.et - 12500000) ∧
        timeFast.holdover * 125000 ≤ (s.time.et - (time0.et - 12500000)).toNat) ∧
    (net.Authorised (dir 13 (timeRecord timeWild)) 13 15 ∧ timeWild.ok = false ∧ timeWild.stepLimit < 2 ^ 32 ∧
      timeWild.lockLimit < 2 ^ 32 ∧ timeWild.ki < 256 ∧ timeWild.kp < 256 ∧ timeWild.holdover < 65536) ∧
    ∀ bs ∈ ([[2, 0, 0], [0, 4, 0], [1, 3, 2]] : List (List Byte)), ∀ d : Directive,
      d = dir 13 (bs ++ (timeRecord timeFast).drop 3) → net.Authorised d 13 15 ∧
        (1 < (d.args.getD 0 0).toNat ∨ 3 < (d.args.getD 1 0).toNat ∨ 1 < (d.args.getD 2 0).toNat) := by
  refine ⟨by decide +kernel, by decide +kernel, by decide +kernel, fun bs h d hd => ?_⟩
  subst hd
  revert bs
  decide +kernel

theorem witness_TimeRouteIsLeast :
    (∃ (s : State), s.TimeRouteSound ∧ s.cfg.time.role = .reference) ∧
    (∃ (s : State) (r : RouteIx), s.TimeRouteSound ∧ s.cfg.time.role = .follower ∧ s.time.timeRoute = some r) := by
    refine ⟨⟨net, ?_⟩,
    ⟨netFollower, 0, ?_⟩⟩ <;> decide +kernel

theorem witness_LosLevels :
    (∃ (s : State) (r : RouteIx), s.lanes[r].los = true) ∧
    (∃ (s : State) (r : RouteIx), s.lanes[r].los = false ∧ s.cfg.lanes[r].type = .unused) ∧
    (∃ (s : State) (r : RouteIx), s.lanes[r].los = false ∧ s.cfg.lanes[r].type ≠ .unused) ∧
    (∃ (s : State) (r : RouteIx), s.lanes[r].los = false ∧ s.cfg.lanes[r].type ≠ .unused) ∧
    (∃ (s : State) (r : RouteIx), s.lanes[r].los = true ∧ s.cfg.lanes[r].type = .unused) ∧
    (∃ (s : State) (r : RouteIx), s.lanes[r].los = true ∧ s.cfg.lanes[r].type ≠ .unused) := by
    refine ⟨⟨netLos 0, 0, ?_⟩,
    ⟨net, 15, ?_⟩,
    ⟨net, 1, ?_⟩,
    ⟨net, 0, ?_⟩,
    ⟨netLos 15, 15, ?_⟩,
    ⟨netLosDown, 0, ?_⟩⟩ <;> decide +kernel

/-- LOS on a lane whose current frame is the last copy of a circuit with a close pending, its route UP and DOWN. -/
theorem witness_LosLevels_closing :
    ∀ s ∈ [netClosing, netClosing.modHealth 0 fun h => { h with state := .down }],
      s.lanes[(0 : RouteIx)].los = false ∧ s.cfg.lanes[(0 : RouteIx)].type ≠ .unused ∧
      (s.tx[(0 : RouteIx)].current.bind Current.copy).map Copy.circuit = some 0 ∧
      s.circuits[(0 : CircIx)].closing = some 1 ∧ (s.copyEnds 0).circuits[(0 : CircIx)].state = .closed := by
  decide +kernel

theorem witness_LaneReportTaken :
    (∃ (bs : List Byte), bs.length ≠ 11) ∧
    (∃ (bs : List Byte), bs.length ≠ 11) ∧
    (∃ (bs : List Byte), field bs 7 4 ≠ (crc32 (bs.take 7)).toNat) ∧
    (∃ (bs : List Byte), field bs 0 1 ≠ 1) ∧
    (∃ (s : State) (r : RouteIx) (rsl : Int) (step : Nat) (quality : Nat), -32768 ≤ rsl ∧ rsl ≤ 32767 ∧ step < 256 ∧
      quality < 65536 ∧ s.cfg.lanes[r].type ≠ .radio) ∧
    (∃ (s : State) (r : RouteIx) (rsl : Int) (step : Nat) (quality : Nat), -32768 ≤ rsl ∧ rsl ≤ 32767 ∧ step < 256 ∧
      quality < 65536 ∧ s.cfg.lanes[r].type = .radio) ∧
    (∃ (s : State) (r : RouteIx) (rsl : Int) (step : Nat) (quality : Nat), -32768 ≤ rsl ∧ rsl ≤ 32767 ∧ step < 256 ∧
      quality < 65536 ∧ s.cfg.lanes[r].type = .radio) := by
    refine ⟨⟨List.replicate 10 (1 : Byte), ?_⟩,
    ⟨withCrc [1, 0, 0, 0, 0, 0], ?_⟩,
    ⟨List.replicate 11 (1 : Byte), ?_⟩,
    ⟨withCrc [2, 0, 0, 0, 0, 0, 0], ?_⟩,
    ⟨net, 0, -32768, 255, 65535, ?_⟩,
    ⟨net, 1, 32767, 255, 65535, ?_⟩,
    ⟨netSilent, 1, -1000, 7, 500, ?_⟩⟩ <;> decide +kernel

/-- A full ring at the edges of SLOPE: falling, rising, and one short of either. -/
theorem witness_LaneReportTaken_trend :
    ∀ x ∈ [((-300 : Int), (-330 : Int)), (-330, -300), (-300, -329), (-329, -300)],
      ∃ ring mid : List Int, ring = x.1 :: mid ++ [x.2] ∧ mid.length = 6 :=
  fun x _ => ⟨x.1 :: List.replicate 6 0 ++ [x.2], List.replicate 6 0, rfl, rfl⟩

theorem witness_SilenceFalls :
    (∃ (s : State) (r : RouteIx) (since : Ticks), s.cfg.lanes[r].type = .radio ∧ s.lanes[r].timer = some since ∧
      s.lanes[r].silent = false ∧ 3 * s.cfg.lanes[r].interval * 125000 ≤ (s.time.et - since).toNat) ∧
    (∃ (s : State) (r : RouteIx), s.cfg.lanes[r].type ≠ .radio ∧ s.lanes[r].timer = none) ∧
    (∃ (s : State) (r : RouteIx), s.lanes[r].silent = true) ∧
    (∃ (s : State) (r : RouteIx) (since : Ticks), s.lanes[r].timer = some since ∧ (s.time.et - since).toNat < 3 *
      s.cfg.lanes[r].interval * 125000) := by
    refine ⟨⟨netTimer 996250000, 1, 996250000, ?_⟩,
    ⟨net, 0, ?_⟩,
    ⟨netSilent, 1, ?_⟩,
    ⟨netTimer 996250001, 1, 996250001, ?_⟩⟩ <;> decide +kernel

theorem witness_SetLaneTakesEffect :
    (∃ (s : State) (d : Directive) (r : RouteIx) (x : LaneSettings), s.Authorised d 10 7 ∧ x.InRange ∧ d.args =
      bytesOf 1 r.val ++ laneRecord x ∧ x.type = s.cfg.lanes[r].type ∧ silenceDue s.time.et x s.lanes[r] = false) ∧
    (∃ (s : State) (d : Directive) (r : RouteIx) (x : LaneSettings), s.Authorised d 10 7 ∧ x.InRange ∧ d.args =
      bytesOf 1 r.val ++ laneRecord x ∧ x.type ≠ s.cfg.lanes[r].type) ∧
    (∃ (s : State) (d : Directive) (r : RouteIx) (x : LaneSettings), s.Authorised d 10 7 ∧ x.InRange ∧ d.args =
      bytesOf 1 r.val ++ laneRecord x ∧ x.type ≠ s.cfg.lanes[r].type) := by
    refine ⟨⟨net, dir 10 (bytesOf 1 15 ++ laneRecord laneFar), 15, laneFar, ?_⟩,
    ⟨net, dir 10 (bytesOf 1 1 ++ laneRecord laneFiber), 1, laneFiber, ?_⟩,
    ⟨net, dir 10 (bytesOf 1 0 ++ laneRecord laneOff), 0, laneOff, ?_⟩⟩ <;> decide +kernel

theorem witness_SetLaneTakesEffect_more :
    ((netTimer (time0.et - 375000)).Authorised (dir 10 (bytesOf 1 1 ++ laneRecord laneQuick)) 10 7 ∧ laneQuick.InRange ∧
      laneQuick.type = .radio ∧ (netTimer (time0.et - 375000)).cfg.lanes[(1 : RouteIx)].type = .radio ∧
      (netTimer (time0.et - 375000)).lanes[(1 : RouteIx)].timer = some (time0.et - 375000) ∧
      (netTimer (time0.et - 375000)).lanes[(1 : RouteIx)].silent = false ∧
      3 * laneQuick.interval * 125000 ≤ (time0.et - (time0.et - 375000)).toNat) ∧
    ∀ args ∈ ([[16, 1, 0, 0, 0, 0, 1], [1, 3, 0, 0, 0, 0, 1], [1, 1, 0, 0, 0, 0, 0], [1, 1, 0, 0, 0, 0, 101]] :
        List (List Byte)),
      net.Authorised (dir 10 args) 10 7 ∧
        (15 < (args.getD 0 0).toNat ∨ 2 < (args.getD 1 0).toNat ∨ (args.getD 6 0).toNat = 0 ∨ 100 < (args.getD 6 0).toNat) := by
  decide +kernel

theorem witness_ScheduledRequests :
    (∃ (s : State) (r : RouteIx), s.probes[r].due = none ∧ s.health[r].testDue = none) ∧
    (∃ (s : State) (r : RouteIx) (due : Ticks) (iv : Ticks), iv = BitVec.ofNat 64 (s.cfg.probe.interval * 125000) ∧
      s.cfg.probe.interval * 125000 < 2 ^ 64 ∧ s.probes[r].due = some due ∧ (s.time.et - (due - iv)).toNat < iv.toNat)
      ∧
    (∃ (s : State) (r : RouteIx) (due : Ticks) (iv : Ticks), iv = BitVec.ofNat 64 (s.cfg.probe.interval * 125000) ∧
      s.cfg.probe.interval * 125000 < 2 ^ 64 ∧ s.probes[r].due = some due ∧ iv.toNat ≤ (s.time.et - (due - iv)).toNat)
      ∧
    (∃ (s : State) (r : RouteIx) (due : Ticks) (iv : Ticks), iv = BitVec.ofNat 64 (s.cfg.probe.interval * 125000) ∧
      s.cfg.probe.interval * 125000 < 2 ^ 64 ∧ s.probes[r].due = some due ∧ iv.toNat ≤ (s.time.et - (due - iv)).toNat)
      ∧
    (∃ (s : State) (r : RouteIx) (due : Ticks) (iv : Ticks), iv = BitVec.ofNat 64 (s.cfg.probe.interval * 125000) ∧
      s.cfg.probe.interval * 125000 < 2 ^ 64 ∧ s.health[r].testDue = some due ∧ (s.time.et - (due - iv)).toNat <
      iv.toNat) ∧
    (∃ (s : State) (r : RouteIx) (due : Ticks) (iv : Ticks), iv = BitVec.ofNat 64 (s.cfg.probe.interval * 125000) ∧
      s.cfg.probe.interval * 125000 < 2 ^ 64 ∧ s.health[r].testDue = some due ∧ iv.toNat ≤ (s.time.et - (due -
      iv)).toNat ∧ s.evaluation r = none) ∧
    (∃ (s : State) (r : RouteIx) (due : Ticks) (iv : Ticks) (new : _), iv = BitVec.ofNat 64 (s.cfg.probe.interval *
      125000) ∧ s.cfg.probe.interval * 125000 < 2 ^ 64 ∧ s.health[r].testDue = some due ∧ iv.toNat ≤ (s.time.et - (due
      - iv)).toNat ∧ s.evaluation r = some new ∧ s.health[r].state = .proving) := by
    refine ⟨⟨net, 15, ?_⟩,
    ⟨netDue 1000000001 false, 0, 1000000001, 250000, ?_⟩,
    ⟨netDue 1000000000 true, 0, 1000000000, 250000, ?_⟩,
    ⟨netDue 1000000000 false, 0, 1000000000, 250000, ?_⟩,
    ⟨netProving 0 1000000001 false, 0, 1000000001, 250000, ?_⟩,
    ⟨netProving 31 1000000000 true, 0, 1000000000, 250000, ?_⟩,
    ⟨netProving 32 1000000000 true, 0, 1000000000, 250000, RouteState.up, ?_⟩⟩ <;> decide +kernel

theorem witness_ProbeTimeoutLosesOldest :
    (∃ (s : State) (r : RouteIx), (∀ o ∈ s.probes[r].outstanding, (s.time.et - o.sentAt).toNat < s.cfg.probe.timeout *
      125000)) ∧
    (∃ (s : State) (r : RouteIx) (before : List Outstanding) (after : List Outstanding) (o : Outstanding) (h :
      Health), s.probes[r].outstanding = before ++ o :: after ∧ (∀ x ∈ before, (s.time.et - x.sentAt).toNat <
      s.cfg.probe.timeout * 125000) ∧ s.cfg.probe.timeout * 125000 ≤ (s.time.et - o.sentAt).toNat ∧ (h : Health) = {
      s.health[r] with error := min 255 (s.health[r].error + 8), good := if s.health[r].state = .proving then 0 else
      s.health[r].good } ∧ evalTarget s.cfg.health s.cfg.lanes[r].type s.lanes[r] h = none) := by
    refine ⟨⟨netOut [sent 3 1999999], 0, ?_⟩,
    ⟨netOut [sent 2 1999999, sent 3 2000000, sent 4 2000000], 0, [sent 2 1999999], [sent 4 2000000], sent 3 2000000,
      health8, ?_⟩⟩ <;> decide +kernel

theorem witness_SetProbeTakesEffect :
    (∃ (s : State) (d : Directive) (x : ProbeSettings), s.Authorised d 12 4 ∧ d.args = probeRecord x ∧ x.interval <
      256 ∧ x.timeout < 256 ∧ x.gate < 65536 ∧ x.ok = false) ∧
    (∃ (s : State) (d : Directive) (x : ProbeSettings), s.Authorised d 12 4 ∧ d.args = probeRecord x ∧ x.interval <
      256 ∧ x.timeout < 256 ∧ x.gate < 65536 ∧ x.ok = true ∧ (∀ r : RouteIx, ∀ o ∈ s.probes[r].outstanding, (s.time.et
      - o.sentAt).toNat < x.timeout * 125000)) ∧
    (∃ (s : State) (d : Directive) (x : ProbeSettings), s.Authorised d 12 4 ∧ d.args = probeRecord x ∧ x.interval <
      256 ∧ x.timeout < 256 ∧ x.gate < 65536 ∧ x.ok = true) := by
    refine ⟨⟨net, dir 12 (probeRecord probeWild), probeWild, ?_⟩,
    ⟨netOut [sent 3 1999999], dir 12 (probeRecord probeSlow), probeSlow, ?_⟩,
    ⟨netOut [sent 3 1999999, sent 4 250000], dir 12 (probeRecord probeFast), probeFast, ?_⟩⟩ <;> decide +kernel

/-- A record at the new timeout on route 0, and PROBE_TIMEOUT under the new settings. -/
theorem witness_SetProbeTakesEffect_due :
    (netOut [sent 3 250000]).Authorised (dir 12 (probeRecord probeFast)) 12 4 ∧ probeFast.ok = true ∧
    (∃ o ∈ (netOut [sent 3 250000]).probes[(0 : RouteIx)].outstanding,
      probeFast.timeout * 125000 ≤ ((netOut [sent 3 250000]).time.et - o.sentAt).toNat) ∧
    ∃ t, exec (.probeTimeout 0) { netOut [sent 3 250000] with cfg := { cfg0 with probe := probeFast } } = .next t :=
  ⟨by decide +kernel, by decide +kernel, by decide +kernel, ⟨_, rfl⟩⟩

theorem witness_EchoResolved :
    (∃ (s : State) (r : RouteIx) (rx : Rx) (rest : List Byte) (number : Byte) (errors : Byte) (view : Byte) (t1 :
      Stamp) (t2 : Stamp) (t3 : Stamp), s.lanes[r].rx = some rx ∧ rx.store = .buffer ∧ s.health[r].state ≠ .disabled ∧
      rx.first :: rest = withCrc ([3, s.cfg.peers[s.cfg.routes[r].peer].termId, number, errors, view] ++ bytesOf 8 (t1
      : Stamp).toNat ++ bytesOf 8 (t2 : Stamp).toNat ++ bytesOf 8 (t3 : Stamp).toNat) ∧ (∀ o ∈
      s.probes[r].outstanding, o.number ≠ number)) ∧
    (∃ (s : State) (r : RouteIx) (rx : Rx) (rest : List Byte) (number : Byte) (errors : Byte) (view : Byte) (t1 :
      Stamp) (t2 : Stamp) (t3 : Stamp) (before : List Outstanding) (after : List Outstanding) (o : Outstanding),
      s.lanes[r].rx = some rx ∧ rx.store = .buffer ∧ s.health[r].state ≠ .disabled ∧ rx.first :: rest = withCrc ([3,
      s.cfg.peers[s.cfg.routes[r].peer].termId, number, errors, view] ++ bytesOf 8 (t1 : Stamp).toNat ++ bytesOf 8 (t2
      : Stamp).toNat ++ bytesOf 8 (t3 : Stamp).toNat) ∧ s.probes[r].outstanding = before ++ o :: after ∧ (∀ x ∈
      before, x.number ≠ number) ∧ o.number = number ∧ roundTrip t1 t2 t3 rx.stamp < 0) ∧
    (∃ (s : State) (r : RouteIx) (rx : Rx) (rest : List Byte) (number : Byte) (errors : Byte) (view : Byte) (t1 :
      Stamp) (t2 : Stamp) (t3 : Stamp) (before : List Outstanding) (after : List Outstanding) (o : Outstanding),
      s.lanes[r].rx = some rx ∧ rx.store = .buffer ∧ s.health[r].state ≠ .disabled ∧ rx.first :: rest = withCrc ([3,
      s.cfg.peers[s.cfg.routes[r].peer].termId, number, errors, view] ++ bytesOf 8 (t1 : Stamp).toNat ++ bytesOf 8 (t2
      : Stamp).toNat ++ bytesOf 8 (t3 : Stamp).toNat) ∧ s.probes[r].outstanding = before ++ o :: after ∧ (∀ x ∈
      before, x.number ≠ number) ∧ o.number = number ∧ o.t1 = t1 ∧ 0 ≤ roundTrip t1 t2 t3 rx.stamp) := by
    refine ⟨⟨receives (netOut [sent 4 9]) (echo 3 0 4999000000 1000 1001) .buffer, 0, rxOf (echo 3 0 4999000000 1000
    1001) .buffer, (echo 3 0 4999000000 1000 1001).drop 1, 3, 0, 2, 4999000000, 1000, 1001, ?_⟩,
    ⟨receives (netOut [sent 4 9, sent 3 9]) (echo 3 1 4999000000 1000 1001001) .buffer, 0, rxOf (echo 3 1 4999000000
      1000 1001001) .buffer, (echo 3 1 4999000000 1000 1001001).drop 1, 3, 1, 2, 4999000000, 1000, 1001001, [sent 4
      9], [], sent 3 9, ?_⟩,
    ⟨receives (netOut [sent 4 9, sent 3 9]) (echo 3 0 4999000000 1000 1001000) .buffer, 0, rxOf (echo 3 0 4999000000
      1000 1001000) .buffer, (echo 3 0 4999000000 1000 1001000).drop 1, 3, 0, 2, 4999000000, 1000, 1001000, [sent 4
      9], [], sent 3 9, ?_⟩⟩ <;> decide +kernel

/-- A wrong t1. -/
theorem witness_EchoResolved_t1 :
    ∀ s : State, s = receives (netOut [sent 4 9, sent 3 9]) (echo 3 0 4999000001 1000 1001) .buffer →
      s.lanes[(0 : RouteIx)].rx = some (rxOf (echo 3 0 4999000001 1000 1001) .buffer) ∧
      s.health[(0 : RouteIx)].state ≠ .disabled ∧ s.probes[(0 : RouteIx)].outstanding = [sent 4 9] ++ sent 3 9 :: [] ∧
      (sent 3 9).number = 3 ∧ (sent 3 9).t1 ≠ 4999000001 := by
  intro s hs; subst hs; decide +kernel

/-- GOOD samples of a FOLLOWER: with the gate open, a step, a step to below 0, a slew, and an RTT of M plus GATE; and with it
closed, an RTT one above. -/
theorem witness_EchoResolved_gate :
    ∀ x ∈ ([(5000000000, 1000, 1001000, true), (1000, 1000, 1001000, true), (5000000000, 4999000010, 5000000010, true),
        (5000000000, 4999000010, 4999994010, true), (5000000000, 4999000010, 4999994009, false)] :
        List (Nat × Nat × Nat × Bool)),
      (netGate (BitVec.ofNat 64 x.1)).health[(0 : RouteIx)].state ≠ .disabled ∧
      (netGate (BitVec.ofNat 64 x.1)).probes[(0 : RouteIx)].outstanding = [sent 4 9] ++ sent 3 9 :: [] ∧ (sent 3 9).t1 = 4999000000 ∧
      0 ≤ roundTrip 4999000000 (BitVec.ofNat 64 x.2.1) (BitVec.ofNat 64 x.2.2.1) 5000000000 ∧
      decide ((netGate (BitVec.ofNat 64 x.1)).GateOpens 0 (sampleOf (BitVec.ofNat 64 x.2.1) (BitVec.ofNat 64 x.2.2.1))) =
        x.2.2.2 := by
  decide +kernel

theorem witness_ProbesAnsweredTestsChecked :
    (∃ (s : State) (r : RouteIx) (rx : Rx) (rest : List Byte) (number : Byte) (t1 : Stamp), s.lanes[r].rx = some rx ∧
      rx.store = .buffer ∧ s.health[r].state ≠ .disabled ∧ rx.first :: rest = withCrc ([2,
      s.cfg.peers[s.cfg.routes[r].peer].termId, number] ++ bytesOf 8 (t1 : Stamp).toNat) ∧ s.tx[r].echoes.length < 4)
      ∧
    (∃ (s : State) (r : RouteIx) (rx : Rx) (rest : List Byte) (number : Byte) (t1 : Stamp), s.lanes[r].rx = some rx ∧
      rx.store = .buffer ∧ s.health[r].state ≠ .disabled ∧ rx.first :: rest = withCrc ([2,
      s.cfg.peers[s.cfg.routes[r].peer].termId, number] ++ bytesOf 8 (t1 : Stamp).toNat) ∧ 4 ≤ s.tx[r].echoes.length)
      ∧
    (∃ (s : State) (r : RouteIx) (rx : Rx) (rest : List Byte) (seed : BitVec 16) (received : List Byte), s.lanes[r].rx
      = some rx ∧ rx.store = .buffer ∧ s.health[r].state ≠ .disabled ∧ received.length ≤ 1524 ∧ rx.first :: rest =
      withCrc ([4, s.cfg.peers[s.cfg.routes[r].peer].termId] ++ bytesOf 2 (seed : BitVec 16).toNat) ++ received ∧
      received = pattern seed) ∧
    (∃ (s : State) (r : RouteIx) (rx : Rx) (rest : List Byte) (seed : BitVec 16) (received : List Byte), s.lanes[r].rx
      = some rx ∧ rx.store = .buffer ∧ s.health[r].state ≠ .disabled ∧ received.length ≤ 1524 ∧ rx.first :: rest =
      withCrc ([4, s.cfg.peers[s.cfg.routes[r].peer].termId] ++ bytesOf 2 (seed : BitVec 16).toNat) ++ received ∧
      received ≠ pattern seed) := by
    refine ⟨⟨receives (netEchoes 3) (probeOf 9 255 77) .buffer, 0, rxOf (probeOf 9 255 77) .buffer, (probeOf 9 255
    77).drop 1, 255, 77, ?_⟩,
    ⟨receives (netEchoes 4) (probeOf 9 255 77) .buffer, 0, rxOf (probeOf 9 255 77) .buffer, (probeOf 9 255 77).drop 1,
      255, 77, ?_⟩,
    ⟨receives net (testOf 1 (pattern 1)) .buffer, 0, rxOf (testOf 1 (pattern 1)) .buffer, (testOf 1 (pattern 1)).drop
      1, 1, pattern 1, ?_⟩,
    ⟨receives net (testOf 1 ((pattern 1) ++ [0])) .buffer, 0, rxOf (testOf 1 ((pattern 1) ++ [0])) .buffer, (testOf 1
      ((pattern 1) ++ [0])).drop 1, 1, (pattern 1) ++ [0], ?_⟩⟩ <;> decide +kernel

theorem witness_FramesFailAndEnd :
    (∃ (s : State) (r : RouteIx), s.lanes[r].rx = none) ∧
    (∃ (s : State) (r : RouteIx) (rest : List Byte) (rx : Rx), s.lanes[r].rx = some rx ∧ rest.length < 1532 ∧ rx.store
      = .unreceived) ∧
    (∃ (s : State) (r : RouteIx) (rest : List Byte) (rx : Rx), s.lanes[r].rx = some rx ∧ rest.length < 1532 ∧
      s.health[r].state = .disabled) ∧
    (∃ (s : State) (r : RouteIx) (rest : List Byte) (rx : Rx) (h : Health), s.lanes[r].rx = some rx ∧ h.error = min
      255 (s.health[r].error + 1) ∧ rx.store ≠ .unreceived ∧ s.health[r].state ≠ .disabled ∧ rest.length < 1532 ∧
      frameCrcGood (rx.first :: rest) = false ∧ evalTarget s.cfg.health s.cfg.lanes[r].type s.lanes[r] h = none) := by
    refine ⟨⟨net, 0, ?_⟩,
    ⟨netRx 1 .unreceived, 0, List.replicate 1531 0, rxOf [1] .unreceived, ?_⟩,
    ⟨netRxOff, 0, [], rxOf [1] (.slot 7), ?_⟩,
    ⟨netRx 1 (.slot 7), 0, [0, 0, 0, 0], rxOf [1] (.slot 7), healthBad, ?_⟩⟩ <;> decide +kernel

theorem witness_ConditionsExclude :
    (∃ (h : HealthSettings), h.ok = true) ∧
    (∃ (ty : LaneType) (l : Lane), ty = .radio ∧ l.latest = none) := by
    refine ⟨⟨HealthSettings.safe, ?_⟩,
    ⟨LaneType.radio, Lane.coldReset false, ?_⟩⟩ <;> decide +kernel

theorem witness_SetRouteTakesEffect :
    (∃ (s : State) (d : Directive) (r : RouteIx) (x : RouteSettings), s.Authorised d 9 7 ∧ d.args = bytesOf 1 r.val ++
      routeRecord x ∧ -1000000 ≤ x.a ∧ x.a ≤ 1000000 ∧ x.enable = true ∧ x.peer ≠ s.cfg.routes[r].peer ∧
      s.health[r].state ≠ .disabled) ∧
    (∃ (s : State) (d : Directive) (r : RouteIx) (x : RouteSettings), s.Authorised d 9 7 ∧ d.args = bytesOf 1 r.val ++
      routeRecord x ∧ -1000000 ≤ x.a ∧ x.a ≤ 1000000 ∧ x.enable = false) ∧
    (∃ (s : State) (d : Directive) (r : RouteIx) (x : RouteSettings), s.Authorised d 9 7 ∧ d.args = bytesOf 1 r.val ++
      routeRecord x ∧ -1000000 ≤ x.a ∧ x.a ≤ 1000000 ∧ s.health[r].state = .disabled) ∧
    (∃ (s : State) (d : Directive) (r : RouteIx) (x : RouteSettings), s.Authorised d 9 7 ∧ d.args = bytesOf 1 r.val ++
      routeRecord x ∧ -1000000 ≤ x.a ∧ x.a ≤ 1000000 ∧ x.peer = s.cfg.routes[r].peer ∧ s.health[r].state ≠ .disabled)
      := by
    refine ⟨⟨netBusy, dir 9 (bytesOf 1 0 ++ routeRecord routeAway), 0, routeAway, ?_⟩,
    ⟨netBusy, dir 9 (bytesOf 1 0 ++ routeRecord routeOff), 0, routeOff, ?_⟩,
    ⟨netBusy, dir 9 (bytesOf 1 15 ++ routeRecord routeOn), 15, routeOn, ?_⟩,
    ⟨netBusy, dir 9 (bytesOf 1 1 ++ routeRecord routeOn), 1, routeOn, ?_⟩⟩ <;> decide +kernel

theorem witness_SetRouteTakesEffect_wild :
    ∀ args ∈ ([[16, 1, 0, 0, 0, 0, 0], [0, 2, 0, 0, 0, 0, 0], [0, 1, 4, 0, 0, 0, 0], [0, 1, 0] ++ bytesOfInt 4 1000001,
        [0, 1, 0] ++ bytesOfInt 4 (-1000001)] : List (List Byte)),
      net.Authorised (dir 9 args) 9 7 ∧
        (15 < (args.getD 0 0).toNat ∨ 1 < (args.getD 1 0).toNat ∨ 3 < (args.getD 2 0).toNat ∨
          signedField args 3 4 < -1000000 ∨ 1000000 < signedField args 3 4) := by
  decide +kernel

theorem witness_SetPeerTakesEffect :
    (∃ (s : State) (d : Directive) (p : PeerIx) (x : PeerSettings), s.Authorised d 8 3 ∧ d.args = bytesOf 1 p.val ++
      peerRecord x ∧ x.enabled = true ∧ x.termId = s.cfg.termId) ∧
    (∃ (s : State) (d : Directive) (p : PeerIx) (x : PeerSettings), s.Authorised d 8 3 ∧ d.args = bytesOf 1 p.val ++
      peerRecord x ∧ x.enabled = true ∧ (0 : PeerIx) ≠ p ∧ s.cfg.peers[(0 : PeerIx)].enabled = true ∧ s.cfg.peers[(0 :
      PeerIx)].termId = x.termId) ∧
    (∃ (s : State) (d : Directive) (p : PeerIx) (x : PeerSettings), s.Authorised d 8 3 ∧ d.args = bytesOf 1 p.val ++
      peerRecord x ∧ (x.enabled = true → x.termId ≠ s.cfg.termId ∧ ∀ q : PeerIx, q ≠ p → s.cfg.peers[q].enabled = true
      → s.cfg.peers[q].termId ≠ x.termId)) ∧
    (∃ (s : State) (d : Directive) (p : PeerIx) (x : PeerSettings), s.Authorised d 8 3 ∧ d.args = bytesOf 1 p.val ++
      peerRecord x ∧ (x.enabled = true → x.termId ≠ s.cfg.termId ∧ ∀ q : PeerIx, q ≠ p → s.cfg.peers[q].enabled = true
      → s.cfg.peers[q].termId ≠ x.termId)) ∧
    (∃ (s : State) (d : Directive) (p : PeerIx) (x : PeerSettings), s.Authorised d 8 3 ∧ d.args = bytesOf 1 p.val ++
      peerRecord x ∧ (x.enabled = true → x.termId ≠ s.cfg.termId ∧ ∀ q : PeerIx, q ≠ p → s.cfg.peers[q].enabled = true
      → s.cfg.peers[q].termId ≠ x.termId)) ∧
    (∃ (s : State) (d : Directive) (p : PeerIx) (x : PeerSettings), s.Authorised d 8 3 ∧ d.args = bytesOf 1 p.val ++
      peerRecord x ∧ (x.enabled = true → x.termId ≠ s.cfg.termId ∧ ∀ q : PeerIx, q ≠ p → s.cfg.peers[q].enabled = true
      → s.cfg.peers[q].termId ≠ x.termId)) := by
    refine ⟨⟨net, dir 8 (bytesOf 1 3 ++ peerRecord peerSame), 3, peerSame, ?_⟩,
    ⟨net, dir 8 (bytesOf 1 3 ++ peerRecord route9), 3, route9, ?_⟩,
    ⟨netBusy, dir 8 (bytesOf 1 0 ++ peerRecord peerOff), 0, peerOff, ?_⟩,
    ⟨netBusy, dir 8 (bytesOf 1 0 ++ peerRecord peerMoved), 0, peerMoved, ?_⟩,
    ⟨netPeerOff, dir 8 (bytesOf 1 0 ++ peerRecord peerMoved), 0, peerMoved, ?_⟩,
    ⟨netBusy, dir 8 (bytesOf 1 3 ++ peerRecord peerOff), 3, peerOff, ?_⟩⟩ <;> decide +kernel

theorem witness_SetPeerTakesEffect_wild :
    ∀ args ∈ ([[4, 1, 9], [3, 2, 9]] : List (List Byte)),
      net.Authorised (dir 8 args) 8 3 ∧ (3 < (args.getD 0 0).toNat ∨ 1 < (args.getD 1 0).toNat) := by
  decide +kernel

theorem witness_SetHealthTakesEffect :
    (∃ (s : State) (d : Directive) (x : HealthSettings), s.Authorised d 11 9 ∧ d.args = healthRecord x ∧ x.ok = true)
      ∧
    (∃ (s : State) (d : Directive) (x : HealthSettings), s.Authorised d 11 9 ∧ d.args = healthRecord x ∧ x.ok = false
      ∧ x.warn < 256 ∧ x.cut < 256 ∧ -32768 ≤ x.rslFade ∧ x.rslFade ≤ 32767 ∧ -32768 ≤ x.rslCut ∧ x.rslCut ≤ 32767 ∧
      x.hyst < 256 ∧ x.slope < 256 ∧ x.proveWindows < 256) := by
    refine ⟨⟨netBusy, dir 11 (healthRecord healthLow), healthLow, ?_⟩,
    ⟨net, dir 11 (healthRecord healthWild), healthWild, ?_⟩⟩ <;> decide +kernel

theorem witness_TestRouteProves :
    (∃ (s : State) (d : Directive) (r : RouteIx), s.Authorised d 19 1 ∧ d.args = [BitVec.ofNat 8 r.val] ∧
      s.health[r].state = .disabled) ∧
    (∃ (s : State) (d : Directive) (r : RouteIx), s.Authorised d 19 1 ∧ d.args = [BitVec.ofNat 8 r.val] ∧
      s.health[r].state = .proving) ∧
    (∃ (s : State) (d : Directive) (r : RouteIx), s.Authorised d 19 1 ∧ d.args = [BitVec.ofNat 8 r.val] ∧
      s.health[r].state ≠ .disabled ∧ s.health[r].state ≠ .proving) := by
    refine ⟨⟨net, dir 19 [BitVec.ofNat 8 15], 15, ?_⟩,
    ⟨netProving 31 1000000001 false, dir 19 [BitVec.ofNat 8 0], 0, ?_⟩,
    ⟨netBusy, dir 19 [BitVec.ofNat 8 0], 0, ?_⟩⟩ <;> decide +kernel

/-- A DOWN route, an UP route with no copy, and one copy in each of the four cases of R128, its age at the edge of max age. -/
theorem witness_TestRouteProves_resteer :
    (netLosDown.Authorised (dir 19 [0]) 19 1 ∧ netLosDown.health[(0 : RouteIx)].state = .down) ∧
    (net.Authorised (dir 19 [0]) 19 1 ∧ net.health[(0 : RouteIx)].state = .up ∧ net.tx[(0 : RouteIx)].queue = []) ∧
    (∀ s ∈ [netTwin, netAged 1250, netAged 1249, netStuck],
      s.Authorised (dir 19 [0]) 19 1 ∧ s.health[(0 : RouteIx)].state = .up ∧ s.tx[(0 : RouteIx)].queue = [copy0] ∧
        (s.pool.frame 7).isSome = true ∧ s.circuits[(0 : CircIx)].defn = some def0) ∧
    netTwin.HeldOnOther 0 7 ∧
    (¬ (netAged 1250).HeldOnOther 0 7 ∧ 10 * 1000 ≤ ((netAged 1250).time.et - copy0.origin).toNat * 8) ∧
    (¬ (netAged 1249).HeldOnOther 0 7 ∧ ((netAged 1249).time.et - copy0.origin).toNat * 8 < 10 * 1000 ∧
      (netAged 1249).ResteersTo 0 1 0 1) ∧
    (¬ netStuck.HeldOnOther 0 7 ∧ (netStuck.time.et - copy0.origin).toNat * 8 < 10 * 1000) ∧
    (∀ q : RouteIx, ¬ netStuck.ResteersTo 0 1 0 q) ∧
    (net.Authorised (dir 19 [16]) 19 1 ∧ 15 < ((dir 19 [16]).args.getD 0 0).toNat) := by
  refine ⟨?_, ?_, ?_, ?_, ?_, ?_, ?_, ?_, ?_⟩ <;> decide +kernel

theorem witness_OpenCircuitSetsRecord :
    (∃ (s : State) (d : Directive) (n : CircIx) (defn : CircuitDef), s.Authorised d 15 10 ∧ defn.InRange n ∧ d.args =
      (circuitRecord { number := n, paused := false, defn := defn }).drop 1 ∧ s.circuits[n].state ≠ .closed) ∧
    (∃ (s : State) (d : Directive) (n : CircIx) (defn : CircuitDef), s.Authorised d 15 10 ∧ defn.InRange n ∧ d.args =
      (circuitRecord { number := n, paused := false, defn := defn }).drop 1 ∧ s.circuits[n].closing ≠ none) ∧
    (∃ (s : State) (d : Directive) (n : CircIx) (defn : CircuitDef), s.Authorised d 15 10 ∧ defn.InRange n ∧ d.args =
      (circuitRecord { number := n, paused := false, defn := defn }).drop 1 ∧ s.circuits[n].state = .closed ∧
      s.circuits[n].closing = none ∧ defn.flow = .out 3 .fast 1 ∧ (0 : CircIx) ≠ n ∧ s.circuits[(0 : CircIx)].feeds
      defn.peer 3 = true) ∧
    (∃ (s : State) (d : Directive) (n : CircIx) (defn : CircuitDef), s.Authorised d 15 10 ∧ defn.InRange n ∧ d.args =
      (circuitRecord { number := n, paused := false, defn := defn }).drop 1 ∧ s.circuits[n].state = .closed ∧
      s.circuits[n].closing = none ∧ (∀ m : CircIx, m ≠ n → s.circuits[m].feeds defn.peer 63 = false)) ∧
    (∃ (s : State) (d : Directive) (n : CircIx) (defn : CircuitDef), s.Authorised d 15 10 ∧ defn.InRange n ∧ d.args =
      (circuitRecord { number := n, paused := false, defn := defn }).drop 1 ∧ s.circuits[n].state = .closed ∧
      s.circuits[n].closing = none ∧ defn.flow = .inn (some 0)) := by
    refine ⟨⟨net, opens 0 defOut, 0, defOut, ?_⟩,
    ⟨netClosing, opens 0 defOut, 0, defOut, ?_⟩,
    ⟨net, opens 63 defTwin, 63, defTwin, ?_⟩,
    ⟨net, opens 63 defOut, 63, defOut, ?_⟩,
    ⟨net, opens 63 defIn, 63, defIn, ?_⟩⟩ <;> decide +kernel

/-- An IN circuit whose unread bytes name a far circuit, a class, a max age and, with none present, a relay target that would all
be out of range. -/
theorem witness_OpenCircuitSetsRecord_unread :
    net.Authorised (dir 15 [63, 1, 0, 0, 99, 9, 0, 0, 0, 99]) 15 10 ∧ net.circuits[(63 : CircIx)].state = .closed ∧
    net.circuits[(63 : CircIx)].closing = none ∧ ([99, 9, 0, 0] : List Byte).length = 4 ∧
    (dir 15 [63, 1, 0, 0, 99, 9, 0, 0, 0, 99]).args =
      bytesOf 1 63 ++ [1] ++ bytesOf 1 0 ++ bytesOf 1 0 ++ [99, 9, 0, 0] ++ [0, 99] ∧
    (dir 15 [63, 1, 0, 0, 99, 9, 0, 0, 1, 0]).args =
      bytesOf 1 63 ++ [1] ++ bytesOf 1 0 ++ bytesOf 1 0 ++ [99, 9, 0, 0] ++ ([1] ++ bytesOf 1 0) := by
  decide +kernel

/-- Arguments out of range, one at a time, for circuits 64, 0 (not CLOSED) and 63. -/
theorem witness_OpenCircuitSetsRecord_wild :
    (net.Authorised (dir 15 [64, 0, 0, 0, 0, 0, 0, 1, 0, 0]) 15 10 ∧ net.Authorised (dir 15 [0, 2, 9, 9, 99, 9, 0, 0, 9, 9]) 15 10 ∧
      net.circuits[(0 : CircIx)].state ≠ .closed) ∧
    (net.circuits[(63 : CircIx)].state = .closed ∧ net.circuits[(63 : CircIx)].closing = none) ∧
    ∀ args ∈ ([[63, 2, 0, 0, 0, 0, 0, 1, 0, 0], [63, 0, 6, 0, 0, 0, 0, 1, 0, 0], [63, 0, 0, 4, 0, 0, 0, 1, 0, 0],
        [63, 0, 0, 0, 64, 0, 0, 1, 0, 0], [63, 0, 0, 0, 0, 2, 0, 1, 0, 0], [63, 0, 0, 0, 0, 0, 0, 0, 0, 0],
        [63, 0, 0, 0, 0, 0, 0, 1, 1, 0], [63, 1, 0, 0, 0, 0, 0, 0, 2, 0], [63, 1, 0, 0, 0, 0, 0, 0, 1, 64],
        [63, 1, 0, 0, 0, 0, 0, 0, 1, 63]] : List (List Byte)),
      net.Authorised (dir 15 args) 15 10 ∧ ∀ a : List Nat, a = args.map BitVec.toNat →
        a.getD 0 0 = 63 ∧
          (1 < a.getD 1 0 ∨ 5 < a.getD 2 0 ∨ 3 < a.getD 3 0 ∨
            (a.getD 1 0 = 0 ∧ (63 < a.getD 4 0 ∨ 1 < a.getD 5 0 ∨ (a.getD 6 0 = 0 ∧ a.getD 7 0 = 0) ∨ a.getD 8 0 ≠ 0)) ∨
            (a.getD 1 0 = 1 ∧ (1 < a.getD 8 0 ∨ (a.getD 8 0 = 1 ∧ (63 < a.getD 9 0 ∨ a.getD 9 0 = a.getD 0 0))))) := by
  refine ⟨by decide +kernel, by decide +kernel, fun args h => ⟨?_, fun a ha => ?_⟩⟩
  · revert args; decide +kernel
  · subst ha; revert args; decide +kernel

theorem witness_OwnedCircuitDirectives :
    (∃ (s : State) (d : Directive) (n : CircIx) (defn : CircuitDef), d.args = [BitVec.ofNat 8 n.val] ∧
      s.circuits[n].defn = some defn ∧ s.circuits[n].state ≠ .closed ∧ s.circuits[n].closing = none ∧ s.MaySteer d
      defn ∧ s.profile.save = none ∧ defn.flow = .out 3 .fast 10 ∧ s.Reaches d 4 1) ∧
    (∃ (s : State) (d : Directive) (n : CircIx) (defn : CircuitDef), d.args = [BitVec.ofNat 8 n.val] ∧
      s.circuits[n].defn = some defn ∧ s.circuits[n].state ≠ .closed ∧ s.circuits[n].closing = none ∧ s.MaySteer d
      defn ∧ s.profile.save = none ∧ defn.flow = .out 4 .sure 1 ∧ s.Reaches d 5 1) ∧
    (∃ (s : State) (d : Directive) (n : CircIx) (defn : CircuitDef), d.args = [BitVec.ofNat 8 n.val] ∧
      s.circuits[n].defn = some defn ∧ s.circuits[n].state ≠ .closed ∧ s.circuits[n].closing = none ∧ s.MaySteer d
      defn ∧ s.profile.save = none ∧ defn.flow = .inn none ∧ s.Reaches d 4 1) ∧
    (∃ (s : State) (d : Directive) (n : CircIx) (defn : CircuitDef), d.args = [BitVec.ofNat 8 n.val] ∧
      s.circuits[n].defn = some defn ∧ s.circuits[n].state ≠ .closed ∧ s.circuits[n].closing = none ∧ s.MaySteer d
      defn ∧ s.profile.save = none ∧ defn.flow = .inn none ∧ s.Reaches d 5 1) ∧
    (∃ (s : State) (d : Directive) (n : CircIx) (defn : CircuitDef), d.args = [BitVec.ofNat 8 n.val] ∧
      s.circuits[n].defn = some defn ∧ s.circuits[n].state ≠ .closed ∧ s.circuits[n].closing = none ∧ s.MaySteer d
      defn ∧ defn.flow = .out 3 .fast 10 ∧ s.Reaches d 6 1) ∧
    (∃ (s : State) (d : Directive) (n : CircIx) (defn : CircuitDef), d.args = [BitVec.ofNat 8 n.val] ∧
      s.circuits[n].defn = some defn ∧ s.circuits[n].state ≠ .closed ∧ s.circuits[n].closing = none ∧ s.MaySteer d
      defn ∧ defn.flow = .inn none ∧ s.Reaches d 6 1) ∧
    (∃ (s : State) (d : Directive) (n : CircIx) (defn : CircuitDef), d.args = [BitVec.ofNat 8 n.val] ∧
      s.circuits[n].defn = some defn ∧ s.circuits[n].state ≠ .closed ∧ s.circuits[n].closing = none ∧ d.present = 0 ∧
      d.port ≠ defn.port ∧ s.profile.save = none ∧ s.Reaches d 4 1) ∧
    (∃ (s : State) (d : Directive) (n : CircIx) (defn : CircuitDef), d.args = [BitVec.ofNat 8 n.val] ∧
      s.circuits[n].defn = some defn ∧ s.circuits[n].state ≠ .closed ∧ s.circuits[n].closing = none ∧ d.present = 0 ∧
      d.port ≠ defn.port ∧ s.profile.save = none ∧ s.Reaches d 5 1) ∧
    (∃ (s : State) (d : Directive) (n : CircIx) (defn : CircuitDef), d.args = [BitVec.ofNat 8 n.val] ∧
      s.circuits[n].defn = some defn ∧ s.circuits[n].state ≠ .closed ∧ s.circuits[n].closing = none ∧ d.present = 0 ∧
      d.port ≠ defn.port ∧ s.Reaches d 6 1) ∧
    (∃ (s : State) (d : Directive) (n : CircIx) (defn : CircuitDef), d.args = [BitVec.ofNat 8 n.val] ∧
      s.circuits[n].defn = some defn ∧ s.circuits[n].closing ≠ none ∧ d.present = 0 ∧ s.profile.save = none ∧
      s.Reaches d 4 1) ∧
    (∃ (s : State) (d : Directive) (n : CircIx) (defn : CircuitDef), d.args = [BitVec.ofNat 8 n.val] ∧
      s.circuits[n].defn = some defn ∧ s.circuits[n].closing ≠ none ∧ d.code = s.cfg.opCode ∧ s.profile.save = none ∧
      s.Reaches d 5 1) ∧
    (∃ (s : State) (d : Directive) (n : CircIx) (defn : CircuitDef), d.args = [BitVec.ofNat 8 n.val] ∧
      s.circuits[n].defn = some defn ∧ s.circuits[n].state = .closed ∧ s.Reaches d 6 1) := by
    refine ⟨⟨netCounts, bare 4 [BitVec.ofNat 8 0], 0, def0, ?_⟩,
    ⟨netCounts, dir 5 [BitVec.ofNat 8 3], 3, def3, ?_⟩,
    ⟨netCounts, dir 4 [BitVec.ofNat 8 1], 1, def1, ?_⟩,
    ⟨netCounts, dir 5 [BitVec.ofNat 8 1], 1, def1, ?_⟩,
    ⟨netCounts, bare 6 [BitVec.ofNat 8 0], 0, def0, ?_⟩,
    ⟨netCounts, dir 6 [BitVec.ofNat 8 1], 1, def1, ?_⟩,
    ⟨netCounts, bare 4 [BitVec.ofNat 8 3], 3, def3, ?_⟩,
    ⟨netCounts, bare 5 [BitVec.ofNat 8 3], 3, def3, ?_⟩,
    ⟨netCounts, bare 6 [BitVec.ofNat 8 1], 1, def1, ?_⟩,
    ⟨netClosing, bare 4 [BitVec.ofNat 8 0], 0, def0, ?_⟩,
    ⟨netClosing, dir 5 [BitVec.ofNat 8 0], 0, def0, ?_⟩,
    ⟨netShut, bare 6 [BitVec.ofNat 8 0], 0, def0, ?_⟩⟩ <;> decide +kernel

/-- A circuit never opened. -/
theorem witness_OwnedCircuitDirectives_unopened :
    net.circuits[(63 : CircIx)].state = .closed ∧ net.circuits[(63 : CircIx)].defn = none ∧ net.profile.save = none ∧
      net.Reaches (bare 4 [63]) 4 1 ∧ (bare 4 [63]).present = 0 ∧ net.Reaches (dir 5 [63]) 5 1 ∧
      (dir 5 [63]).code = net.cfg.opCode ∧ net.Reaches (bare 6 [63]) 6 1 := by
  decide +kernel

theorem witness_OwnedCircuitDirectives_wild :
    net.Reaches (bare 4 [64]) 4 1 ∧ net.Reaches (dir 5 [255]) 5 1 ∧ net.Reaches (bare 6 [64]) 6 1 ∧ net.profile.save = none ∧
      (bare 4 [64]).present = 0 ∧ (dir 5 [255]).code = net.cfg.opCode := by
  decide +kernel

theorem netCopy_copies : netCopy.CopiesSound := by decide +kernel

theorem witness_CloseCircuitTakesEffect :
    (netClosing.Authorised (dir 16 [0]) 16 1 ∧ netClosing.circuits[(0 : CircIx)].closing ≠ none) ∧
    (net.Authorised (dir 16 [63]) 16 1 ∧ net.circuits[(63 : CircIx)].state = .closed ∧
      net.circuits[(63 : CircIx)].closing = none) ∧
    (∀ s ∈ [net, netBusy, netHalf],
      s.Authorised (dir 16 [0]) 16 1 ∧ s.circuits[(0 : CircIx)].state ≠ .closed ∧ s.circuits[(0 : CircIx)].closing = none ∧
        s.circuits[(0 : CircIx)].defn = some def0) ∧
    (net.waitingOf 0 = [] ∧ netHalf.currentCopies 0 = 1) ∧
    (netCopy.Authorised (dir 16 [0]) 16 1 ∧ netCopy.circuits[(0 : CircIx)].defn = some def0 ∧ netCopy.SlotsSound ∧
      netCopy.CopiesSound ∧ (List.range 1024).countP (netCopy.flushes 0) = 1) ∧
    (netCopy.Authorised (dir 16 [3]) 16 1 ∧ netCopy.circuits[(3 : CircIx)].defn = some def3 ∧
      (List.range 1024).countP (netCopy.flushes 3) = 0) ∧
    (∀ s ∈ [netDelivering, netQueued],
      s.Authorised (dir 16 [1]) 16 1 ∧ s.circuits[(1 : CircIx)].state ≠ .closed ∧ s.circuits[(1 : CircIx)].closing = none ∧
        s.circuits[(1 : CircIx)].defn = some def1) ∧
    (net.Authorised (dir 16 [64]) 16 1 ∧ 63 < ((dir 16 [64]).args.getD 0 0).toNat) := by
  refine ⟨?_, ?_, ?_, ?_, ⟨?_, ?_, netCopy_slots, netCopy_copies, ?_⟩, ?_, ?_, ?_⟩ <;> decide +kernel

theorem witness_PrimaryIsForcedOrLeast :
    (∃ (s : State) (len : Nat) (E : RouteIx → Nat), (∀ q : RouteIx, E q = min 4294967295 (((s.tx[q].backlog + len +
      32) * (byteTime s.cfg.lanes[q].type s.lanes[q]).getD 0 + 15) / 16 + (s.forward q).getD 0)) ∧ s.peers[(0 :
      PeerIx)].forced = some 0 ∧ s.Eligible 0 0) ∧
    (∃ (s : State) (len : Nat) (E : RouteIx → Nat), (∀ q : RouteIx, E q = min 4294967295 (((s.tx[q].backlog + len +
      32) * (byteTime s.cfg.lanes[q].type s.lanes[q]).getD 0 + 15) / 16 + (s.forward q).getD 0)) ∧ LeastRoute
      (s.Eligible 0) E 0) := by
    refine ⟨⟨netBusy, 1500, netBusy.expectedArrival 1500, ?_⟩,
    ⟨net, 1, net.expectedArrival 1, ?_⟩⟩ <;> decide +kernel

theorem witness_SelectorDirectives :
    (∃ (s : State) (d : Directive) (p : Byte) (r : Byte) (pi : PeerIx) (ri : RouteIx), s.Authorised d 17 2 ∧ d.args =
      [p, r] ∧ pi.val = p.toNat ∧ ri.val = r.toNat ∧ s.cfg.routes[ri].peer = pi) ∧
    (∃ (s : State) (d : Directive) (p : Byte) (r : Byte) (pi : PeerIx) (ri : RouteIx), s.Authorised d 17 2 ∧ d.args =
      [p, r] ∧ pi.val = p.toNat ∧ ri.val = r.toNat ∧ s.cfg.routes[ri].peer ≠ pi) ∧
    (∃ (s : State) (d : Directive) (p : Byte) (r : Byte), s.Authorised d 17 2 ∧ d.args = [p, r] ∧ 4 ≤ p.toNat) ∧
    (∃ (s : State) (d : Directive) (p : Byte) (r : Byte), s.Authorised d 17 2 ∧ d.args = [p, r] ∧ 16 ≤ r.toNat) ∧
    (∃ (s : State) (d : Directive) (p : Byte) (pi : PeerIx), s.Authorised d 18 1 ∧ d.args = [p] ∧ pi.val = p.toNat) ∧
    (∃ (s : State) (d : Directive) (p : Byte), s.Authorised d 18 1 ∧ d.args = [p] ∧ 4 ≤ p.toNat) ∧
    (∃ (s : State) (d : Directive) (r : Byte) (slots : List Byte) (ri : RouteIx) (cal : Calendar), s.Authorised d 14
      17 ∧ d.args = r :: slots ∧ ri.val = r.toNat ∧ slots = cal.toList.map (fun x => BitVec.ofNat 8 (slotCode x))) ∧
    (∃ (s : State) (d : Directive) (r : Byte) (slots : List Byte), s.Authorised d 14 17 ∧ d.args = r :: slots ∧ 16 ≤
      r.toNat) ∧
    (∃ (s : State) (d : Directive) (r : Byte) (slots : List Byte), s.Authorised d 14 17 ∧ d.args = r :: slots ∧ (6 :
      Byte) ∈ slots ∧ 6 ≤ (6 : Byte).toNat ∧ (6 : Byte).toNat ≠ 255) := by
    refine ⟨⟨netBusy, dir 17 [0, 1], 0, 1, 0, 1, ?_⟩,
    ⟨netBusy, dir 17 [3, 15], 3, 15, 3, 15, ?_⟩,
    ⟨netBusy, dir 17 [4, 15], 4, 15, ?_⟩,
    ⟨netBusy, dir 17 [3, 16], 3, 16, ?_⟩,
    ⟨netBusy, dir 18 [0], 0, 0, ?_⟩,
    ⟨netBusy, dir 18 [4], 4, ?_⟩,
    ⟨netPointer, dir 14 (15 :: slotBytes), 15, slotBytes, 15, calAll, ?_⟩,
    ⟨netPointer, dir 14 (16 :: slotBytes), 16, slotBytes, ?_⟩,
    ⟨netPointer, dir 14 (15 :: List.replicate 16 6), 15, List.replicate 16 6, ?_⟩⟩ <;> decide +kernel

theorem witness_SendStartTakesSlot :
    (∃ (s : State) (p : PortIx), s.ports[p].up = false) ∧
    (∃ (s : State) (p : PortIx), s.ports[p].inbound ≠ .idle) ∧
    (∃ (s : State) (p : PortIx), s.ports[p].up = true ∧ s.ports[p].inbound = .idle ∧ s.pool.hold = true ∧ s.pool.free
      ≤ 64) ∧
    (∃ (s : State) (p : PortIx), s.ports[p].up = true ∧ s.ports[p].inbound = .idle ∧ 64 < s.pool.free ∧ s.pool.Sound ∧
      1 ≤ s.pool.free) ∧
    (∃ (s : State) (p : PortIx), s.ports[p].up = true ∧ s.ports[p].inbound = .idle ∧ s.pool.hold = false ∧
      s.pool.Sound ∧ 1 ≤ s.pool.free) := by
  have f1 := poolFree_free 64 true (by decide)
  have f2 := poolFree_free 65 true (by decide)
  have f3 := poolFree_free 64 false (by decide)
  have s2 := poolFree_sound 65 true (by decide) (by decide) (by decide)
  have s3 := poolFree_sound 64 false (by decide) (by decide) (by decide)
  exact ⟨⟨net, 5, rfl⟩, ⟨netSending [], 0, by decide⟩, ⟨netFree 64 true, 0, rfl, rfl, rfl, f1.le⟩,
    ⟨netFree 65 true, 0, rfl, rfl, f2.ge, s2, f2.ge.trans' (by decide)⟩,
    ⟨netFree 64 false, 0, rfl, rfl, rfl, s3, f3.ge.trans' (by decide)⟩⟩

theorem witness_SendAccepted :
    (∃ (s : State) (p : PortIx) (k : Nat) (body : List Byte) (n : CircIx) (peer : PeerIx) (far : CircIx) (cls :
      TrafficClass) (maxAge : Nat) (f : Frame) (r : RouteIx) (sh : Option RouteIx) (copy : Copy), s.ports[p].inbound =
      .slot k ∧ s.pool.frame k = some f ∧ s.profile.load = .running ∧ 5 < body.length ∧ body.length ≤ 1505 ∧
      (body.getD 0 0).toNat = n.val ∧ s.circuits[n].state = .opened ∧ s.circuits[n].closing = none ∧
      s.circuits[n].defn = some (CircuitDef.mk p peer (.out far cls maxAge)) ∧ s.primary peer (body.length - 5)
      (s.eligible peer) = some r ∧ (∀ q : RouteIx, sh = some q ↔ (cls = .sure ∨ s.health[r].state = .fading) ∧
      LeastRoute (fun q' => s.Eligible peer q' ∧ q' ≠ r) (s.expectedArrival (body.length - 5)) q) ∧ copy = Copy.mk k n
      s.circuits[n].nextSeq (body.length - 5) f.et p) ∧
    (∃ (s : State) (p : PortIx) (k : Nat) (body : List Byte) (n : CircIx) (peer : PeerIx) (far : CircIx) (cls :
      TrafficClass) (maxAge : Nat) (f : Frame) (r : RouteIx) (sh : Option RouteIx) (copy : Copy), s.ports[p].inbound =
      .slot k ∧ s.pool.frame k = some f ∧ s.profile.load = .running ∧ 5 < body.length ∧ body.length ≤ 1505 ∧
      (body.getD 0 0).toNat = n.val ∧ s.circuits[n].state = .opened ∧ s.circuits[n].closing = none ∧
      s.circuits[n].defn = some (CircuitDef.mk p peer (.out far cls maxAge)) ∧ s.primary peer (body.length - 5)
      (s.eligible peer) = some r ∧ (∀ q : RouteIx, sh = some q ↔ (cls = .sure ∨ s.health[r].state = .fading) ∧
      LeastRoute (fun q' => s.Eligible peer q' ∧ q' ≠ r) (s.expectedArrival (body.length - 5)) q) ∧ copy = Copy.mk k n
      s.circuits[n].nextSeq (body.length - 5) f.et p) ∧
    (∃ (s : State) (p : PortIx) (k : Nat) (body : List Byte) (n : CircIx) (peer : PeerIx) (far : CircIx) (cls :
      TrafficClass) (maxAge : Nat) (f : Frame) (r : RouteIx) (sh : Option RouteIx) (copy : Copy), s.ports[p].inbound =
      .slot k ∧ s.pool.frame k = some f ∧ s.profile.load = .running ∧ 5 < body.length ∧ body.length ≤ 1505 ∧
      (body.getD 0 0).toNat = n.val ∧ s.circuits[n].state = .opened ∧ s.circuits[n].closing = none ∧
      s.circuits[n].defn = some (CircuitDef.mk p peer (.out far cls maxAge)) ∧ s.primary peer (body.length - 5)
      (s.eligible peer) = some r ∧ (∀ q : RouteIx, sh = some q ↔ (cls = .sure ∨ s.health[r].state = .fading) ∧
      LeastRoute (fun q' => s.Eligible peer q' ∧ q' ≠ r) (s.expectedArrival (body.length - 5)) q) ∧ copy = Copy.mk k n
      s.circuits[n].nextSeq (body.length - 5) f.et p) ∧
    (∃ (s : State) (p : PortIx) (k : Nat) (body : List Byte) (n : CircIx) (peer : PeerIx) (far : CircIx) (cls :
      TrafficClass) (maxAge : Nat) (f : Frame) (r : RouteIx) (sh : Option RouteIx) (copy : Copy), s.ports[p].inbound =
      .slot k ∧ s.pool.frame k = some f ∧ s.profile.load = .running ∧ 5 < body.length ∧ body.length ≤ 1505 ∧
      (body.getD 0 0).toNat = n.val ∧ s.circuits[n].state = .opened ∧ s.circuits[n].closing = none ∧
      s.circuits[n].defn = some (CircuitDef.mk p peer (.out far cls maxAge)) ∧ s.primary peer (body.length - 5)
      (s.eligible peer) = some r ∧ (∀ q : RouteIx, sh = some q ↔ (cls = .sure ∨ s.health[r].state = .fading) ∧
      LeastRoute (fun q' => s.Eligible peer q' ∧ q' ≠ r) (s.expectedArrival (body.length - 5)) q) ∧ copy = Copy.mk k n
      s.circuits[n].nextSeq (body.length - 5) f.et p) := by
    refine ⟨⟨sending net, 0, 7, sendBody 0 1, 0, 0, 3, .fast, 10, frame0, 0, none, sendCopy 1, ?_⟩,
    ⟨sending netSure, 0, 7, sendBody 0 1500, 0, 0, 3, .sure, 10, frame0, 0, some 1, sendCopy 1500, ?_⟩,
    ⟨sending netLone, 0, 7, sendBody 0 1, 0, 0, 3, .sure, 10, frame0, 0, none, sendCopy 1, ?_⟩,
    ⟨sending netFading, 0, 7, sendBody 0 1, 0, 0, 3, .fast, 10, frame0, 1, none, sendCopy 1, ?_⟩⟩ <;> decide +kernel

theorem witness_SendRefused :
    (∃ (s : State) (p : PortIx), s.ports[p].inbound = .idle) ∧
    (∃ (s : State) (p : PortIx), s.ports[p].inbound = .ignored) ∧
    (∃ (s : State) (p : PortIx) (k : Nat) (f : Frame) (status : Byte) (body : List Byte) (crc : BitVec 32),
      s.ports[p].inbound = .slot k ∧ s.pool.frame k = some f ∧ f.refs = 1 ∧ crc ≠ crc32 ([0xA1, status] ++ bytesOf 2
      body.length ++ body)) ∧
    (∃ (s : State) (p : PortIx) (k : Nat) (f : Frame) (status : Byte) (body : List Byte) (crc : BitVec 32) (reason :
      RefusalReason), s.ports[p].inbound = .slot k ∧ s.pool.frame k = some f ∧ f.refs = 1 ∧ crc = crc32 ([0xA1,
      status] ++ bytesOf 2 body.length ++ body) ∧ s.RefusesSend p body reason) ∧
    (∃ (s : State) (p : PortIx) (k : Nat) (f : Frame) (status : Byte) (body : List Byte) (crc : BitVec 32) (reason :
      RefusalReason), s.ports[p].inbound = .slot k ∧ s.pool.frame k = some f ∧ f.refs = 1 ∧ crc = crc32 ([0xA1,
      status] ++ bytesOf 2 body.length ++ body) ∧ s.RefusesSend p body reason) ∧
    (∃ (s : State) (p : PortIx) (k : Nat) (f : Frame) (status : Byte) (body : List Byte) (crc : BitVec 32) (reason :
      RefusalReason), s.ports[p].inbound = .slot k ∧ s.pool.frame k = some f ∧ f.refs = 1 ∧ crc = crc32 ([0xA1,
      status] ++ bytesOf 2 body.length ++ body) ∧ s.RefusesSend p body reason) ∧
    (∃ (s : State) (p : PortIx) (k : Nat) (f : Frame) (status : Byte) (body : List Byte) (crc : BitVec 32) (reason :
      RefusalReason), s.ports[p].inbound = .slot k ∧ s.pool.frame k = some f ∧ f.refs = 1 ∧ crc = crc32 ([0xA1,
      status] ++ bytesOf 2 body.length ++ body) ∧ s.RefusesSend p body reason) ∧
    (∃ (s : State) (p : PortIx) (k : Nat) (f : Frame) (status : Byte) (body : List Byte) (crc : BitVec 32) (reason :
      RefusalReason), s.ports[p].inbound = .slot k ∧ s.pool.frame k = some f ∧ f.refs = 1 ∧ crc = crc32 ([0xA1,
      status] ++ bytesOf 2 body.length ++ body) ∧ s.RefusesSend p body reason) ∧
    (∃ (s : State) (p : PortIx) (k : Nat) (f : Frame) (status : Byte) (body : List Byte) (crc : BitVec 32) (reason :
      RefusalReason), s.ports[p].inbound = .slot k ∧ s.pool.frame k = some f ∧ f.refs = 1 ∧ crc = crc32 ([0xA1,
      status] ++ bytesOf 2 body.length ++ body) ∧ s.RefusesSend p body reason) ∧
    (∃ (s : State) (p : PortIx) (k : Nat) (f : Frame) (status : Byte) (body : List Byte) (crc : BitVec 32) (reason :
      RefusalReason), s.ports[p].inbound = .slot k ∧ s.pool.frame k = some f ∧ f.refs = 1 ∧ crc = crc32 ([0xA1,
      status] ++ bytesOf 2 body.length ++ body) ∧ s.RefusesSend p body reason) ∧
    (∃ (s : State) (p : PortIx) (k : Nat) (f : Frame) (status : Byte) (body : List Byte) (crc : BitVec 32) (n :
      CircIx) (peer : PeerIx) (far : CircIx) (cls : TrafficClass) (maxAge : Nat), s.ports[p].inbound = .slot k ∧
      s.pool.frame k = some f ∧ f.refs = 1 ∧ crc = crc32 ([0xA1, status] ++ bytesOf 2 body.length ++ body) ∧
      s.profile.load = .running ∧ 5 < body.length ∧ body.length ≤ 1505 ∧ (body.getD 0 0).toNat = n.val ∧
      s.circuits[n].state = .opened ∧ s.circuits[n].closing = none ∧ s.circuits[n].defn = some (CircuitDef.mk p peer
      (.out far cls maxAge)) ∧ (∀ r : RouteIx, ¬ s.Eligible peer r)) := by
    refine ⟨⟨net, 0, ?_⟩,
    ⟨netIgnoring, 0, ?_⟩,
    ⟨sending net, 0, 7, frame0, 0, sendBody 0 1, 0, ?_⟩,
    ⟨sending netLoading, 0, 7, frame0, 0, sendBody 0 1, sendCrc (sendBody 0 1), .notReady, ?_⟩,
    ⟨sending net, 0, 7, frame0, 0, sendBody 0 0, sendCrc (sendBody 0 0), .tooLong, ?_⟩,
    ⟨sending net, 0, 7, frame0, 0, sendBody 63 1, sendCrc (sendBody 63 1), .notOpen, ?_⟩,
    ⟨sending net, 0, 7, frame0, 0, sendBody 64 1, sendCrc (sendBody 64 1), .notOpen, ?_⟩,
    ⟨sending net, 0, 7, frame0, 0, sendBody 1 1, sendCrc (sendBody 1 1), .notOpen, ?_⟩,
    ⟨sending net, 0, 7, frame0, 0, sendBody 3 1, sendCrc (sendBody 3 1), .notOwner, ?_⟩,
    ⟨sending netPaused, 0, 7, frame0, 0, sendBody 0 1, sendCrc (sendBody 0 1), .paused, ?_⟩,
    ⟨sending netCut, 0, 7, frame0, 0, sendBody 0 1, sendCrc (sendBody 0 1), 0, 0, 3, .sure, 10, ?_⟩⟩ <;> decide
      +kernel

theorem witness_OfferServesControl :
    (∃ (s : State) (r : RouteIx) (stamp : Stamp), stamp = s.time.tt + BitVec.ofNat 64 s.cfg.lanes[r].txc ∧
      s.cfg.lanes[r].type = .unused) ∧
    (∃ (s : State) (r : RouteIx) (stamp : Stamp), stamp = s.time.tt + BitVec.ofNat 64 s.cfg.lanes[r].txc ∧
      s.lanes[r].los = true) ∧
    (∃ (s : State) (r : RouteIx) (stamp : Stamp), stamp = s.time.tt + BitVec.ofNat 64 s.cfg.lanes[r].txc ∧
      s.tx[r].current ≠ none) ∧
    (∃ (s : State) (r : RouteIx) (stamp : Stamp) (e : EchoEntry) (rest : List EchoEntry), stamp = s.time.tt +
      BitVec.ofNat 64 s.cfg.lanes[r].txc ∧ s.cfg.lanes[r].type ≠ .unused ∧ s.lanes[r].los = false ∧ s.tx[r].current =
      none ∧ s.tx[r].echoes = e :: rest) ∧
    (∃ (s : State) (r : RouteIx) (stamp : Stamp), stamp = s.time.tt + BitVec.ofNat 64 s.cfg.lanes[r].txc ∧
      s.cfg.lanes[r].type ≠ .unused ∧ s.lanes[r].los = false ∧ s.tx[r].current = none ∧ s.tx[r].echoes = [] ∧
      s.tx[r].probeEntry = true ∧ s.probes[r].outstanding.length < 8) ∧
    (∃ (s : State) (r : RouteIx) (stamp : Stamp), stamp = s.time.tt + BitVec.ofNat 64 s.cfg.lanes[r].txc ∧
      s.cfg.lanes[r].type ≠ .unused ∧ s.lanes[r].los = false ∧ s.tx[r].current = none ∧ s.tx[r].echoes = [] ∧
      s.tx[r].probeEntry = false ∧ s.tx[r].testEntry = true ∧ s.health[r].state = .proving) ∧
    (∃ (s : State) (r : RouteIx) (stamp : Stamp), stamp = s.time.tt + BitVec.ofNat 64 s.cfg.lanes[r].txc ∧
      s.cfg.lanes[r].type ≠ .unused ∧ s.lanes[r].los = false ∧ s.tx[r].current = none ∧ s.tx[r].echoes = [] ∧
      s.tx[r].testEntry = false ∧ s.tx[r].queue = [] ∧ s.tx[r].probeEntry = false) ∧
    (∃ (s : State) (r : RouteIx) (stamp : Stamp), stamp = s.time.tt + BitVec.ofNat 64 s.cfg.lanes[r].txc ∧
      s.cfg.lanes[r].type ≠ .unused ∧ s.lanes[r].los = false ∧ s.tx[r].current = none ∧ s.tx[r].echoes = [] ∧
      s.tx[r].testEntry = false ∧ s.tx[r].queue = [] ∧ s.tx[r].probeEntry = true ∧ 8 ≤ s.probes[r].outstanding.length)
      := by
    refine ⟨⟨net, 15, 5000000000, ?_⟩,
    ⟨netLos 0, 0, 5000000040, ?_⟩,
    ⟨netCurrent 0, 0, 5000000040, ?_⟩,
    ⟨netEchoTwo, 0, 5000000040, entry 1, [entry 2], ?_⟩,
    ⟨netProbe 7, 0, 5000000040, ?_⟩,
    ⟨netProving 0 1 true, 0, 5000000040, ?_⟩,
    ⟨net, 0, 5000000040, ?_⟩,
    ⟨netProbe 8, 0, 5000000040, ?_⟩⟩ <;> decide +kernel

/-- A full table, with the TEST waiting in PROVING and with a copy waiting in UP. -/
theorem witness_OfferServesControl_full :
    ∀ s ∈ [((netProbe 8).modHealth 0 fun h => { h with state := .proving }).modTx 0 fun t => { t with testEntry := true },
        (netProbe 8).modTx 0 fun t => { t with queue := [copy0] }],
      s.cfg.lanes[(0 : RouteIx)].type ≠ .unused ∧ s.lanes[(0 : RouteIx)].los = false ∧ s.tx[(0 : RouteIx)].current = none ∧
        s.tx[(0 : RouteIx)].echoes = [] ∧ s.tx[(0 : RouteIx)].probeEntry = true ∧
        8 ≤ s.probes[(0 : RouteIx)].outstanding.length := by
  decide +kernel

/-- An expired copy whose frame has started, has its other copy waiting on another route, or neither. -/
theorem witness_OfferStartsCargo_expired :
    (∀ s ∈ [{ netStarted with time := (netAged 1250).time }, netTwinAged, netAged 1250],
      s.cfg.lanes[(0 : RouteIx)].type ≠ .unused ∧ s.lanes[(0 : RouteIx)].los = false ∧ s.tx[(0 : RouteIx)].current = none ∧
        s.tx[(0 : RouteIx)].echoes = [] ∧ s.tx[(0 : RouteIx)].probeEntry = false ∧ s.health[(0 : RouteIx)].state = .up ∧
        grant s.cfg.calendars[(0 : RouteIx)] s.tx[(0 : RouteIx)].pointer s.tx[(0 : RouteIx)].queue = some (copy0, some 0) ∧
        s.circuits[copy0.circuit].defn = some { port := 0, peer := 0, flow := .out 3 .fast 10 } ∧
        10 * 1000 ≤ (s.time.et - copy0.origin).toNat * 8) ∧
    { netStarted with time := (netAged 1250).time }.pool.frame copy0.slot = some frameStarted ∧
    netTwinAged.pool.frame copy0.slot = some { frame0 with refs := 2 } ∧ netTwinAged.HeldOnOther 0 copy0.slot ∧
    (netAged 1250).pool.frame copy0.slot = some frame0 ∧ ¬ (netAged 1250).HeldOnOther 0 copy0.slot := by
  refine ⟨?_, ?_, ?_, ?_, ?_, ?_⟩ <;> decide +kernel

theorem witness_OfferStartsCargo :
    (∃ (s : State) (r : RouteIx) (c : Copy) (slot : Option (Fin 16)) (f : Frame) (port : PortIx) (peer : PeerIx) (far
      : CircIx) (cls : TrafficClass) (maxAge : Nat), s.cfg.lanes[r].type ≠ .unused ∧ s.lanes[r].los = false ∧
      s.tx[r].current = none ∧ s.tx[r].echoes = [] ∧ s.tx[r].probeEntry = false ∧ (s.health[r].state = .up ∨
      s.health[r].state = .fading) ∧ grant s.cfg.calendars[r] s.tx[r].pointer s.tx[r].queue = some (c, slot) ∧
      s.pool.frame c.slot = some f ∧ s.circuits[c.circuit].defn = some (CircuitDef.mk port peer (.out far cls maxAge))
      ∧ (s.time.et - c.origin).toNat * 8 < maxAge * 1000) ∧
    (∃ (s : State) (r : RouteIx) (c : Copy) (slot : Option (Fin 16)) (f : Frame) (port : PortIx) (peer : PeerIx) (far
      : CircIx) (cls : TrafficClass) (maxAge : Nat), s.cfg.lanes[r].type ≠ .unused ∧ s.lanes[r].los = false ∧
      s.tx[r].current = none ∧ s.tx[r].echoes = [] ∧ s.tx[r].probeEntry = false ∧ (s.health[r].state = .up ∨
      s.health[r].state = .fading) ∧ grant s.cfg.calendars[r] s.tx[r].pointer s.tx[r].queue = some (c, slot) ∧
      s.pool.frame c.slot = some f ∧ s.circuits[c.circuit].defn = some (CircuitDef.mk port peer (.out far cls maxAge))
      ∧ (s.time.et - c.origin).toNat * 8 < maxAge * 1000) ∧
    (∃ (s : State) (r : RouteIx) (c : Copy) (slot : Option (Fin 16)) (f : Frame) (port : PortIx) (peer : PeerIx) (far
      : CircIx) (cls : TrafficClass) (maxAge : Nat), s.cfg.lanes[r].type ≠ .unused ∧ s.lanes[r].los = false ∧
      s.tx[r].current = none ∧ s.tx[r].echoes = [] ∧ s.tx[r].probeEntry = false ∧ (s.health[r].state = .up ∨
      s.health[r].state = .fading) ∧ grant s.cfg.calendars[r] s.tx[r].pointer s.tx[r].queue = some (c, slot) ∧
      s.pool.frame c.slot = some f ∧ s.circuits[c.circuit].defn = some (CircuitDef.mk port peer (.out far cls maxAge))
      ∧ (s.time.et - c.origin).toNat * 8 < maxAge * 1000) ∧
    (∃ (s : State) (r : RouteIx) (c : Copy) (slot : Option (Fin 16)) (f : Frame) (port : PortIx) (peer : PeerIx) (far
      : CircIx) (cls : TrafficClass) (maxAge : Nat), s.cfg.lanes[r].type ≠ .unused ∧ s.lanes[r].los = false ∧
      s.tx[r].current = none ∧ s.tx[r].echoes = [] ∧ s.tx[r].probeEntry = false ∧ (s.health[r].state = .up ∨
      s.health[r].state = .fading) ∧ grant s.cfg.calendars[r] s.tx[r].pointer s.tx[r].queue = some (c, slot) ∧
      s.pool.frame c.slot = some f ∧ s.circuits[c.circuit].defn = some (CircuitDef.mk port peer (.out far cls maxAge))
      ∧ maxAge * 1000 ≤ (s.time.et - c.origin).toNat * 8 ∧ s.tx[r].queue = [c] ∧ f.started = false ∧ (∀ q : RouteIx, q
      ≠ r → (∀ x ∈ s.tx[q].queue, x.slot ≠ c.slot) ∧ (s.tx[q].current.bind Current.copy).all (fun x => x.slot !=
      c.slot) = true)) := by
    refine ⟨⟨netAged 1249, 0, copy0, some 0, frame0, 0, 0, 3, .fast, 10, ?_⟩,
    ⟨netStarted, 0, copy0, some 0, frameStarted, 0, 0, 3, .fast, 10, ?_⟩,
    ⟨netUnslotted, 0, copy0, none, frame0, 0, 0, 3, .fast, 10, ?_⟩,
    ⟨netAged 1250, 0, copy0, some 0, frame0, 0, 0, 3, .fast, 10, ?_⟩⟩ <;> decide +kernel

theorem witness_CalendarGrants :
    (∃ (cal : Calendar) (pointer : Fin 16) (queue : List Copy) (before : List Copy) (after : List Copy) (c : Copy) (j
      : Fin 16), queue = before ++ c :: after ∧ cal[pointer + j] = some c.port ∧ (∀ y ∈ before, y.port ≠ c.port)) ∧
    (∃ (cal : Calendar) (pointer : Fin 16) (queue : List Copy) (before : List Copy) (after : List Copy) (c : Copy) (j
      : Fin 16), queue = before ++ c :: after ∧ cal[pointer + j] = some c.port ∧ (∀ y ∈ before, y.port ≠ c.port) ∧ (∀
      i : Fin 16, i < j → ∀ y ∈ queue, cal[pointer + i] ≠ some y.port)) ∧
    (∃ (cal : Calendar) (queue : List Copy) (c : Copy) (rest : List Copy), queue = c :: rest ∧ (∀ i : Fin 16, ∀ y ∈
      queue, cal[i] ≠ some y.port)) ∧
    (∃ (cal : Calendar) (pointer : Fin 16) (queue : List Copy) (m : Fin 16) (x : Copy) (c : Copy) (slot : Option (Fin
      16)), copyB ∈ queue ∧ cal[m] = some x.port ∧ grant cal pointer queue = some (c, slot) ∧ c.port ≠ x.port) := by
    refine ⟨⟨Calendar.default, 15, [copy0, copyB], [copy0], [], copyB, 6, ?_⟩,
    ⟨calAll, 1, [copy0, copyB], [], [copyB], copy0, 14, ?_⟩,
    ⟨Vector.replicate 16 none, [copy0, copyB], copy0, [copyB], ?_⟩,
    ⟨calAll, 1, [copy0, copyB], 0, copyB, copy0, some 15, ?_⟩⟩ <;> decide +kernel

theorem witness_BytesAndTransmitEnd :
    (∃ (s : State) (r : RouteIx), s.tx[r].current = none) ∧
    (∃ (s : State) (r : RouteIx) (cur : Current), s.tx[r].current = some cur ∧ 1 < cur.untaken) ∧
    (∃ (s : State) (r : RouteIx) (cur : Current), s.tx[r].current = some cur ∧ cur.untaken ≤ 1 ∧ cur.copy = none) ∧
    (∃ (s : State) (r : RouteIx) (cur : Current) (c : Copy), s.tx[r].current = some cur ∧ cur.untaken ≤ 1 ∧ cur.copy =
      some c) := by
    refine ⟨⟨net, 0, ?_⟩,
    ⟨netCurrent 2, 0, probing 2, ?_⟩,
    ⟨netCurrent 1, 0, probing 1, ?_⟩,
    ⟨netClosing, 0, cargoLast, copy0, ?_⟩⟩ <;> decide +kernel

theorem witness_FrameStartTakesStore :
    (∃ (s : State) (r : RouteIx) (stamp : Stamp), stamp = s.time.tt - BitVec.ofNat 64 s.cfg.lanes[r].rxc ∧
      s.cfg.lanes[r].type = .unused) ∧
    (∃ (s : State) (r : RouteIx) (stamp : Stamp), stamp = s.time.tt - BitVec.ofNat 64 s.cfg.lanes[r].rxc ∧
      s.lanes[r].los = true) ∧
    (∃ (s : State) (r : RouteIx) (stamp : Stamp), stamp = s.time.tt - BitVec.ofNat 64 s.cfg.lanes[r].rxc ∧
      s.lanes[r].rx ≠ none) ∧
    (∃ (s : State) (r : RouteIx) (stamp : Stamp), stamp = s.time.tt - BitVec.ofNat 64 s.cfg.lanes[r].rxc ∧
      s.cfg.lanes[r].type ≠ .unused ∧ s.lanes[r].los = false ∧ s.lanes[r].rx = none ∧ s.health[r].state = .disabled) ∧
    (∃ (s : State) (r : RouteIx) (first : Byte) (stamp : Stamp), stamp = s.time.tt - BitVec.ofNat 64
      s.cfg.lanes[r].rxc ∧ s.cfg.lanes[r].type ≠ .unused ∧ s.lanes[r].los = false ∧ s.lanes[r].rx = none ∧
      s.health[r].state ≠ .disabled ∧ first.toNat ≠ 1) ∧
    (∃ (s : State) (r : RouteIx) (first : Byte) (stamp : Stamp), stamp = s.time.tt - BitVec.ofNat 64
      s.cfg.lanes[r].rxc ∧ s.cfg.lanes[r].type ≠ .unused ∧ s.lanes[r].los = false ∧ s.lanes[r].rx = none ∧
      s.health[r].state ≠ .disabled ∧ first.toNat = 1 ∧ s.pool.free = 0) ∧
    (∃ (s : State) (r : RouteIx) (first : Byte) (stamp : Stamp), stamp = s.time.tt - BitVec.ofNat 64
      s.cfg.lanes[r].rxc ∧ s.cfg.lanes[r].type ≠ .unused ∧ s.lanes[r].los = false ∧ s.lanes[r].rx = none ∧
      s.health[r].state ≠ .disabled ∧ first.toNat = 1 ∧ s.pool.Sound ∧ 1 ≤ s.pool.free) ∧
    (∃ (s : State) (r : RouteIx) (first : Byte) (stamp : Stamp), stamp = s.time.tt - BitVec.ofNat 64
      s.cfg.lanes[r].rxc ∧ s.cfg.lanes[r].type ≠ .unused ∧ s.lanes[r].los = false ∧ s.lanes[r].rx = none ∧
      s.health[r].state ≠ .disabled ∧ first.toNat = 1 ∧ s.pool.Sound ∧ 1 ≤ s.pool.free) := by
  have f1 := poolFree_free 1 true (by decide)
  have f3 := poolFree_free 64 false (by decide)
  have s1 := poolFree_sound 1 true (by decide) (by decide) (by decide)
  have s3 := poolFree_sound 64 false (by decide) (by decide) (by decide)
  have f0 := poolFree_free 0 true (by decide)
  refine ⟨⟨net, 15, 5000000000, ?_⟩, ⟨netLos 0, 0, 4999999940, ?_⟩, ⟨receives net [1] .unreceived, 0, 4999999940, ?_⟩,
    ⟨netHealth .disabled, 0, 4999999940, ?_⟩, ⟨net, 0, 2, 4999999940, ?_⟩,
    ⟨netFree 0 true, 0, 1, 4999999940, rfl, by decide, rfl, rfl, by decide, rfl, f0⟩,
    ⟨netFree 1 true, 0, 1, 4999999940, rfl, by decide, rfl, rfl, by decide, rfl, s1, f1.ge⟩,
    ⟨netFree 64 false, 0, 1, 4999999940, rfl, by decide, rfl, rfl, by decide, rfl, s3, f3.ge.trans' (by decide)⟩⟩ <;>
    decide +kernel

theorem witness_SoundFramesDiscarded :
    (∃ (s : State) (r : RouteIx) (rx : Rx) (rest : List Byte) (bs : List Byte), s.lanes[r].rx = some rx ∧ bs =
      rx.first :: rest ∧ bs.length ≤ 1532 ∧ rx.store ≠ .unreceived ∧ s.health[r].state ≠ .disabled ∧ frameCrcGood bs =
      true ∧ rx.first.toNat = 0) ∧
    (∃ (s : State) (r : RouteIx) (rx : Rx) (rest : List Byte) (bs : List Byte), s.lanes[r].rx = some rx ∧ bs =
      rx.first :: rest ∧ bs.length ≤ 1532 ∧ rx.store ≠ .unreceived ∧ s.health[r].state ≠ .disabled ∧ frameCrcGood bs =
      true ∧ 4 < rx.first.toNat) ∧
    (∃ (s : State) (r : RouteIx) (rx : Rx) (rest : List Byte) (bs : List Byte), s.lanes[r].rx = some rx ∧ bs =
      rx.first :: rest ∧ bs.length ≤ 1532 ∧ rx.store ≠ .unreceived ∧ s.health[r].state ≠ .disabled ∧ frameCrcGood bs =
      true ∧ rx.first.toNat = 2 ∧ bs.length ≠ 15) ∧
    (∃ (s : State) (r : RouteIx) (rx : Rx) (rest : List Byte) (bs : List Byte), s.lanes[r].rx = some rx ∧ bs =
      rx.first :: rest ∧ bs.length ≤ 1532 ∧ rx.store ≠ .unreceived ∧ s.health[r].state ≠ .disabled ∧ frameCrcGood bs =
      true ∧ rx.first.toNat = 3 ∧ bs.length ≠ 33) ∧
    (∃ (s : State) (r : RouteIx) (rx : Rx) (rest : List Byte) (bs : List Byte), s.lanes[r].rx = some rx ∧ bs =
      rx.first :: rest ∧ bs.length ≤ 1532 ∧ rx.store ≠ .unreceived ∧ s.health[r].state ≠ .disabled ∧ frameCrcGood bs =
      true ∧ rx.first.toNat = 1 ∧ bs.getD 1 0 ≠ s.cfg.peers[s.cfg.routes[r].peer].termId) ∧
    (∃ (s : State) (r : RouteIx) (rx : Rx) (rest : List Byte) (bs : List Byte), s.lanes[r].rx = some rx ∧ bs =
      rx.first :: rest ∧ bs.length ≤ 1532 ∧ rx.store ≠ .unreceived ∧ s.health[r].state ≠ .disabled ∧ frameCrcGood bs =
      true ∧ rx.first.toNat = 4 ∧ bs.getD 1 0 ≠ s.cfg.peers[s.cfg.routes[r].peer].termId) ∧
    (∃ (s : State) (r : RouteIx) (rx : Rx) (rest : List Byte) (bs : List Byte) (k : Nat), s.lanes[r].rx = some rx ∧ bs
      = rx.first :: rest ∧ bs.length ≤ 1532 ∧ rx.store ≠ .unreceived ∧ s.health[r].state ≠ .disabled ∧ frameCrcGood bs
      = true ∧ bs.getD 1 0 = s.cfg.peers[s.cfg.routes[r].peer].termId ∧ rx.first.toNat = 1 ∧ rx.store = .slot k ∧
      bs.length < 32) ∧
    (∃ (s : State) (r : RouteIx) (rx : Rx) (rest : List Byte) (bs : List Byte) (k : Nat), s.lanes[r].rx = some rx ∧ bs
      = rx.first :: rest ∧ bs.length ≤ 1532 ∧ rx.store ≠ .unreceived ∧ s.health[r].state ≠ .disabled ∧ frameCrcGood bs
      = true ∧ bs.getD 1 0 = s.cfg.peers[s.cfg.routes[r].peer].termId ∧ rx.first.toNat = 1 ∧ rx.store = .slot k ∧
      field bs 6 2 < 1) ∧
    (∃ (s : State) (r : RouteIx) (rx : Rx) (rest : List Byte) (bs : List Byte) (k : Nat), s.lanes[r].rx = some rx ∧ bs
      = rx.first :: rest ∧ bs.length ≤ 1532 ∧ rx.store ≠ .unreceived ∧ s.health[r].state ≠ .disabled ∧ frameCrcGood bs
      = true ∧ bs.getD 1 0 = s.cfg.peers[s.cfg.routes[r].peer].termId ∧ rx.first.toNat = 1 ∧ rx.store = .slot k ∧ 1500
      < field bs 6 2) ∧
    (∃ (s : State) (r : RouteIx) (rx : Rx) (rest : List Byte) (bs : List Byte) (k : Nat), s.lanes[r].rx = some rx ∧ bs
      = rx.first :: rest ∧ bs.length ≤ 1532 ∧ rx.store ≠ .unreceived ∧ s.health[r].state ≠ .disabled ∧ frameCrcGood bs
      = true ∧ bs.getD 1 0 = s.cfg.peers[s.cfg.routes[r].peer].termId ∧ rx.first.toNat = 1 ∧ rx.store = .slot k ∧
      bs.length ≠ field bs 6 2 + 32) ∧
    (∃ (s : State) (r : RouteIx) (rx : Rx) (rest : List Byte) (bs : List Byte) (k : Nat), s.lanes[r].rx = some rx ∧ bs
      = rx.first :: rest ∧ bs.length ≤ 1532 ∧ rx.store ≠ .unreceived ∧ s.health[r].state ≠ .disabled ∧ frameCrcGood bs
      = true ∧ bs.getD 1 0 = s.cfg.peers[s.cfg.routes[r].peer].termId ∧ rx.first.toNat = 1 ∧ rx.store = .slot k ∧ 32 ≤
      bs.length ∧ 1 ≤ field bs 6 2 ∧ field bs 6 2 ≤ 1500 ∧ bs.length = field bs 6 2 + 32 ∧ (∀ n : CircIx, n.val =
      field bs 2 2 → s.circuits[n].state ≠ .opened ∨ ((s.circuits[n].defn.all fun x => x.peer != s.cfg.routes[r].peer
      || x.flow.isOut) = true))) ∧
    (∃ (s : State) (r : RouteIx) (rx : Rx) (rest : List Byte) (bs : List Byte) (k : Nat), s.lanes[r].rx = some rx ∧ bs
      = rx.first :: rest ∧ bs.length ≤ 1532 ∧ rx.store ≠ .unreceived ∧ s.health[r].state ≠ .disabled ∧ frameCrcGood bs
      = true ∧ bs.getD 1 0 = s.cfg.peers[s.cfg.routes[r].peer].termId ∧ rx.first.toNat = 1 ∧ rx.store = .slot k ∧ 32 ≤
      bs.length ∧ 1 ≤ field bs 6 2 ∧ field bs 6 2 ≤ 1500 ∧ bs.length = field bs 6 2 + 32 ∧ (∀ n : CircIx, n.val =
      field bs 2 2 → s.circuits[n].state ≠ .opened ∨ ((s.circuits[n].defn.all fun x => x.peer != s.cfg.routes[r].peer
      || x.flow.isOut) = true))) ∧
    (∃ (s : State) (r : RouteIx) (rx : Rx) (rest : List Byte) (bs : List Byte) (k : Nat), s.lanes[r].rx = some rx ∧ bs
      = rx.first :: rest ∧ bs.length ≤ 1532 ∧ rx.store ≠ .unreceived ∧ s.health[r].state ≠ .disabled ∧ frameCrcGood bs
      = true ∧ bs.getD 1 0 = s.cfg.peers[s.cfg.routes[r].peer].termId ∧ rx.first.toNat = 1 ∧ rx.store = .slot k ∧ 32 ≤
      bs.length ∧ 1 ≤ field bs 6 2 ∧ field bs 6 2 ≤ 1500 ∧ bs.length = field bs 6 2 + 32 ∧ (∀ n : CircIx, n.val =
      field bs 2 2 → s.circuits[n].state ≠ .opened ∨ ((s.circuits[n].defn.all fun x => x.peer != s.cfg.routes[r].peer
      || x.flow.isOut) = true))) ∧
    (∃ (s : State) (r : RouteIx) (rx : Rx) (rest : List Byte) (bs : List Byte) (k : Nat), s.lanes[r].rx = some rx ∧ bs
      = rx.first :: rest ∧ bs.length ≤ 1532 ∧ rx.store ≠ .unreceived ∧ s.health[r].state ≠ .disabled ∧ frameCrcGood bs
      = true ∧ bs.getD 1 0 = s.cfg.peers[s.cfg.routes[r].peer].termId ∧ rx.first.toNat = 1 ∧ rx.store = .slot k ∧ 32 ≤
      bs.length ∧ 1 ≤ field bs 6 2 ∧ field bs 6 2 ≤ 1500 ∧ bs.length = field bs 6 2 + 32 ∧ (∀ n : CircIx, n.val =
      field bs 2 2 → s.circuits[n].state ≠ .opened ∨ ((s.circuits[n].defn.all fun x => x.peer != s.cfg.routes[r].peer
      || x.flow.isOut) = true))) := by
    refine ⟨⟨receives net (withCrc [0]) .buffer, 0, rxOf (withCrc [0]) .buffer, (withCrc [0]).drop 1, withCrc [0],
    ?_⟩,
    ⟨receives net (withCrc [5]) .buffer, 0, rxOf (withCrc [5]) .buffer, (withCrc [5]).drop 1, withCrc [5], ?_⟩,
    ⟨receives net (withCrc (2 :: List.replicate 11 9)) .buffer, 0, rxOf (withCrc (2 :: List.replicate 11 9)) .buffer,
      (withCrc (2 :: List.replicate 11 9)).drop 1, withCrc (2 :: List.replicate 11 9), ?_⟩,
    ⟨receives net (withCrc (3 :: List.replicate 29 9)) .buffer, 0, rxOf (withCrc (3 :: List.replicate 29 9)) .buffer,
      (withCrc (3 :: List.replicate 29 9)).drop 1, withCrc (3 :: List.replicate 29 9), ?_⟩,
    ⟨arrives net (cargoFrame 8 1 0 1 [1]), 0, rxOf (cargoFrame 8 1 0 1 [1]) (.slot 7), (cargoFrame 8 1 0 1 [1]).drop
      1, cargoFrame 8 1 0 1 [1], ?_⟩,
    ⟨receives net (withCrc [4, 8, 0, 0]) .buffer, 0, rxOf (withCrc [4, 8, 0, 0]) .buffer, (withCrc [4, 8, 0, 0]).drop
      1, withCrc [4, 8, 0, 0], ?_⟩,
    ⟨arrives net (withCrc [1, 9]), 0, rxOf (withCrc [1, 9]) (.slot 7), (withCrc [1, 9]).drop 1, withCrc [1, 9], 7,
      ?_⟩,
    ⟨arrives net (cargoFrame 9 1 0 0 []), 0, rxOf (cargoFrame 9 1 0 0 []) (.slot 7), (cargoFrame 9 1 0 0 []).drop 1,
      cargoFrame 9 1 0 0 [], 7, ?_⟩,
    ⟨arrives net (cargoFrame 9 1 0 1501 []), 0, rxOf (cargoFrame 9 1 0 1501 []) (.slot 7), (cargoFrame 9 1 0 1501
      []).drop 1, cargoFrame 9 1 0 1501 [], 7, ?_⟩,
    ⟨arrives net (cargoFrame 9 1 0 2 [1]), 0, rxOf (cargoFrame 9 1 0 2 [1]) (.slot 7), (cargoFrame 9 1 0 2 [1]).drop
      1, cargoFrame 9 1 0 2 [1], 7, ?_⟩,
    ⟨arrives net (cargoFrame 9 64 0 1 [1]), 0, rxOf (cargoFrame 9 64 0 1 [1]) (.slot 7), (cargoFrame 9 64 0 1
      [1]).drop 1, cargoFrame 9 64 0 1 [1], 7, ?_⟩,
    ⟨arrives net (cargoFrame 9 63 0 1 [1]), 0, rxOf (cargoFrame 9 63 0 1 [1]) (.slot 7), (cargoFrame 9 63 0 1
      [1]).drop 1, cargoFrame 9 63 0 1 [1], 7, ?_⟩,
    ⟨arrives net (cargoFrame 9 0 0 1 [1]), 0, rxOf (cargoFrame 9 0 0 1 [1]) (.slot 7), (cargoFrame 9 0 0 1 [1]).drop
      1, cargoFrame 9 0 0 1 [1], 7, ?_⟩,
    ⟨arrives netFar (cargoFrame 9 1 0 1 [1]), 0, rxOf (cargoFrame 9 1 0 1 [1]) (.slot 7), (cargoFrame 9 1 0 1
      [1]).drop 1, cargoFrame 9 1 0 1 [1], 7, ?_⟩⟩ <;> decide +kernel

theorem witness_CargoJudgedAndDelivered :
    (∃ (s : State) (r : RouteIx) (rx : Rx) (rest : List Byte) (payload : List Byte) (k : Nat) (f : Frame) (n : CircIx)
      (port : PortIx) (seq : BitVec 16) (tag : BitVec 32) (ingress : Stamp) (sent : Stamp) (e : WinEntry),
      s.lanes[r].rx = some rx ∧ rx.store = .slot k ∧ s.pool.frame k = some f ∧ f.refs = 1 ∧ s.health[r].state ≠
      .disabled ∧ 1 ≤ payload.length ∧ payload.length ≤ 1500 ∧ rx.first :: rest = withCrc ([1,
      s.cfg.peers[s.cfg.routes[r].peer].termId] ++ bytesOf 2 n.val ++ bytesOf 2 seq.toNat ++ bytesOf 2 payload.length
      ++ bytesOf 4 tag.toNat ++ bytesOf 8 ingress.toNat ++ bytesOf 8 sent.toNat ++ payload) ∧ s.circuits[n].state =
      .opened ∧ s.circuits[n].defn = some (CircuitDef.mk port s.cfg.routes[r].peer (.inn none)) ∧
      s.circuits[n].window.judge seq = .duplicate e) ∧
    (∃ (s : State) (r : RouteIx) (rx : Rx) (rest : List Byte) (payload : List Byte) (k : Nat) (f : Frame) (n : CircIx)
      (port : PortIx) (seq : BitVec 16) (tag : BitVec 32) (ingress : Stamp) (sent : Stamp), s.lanes[r].rx = some rx ∧
      rx.store = .slot k ∧ s.pool.frame k = some f ∧ f.refs = 1 ∧ s.health[r].state ≠ .disabled ∧ 1 ≤ payload.length ∧
      payload.length ≤ 1500 ∧ rx.first :: rest = withCrc ([1, s.cfg.peers[s.cfg.routes[r].peer].termId] ++ bytesOf 2
      n.val ++ bytesOf 2 seq.toNat ++ bytesOf 2 payload.length ++ bytesOf 4 tag.toNat ++ bytesOf 8 ingress.toNat ++
      bytesOf 8 sent.toNat ++ payload) ∧ s.circuits[n].state = .opened ∧ s.circuits[n].defn = some (CircuitDef.mk port
      s.cfg.routes[r].peer (.inn none)) ∧ s.circuits[n].window.judge seq = .stale) ∧
    (∃ (s : State) (r : RouteIx) (rx : Rx) (rest : List Byte) (payload : List Byte) (k : Nat) (f : Frame) (n : CircIx)
      (port : PortIx) (seq : BitVec 16) (tag : BitVec 32) (ingress : Stamp) (sent : Stamp) (v : Verdict),
      s.lanes[r].rx = some rx ∧ rx.store = .slot k ∧ s.pool.frame k = some f ∧ f.refs = 1 ∧ s.health[r].state ≠
      .disabled ∧ 1 ≤ payload.length ∧ payload.length ≤ 1500 ∧ rx.first :: rest = withCrc ([1,
      s.cfg.peers[s.cfg.routes[r].peer].termId] ++ bytesOf 2 n.val ++ bytesOf 2 seq.toNat ++ bytesOf 2 payload.length
      ++ bytesOf 4 tag.toNat ++ bytesOf 8 ingress.toNat ++ bytesOf 8 sent.toNat ++ payload) ∧ s.circuits[n].state =
      .opened ∧ s.circuits[n].defn = some (CircuitDef.mk port s.cfg.routes[r].peer (.inn none)) ∧
      s.circuits[n].window.judge seq = v ∧ s.ports[port].up = true ∧ s.ports[port].delivery.length < 64) ∧
    (∃ (s : State) (r : RouteIx) (rx : Rx) (rest : List Byte) (payload : List Byte) (k : Nat) (f : Frame) (n : CircIx)
      (port : PortIx) (seq : BitVec 16) (tag : BitVec 32) (ingress : Stamp) (sent : Stamp) (v : Verdict),
      s.lanes[r].rx = some rx ∧ rx.store = .slot k ∧ s.pool.frame k = some f ∧ f.refs = 1 ∧ s.health[r].state ≠
      .disabled ∧ 1 ≤ payload.length ∧ payload.length ≤ 1500 ∧ rx.first :: rest = withCrc ([1,
      s.cfg.peers[s.cfg.routes[r].peer].termId] ++ bytesOf 2 n.val ++ bytesOf 2 seq.toNat ++ bytesOf 2 payload.length
      ++ bytesOf 4 tag.toNat ++ bytesOf 8 ingress.toNat ++ bytesOf 8 sent.toNat ++ payload) ∧ s.circuits[n].state =
      .opened ∧ s.circuits[n].defn = some (CircuitDef.mk port s.cfg.routes[r].peer (.inn none)) ∧
      s.circuits[n].window.judge seq = v ∧ s.ports[port].up = true ∧ s.ports[port].delivery.length < 64) ∧
    (∃ (s : State) (r : RouteIx) (rx : Rx) (rest : List Byte) (payload : List Byte) (k : Nat) (f : Frame) (n : CircIx)
      (port : PortIx) (seq : BitVec 16) (tag : BitVec 32) (ingress : Stamp) (sent : Stamp) (v : Verdict),
      s.lanes[r].rx = some rx ∧ rx.store = .slot k ∧ s.pool.frame k = some f ∧ f.refs = 1 ∧ s.health[r].state ≠
      .disabled ∧ 1 ≤ payload.length ∧ payload.length ≤ 1500 ∧ rx.first :: rest = withCrc ([1,
      s.cfg.peers[s.cfg.routes[r].peer].termId] ++ bytesOf 2 n.val ++ bytesOf 2 seq.toNat ++ bytesOf 2 payload.length
      ++ bytesOf 4 tag.toNat ++ bytesOf 8 ingress.toNat ++ bytesOf 8 sent.toNat ++ payload) ∧ s.circuits[n].state =
      .opened ∧ s.circuits[n].defn = some (CircuitDef.mk port s.cfg.routes[r].peer (.inn none)) ∧
      s.circuits[n].window.judge seq = v ∧ s.ports[port].up = false) ∧
    (∃ (s : State) (r : RouteIx) (rx : Rx) (rest : List Byte) (payload : List Byte) (k : Nat) (f : Frame) (n : CircIx)
      (port : PortIx) (seq : BitVec 16) (tag : BitVec 32) (ingress : Stamp) (sent : Stamp) (v : Verdict),
      s.lanes[r].rx = some rx ∧ rx.store = .slot k ∧ s.pool.frame k = some f ∧ f.refs = 1 ∧ s.health[r].state ≠
      .disabled ∧ 1 ≤ payload.length ∧ payload.length ≤ 1500 ∧ rx.first :: rest = withCrc ([1,
      s.cfg.peers[s.cfg.routes[r].peer].termId] ++ bytesOf 2 n.val ++ bytesOf 2 seq.toNat ++ bytesOf 2 payload.length
      ++ bytesOf 4 tag.toNat ++ bytesOf 8 ingress.toNat ++ bytesOf 8 sent.toNat ++ payload) ∧ s.circuits[n].state =
      .opened ∧ s.circuits[n].defn = some (CircuitDef.mk port s.cfg.routes[r].peer (.inn none)) ∧
      s.circuits[n].window.judge seq = v ∧ 64 ≤ s.ports[port].delivery.length) := by
    refine ⟨⟨arrives (netWin window5) (cargoFrame 9 1 5 1 [1]), 0, rxOf (cargoFrame 9 1 5 1 [1]) (.slot 7),
    (cargoFrame 9 1 5 1 [1]).drop 1, [1], 7, frameIn, 1, 1, 5, 7, 11, 12, entry1, ?_⟩,
    ⟨arrives (netWin window5) (cargoFrame 9 1 65477 1 [1]), 0, rxOf (cargoFrame 9 1 65477 1 [1]) (.slot 7),
      (cargoFrame 9 1 65477 1 [1]).drop 1, [1], 7, frameIn, 1, 1, 65477, 7, 11, 12, ?_⟩,
    ⟨arrives (netWait 63) (cargoFrame 9 1 65478 1 [1]), 0, rxOf (cargoFrame 9 1 65478 1 [1]) (.slot 7), (cargoFrame 9
      1 65478 1 [1]).drop 1, [1], 7, frameIn, 1, 1, 65478, 7, 11, 12, .fill 63, ?_⟩,
    ⟨arrives (netWait 63) (cargoFrame 9 1 32772 1 [1]), 0, rxOf (cargoFrame 9 1 32772 1 [1]) (.slot 7), (cargoFrame 9
      1 32772 1 [1]).drop 1, [1], 7, frameIn, 1, 1, 32772, 7, 11, 12, .ahead 32767, ?_⟩,
    ⟨arrives netMute (cargoFrame 9 1 6 1 [1]), 0, rxOf (cargoFrame 9 1 6 1 [1]) (.slot 7), (cargoFrame 9 1 6 1
      [1]).drop 1, [1], 7, frameIn, 1, 1, 6, 7, 11, 12, .ahead 1, ?_⟩,
    ⟨arrives (netWait 64) (cargoFrame 9 1 6 1 [1]), 0, rxOf (cargoFrame 9 1 6 1 [1]) (.slot 7), (cargoFrame 9 1 6 1
      [1]).drop 1, [1], 7, frameIn, 1, 1, 6, 7, 11, 12, .ahead 1, ?_⟩⟩ <;> decide +kernel

/-- A DUPLICATE and a STALE frame of C2, which has a relay target. -/
theorem witness_CargoJudgedAndDelivered_relay :
    ∀ x ∈ [((5 : Nat), Verdict.duplicate entry1), (65477, .stale)],
      (arrives (netWin window5) (cargoFrame 9 2 x.1 1 [1])).lanes[(0 : RouteIx)].rx =
        some (rxOf (cargoFrame 9 2 x.1 1 [1]) (.slot 7)) ∧
      (arrives (netWin window5) (cargoFrame 9 2 x.1 1 [1])).circuits[(2 : CircIx)].state = .opened ∧
      (arrives (netWin window5) (cargoFrame 9 2 x.1 1 [1])).circuits[(2 : CircIx)].defn =
        some { port := 1, peer := 0, flow := .inn (some 0) } ∧
      (netWin window5).circuits[(2 : CircIx)].window.judge (BitVec.ofNat 16 x.1) = x.2 := by
  decide +kernel

theorem witness_CargoRelayed :
    (∃ (s : State) (r : RouteIx) (rx : Rx) (rest : List Byte) (payload : List Byte) (k : Nat) (f : Frame) (n : CircIx)
      (port : PortIx) (seq : BitVec 16) (tag : BitVec 32) (ingress : Stamp) (sent : Stamp) (target : CircIx) (v :
      Verdict) (outPort : PortIx) (peer : PeerIx) (far : CircIx) (cls : TrafficClass) (maxAge : Nat) (q : RouteIx)
      (sh : Option RouteIx) (copy : Copy),
      s.lanes[r].rx = some rx ∧ rx.store = .slot k ∧ s.pool.frame k = some f ∧ f.refs = 1 ∧ s.health[r].state ≠
      .disabled ∧ 1 ≤ payload.length ∧ payload.length ≤ 1500 ∧ rx.first :: rest = withCrc ([1,
      s.cfg.peers[s.cfg.routes[r].peer].termId] ++ bytesOf 2 n.val ++ bytesOf 2 seq.toNat ++ bytesOf 2 payload.length
      ++ bytesOf 4 tag.toNat ++ bytesOf 8 ingress.toNat ++ bytesOf 8 sent.toNat ++ payload) ∧ s.circuits[n].state =
      .opened ∧ s.circuits[n].defn = some (CircuitDef.mk port s.cfg.routes[r].peer (.inn (some target))) ∧
      s.circuits[n].window.judge seq = v ∧ s.circuits[target].state = .opened ∧ s.circuits[target].closing = none ∧
      s.circuits[target].defn = some (CircuitDef.mk outPort peer (.out far cls maxAge)) ∧ s.primary peer
      payload.length (s.eligible peer) = some q ∧
      (∀ q' : RouteIx, sh = some q' ↔ (cls = .sure ∨ s.health[q].state = .fading) ∧ LeastRoute (fun x => s.Eligible
      peer x ∧ x ≠ q) (s.expectedArrival payload.length) q') ∧ copy = Copy.mk k target s.circuits[target].nextSeq
      payload.length rx.et outPort) ∧
    (∃ (s : State) (r : RouteIx) (rx : Rx) (rest : List Byte) (payload : List Byte) (k : Nat) (f : Frame) (n : CircIx)
      (port : PortIx) (seq : BitVec 16) (tag : BitVec 32) (ingress : Stamp) (sent : Stamp) (target : CircIx) (v :
      Verdict) (outPort : PortIx) (peer : PeerIx) (far : CircIx) (cls : TrafficClass) (maxAge : Nat) (q : RouteIx)
      (sh : Option RouteIx) (copy : Copy),
      s.lanes[r].rx = some rx ∧ rx.store = .slot k ∧ s.pool.frame k = some f ∧ f.refs = 1 ∧ s.health[r].state ≠
      .disabled ∧ 1 ≤ payload.length ∧ payload.length ≤ 1500 ∧ rx.first :: rest = withCrc ([1,
      s.cfg.peers[s.cfg.routes[r].peer].termId] ++ bytesOf 2 n.val ++ bytesOf 2 seq.toNat ++ bytesOf 2 payload.length
      ++ bytesOf 4 tag.toNat ++ bytesOf 8 ingress.toNat ++ bytesOf 8 sent.toNat ++ payload) ∧ s.circuits[n].state =
      .opened ∧ s.circuits[n].defn = some (CircuitDef.mk port s.cfg.routes[r].peer (.inn (some target))) ∧
      s.circuits[n].window.judge seq = v ∧ s.circuits[target].state = .opened ∧ s.circuits[target].closing = none ∧
      s.circuits[target].defn = some (CircuitDef.mk outPort peer (.out far cls maxAge)) ∧ s.primary peer
      payload.length (s.eligible peer) = some q ∧
      (∀ q' : RouteIx, sh = some q' ↔ (cls = .sure ∨ s.health[q].state = .fading) ∧ LeastRoute (fun x => s.Eligible
      peer x ∧ x ≠ q) (s.expectedArrival payload.length) q') ∧ copy = Copy.mk k target s.circuits[target].nextSeq
      payload.length rx.et outPort) ∧
    (∃ (s : State) (r : RouteIx) (rx : Rx) (rest : List Byte) (payload : List Byte) (k : Nat) (f : Frame) (n : CircIx)
      (port : PortIx) (seq : BitVec 16) (tag : BitVec 32) (ingress : Stamp) (sent : Stamp) (target : CircIx) (v :
      Verdict), s.lanes[r].rx = some rx ∧ rx.store = .slot k ∧ s.pool.frame k = some f ∧ f.refs = 1 ∧
      s.health[r].state ≠ .disabled ∧ 1 ≤ payload.length ∧ payload.length ≤ 1500 ∧ rx.first :: rest = withCrc ([1,
      s.cfg.peers[s.cfg.routes[r].peer].termId] ++ bytesOf 2 n.val ++ bytesOf 2 seq.toNat ++ bytesOf 2 payload.length
      ++ bytesOf 4 tag.toNat ++ bytesOf 8 ingress.toNat ++ bytesOf 8 sent.toNat ++ payload) ∧ s.circuits[n].state =
      .opened ∧ s.circuits[n].defn = some (CircuitDef.mk port s.cfg.routes[r].peer (.inn (some target))) ∧
      s.circuits[n].window.judge seq = v ∧ s.circuits[target].state ≠ .opened) ∧
    (∃ (s : State) (r : RouteIx) (rx : Rx) (rest : List Byte) (payload : List Byte) (k : Nat) (f : Frame) (n : CircIx)
      (port : PortIx) (seq : BitVec 16) (tag : BitVec 32) (ingress : Stamp) (sent : Stamp) (target : CircIx) (v :
      Verdict), s.lanes[r].rx = some rx ∧ rx.store = .slot k ∧ s.pool.frame k = some f ∧ f.refs = 1 ∧
      s.health[r].state ≠ .disabled ∧ 1 ≤ payload.length ∧ payload.length ≤ 1500 ∧ rx.first :: rest = withCrc ([1,
      s.cfg.peers[s.cfg.routes[r].peer].termId] ++ bytesOf 2 n.val ++ bytesOf 2 seq.toNat ++ bytesOf 2 payload.length
      ++ bytesOf 4 tag.toNat ++ bytesOf 8 ingress.toNat ++ bytesOf 8 sent.toNat ++ payload) ∧ s.circuits[n].state =
      .opened ∧ s.circuits[n].defn = some (CircuitDef.mk port s.cfg.routes[r].peer (.inn (some target))) ∧
      s.circuits[n].window.judge seq = v ∧ s.circuits[target].closing ≠ none) ∧
    (∃ (s : State) (r : RouteIx) (rx : Rx) (rest : List Byte) (payload : List Byte) (k : Nat) (f : Frame) (n : CircIx)
      (port : PortIx) (seq : BitVec 16) (tag : BitVec 32) (ingress : Stamp) (sent : Stamp) (target : CircIx) (v :
      Verdict) (outPort : PortIx) (peer : PeerIx) (far : CircIx) (cls : TrafficClass) (maxAge : Nat), s.lanes[r].rx =
      some rx ∧ rx.store = .slot k ∧ s.pool.frame k = some f ∧ f.refs = 1 ∧ s.health[r].state ≠ .disabled ∧ 1 ≤
      payload.length ∧ payload.length ≤ 1500 ∧ rx.first :: rest = withCrc ([1,
      s.cfg.peers[s.cfg.routes[r].peer].termId] ++ bytesOf 2 n.val ++ bytesOf 2 seq.toNat ++ bytesOf 2 payload.length
      ++ bytesOf 4 tag.toNat ++ bytesOf 8 ingress.toNat ++ bytesOf 8 sent.toNat ++ payload) ∧ s.circuits[n].state =
      .opened ∧ s.circuits[n].defn = some (CircuitDef.mk port s.cfg.routes[r].peer (.inn (some target))) ∧
      s.circuits[n].window.judge seq = v ∧ s.circuits[target].state = .opened ∧ s.circuits[target].closing = none ∧
      s.circuits[target].defn = some (CircuitDef.mk outPort peer (.out far cls maxAge)) ∧ (∀ q : RouteIx, ¬ s.Eligible
      peer q)) := by
    refine ⟨⟨arrives net (cargoFrame 9 2 9 1 [1]), 0, rxOf (cargoFrame 9 2 9 1 [1]) (.slot 7), (cargoFrame 9 2 9 1
    [1]).drop 1, [1], 7, frameIn, 2, 1, 9, 7, 11, 12, 0, .first, 0, 0, 3, .fast, 10, 0, none, copy0, ?_⟩,
    ⟨arrives netSure (cargoFrame 9 2 9 1 [1]), 0, rxOf (cargoFrame 9 2 9 1 [1]) (.slot 7), (cargoFrame 9 2 9 1
    [1]).drop 1, [1], 7, frameIn, 2, 1, 9, 7, 11, 12, 0, .first, 0, 0, 3, .sure, 10, 0, some 1, copy0, ?_⟩,
    ⟨arrives netShut (cargoFrame 9 2 9 1 [1]), 0, rxOf (cargoFrame 9 2 9 1 [1]) (.slot 7), (cargoFrame 9 2 9 1
      [1]).drop 1, [1], 7, frameIn, 2, 1, 9, 7, 11, 12, 0, .first, ?_⟩,
    ⟨arrives netClosing (cargoFrame 9 2 9 1 [1]), 0, rxOf (cargoFrame 9 2 9 1 [1]) (.slot 7), (cargoFrame 9 2 9 1
      [1]).drop 1, [1], 7, frameIn, 2, 1, 9, 7, 11, 12, 0, .first, ?_⟩,
    ⟨arrives netCutIn (cargoFrame 9 2 9 1 [1]), 0, rxOf (cargoFrame 9 2 9 1 [1]) (.slot 7), (cargoFrame 9 2 9 1
      [1]).drop 1, [1], 7, frameIn, 2, 1, 9, 7, 11, 12, 0, .first, 0, 0, 3, .fast, 10, ?_⟩⟩ <;> decide +kernel

/-- A relay target that is an IN circuit. -/
theorem witness_CargoRelayed_in :
    netTargetIn.circuits[(2 : CircIx)].defn = some { port := 1, peer := 0, flow := .inn (some 0) } ∧
    netTargetIn.circuits[(0 : CircIx)].state = .opened ∧
    (arrives netTargetIn (cargoFrame 9 2 9 1 [1])).pool.frame 7 = some frameIn ∧
    ∀ (outPort : PortIx) (peer : PeerIx) (far : CircIx) (cls : TrafficClass) (maxAge : Nat),
      netTargetIn.circuits[(0 : CircIx)].defn ≠ some { port := outPort, peer := peer, flow := .out far cls maxAge } := by
  refine ⟨by decide +kernel, by decide +kernel, by decide +kernel, fun _ _ _ _ _ h => ?_⟩
  rw [show netTargetIn.circuits[(0 : CircIx)].defn = some { port := 0, peer := 0, flow := .inn none } by decide +kernel] at h
  simp at h

theorem witness_WindowVerdicts :
    (∃ (w : Window) (seq : BitVec 16), w.valid = false ∧ (∀ x : WinEntry, w.judge seq ≠ .duplicate x) ∧ w.judge seq ≠
      .stale) ∧
    (∃ (w : Window) (seq : BitVec 16), w.valid = true ∧ 1 ≤ (seq - w.h).toNat ∧ (seq - w.h).toNat ≤ 32767) ∧
    (∃ (w : Window) (seq : BitVec 16), w.valid = true ∧ (w.h - seq).toNat ≤ 63) ∧
    (∃ (w : Window) (seq : BitVec 16), w.valid = true ∧ 64 ≤ (w.h - seq).toNat ∧ (w.h - seq).toNat ≤ 32768) ∧
    (∃ (w : Window) (seq : BitVec 16), w.valid = true ∧ 64 ≤ (w.h - seq).toNat ∧ (w.h - seq).toNat ≤ 32768) ∧
    (∃ (w : Window) (seq : BitVec 16) (e : WinEntry) (old : BitVec 16) (x : WinEntry), w.judge seq = .ahead 63 ∧
      w.judge old = .duplicate x ∧ ((w.accept seq e (w.judge seq)).h - old).toNat ≤ 63) ∧
    (∃ (w : Window) (seq : BitVec 16) (e : WinEntry) (old : BitVec 16) (x : WinEntry), w.judge seq = .ahead 64 ∧
      w.judge old = .duplicate x ∧ 64 ≤ ((w.accept seq e (w.judge seq)).h - old).toNat) := by
  refine ⟨⟨Window.invalid, 65535, rfl, fun x h => ?_, ?_⟩, ⟨window5, 32772, ?_⟩, ⟨window5, 65478, ?_⟩, ⟨window5, 32773, ?_⟩,
    ⟨window5, 65477, ?_⟩, ⟨window5, 68, entry1, 5, entry1, ?_⟩, ⟨window5, 69, entry1, 5, entry1, ?_⟩⟩
  · have : (Window.invalid : Window).judge (65535 : BitVec 16) = .first := by decide +kernel
    rw [this] at h
    cases h
  all_goals decide +kernel

theorem witness_OutboundTurnsInOrder :
    (∃ (s : State) (p : PortIx) (status : Byte), status = (if s.pool.hold then (1 : Byte) else 0) ∧ s.ports[p].up =
      false) ∧
    (∃ (s : State) (p : PortIx) (status : Byte), status = (if s.pool.hold then (1 : Byte) else 0) ∧
      s.ports[p].outbound ≠ none) ∧
    (∃ (s : State) (p : PortIx) (status : Byte) (k : Fin 8) (n : Notice), status = (if s.pool.hold then (1 : Byte)
      else 0) ∧ s.ports[p].up = true ∧ s.ports[p].outbound = none ∧ 0 < s.ports[p].records[k].count ∧
      s.ports[p].records[k].latest = some n ∧ (∀ j : Fin 8, j < k → s.ports[p].records[j].count = 0) ∧ k ≤ 1) ∧
    (∃ (s : State) (p : PortIx) (status : Byte) (k : Fin 8) (n : Notice), status = (if s.pool.hold then (1 : Byte)
      else 0) ∧ s.ports[p].up = true ∧ s.ports[p].outbound = none ∧ 0 < s.ports[p].records[k].count ∧
      s.ports[p].records[k].latest = some n ∧ (∀ j : Fin 8, j < k → s.ports[p].records[j].count = 0) ∧ k ≤ 1) ∧
    (∃ (s : State) (p : PortIx) (status : Byte) (k : Fin 8) (n : Notice), status = (if s.pool.hold then (1 : Byte)
      else 0) ∧ s.ports[p].up = true ∧ s.ports[p].outbound = none ∧ 0 < s.ports[p].records[k].count ∧
      s.ports[p].records[k].latest = some n ∧ (∀ j : Fin 8, j < k → s.ports[p].records[j].count = 0) ∧
      s.ports[p].answers = [] ∧ s.ports[p].delivery = []) ∧
    (∃ (s : State) (p : PortIx) (status : Byte) (k : Fin 8) (n : Notice), status = (if s.pool.hold then (1 : Byte)
      else 0) ∧ s.ports[p].up = true ∧ s.ports[p].outbound = none ∧ 0 < s.ports[p].records[k].count ∧
      s.ports[p].records[k].latest = some n ∧ (∀ j : Fin 8, j < k → s.ports[p].records[j].count = 0) ∧
      s.ports[p].answers = [] ∧ s.ports[p].delivery = []) ∧
    (∃ (s : State) (p : PortIx) (status : Byte) (a : Answer) (rest : List Answer), status = (if s.pool.hold then (1 :
      Byte) else 0) ∧ s.ports[p].up = true ∧ s.ports[p].outbound = none ∧ s.ports[p].records[(0 : Fin 8)].count = 0 ∧
      s.ports[p].records[(1 : Fin 8)].count = 0 ∧ s.ports[p].answers = a :: rest) ∧
    (∃ (s : State) (p : PortIx) (status : Byte) (e : DeliveryEntry) (rest : List DeliveryEntry) (f : Frame) (from_ :
      RouteIx), status = (if s.pool.hold then (1 : Byte) else 0) ∧ s.ports[p].up = true ∧ s.ports[p].outbound = none ∧
      s.ports[p].records[(0 : Fin 8)].count = 0 ∧ s.ports[p].records[(1 : Fin 8)].count = 0 ∧ s.ports[p].answers = []
      ∧ s.ports[p].delivery = e :: rest ∧ s.pool.frame e.slot = some f ∧ f.source = .cargo from_) ∧
    (∃ (s : State) (p : PortIx) (status : Byte), status = (if s.pool.hold then (1 : Byte) else 0) ∧ s.ports[p].up =
      true ∧ s.ports[p].outbound = none ∧ s.ports[p].records[(0 : Fin 8)].count = 0 ∧ s.ports[p].records[(1 : Fin
      8)].count = 0 ∧ s.ports[p].answers = [] ∧ s.ports[p].delivery = [] ∧ (∀ k : Fin 8, s.ports[p].records[k].count =
      0)) ∧
    (∃ (s : State) (p : PortIx) (status : Byte), status = (if s.pool.hold then (1 : Byte) else 0) ∧
      s.ports[p].outbound = none) ∧
    (∃ (s : State) (p : PortIx) (status : Byte) (o : Outbound), status = (if s.pool.hold then (1 : Byte) else 0) ∧
      s.ports[p].up = true ∧ s.ports[p].outbound = some o ∧ o.kind ≠ .deliver) ∧
    (∃ (s : State) (p : PortIx) (status : Byte) (o : Outbound), status = (if s.pool.hold then (1 : Byte) else 0) ∧
      s.ports[p].up = true ∧ s.ports[p].outbound = some o ∧ o.cut = true) ∧
    (∃ (s : State) (p : PortIx) (status : Byte) (o : Outbound) (e : DeliveryEntry) (rest : List DeliveryEntry), status
      = (if s.pool.hold then (1 : Byte) else 0) ∧ s.ports[p].up = true ∧ s.ports[p].outbound = some o ∧ o.kind =
      .deliver ∧ o.cut = false ∧ s.ports[p].delivery = e :: rest) := by
    refine ⟨⟨net, 5, 0, ?_⟩,
    ⟨netDelivering, 1, 0, ?_⟩,
    ⟨netNotice (Notice.timeStep (-500000000)), 0, 0, 0, Notice.timeStep (-500000000), ?_⟩,
    ⟨netNotice (Notice.routeState 15 .up .down), 0, 0, 1, Notice.routeState 15 .up .down, ?_⟩,
    ⟨netNotice (Notice.timeState .locked .acquiring), 0, 0, 2, Notice.timeState .locked .acquiring, ?_⟩,
    ⟨netNotice (Notice.holdIgnored 64), 0, 0, 7, Notice.holdIgnored 64, ?_⟩,
    ⟨netAnswer, 0, 0, Answer.mk 1 .done [], [], ?_⟩,
    ⟨netReady, 1, 0, DeliveryEntry.mk 7 1 0, [], frameIn, 0, ?_⟩,
    ⟨net, 0, 0, ?_⟩,
    ⟨net, 0, 0, ?_⟩,
    ⟨netOutbound .notice false, 0, 0, Outbound.mk .notice [] false, ?_⟩,
    ⟨netOutbound .deliver true, 0, 0, Outbound.mk .deliver [] true, ?_⟩,
    ⟨netDelivering, 1, 0, Outbound.mk .deliver [] false, DeliveryEntry.mk 7 1 0, [DeliveryEntry.mk 8 1 1], ?_⟩⟩ <;>
      decide +kernel

theorem witness_LinksRiseAndFall :
    (∃ (s : State) (p : PortIx), s.ports[p].up = false) ∧
    (∃ (s : State) (p : PortIx), s.ports[p].up = true) ∧
    (∃ (s : State) (p : PortIx), s.ports[p].up = true) ∧
    (∃ (s : State) (p : PortIx), s.ports[p].up = true ∧ s.ports[p].misses < 7) ∧
    (∃ (s : State) (p : PortIx), s.ports[p].up = true ∧ 7 ≤ s.ports[p].misses) := by
    refine ⟨⟨net, 5, ?_⟩,
    ⟨net, 0, ?_⟩,
    ⟨netDelivering, 1, ?_⟩,
    ⟨netMisses 6, 0, ?_⟩,
    ⟨netMisses 7, 0, ?_⟩⟩ <;> decide +kernel

/-- A run one short of 16 fill words and one of 16, a link none of whose bytes came, and silence one tick short of 100 µs and
100 µs long. -/
theorem witness_LinksRiseAndFall_guards :
    (∀ k ∈ [15, 16], (netLink false (receiver k)).ports[(5 : PortIx)].up = false ∧
      (netLink false (receiver k)).ports[(5 : PortIx)].receiver.lastByte ≠ none ∧
      (netLink false (receiver k)).ports[(5 : PortIx)].receiver.fills = k) ∧
    net.ports[(5 : PortIx)].receiver.lastByte = none ∧
    (∀ ago ∈ [12499, 12500], (netLink true (heard ago)).ports[(5 : PortIx)].up = true ∧
      (netLink true (heard ago)).ports[(5 : PortIx)].receiver.lastByte = some (net.time.et - BitVec.ofNat 64 ago) ∧
      (net.time.et - (net.time.et - BitVec.ofNat 64 ago)).toNat = ago) := by
  decide +kernel

/-- The DIRECTIVE envelopes of the longest arguments and of codes that name none, at either end. -/
theorem witness_LinksRiseAndFall_directive :
    ((.readTime : Directive → Instr), 1, 0) ∈ directives ∧
    (∀ args : List Byte, args.length = 65530 → (directiveBody 1 { spoilt 5 with args := args }).length = 65535) ∧
    ∀ body ∈ ([[], [1, 2, 3, 4], [0, 9, 0, 0, 0], [22, 9, 0, 0, 0]] : List (List Byte)), body.length < 65536 ∧
      (body.length < 5 ∨ (body.getD 0 0).toNat = 0 ∨ 21 < (body.getD 0 0).toNat) := by
  refine ⟨List.mem_cons_self, fun args h => ?_, by decide⟩
  simp [directiveBody, bytesOf, h]

/-- A run of fill words that ends at fifteen and at sixteen, a byte that is no marker, and an inbound envelope. -/
theorem witness_LinksRiseAndFall_receiver :
    (receiver 0).unit = [] ∧ (receiver 0).fills + (List.replicate 15 (1 : Byte)).length < 16 ∧
    (receiver 15).fills + ([0] : List Byte).length = 16 ∧ (0x5B : Byte) ∉ ([0x5A, 0xA1, 0xA2, 0xA3, 0xA4, 0xA5] : List Byte) ∧
    (0xA1 : Byte) ∈ ([0xA1, 0xA3, 0xA4, 0xA5] : List Byte) ∧ (List.replicate 65535 (0 : Byte)).length < 65536 := by
  refine ⟨rfl, by decide, by decide, by decide, by decide, ?_⟩
  rw [List.length_replicate]; omega

theorem witness_UnitsRejected :
    (∃ (s : State) (p : PortIx) (body : List Byte), s.ports[p].up = false ∧ body.length < 5) ∧
    (∃ (s : State) (p : PortIx) (status : Byte) (body : List Byte) (crc : BitVec 32), s.ports[p].up = true ∧
      body.length < 5 ∧ crc ≠ crc32 ([0xA2, status] ++ bytesOf 2 body.length ++ body)) ∧
    (∃ (s : State) (p : PortIx) (status : Byte) (body : List Byte) (crc : BitVec 32), s.ports[p].up = true ∧
      (body.getD 0 0).toNat = 0 ∧ crc = crc32 ([0xA2, status] ++ bytesOf 2 body.length ++ body) ∧ 16 ≤
      s.ports[p].answers.length) ∧
    (∃ (s : State) (p : PortIx) (status : Byte) (body : List Byte) (crc : BitVec 32), s.ports[p].up = true ∧ 21 <
      (body.getD 0 0).toNat ∧ crc = crc32 ([0xA2, status] ++ bytesOf 2 body.length ++ body) ∧
      s.ports[p].answers.length < 16) ∧
    (∃ (s : State) (p : PortIx) (status : Byte) (body : List Byte) (crc : BitVec 32), s.ports[p].up = true ∧
      body.length < 5 ∧ crc = crc32 ([0xA2, status] ++ bytesOf 2 body.length ++ body) ∧ s.ports[p].answers.length <
      16) := by
    refine ⟨⟨net, 5, [], ?_⟩,
    ⟨net, 0, 0, [1, 2, 3, 4], 0, ?_⟩,
    ⟨netAnswers 16, 0, 0, [0, 2, 3, 4, 5], directiveCrc [0, 2, 3, 4, 5], ?_⟩,
    ⟨netAnswers 15, 0, 0, [22, 2, 3, 4, 5], directiveCrc [22, 2, 3, 4, 5], ?_⟩,
    ⟨netLoading, 0, 0, [1, 2, 3, 4], directiveCrc [1, 2, 3, 4], ?_⟩⟩ <;> decide +kernel

theorem witness_DirectivesTaken :
    (∃ (s : State) (d : Directive), s.ports[d.port].up = false) ∧
    (∃ (s : State) (d : Directive), s.ports[d.port].up = true ∧ d.crc ≠ crc32 (covered 0xA2 d.status (directiveBody 1
      d))) ∧
    (∃ (s : State) (d : Directive), s.ports[d.port].up = true ∧ d.crc = crc32 (covered 0xA2 d.status (directiveBody 1
      d)) ∧ 16 ≤ s.ports[d.port].answers.length) ∧
    (∃ (s : State) (d : Directive), s.Takes d 21 ∧ s.profile.load = .loading) ∧
    (∃ (s : State) (d : Directive), s.Takes d 13 ∧ s.profile.load = .running ∧ d.args.length ≠ 15) ∧
    (∃ (s : State) (d : Directive), s.Takes d 1 ∧ s.profile.load = .running ∧ 1 < d.present.toNat) := by
    refine ⟨⟨net, spoilt 5, ?_⟩,
    ⟨net, spoilt 0, ?_⟩,
    ⟨netAnswers 16, bare 1 [], ?_⟩,
    ⟨netLoading, dir 21 [], ?_⟩,
    ⟨netAnswers 15, dir 13 (List.replicate 14 0), ?_⟩,
    ⟨netAnswers 15, presents 1 2 0 [], ?_⟩⟩ <;> decide +kernel

theorem witness_OperatorAuthority :
    (∃ (s : State) (d : Directive), s.Reaches d 7 3 ∧ s.profile.save ≠ none) ∧
    (∃ (s : State) (d : Directive), s.Reaches d 7 3 ∧ s.profile.save = none ∧ d.present = 0) ∧
    (∃ (s : State) (d : Directive), s.Reaches d 21 0 ∧ s.profile.save = none ∧ d.code ≠ s.cfg.opCode) ∧
    (∃ (s : State) (d : Directive), s.Reaches d 4 1 ∧ s.profile.save ≠ none) ∧
    (∃ (s : State) (d : Directive), s.Reaches d 5 1 ∧ s.profile.save ≠ none) ∧
    (∃ (s : State) (d : Directive), s.Reaches d 6 1 ∧ s.profile.save = none ∧ d.present = 1 ∧ d.code ≠ s.cfg.opCode) ∧
    (∃ (s : State) (d : Directive), s.Reaches d 4 1 ∧ s.profile.save = none ∧ d.present = 1 ∧ d.code ≠ s.cfg.opCode)
      := by
    refine ⟨⟨netSaving 0, dir 7 [1, 0, 0], ?_⟩,
    ⟨net, bare 7 [1, 0, 0], ?_⟩,
    ⟨net, presents 21 1 0x1235 [], ?_⟩,
    ⟨netSaving 0, dir 4 [0], ?_⟩,
    ⟨netSaving 0, bare 5 [0], ?_⟩,
    ⟨net, presents 6 1 0 [0], ?_⟩,
    ⟨net, presents 4 1 0 [0], ?_⟩⟩ <;> decide +kernel

theorem witness_ReadingsChangeNothing :
    (∃ (s : State) (d : Directive), s.Reaches d 1 0) ∧
    (∃ (s : State) (d : Directive) (code : Byte) (i : Byte) (r : RouteIx), s.Reaches d 2 2 ∧ d.args = [code, i] ∧
      r.val = i.toNat ∧ code = 0) ∧
    (∃ (s : State) (d : Directive) (code : Byte) (i : Byte) (r : RouteIx), s.Reaches d 2 2 ∧ d.args = [code, i] ∧
      r.val = i.toNat ∧ code = 1) ∧
    (∃ (s : State) (d : Directive) (code : Byte) (i : Byte) (r : RouteIx), s.Reaches d 2 2 ∧ d.args = [code, i] ∧
      r.val = i.toNat ∧ code = 4) ∧
    (∃ (s : State) (d : Directive) (code : Byte) (i : Byte) (r : RouteIx), s.Reaches d 2 2 ∧ d.args = [code, i] ∧
      r.val = i.toNat ∧ code = 5) ∧
    (∃ (s : State) (d : Directive) (code : Byte) (i : Byte) (r : RouteIx), s.Reaches d 2 2 ∧ d.args = [code, i] ∧
      r.val = i.toNat ∧ code = 6) ∧
    (∃ (s : State) (d : Directive) (code : Byte) (i : Byte) (p : PeerIx), s.Reaches d 2 2 ∧ d.args = [code, i] ∧ code
      = 2 ∧ p.val = i.toNat) ∧
    (∃ (s : State) (d : Directive) (code : Byte) (i : Byte) (n : CircIx), s.Reaches d 2 2 ∧ d.args = [code, i] ∧ code
      = 3 ∧ n.val = i.toNat) ∧
    (∃ (s : State) (d : Directive) (code : Byte) (i : Byte), s.Reaches d 2 2 ∧ d.args = [code, i] ∧ code = 7 ∧ i = 0)
      ∧
    (∃ (s : State) (d : Directive) (code : Byte) (i : Byte) (p : PortIx), s.Reaches d 2 2 ∧ d.args = [code, i] ∧ code
      = 8 ∧ p.val = i.toNat) ∧
    (∃ (s : State) (d : Directive) (code : Byte) (i : Byte), s.Reaches d 2 2 ∧ d.args = [code, i] ∧ code.toNat < 9 ∧
      [16, 16, 4, 64, 16, 16, 16, 1, 6].getD code.toNat 0 ≤ i.toNat) ∧
    (∃ (s : State) (d : Directive) (code : Byte) (i : Byte), s.Reaches d 2 2 ∧ d.args = [code, i] ∧ 9 ≤ code.toNat) :=
      by
    refine ⟨⟨net, bare 1 [], ?_⟩,
    ⟨net, bare 2 [0, 15], 0, 15, 15, ?_⟩,
    ⟨net, bare 2 [1, 1], 1, 1, 1, ?_⟩,
    ⟨net, bare 2 [4, 15], 4, 15, 15, ?_⟩,
    ⟨net, bare 2 [5, 0], 5, 0, 0, ?_⟩,
    ⟨net, bare 2 [6, 0], 6, 0, 0, ?_⟩,
    ⟨net, bare 2 [2, 3], 2, 3, 3, ?_⟩,
    ⟨net, bare 2 [3, 63], 3, 63, 63, ?_⟩,
    ⟨net, bare 2 [7, 0], 7, 0, ?_⟩,
    ⟨net, bare 2 [8, 5], 8, 5, 5, ?_⟩,
    ⟨net, bare 2 [8, 6], 8, 6, ?_⟩,
    ⟨net, bare 2 [9, 0], 9, 0, ?_⟩⟩ <;> decide +kernel

/-- An OUT circuit, IN circuits with and without a relay target, and a record never opened. -/
theorem witness_ReadingsChangeNothing_circuits :
    net.circuits[(0 : CircIx)].defn = some { port := 0, peer := 0, flow := .out 3 .fast 10 } ∧
    net.circuits[(1 : CircIx)].defn = some { port := 1, peer := 0, flow := .inn none } ∧
    net.circuits[(2 : CircIx)].defn = some { port := 1, peer := 0, flow := .inn (some 0) } ∧
    net.circuits[(63 : CircIx)].defn = none := by
  decide +kernel

theorem witness_WatchAndIdentity :
    (∃ (s : State) (d : Directive) (high : Byte) (low : Byte), s.Reaches d 3 2 ∧ d.args = [high, low] ∧ high ≠ 0) ∧
    (∃ (s : State) (d : Directive) (high : Byte) (low : Byte), s.Reaches d 3 2 ∧ d.args = [high, low] ∧ high = 0) ∧
    (∃ (s : State) (d : Directive) (id : Byte) (code : BitVec 16), s.Authorised d 7 3 ∧ d.args = id :: bytesOf 2
      code.toNat ∧ (∃ p : PeerIx, s.cfg.peers[p].enabled = true ∧ s.cfg.peers[p].termId = id)) ∧
    (∃ (s : State) (d : Directive) (id : Byte) (code : BitVec 16), s.Authorised d 7 3 ∧ d.args = id :: bytesOf 2
      code.toNat ∧ (∀ p : PeerIx, s.cfg.peers[p].enabled = true → s.cfg.peers[p].termId ≠ id)) := by
    refine ⟨⟨netWatched, bare 3 [1, 255], 1, 255, ?_⟩,
    ⟨netWatched, bare 3 [0, 0x81], 0, 0x81, ?_⟩,
    ⟨net, dir 7 [9, 0, 1], 9, 1, ?_⟩,
    ⟨net, dir 7 [255, 255, 255], 255, 65535, ?_⟩⟩ <;> decide +kernel

theorem witness_SavesTakeAndEnd :
    (∃ (s : State) (d : Directive), s.Authorised d 20 0) ∧
    (∃ (s : State), s.profile.save = none) ∧
    (∃ (s : State) (job : SaveJob), s.profile.save = some job ∧ (s.time.et - job.started).toNat ≤ 50000000) ∧
    (∃ (s : State) (job : SaveJob) (result : SaveResult) (left : FlashLeft), s.profile.save = some job ∧ (result :
      SaveResult) = .failed left ∧ left.wf = true) ∧
    (∃ (s : State) (job : SaveJob) (result : SaveResult) (left : FlashLeft), s.profile.save = some job ∧ (result :
      SaveResult) = .failed left ∧ left.wf = true) ∧
    (∃ (s : State) (job : SaveJob) (result : SaveResult) (left : FlashLeft), s.profile.save = some job ∧ (result :
      SaveResult) = .done ∧ 50000000 < (s.time.et - job.started).toNat ∧ left = FlashLeft.mk 4 (List.replicate 16 0))
      := by
    refine ⟨⟨net, dir 20 [], ?_⟩,
    ⟨net, ?_⟩,
    ⟨netSaving 50000000, job0 50000000, ?_⟩,
    ⟨netSaving 5, job0 5, .failed left0, left0, ?_⟩,
    ⟨netSaving 5, job0 5, .failed left4, left4, ?_⟩,
    ⟨netSaving 50000001, job0 50000001, .done, FlashLeft.mk 4 (List.replicate 16 0), ?_⟩⟩ <;> decide +kernel

theorem witness_ColdResetRestoresReset :
    (∃ (s : State), s.profile.save = none ∧ ([] : List Host.Cell) = s.flash) ∧
    (∃ (s : State) (job : _) (left : FlashLeft), s.profile.save = some job ∧ left.wf = true) := by
    refine ⟨⟨net, ?_⟩,
    ⟨netSaving 5, job0 5, left4, ?_⟩⟩ <;> decide +kernel

theorem witness_RestartStartsAfresh :
    netCopy.Authorised (dir 21 []) 21 0 ∧ netCopy.SlotsSound ∧
      (∀ p : PortIx, netCopy.ports[p].records[(1 : Fin 8)].count ≤ 255) :=
  ⟨by decide +kernel, netCopy_slots, by decide +kernel⟩

/-- A RESTART with a DELIVER under way; and its envelope at the edges of where it may be cut. -/
theorem witness_RestartStartsAfresh_cut :
    (netDelivering.Authorised (dir 21 []) 21 0 ∧
      (netDelivering.ports[(1 : PortIx)].outbound.map fun o => (o.kind, o.cut)) = some (.deliver, false)) ∧
    (deliverEnv.length = 11 ∧ cutEnvelope deliverEnv 0 = cutEnvelope deliverEnv 4 ∧
      (cutEnvelope deliverEnv 4).take 7 = [0xA3, 1, 0, 3, 0, 0, 0] ∧
      (cutEnvelope deliverEnv 6).take 7 = [0xA3, 1, 0, 3, 7, 8, 0] ∧ (cutEnvelope deliverEnv 11).take 10 = deliverEnv.take 10 ∧
      (cutEnvelope deliverEnv 11).getD 10 0 = ~~~ (deliverEnv.getD 10 0)) := by
  decide +kernel

/-- The hypotheses of LoadEndTakesEffect on a flash whose marker reads erased and whose header is not. -/
abbrev HeaderReads (m : List Host.Cell) (len : Nat) : Prop :=
  (∀ a : Nat, 65280 ≤ a → a < 65536 → readFlash m a = 0xFF) ∧ (∃ a : Nat, a < 10 ∧ readFlash m a ≠ 0xFF) ∧
    len = field (flashBytes m 0 10) 2 4

/-- Its CRC is good. -/
abbrev CrcReads (m : List Host.Cell) (len : Nat) : Prop :=
  field (flashBytes m 0 10) 6 4 = (crc32 (flashBytes m 0 6 ++ flashBytes m 10 (len - 10))).toNat

theorem headerReads (m : List Host.Cell) (len : Nat) (h : m.all (fun c => decide (c.1 < 65280)) = true)
    (h0 : readFlash m 0 ≠ 0xFF) (hl : len = field (flashBytes m 0 10) 2 4) : HeaderReads m len :=
  ⟨fun a ha _ => readFlash_beyond h a ha, ⟨0, by decide, h0⟩, hl⟩

theorem short_crcReads : CrcReads (flashOf 1 259 2175261337 shortBody) 259 := by
  have h : flashBytes (flashOf 1 259 2175261337 shortBody) 0 6 ++ flashBytes (flashOf 1 259 2175261337 shortBody) 10 249 =
      shortCovered := by decide +kernel
  show field _ 6 4 = (crc32 (_ ++ flashBytes _ 10 249)).toNat
  rw [h, test_shortImage.2]
  decide +kernel

theorem witness_LoadEndTakesEffect :
    net.profile.load = .running ∧ netLoading.profile.load = .loading ∧
    (∃ a : Nat, 65280 ≤ a ∧ a < 65536 ∧ readFlash [(65280, 0)] a ≠ 0xFF) ∧
    (∃ a : Nat, 65280 ≤ a ∧ a < 65536 ∧ readFlash [(65535, 0)] a ≠ 0xFF) ∧
    ((∀ a : Nat, 65280 ≤ a → a < 65536 → readFlash [] a = 0xFF) ∧ ∀ a : Nat, a < 10 → readFlash [] a = 0xFF) ∧
    HeaderReads (flashOf 1 9 0 []) 9 ∧ HeaderReads (flashOf 1 16385 0 []) 16385 ∧
    (HeaderReads (flashOf 1 10 0 []) 10 ∧ ¬ CrcReads (flashOf 1 10 0 []) 10) ∧
    (HeaderReads (flashOf 2 10 735517661 []) 10 ∧ CrcReads (flashOf 2 10 735517661 []) 10) ∧
    (HeaderReads (flashOf 1 10 1819762957 []) 10 ∧ CrcReads (flashOf 1 10 1819762957 []) 10 ∧
      readSections (flashBytes (flashOf 1 10 1819762957 []) 10 0) = .error .identity) ∧
    (HeaderReads (flashOf 1 259 2175261337 shortBody) 259 ∧ CrcReads (flashOf 1 259 2175261337 shortBody) 259 ∧
      (readSections (flashBytes (flashOf 1 259 2175261337 shortBody) 10 249)).toOption = some image0) := by
  refine ⟨rfl, rfl, ⟨65280, by decide⟩, ⟨65535, by decide⟩, ⟨fun _ _ _ => rfl, fun _ _ => rfl⟩, headerReads _ _ ?_ ?_ ?_,
    headerReads _ _ ?_ ?_ ?_, ⟨headerReads _ _ ?_ ?_ ?_, ?_⟩, ⟨headerReads _ _ ?_ ?_ ?_, ?_⟩,
    ⟨headerReads _ _ ?_ ?_ ?_, ?_, rfl⟩, headerReads _ _ ?_ ?_ ?_, ?_, ?_⟩
  case refine_22 => exact short_crcReads
  all_goals decide +kernel

theorem netSaving_inRange (ago : Nat) : (job0 ago).snapshot.InRange := by
  have h1 : net.snapshot.settings.InRange := by decide +kernel
  have h2 : net.snapshot.CircuitsInRange := by decide +kernel
  exact ⟨h1, h2⟩

/-- `netSaving` with the save marker set. -/
def netMarked : State := { netSaving 5 with flash := [(65280, 0)] }

theorem witness_SaveIsWholeOrRefused :
    ((netSaving 50000000).profile.save = some (job0 50000000) ∧ (job0 50000000).snapshot.InRange ∧
      flashWf (netSaving 50000000).flash = true ∧ ((netSaving 50000000).time.et - (job0 50000000).started).toNat ≤ 50000000) ∧
    ((netSaving 50000001).profile.save = some (job0 50000001) ∧ (job0 50000001).snapshot.InRange ∧
      flashWf (netSaving 50000001).flash = true ∧ 50000000 < ((netSaving 50000001).time.et - (job0 50000001).started).toNat) ∧
    (left2.wf = true ∧ left2.step ≠ 0) ∧ (left4.wf = true ∧ left4.step ≠ 0) ∧
    (left0.wf = true ∧ left0.step = 0 ∧ netMarked.profile.save = some (job0 5) ∧ flashWf netMarked.flash = true ∧
      (∃ t, exec (.saveComplete (.failed left0)) netMarked = .next t ∧ markerIsSet t.flash = true)) ∧
    (left00.wf = true ∧ left00.step = 0 ∧
      (∃ t, exec (.coldReset left00) (netSaving 5) = .next t ∧ markerIsSet t.flash = false)) := by
  refine ⟨⟨rfl, netSaving_inRange _, rfl, ?_⟩, ⟨rfl, netSaving_inRange _, rfl, ?_⟩, ?_, ?_, ⟨?_, rfl, rfl, ?_, ⟨_, rfl, ?_⟩⟩,
    ⟨?_, rfl, ⟨_, rfl, ?_⟩⟩⟩ <;> decide +kernel

theorem witness_TimeKept :
    (∃ t, step netCopy = .next t) ∧ netCopy.time.Sound ∧ netCopy.TimeRouteSound := by
  refine ⟨⟨_, rfl⟩, ?_, ?_⟩ <;> decide +kernel

theorem witness_BoundsAndAnswersKept :
    (∃ t, step netCopy = .next t) ∧ netCopy.Bounded ∧ netCopy.AnswersSound := by
  refine ⟨⟨_, rfl⟩, ?_, ?_⟩ <;> decide +kernel

theorem witness_RouteLawsKept :
    (∃ t, step netCopy = .next t) ∧ netCopy.HeldDisabled ∧ (∀ r : RouteIx, netCopy.QuietRoute r) ∧ netCopy.EmptyOffRoute ∧
      netCopy.ForceSound := by
  refine ⟨⟨_, rfl⟩, ?_, ?_, ?_, ?_⟩ <;> decide +kernel

theorem witness_EligibleRoutesHaveFigures :
    (∃ t, step netCopy = .next t) ∧ netCopy.HeldDisabled ∧ netCopy.cfg.health.ok = true ∧
      (∀ r : RouteIx, netCopy.FiguredRoute r) := by
  refine ⟨⟨_, rfl⟩, ?_, ?_, ?_⟩ <;> decide +kernel

theorem witness_TalliesKept :
    (∃ t, step netCopy = .next t) ∧ netCopy.TalliesBalanced := by
  refine ⟨⟨_, rfl⟩, ?_⟩; decide +kernel

/-- In RUNNING, with no SAVE in flight and an erased flash, sound settings and circuits are all of it. -/
theorem profileSound_running {s : State} (h1 : s.cfg.InRange) (h2 : ∀ n : CircIx, s.CircuitSound n)
    (h3 : s.profile.load = .running) (h4 : s.profile.save = none) (h5 : s.flash = []) : s.ProfileSound := by
  refine ⟨h1, h2, fun h => ?_, fun job h => ?_, ?_⟩
  · simp [h3] at h
  · simp [h4] at h
  · rw [h5]; rfl

theorem witness_ProfileKept : (∃ t, step netCopy = .next t) ∧ netCopy.ProfileSound :=
  ⟨⟨_, rfl⟩, profileSound_running (by decide +kernel) (by decide +kernel) rfl rfl rfl⟩

theorem netEnding_profile : netEnding.ProfileSound :=
  profileSound_running (by decide +kernel) (by decide +kernel) rfl rfl rfl

theorem netCopy_closes : netCopy.ClosesSound := by decide +kernel

/-- A copy waiting and the clock's tick to take; and a close pending whose one copy is at its end. -/
theorem witness_SlotsKept :
    ((∃ t, step netCopy = .next t) ∧ netCopy.SlotsSound ∧ netCopy.ProfileSound ∧ netCopy.CopiesSound ∧
      netCopy.ClosesSound) ∧
    (∃ t, step netEnding = .next t) ∧ netEnding.SlotsSound ∧ netEnding.ProfileSound ∧ netEnding.CopiesSound ∧
      netEnding.ClosesSound ∧ netEnding.circuits[(0 : CircIx)].closing = some 1 := by
  refine ⟨⟨⟨_, rfl⟩, netCopy_slots, witness_ProfileKept.2, netCopy_copies, netCopy_closes⟩, ⟨_, rfl⟩, netEnding_slots,
    netEnding_profile, ?_, ?_, ?_⟩ <;> decide +kernel

end Sys2Proof.Tests
end

