-- ==== Sys2Proof/Proofs/Directives.lean ====
section
/-! SUPPORT. How a directive passes through the common path (R166 to R168): what it leaves alone before and after its owner, and
the state in which an authorised directive reaches its owner. -/

namespace Sys2Proof.Machine

/-! ### The ports replaced -/

/-- The state with its ports replaced: what the common path of a directive, a notice or an answer can change. -/
def State.withPorts (s : State) (v : Vector Port 6) : State := { s with ports := v }

@[simp] theorem State.withPorts_cfg (s : State) (v : Vector Port 6) : (s.withPorts v).cfg = s.cfg := rfl
@[simp] theorem State.withPorts_time (s : State) (v : Vector Port 6) : (s.withPorts v).time = s.time := rfl
@[simp] theorem State.withPorts_lanes (s : State) (v : Vector Port 6) : (s.withPorts v).lanes = s.lanes := rfl
@[simp] theorem State.withPorts_probes (s : State) (v : Vector Port 6) : (s.withPorts v).probes = s.probes := rfl
@[simp] theorem State.withPorts_health (s : State) (v : Vector Port 6) : (s.withPorts v).health = s.health := rfl
@[simp] theorem State.withPorts_circuits (s : State) (v : Vector Port 6) : (s.withPorts v).circuits = s.circuits := rfl
@[simp] theorem State.withPorts_profile (s : State) (v : Vector Port 6) : (s.withPorts v).profile = s.profile := rfl
@[simp] theorem State.withPorts_flash (s : State) (v : Vector Port 6) : (s.withPorts v).flash = s.flash := rfl
@[simp] theorem State.withPorts_ports (s : State) (v : Vector Port 6) : (s.withPorts v).ports = v := rfl

theorem State.modPort_eq_withPorts (s : State) (p : PortIx) (f : Port → Port) :
    s.modPort p f = s.withPorts (s.ports.set p (f s.ports[p])) := rfl

theorem State.raiseAll_eq_withPorts (s : State) (n : Notice) :
    s.raiseAll n = s.withPorts (Vector.ofFn fun p => s.ports[p].record n) := rfl

/-- An answer that joins, or none, changes ports alone. -/
theorem State.answerJudged_withPorts (p : PortIx) (request : Byte) (j : Judged) :
    ∃ v, State.answerJudged p request j = j.1.withPorts v := by
  obtain ⟨s, _ | ⟨st, results⟩⟩ := j
  · exact ⟨s.ports, rfl⟩
  · exact ⟨_, rfl⟩

/-! ### The common path -/

/-- A directive at a port either changes ports alone, or is judged on a state that differs from this one in ports alone. -/
theorem State.takeDirective_cases (s : State) (p : PortIx) (request : Byte) (good : Bool) (judge : State → Judged) :
    (∃ v, s.takeDirective p request good judge = s.withPorts v) ∨
    ∃ v w, s.takeDirective p request good judge = (judge (s.withPorts v)).1.withPorts w := by
  unfold State.takeDirective
  dsimp only
  split
  · exact .inl ⟨s.ports, rfl⟩
  · split
    · exact .inl ⟨_, rfl⟩
    · split
      · exact .inl ⟨_, rfl⟩
      · obtain ⟨w, hw⟩ := State.answerJudged_withPorts p request (judge ((s.markerSeen p).noteTaken p request))
        exact .inr ⟨_, w, hw⟩

/-- A directive the terminal knows either is answered without its owner, or reaches it: the terminal is RUNNING, and no SAVE is
in flight where the directive is one that a SAVE makes BUSY. -/
theorem State.judgeDirective_cases (s : State) (d : Directive) (argLen : Nat) (busy operator : Bool)
    (owner : State → Judged) :
    (∃ v, (s.judgeDirective d argLen busy operator owner).1 = s.withPorts v) ∨
    (s.profile.load = .running ∧ (busy = true → s.profile.save = none) ∧
      s.judgeDirective d argLen busy operator owner = owner s) := by
  unfold State.judgeDirective
  split
  · exact .inl ⟨s.ports, rfl⟩
  · have hrun : s.profile.load = .running := by
      cases h : s.profile.load with
      | loading => contradiction
      | running => rfl
    split
    · exact .inl ⟨s.ports, rfl⟩
    · split
      · exact .inl ⟨s.ports, rfl⟩
      · have hbusy : busy = true → s.profile.save = none := by
          intro hb
          cases h : s.profile.save with
          | none => rfl
          | some job => simp_all
        split
        · exact .inl ⟨_, rfl⟩
        · exact .inr ⟨hrun, hbusy, rfl⟩

/-- What no change of ports breaks, and its owner's part keeps, a directive keeps. -/
theorem State.directive_keeps {P : State → Prop} (hports : ∀ s v, P s → P (s.withPorts v)) {owner : State → Judged}
    {busy operator : Bool}
    (howner : ∀ s : State, s.profile.load = .running → (busy = true → s.profile.save = none) → P s → P (owner s).1)
    {s : State} (d : Directive) (argLen : Nat) (good : Bool) (h : P s) :
    P (s.takeDirective d.port d.request good fun s => s.judgeDirective d argLen busy operator owner) := by
  rcases s.takeDirective_cases d.port d.request good fun s => s.judgeDirective d argLen busy operator owner with
    ⟨v, e⟩ | ⟨v, w, e⟩
  · rw [e]; exact hports _ _ h
  · rw [e]
    apply hports
    have hv : P (s.withPorts v) := hports _ _ h
    rcases (s.withPorts v).judgeDirective_cases d argLen busy operator owner with ⟨u, e⟩ | ⟨hrun, hsave, e⟩
    · rw [e]; exact hports _ _ hv
    · rw [e]; exact howner _ hrun hsave hv

/-- What no change of ports breaks, and its owner's part keeps, an operator directive keeps. -/
theorem State.operatorDirective_keeps {P : State → Prop} (hports : ∀ s v, P s → P (s.withPorts v)) {owner : State → Judged}
    (howner : ∀ s : State, s.profile.load = .running → s.profile.save = none → P s → P (owner s).1)
    {s : State} (d : Directive) (name argLen : Nat) (h : P s) : P (s.operatorDirective d name argLen owner) :=
  State.directive_keeps hports (fun s hrun hsave => howner s hrun (hsave rfl)) d argLen _ h

/-- What no change of ports breaks, and its owner's part keeps, a directive that any port may send keeps. -/
theorem State.openDirective_keeps {P : State → Prop} (hports : ∀ s v, P s → P (s.withPorts v)) {owner : State → Judged}
    (howner : ∀ s : State, s.profile.load = .running → P s → P (owner s).1)
    {s : State} (d : Directive) (name argLen : Nat) (h : P s) : P (s.openDirective d name argLen owner) :=
  State.directive_keeps hports (fun s hrun _ => howner s hrun) d argLen _ h

/-- What no change of ports breaks, and the effect on the circuit of the directive keeps, a directive of the second group of R82
keeps: the effect comes on a circuit that is not CLOSED, has no close pending, and is OUT where the directive is for those
alone. -/
theorem State.ownedDirective_keeps {P : State → Prop} (hports : ∀ s v, P s → P (s.withPorts v)) {outOnly : Bool}
    {effect : Circuit → Circuit}
    (heffect : ∀ (s : State) (n : CircIx) (defn : CircuitDef), s.circuits[n].state ≠ .closed → s.circuits[n].closing = none →
      s.circuits[n].defn = some defn → (outOnly = true → defn.flow.isOut = true) → P s → P (s.modCircuit n effect))
    {s : State} (d : Directive) (name : Nat) (h : P s) : P (s.ownedDirective d name outOnly effect) := by
  refine State.directive_keeps hports (fun s _ _ hs => ?_) d 1 _ h
  unfold State.judgeOwned
  split
  · exact hports _ _ hs
  · split
    · exact hs
    · split
      · exact hs
      · exact hs
      · exact hs
      · rename_i n _ _ _ _ defn hclosing hdefn hopen
        split
        · exact hs
        · split
          · exact hs
          · rename_i hnot
            refine heffect s n defn hopen hclosing hdefn (fun ho => ?_) hs
            cases hf : defn.flow with
            | out far cls maxAge => rfl
            | inn relay => exact absurd hf (hnot relay ho)

/-- A directive the terminal does not know changes ports alone. -/
theorem State.unknownDirective_withPorts (s : State) (p : PortIx) (request : Byte) (good : Bool) :
    ∃ v, s.takeDirective p request good State.judgeUnknown = s.withPorts v := by
  have hj (t : State) : t.judgeUnknown.1 = t := by
    unfold State.judgeUnknown
    split <;> rfl
  rcases s.takeDirective_cases p request good State.judgeUnknown with h | ⟨v, w, e⟩
  · exact h
  · exact ⟨w, by rw [e, hj]; rfl⟩

/-! ### A directive that reaches its owner -/

@[simp] theorem State.taken_leaves (s : State) (d : Directive) :
    (s.taken d).cfg = s.cfg ∧ (s.taken d).time = s.time ∧ (s.taken d).lanes = s.lanes ∧ (s.taken d).probes = s.probes ∧
    (s.taken d).health = s.health ∧ (s.taken d).circuits = s.circuits ∧ (s.taken d).peers = s.peers ∧
    (s.taken d).sel = s.sel ∧ (s.taken d).tx = s.tx ∧ (s.taken d).score = s.score ∧ (s.taken d).pool = s.pool ∧
    (s.taken d).profile = s.profile ∧ (s.taken d).flash = s.flash ∧ (s.taken d).pending = s.pending ∧
    (s.taken d).arriving = s.arriving := by
  simp [State.taken]

/-- A directive that is taken is judged in the state that has noted it. -/
theorem State.takeDirective_of_takes {s : State} {d : Directive} {name : Nat} (h : s.Takes d name)
    (judge : State → Judged) :
    s.takeDirective d.port d.request (directiveCrcGood d name) judge =
      State.answerJudged d.port d.request (judge (s.taken d)) := by
  obtain ⟨hup, hcrc, hroom⟩ := h
  have hgood : directiveCrcGood d name = true := by rw [directiveCrcGood, hcrc]; exact beq_self_eq_true _
  have hlen : ¬ Config.answerMax ≤ (s.markerSeen d.port).ports[d.port].answers.length := by
    rw [State.markerSeen, State.modPort_get_self]
    exact Nat.not_le.2 hroom
  simp only [State.takeDirective, hup, hgood, Bool.not_true, Bool.false_eq_true, if_false, if_neg hlen]
  rfl

/-- A directive that any port may send, and that reaches its owner, is its owner's part with the answer it gives. -/
theorem State.openDirective_of_reaches {s : State} {d : Directive} {name argLen : Nat} (h : s.Reaches d name argLen)
    (owner : State → Judged) :
    s.openDirective d name argLen owner = State.answerJudged d.port d.request (owner (s.taken d)) := by
  obtain ⟨htakes, hrun, hlen, hpresent⟩ := h
  rw [State.openDirective, State.takeDirective_of_takes htakes]
  simp [State.judgeDirective, hrun, directiveFormed, hlen, hpresent]

/-- An operator directive that reaches its owner is its owner's part with the answer it gives. -/
theorem State.operatorDirective_of_authorised {s : State} {d : Directive} {name argLen : Nat}
    (h : s.Authorised d name argLen) (owner : State → Judged) :
    s.operatorDirective d name argLen owner = State.answerJudged d.port d.request (owner (s.taken d)) := by
  obtain ⟨⟨htakes, hrun, hlen, _⟩, hsave, hpresent, hcode⟩ := h
  rw [State.operatorDirective, State.takeDirective_of_takes htakes]
  simp [State.judgeDirective, hrun, directiveFormed, hlen, hsave, hpresent, hcode]

end Sys2Proof.Machine
end

