-- ==== Sys2Proof/Proofs/TimeBase.lean ====
section
/-! SUPPORT. What each operation does to the time base and to the choice of the time route (R2, R8, R9, R15, R16), and that every
step keeps both sound. -/

namespace Sys2Proof.Machine

/-! ### The choice of the time route -/

/-- What R15 looks at: the role, the followed peer, and each route's peer, state and sample ring. -/
def State.routeView (s : State) : Role × PeerIx × (RouteIx → PeerIx × RouteState × List Sample) :=
  (s.cfg.time.role, s.cfg.time.followed, fun r => (s.cfg.routes[r].peer, s.health[r].state, s.probes[r].ring))

/-- The choice of the time route rests on nothing else. -/
theorem State.bestTimeRoute_congr {s t : State} (h : t.routeView = s.routeView) : t.bestTimeRoute = s.bestTimeRoute := by
  simp only [State.routeView, Prod.mk.injEq] at h
  obtain ⟨hrole, hfollowed, hroutes⟩ := h
  have hr (r : RouteIx) : t.cfg.routes[r].peer = s.cfg.routes[r].peer ∧ t.health[r].state = s.health[r].state ∧
      t.probes[r].ring = s.probes[r].ring := by simpa using congrFun hroutes r
  have hm (r : RouteIx) : t.probes[r].m = s.probes[r].m := by rw [Probe.m, Probe.m, (hr r).2.2]
  have hq (r : RouteIx) : t.qualifies r = s.qualifies r := by
    rw [State.qualifies, State.qualifies, (hr r).1, (hr r).2.1, hm, hfollowed]
  simp only [State.bestTimeRoute, hrole, hm, hq]

theorem State.routeView_congr {s t : State} (hcfg : t.cfg = s.cfg) (hhealth : t.health = s.health)
    (hprobes : t.probes = s.probes) : t.routeView = s.routeView := by
  rw [State.routeView, State.routeView, hcfg, hhealth, hprobes]

/-- A change of a route's health that is no change of its state is none that R15 looks at. -/
theorem State.routeView_modHealth (s : State) (r : RouteIx) {f : Health → Health} (h : ∀ x, (f x).state = x.state) :
    (s.modHealth r f).routeView = s.routeView := by
  have hs (q : RouteIx) : (s.modHealth r f).health[q].state = s.health[q].state := by
    rw [State.modHealth_get]
    split
    · rename_i e; rw [h, e]
    · rfl
  simp only [State.routeView, hs]
  rfl

/-- A change of a route's probe state that leaves its ring is none that R15 looks at. -/
theorem State.routeView_modProbe (s : State) (r : RouteIx) {f : Probe → Probe} (h : ∀ x, (f x).ring = x.ring) :
    (s.modProbe r f).routeView = s.routeView := by
  have hs (q : RouteIx) : (s.modProbe r f).probes[q].ring = s.probes[q].ring := by
    rw [State.modProbe_get]
    split
    · rename_i e; rw [h, e]
    · rfl
  simp only [State.routeView, hs]
  rfl

theorem State.rechoose_time (s : State) : s.rechoose.time = { s.time with timeRoute := s.bestTimeRoute } := rfl

/-- A time route just chosen is the one R15 chooses. -/
theorem State.rechoose_timeRouteSound (s : State) : s.rechoose.TimeRouteSound :=
  (State.bestTimeRoute_congr (State.routeView_congr (by simp) (by simp) (by simp))).symm

/-! ### The time base apart from its time route -/

/-- The time base with its time route left out: what a change of routes leaves alone. -/
def TimeBase.routeless (t : TimeBase) : TimeBase := { t with timeRoute := none }

/-- The laws of the time base do not look at the time route. -/
theorem TimeBase.sound_congr {t u : TimeBase} (h : t.routeless = u.routeless) : t.Sound ↔ u.Sound := by
  have hr (x : TimeBase) : x.Sound ↔ x.routeless.Sound := Iff.rfl
  rw [hr t, h, ← hr u]

/-- A time base that differs in its time route alone. -/
theorem TimeBase.eq_of_routeless {t u : TimeBase} (h : t.routeless = u.routeless) :
    { t with timeRoute := u.timeRoute } = u := by
  have e : { t.routeless with timeRoute := u.timeRoute } = { u.routeless with timeRoute := u.timeRoute } := by rw [h]
  exact e

/-- The laws of the time base look at FC, SL, P, INC, the state, the good-offset count and the last offset alone. -/
theorem TimeBase.sound_of_fields {t u : TimeBase} (hfc : u.fc = t.fc) (hsl : u.sl = t.sl) (hp : u.p = t.p)
    (hinc : u.inc = t.inc) (hstate : u.state = t.state) (hgood : u.good = t.good) (hoffset : u.lastOffset = t.lastOffset)
    (h : t.Sound) : u.Sound := by
  simpa only [TimeBase.Sound, hfc, hsl, hp, hinc, hstate, hgood, hoffset] using h

@[simp] theorem State.rechoose_routeless (s : State) : s.rechoose.time.routeless = s.time.routeless := rfl

/-- The consequences of a change of route state choose the time route again and change nothing else of the time base. -/
@[simp] theorem State.consequences_routeless (s : State) (r : RouteIx) (old new : RouteState) :
    (s.consequences r old new).time.routeless = s.time.routeless := by
  unfold State.consequences
  dsimp only
  rw [(State.raiseAll_leaves _ _).2.1]
  have h (u : State) (hu : u.time = s.time) :
      (if (old.carries && !new.carries) = true then u.rechoose.resteer r else u.rechoose).time.routeless =
        s.time.routeless := by
    split <;> simp [hu]
  apply h
  (repeat' split) <;> simp

@[simp] theorem State.moveConsequences_routeless (s : State) (r : RouteIx) (old : RouteState) (via : List RouteState) :
    (s.moveConsequences r old via).time.routeless = s.time.routeless := by
  induction via generalizing s old with
  | nil => rfl
  | cons new via ih => rw [State.moveConsequences, ih, State.consequences_routeless]

/-- Changes of route state leave the time base but for its time route. -/
@[simp] theorem State.applyMoves_routeless (s : State) (moves : List Move) :
    (s.applyMoves moves).time.routeless = s.time.routeless := by
  unfold State.applyMoves
  dsimp only
  have h := foldl_leaves (fun t : State => t.time.routeless)
    (fun t (m : Move) => t.moveConsequences m.route s.health[m.route].state m.via) (by intros; simp) moves
    (moves.foldl State.recordMove s)
  rw [h, foldl_leaves State.time _ (by intros; simp)]

/-! ### After a change of route state the time route is the one R15 chooses -/

/-- The consequences of a change choose the time route last of all that R15 looks at. -/
theorem State.consequences_timeRouteSound (s : State) (r : RouteIx) (old new : RouteState) :
    (s.consequences r old new).TimeRouteSound := by
  have h (u : State) : (if (old.carries && !new.carries) = true then u.rechoose.resteer r else u.rechoose).TimeRouteSound := by
    have hv : (u.rechoose.resteer r).routeView = u.rechoose.routeView :=
      State.routeView_congr (by simp) (by simp) (by simp)
    split
    · rw [State.TimeRouteSound, State.bestTimeRoute_congr hv, (State.resteer_leaves _ _).2.1]
      exact u.rechoose_timeRouteSound
    · exact u.rechoose_timeRouteSound
  unfold State.consequences
  exact h _

theorem State.moveConsequences_timeRouteSound (s : State) (r : RouteIx) (old : RouteState) (via : List RouteState)
    (h : via ≠ [] ∨ s.TimeRouteSound) : (s.moveConsequences r old via).TimeRouteSound := by
  induction via generalizing s old with
  | nil => exact h.resolve_left (fun hn => hn rfl)
  | cons new via ih => exact ih _ _ (.inr (s.consequences_timeRouteSound r old new))

/-- Changes of route state keep the time route the one R15 chooses: where a route moves it is chosen anew, and where none does
nothing changes. -/
theorem State.applyMoves_timeRouteSound {s : State} (moves : List Move) (h : s.TimeRouteSound) :
    (s.applyMoves moves).TimeRouteSound := by
  unfold State.applyMoves
  dsimp only
  have hcons (t : State) (ms : List Move) (before : State) (ht : t.TimeRouteSound ∨ ∃ m ∈ ms, m.via ≠ []) :
      (ms.foldl (fun s m => s.moveConsequences m.route before.health[m.route].state m.via) t).TimeRouteSound := by
    induction ms generalizing t with
    | nil => simpa using ht
    | cons m ms ih =>
      apply ih
      by_cases hm : m.via = []
      · have he : t.moveConsequences m.route before.health[m.route].state m.via = t := by rw [hm]; rfl
        dsimp only
        rw [he]
        exact ht.imp id (by simp [hm])
      · exact .inl (State.moveConsequences_timeRouteSound _ _ _ _ (.inl hm))
  apply hcons
  by_cases hall : ∀ m ∈ moves, m.via = []
  · left
    have hrec : moves.foldl State.recordMove s = s := by
      clear hcons
      induction moves with
      | nil => rfl
      | cons m ms ih =>
        have hm : s.recordMove m = s := by rw [State.recordMove, hall m (List.mem_cons_self ..)]; rfl
        rw [List.foldl_cons, hm]
        exact ih fun x hx => hall x (List.mem_cons_of_mem _ hx)
    rwa [hrec]
  · right
    simpa using hall

/-! ### Steps that keep the time base sound -/

/-- `t` keeps of `s` that its time base is sound, and that its time route is the one R15 chooses. -/
def State.KeepsTime (s t : State) : Prop :=
  (s.time.Sound → t.time.Sound) ∧ (s.TimeRouteSound → t.TimeRouteSound)

theorem State.KeepsTime.refl (s : State) : s.KeepsTime s := ⟨id, id⟩

theorem State.KeepsTime.trans {s t u : State} (h : s.KeepsTime t) (h' : t.KeepsTime u) : s.KeepsTime u :=
  ⟨h'.1 ∘ h.1, h'.2 ∘ h.2⟩

/-- What changes neither the time base nor what R15 looks at keeps both. -/
theorem State.KeepsTime.of_same {s t : State} (htime : t.time = s.time) (hview : t.routeView = s.routeView) :
    s.KeepsTime t := by
  refine ⟨fun h => by rwa [htime], fun h => ?_⟩
  rw [State.TimeRouteSound, htime, State.bestTimeRoute_congr hview]
  exact h

/-- What changes neither the time base, the settings, the routes' health nor their probe state keeps both. -/
theorem State.KeepsTime.of_frame {s t : State} (htime : t.time = s.time) (hcfg : t.cfg = s.cfg)
    (hhealth : t.health = s.health) (hprobes : t.probes = s.probes) : s.KeepsTime t :=
  .of_same htime (State.routeView_congr hcfg hhealth hprobes)

/-- What changes of the time base its time route alone, and leaves it the one R15 chooses, keeps both. -/
theorem State.KeepsTime.of_chosen {s t : State} (htime : t.time.routeless = s.time.routeless) (h : t.TimeRouteSound) :
    s.KeepsTime t :=
  ⟨(TimeBase.sound_congr htime).2, fun _ => h⟩

/-- What changes of the time base neither its time route nor its soundness, and nothing else R15 looks at, keeps both. -/
theorem State.KeepsTime.of_sound {s t : State} (hsound : s.time.Sound → t.time.Sound)
    (hroute : t.time.timeRoute = s.time.timeRoute) (hview : t.routeView = s.routeView) : s.KeepsTime t := by
  refine ⟨hsound, fun h => ?_⟩
  rw [State.TimeRouteSound, hroute, State.bestTimeRoute_congr hview]
  exact h

theorem State.keepsTime_withPorts (s : State) (v : Vector Port 6) : s.KeepsTime (s.withPorts v) := .of_frame rfl rfl rfl rfl

theorem State.keepsTime_modHealth (s : State) (r : RouteIx) {f : Health → Health} (h : ∀ x, (f x).state = x.state) :
    s.KeepsTime (s.modHealth r f) := .of_same rfl (s.routeView_modHealth r h)

theorem State.keepsTime_modProbe (s : State) (r : RouteIx) {f : Probe → Probe} (h : ∀ x, (f x).ring = x.ring) :
    s.KeepsTime (s.modProbe r f) := .of_same rfl (s.routeView_modProbe r h)

theorem State.keepsTime_applyMoves (s : State) (moves : List Move) : s.KeepsTime (s.applyMoves moves) :=
  ⟨(TimeBase.sound_congr (by simp)).2, State.applyMoves_timeRouteSound moves⟩

theorem State.keepsTime_moveRoute (s : State) (r : RouteIx) (via : List RouteState) : s.KeepsTime (s.moveRoute r via) :=
  s.keepsTime_applyMoves _

theorem State.keepsTime_disableRoute (s : State) (r : RouteIx) : s.KeepsTime (s.disableRoute r) := by
  unfold State.disableRoute
  split
  · exact .refl s
  · exact s.keepsTime_moveRoute r _

theorem State.keepsTime_evaluate (s : State) (r : RouteIx) : s.KeepsTime (s.evaluate r) := by
  unfold State.evaluate
  split
  · exact .refl s
  · exact s.keepsTime_moveRoute r _

theorem State.keepsTime_returnRoute (s : State) (r : RouteIx) : s.KeepsTime (s.returnRoute r) := by
  unfold State.returnRoute
  split
  · exact s.keepsTime_moveRoute r _
  · exact .refl s

theorem State.keepsTime_resolve (s : State) (r : RouteIx) (res : Resolution) : s.KeepsTime (s.resolve r res) := by
  unfold State.resolve
  exact (s.keepsTime_modHealth r (by simp)).trans (State.keepsTime_evaluate _ r)

theorem State.keepsTime_crcFailure (s : State) (r : RouteIx) : s.KeepsTime (s.crcFailure r) := by
  unfold State.crcFailure
  exact (s.keepsTime_modHealth r (by simp)).trans (State.keepsTime_evaluate _ r)

theorem State.keepsTime_loseProbe (s : State) (r : RouteIx) (o : Outstanding) : s.KeepsTime (s.loseProbe r o) := by
  unfold State.loseProbe
  exact (s.keepsTime_modProbe r (by simp)).trans (State.keepsTime_resolve _ r _)

theorem State.keepsTime_loseDue (s : State) (r : RouteIx) (fuel : Nat) : s.KeepsTime (s.loseDue r fuel) := by
  induction fuel generalizing s with
  | zero => exact .refl s
  | succ fuel ih =>
    unfold State.loseDue
    split
    · exact .refl s
    · exact (s.keepsTime_loseProbe r _).trans (ih _)

theorem State.keepsTime_judgeSilence (s : State) (r : RouteIx) : s.KeepsTime (s.judgeSilence r) := by
  unfold State.judgeSilence
  split
  · refine KeepsTime.trans ?_ (State.keepsTime_evaluate _ r)
    exact .of_frame rfl rfl rfl rfl
  · exact .refl s

theorem State.keepsTime_requestProbe (s : State) (r : RouteIx) : s.KeepsTime (s.requestProbe r) := by
  unfold State.requestProbe
  split
  · exact s.keepsTime_modProbe r (by simp)
  · exact .of_frame rfl rfl rfl rfl

theorem State.keepsTime_requestTest (s : State) (r : RouteIx) : s.KeepsTime (s.requestTest r) := by
  unfold State.requestTest
  split
  · exact s.keepsTime_modHealth r (by simp)
  · exact .of_frame rfl rfl rfl rfl

/-- An effect taken for each route that keeps both at each keeps both. -/
theorem State.keepsTime_forRoutes (s : State) {f : RouteIx → State → State} (h : ∀ r s, State.KeepsTime s (f r s)) :
    s.KeepsTime (s.forRoutes f) :=
  State.forRoutes_induct (motive := s.KeepsTime) s f (.refl s) fun r t ht => ht.trans (h r t)

/-! ### Offers and arrivals -/

theorem State.keepsTime_sendEcho (s : State) (r : RouteIx) (e : EchoEntry) (rest : List EchoEntry) :
    s.KeepsTime (s.sendEcho r e rest) := by
  unfold State.sendEcho
  exact (KeepsTime.of_frame (by simp) (by simp) (by simp) (by simp)).trans (State.keepsTime_modProbe _ r (by simp))

theorem State.keepsTime_sendProbe (s : State) (r : RouteIx) : s.KeepsTime (s.sendProbe r) := by
  unfold State.sendProbe
  exact (KeepsTime.of_frame (by simp) (by simp) (by simp) (by simp)).trans (State.keepsTime_modProbe _ r (by simp))

theorem State.keepsTime_skipProbe (s : State) (r : RouteIx) : s.KeepsTime (s.skipProbe r) := by
  unfold State.skipProbe
  exact (KeepsTime.of_frame (by simp) (by simp) (by simp) (by simp)).trans (State.keepsTime_modProbe _ r (by simp))

theorem State.keepsTime_sendTest (s : State) (r : RouteIx) : s.KeepsTime (s.sendTest r) := by
  unfold State.sendTest
  exact (KeepsTime.of_frame (by simp) (by simp) (by simp) (by simp)).trans (State.keepsTime_modHealth _ r (by simp))

theorem State.keepsTime_offerTest (s : State) (r : RouteIx) : s.KeepsTime (s.offerTest r) := by
  unfold State.offerTest
  split
  · exact s.keepsTime_sendTest r
  · exact .of_frame (by simp) (by simp) (by simp) (by simp)

theorem State.keepsTime_offer (s : State) (r : RouteIx) : s.KeepsTime (s.offer r) := by
  unfold State.offer State.offerProbe
  split
  · split
    · exact s.keepsTime_sendEcho r _ _
    · split
      · split
        · exact s.keepsTime_sendProbe r
        · exact (s.keepsTime_skipProbe r).trans (State.keepsTime_offerTest _ r)
      · exact s.keepsTime_offerTest r
  · exact .refl s

theorem State.keepsTime_answerProbe (s : State) (r : RouteIx) (n : Byte) (t1 t2 : Stamp) :
    s.KeepsTime (s.answerProbe r n t1 t2) := by
  unfold State.answerProbe
  split
  · refine KeepsTime.trans ?_ (State.keepsTime_modProbe _ r (by simp))
    exact .of_frame rfl rfl rfl rfl
  · exact s.keepsTime_modProbe r (by simp)

theorem State.keepsTime_checkTest (s : State) (r : RouteIx) (seed : BitVec 16) (bs : List Byte) :
    s.KeepsTime (s.checkTest r seed bs) := by
  unfold State.checkTest
  dsimp only
  split
  · exact s.keepsTime_modHealth r (by simp)
  · refine KeepsTime.trans (KeepsTime.trans ?_ (State.keepsTime_modHealth _ r (by simp)))
      (State.keepsTime_modProbe _ r (by simp))
    exact s.keepsTime_modHealth r (by simp)

theorem State.keepsTime_dropRx (s : State) (r : RouteIx) : s.KeepsTime (s.dropRx r) :=
  .of_frame (by simp) (by simp) (by simp) (by simp)

theorem State.keepsTime_modScore (s : State) (r : RouteIx) (f : Score → Score) : s.KeepsTime (s.modScore r f) :=
  .of_frame rfl rfl rfl rfl

/-! ### The discipline of the time base -/

theorem State.enterTimeState_time (s : State) (new : TimeState) :
    (s.enterTimeState new).time = { s.time with state := new } := by
  unfold State.enterTimeState
  split
  · rename_i h; rw [← h]
  · simp

/-- A terminal whose time base is to begin holdover has accepted an offset. -/
theorem State.lastOffset_of_holdoverDue {s : State} (h : s.holdoverDue = true) :
    (s.time.state = .acquiring ∨ s.time.state = .locked) ∧
    ∃ since, s.time.lastOffset = some since ∧ s.cfg.time.holdover * Config.ticksPerMs ≤ ticksSince s.time.et since := by
  unfold State.holdoverDue at h
  split at h
  · exact ⟨.inl ‹_›, _, ‹_›, by simpa using h⟩
  · exact ⟨.inr ‹_›, _, ‹_›, by simpa using h⟩
  · cases h

/-- The time base once holdover has been judged (R10). -/
theorem State.judgeHoldover_time (s : State) :
    s.judgeHoldover.time =
      if s.holdoverDue then { s.time.retune s.time.fc 0 with good := 0, state := .holdover } else s.time := by
  unfold State.judgeHoldover
  split
  · rw [State.enterTimeState_time]; rfl
  · rfl

theorem State.keepsTime_judgeHoldover (s : State) : s.KeepsTime s.judgeHoldover := by
  refine .of_sound (fun h => ?_) ?_ (State.routeView_congr (by simp) (by simp) (by simp))
  · rw [State.judgeHoldover_time]
    split
    · rename_i hdue
      obtain ⟨-, since, hsince, -⟩ := State.lastOffset_of_holdoverDue hdue
      obtain ⟨-, -, hfc, -, -, -, -⟩ := h
      exact ⟨rfl, rfl, hfc, by simp, by simp, by simp, fun _ => by simp [TimeBase.retune, hsince]⟩
    · exact h
  · rw [State.judgeHoldover_time]
    split <;> rfl

/-- The count and the state after a slew go together as the table of R9 has them. -/
theorem lockCount_sound {limit : Nat} {state : TimeState} {good : Nat} {θ : Int} (hle : good ≤ 8)
    (hlocked : state = .locked ↔ good = 8) :
    (lockCount limit state good θ).1 ≤ 8 ∧
    ((lockCount limit state good θ).2 = .locked ↔ (lockCount limit state good θ).1 = 8) ∧
    (lockCount limit state good θ).2 ≠ .free := by
  cases state with
  | free => simp only [lockCount]; split <;> simp
  | holdover => simp only [lockCount]; split <;> simp
  | acquiring =>
    have hlt : good < 8 := lt_of_le_of_ne hle fun h => by simpa using hlocked.2 h
    simp only [lockCount, Config.lockRun]
    split
    · split
      · exact ⟨by omega, by simp; omega, by simp⟩
      · exact ⟨by omega, by simp; omega, by simp⟩
    · simp
  | locked =>
    have hgood : good = 8 := hlocked.1 rfl
    simp only [lockCount]
    split
    · simp [hgood]
    · simp

/-- An accepted offset steps or slews terminal time (R6). -/
theorem State.acceptOffset_eq (s : State) (θ : Int) (interval : Nat) :
    s.acceptOffset θ interval =
      if s.cfg.time.stepLimit ≤ θ.natAbs then (s.setTime { s.time with lastOffset := some s.time.et }).stepTime θ
      else
        (s.setTime
          { TimeBase.slew { s.time with lastOffset := some s.time.et } s.cfg.time θ interval with
            good := (lockCount s.cfg.time.lockLimit s.time.state s.time.good θ).1 }).enterTimeState
          (lockCount s.cfg.time.lockLimit s.time.state s.time.good θ).2 := rfl

/-- The time base after an accepted offset (R6 to R9). -/
theorem State.acceptOffset_time (s : State) (θ : Int) (interval : Nat) :
    (s.acceptOffset θ interval).time =
      if s.cfg.time.stepLimit ≤ θ.natAbs then
        { ((TimeBase.stepBy { s.time with lastOffset := some s.time.et } θ).retune s.time.fc 0).fire with
          good := 0, state := .acquiring }
      else
        { TimeBase.slew { s.time with lastOffset := some s.time.et } s.cfg.time θ interval with
          good := (lockCount s.cfg.time.lockLimit s.time.state s.time.good θ).1
          state := (lockCount s.cfg.time.lockLimit s.time.state s.time.good θ).2 } := by
  rw [State.acceptOffset_eq]
  split
  · rw [State.stepTime, State.enterTimeState_time, (State.raiseAll_leaves _ _).2.1]
    rfl
  · rw [State.enterTimeState_time]
    rfl

@[simp] theorem TimeBase.fire_frame (t : TimeBase) :
    t.fire.tt = t.tt ∧ t.fire.frac = t.frac ∧ t.fire.et = t.et ∧ t.fire.fc = t.fc ∧ t.fire.sl = t.sl ∧ t.fire.p = t.p ∧
    t.fire.inc = t.inc ∧ t.fire.state = t.state ∧ t.fire.good = t.good ∧ t.fire.lastOffset = t.lastOffset ∧
    t.fire.capture = t.capture ∧ t.fire.accepted = t.accepted ∧ t.fire.glitches = t.glitches ∧
    t.fire.lastEdge = t.lastEdge ∧ t.fire.timeRoute = t.timeRoute := by
  unfold TimeBase.fire
  split <;> simp

@[simp] theorem TimeBase.stepBy_frame (t : TimeBase) (θ : Int) :
    (t.stepBy θ).et = t.et ∧ (t.stepBy θ).fc = t.fc ∧ (t.stepBy θ).sl = t.sl ∧ (t.stepBy θ).p = t.p ∧
    (t.stepBy θ).inc = t.inc ∧ (t.stepBy θ).state = t.state ∧ (t.stepBy θ).good = t.good ∧
    (t.stepBy θ).lastOffset = t.lastOffset ∧ (t.stepBy θ).capture = t.capture ∧ (t.stepBy θ).accepted = t.accepted ∧
    (t.stepBy θ).glitches = t.glitches ∧ (t.stepBy θ).lastEdge = t.lastEdge ∧ (t.stepBy θ).lastFired = t.lastFired ∧
    (t.stepBy θ).timeRoute = t.timeRoute ∧ (t.stepBy θ).ppsEdgesOut = t.ppsEdgesOut := by
  unfold TimeBase.stepBy
  split <;> simp

theorem State.acceptOffset_sound {s : State} (θ : Int) (interval : Nat) (h : s.time.Sound) :
    (s.acceptOffset θ interval).time.Sound := by
  obtain ⟨-, -, hfc, hle, hlocked, -, -⟩ := h
  rw [State.acceptOffset_time]
  split
  · refine ⟨?_, ?_, ?_, ?_, ?_, ?_, ?_⟩ <;> simp [TimeBase.retune, hfc]
  · obtain ⟨hle', hlocked', hfree⟩ :=
      lockCount_sound (limit := s.cfg.time.lockLimit) (θ := θ) hle hlocked
    refine ⟨rfl, rfl, ?_, hle', hlocked', fun hf => absurd hf hfree, fun _ => rfl⟩
    simp only [TimeBase.slew, TimeBase.retune]
    omega

theorem State.acceptOffset_timeRoute (s : State) (θ : Int) (interval : Nat) :
    (s.acceptOffset θ interval).time.timeRoute = s.time.timeRoute := by
  rw [State.acceptOffset_time]
  split
  · simp [TimeBase.retune]
  · rfl

theorem State.keepsTime_acceptOffset (s : State) (θ : Int) (interval : Nat) : s.KeepsTime (s.acceptOffset θ interval) :=
  .of_sound (State.acceptOffset_sound θ interval) (s.acceptOffset_timeRoute θ interval)
    (State.routeView_congr (by simp) (by simp) (by simp))

theorem State.keepsTime_gateOffset (s : State) (r : RouteIx) (x : Sample) : s.KeepsTime (s.gateOffset r x) := by
  unfold State.gateOffset
  split
  · exact (s.keepsTime_modProbe r (by simp)).trans (State.keepsTime_acceptOffset _ _ _)
  · exact .refl s

theorem State.keepsTime_viewPeer (s : State) (r : RouteIx) (state errors : Byte) : s.KeepsTime (s.viewPeer r state errors) :=
  s.keepsTime_modProbe r (by simp)

/-- A GOOD sample enters the ring, and the time route is chosen again before anything rests on it (R16, R46). -/
theorem State.keepsTime_goodSample (s : State) (r : RouteIx) (o : Outstanding) (x : Sample) (state errors : Byte) :
    s.KeepsTime (s.goodSample r o x state errors) := by
  unfold State.goodSample
  refine KeepsTime.trans (KeepsTime.trans (KeepsTime.trans ?_ (State.keepsTime_gateOffset _ r x))
    (State.keepsTime_viewPeer _ r state errors)) (State.keepsTime_resolve _ r _)
  exact .of_chosen rfl (State.rechoose_timeRouteSound _)

theorem State.keepsTime_badSample (s : State) (r : RouteIx) (o : Outstanding) (state errors : Byte) :
    s.KeepsTime (s.badSample r o state errors) := by
  unfold State.badSample
  exact ((s.keepsTime_modProbe r (by simp)).trans (State.keepsTime_viewPeer _ r state errors)).trans
    (State.keepsTime_resolve _ r _)

theorem State.keepsTime_resolveEcho (s : State) (r : RouteIx) (n : Byte) (t1 t2 t3 t4 : Stamp) (errors state : Byte) :
    s.KeepsTime (s.resolveEcho r n t1 t2 t3 t4 errors state) := by
  unfold State.resolveEcho
  split
  · exact s.keepsTime_modProbe r (by simp)
  · split
    · exact s.keepsTime_badSample r _ _ _
    · exact s.keepsTime_goodSample r _ _ _ _

theorem State.keepsTime_dispatch (s : State) (r : RouteIx) (rx : Rx) (kind : TrunkKind) (bs : List Byte) :
    s.KeepsTime (s.dispatch r rx kind bs) := by
  have hrx (f : Score → Score) : s.KeepsTime ((s.dropRx r).modScore r f) :=
    (s.keepsTime_dropRx r).trans (State.keepsTime_modScore _ r f)
  cases kind with
  | probe => exact (hrx _).trans (State.keepsTime_answerProbe _ r _ _ _)
  | echo => exact (hrx _).trans (State.keepsTime_resolveEcho _ r _ _ _ _ _ _ _)
  | test => exact (hrx _).trans (State.keepsTime_checkTest _ r _ _)
  | cargo =>
    unfold State.dispatch
    dsimp only
    split
    · exact .of_frame (by simp) (by simp) (by simp) (by simp)
    · exact s.keepsTime_dropRx r

theorem State.keepsTime_frameJudged (s : State) (r : RouteIx) (rx : Rx) (bs : List Byte) :
    s.KeepsTime (s.frameJudged r rx bs) := by
  unfold State.frameJudged
  split
  · exact s.keepsTime_dropRx r
  · split
    · exact (s.keepsTime_dropRx r).trans (State.keepsTime_crcFailure _ r)
    · split
      · exact (s.keepsTime_dropRx r).trans (State.keepsTime_modScore _ r _)
      · split
        · exact (s.keepsTime_dropRx r).trans (State.keepsTime_modScore _ r _)
        · exact s.keepsTime_dispatch r rx _ bs

theorem State.keepsTime_lengthLimit (s : State) (r : RouteIx) (rx : Rx) : s.KeepsTime (s.lengthLimit r rx) := by
  unfold State.lengthLimit
  dsimp only
  have h : s.KeepsTime ((s.dropRx r).modLane r fun l => { l with counts := { l.counts with oversize := l.counts.oversize + 1 } }) :=
    .of_frame (by simp) (by simp) (by simp) (by simp)
  split
  · exact h
  · exact h.trans (State.keepsTime_crcFailure _ r)

/-! ### Lanes and settings -/

theorem State.keepsTime_losAssert (s : State) (r : RouteIx) : s.KeepsTime (s.losAssert r) := by
  unfold State.losAssert State.losEffects
  dsimp only
  split
  · exact .refl s
  · split
    · exact .of_frame rfl rfl rfl rfl
    · exact KeepsTime.trans (.of_frame (by simp) (by simp) (by simp) (by simp)) (State.keepsTime_evaluate _ r)

theorem State.keepsTime_losRelease (s : State) (r : RouteIx) : s.KeepsTime (s.losRelease r) := by
  unfold State.losRelease
  dsimp only
  split
  · split
    · exact .of_frame rfl rfl rfl rfl
    · refine KeepsTime.trans ?_ (State.keepsTime_evaluate _ r)
      exact .of_frame rfl rfl rfl rfl
  · exact .refl s

theorem State.keepsTime_laneReport (s : State) (r : RouteIx) (bs : List Byte) : s.KeepsTime (s.laneReport r bs) := by
  unfold State.laneReport
  split
  · exact .of_frame rfl rfl rfl rfl
  · split
    · exact .of_frame rfl rfl rfl rfl
    · exact KeepsTime.trans (.of_frame (by simp) (by simp) (by simp) (by simp)) (State.keepsTime_evaluate _ r)

/-- New settings in which the role, the followed peer and the routes' peers stay change nothing that R15 looks at. -/
theorem State.keepsTime_setCfg (s : State) {c : Settings} (htime : c.time = s.cfg.time)
    (hroutes : ∀ r : RouteIx, c.routes[r].peer = s.cfg.routes[r].peer) : s.KeepsTime (s.setCfg c) := by
  refine .of_same rfl ?_
  simp only [State.routeView, State.setCfg_cfg, htime, hroutes]
  rfl

/-- A route's settings replaced, its peer kept, leave every route's peer. -/
theorem Settings.withRoute_peer (c : Settings) (r q : RouteIx) {x : RouteSettings} (h : x.peer = c.routes[r].peer) :
    (c.withRoute r x).routes[q].peer = c.routes[q].peer := by
  by_cases hq : r.val = q.val
  · have : r = q := Fin.ext hq
    subst this
    simp [Settings.withRoute, h]
  · simp [Settings.withRoute, hq]

theorem State.keepsTime_applyLane (s : State) (r : RouteIx) (x : LaneSettings) : s.KeepsTime (s.applyLane r x) := by
  unfold State.applyLane
  dsimp only
  refine KeepsTime.trans (s.keepsTime_setCfg (c := s.cfg.withLane r x) rfl fun _ => rfl) ?_
  split
  · exact State.keepsTime_judgeSilence _ r
  · exact ((State.keepsTime_disableRoute _ r).trans (.of_frame (by simp) (by simp) (by simp) (by simp))).trans
      (State.keepsTime_returnRoute _ r)

/-- The peer of a route changes: the time route is chosen again (R16, R73). -/
theorem State.keepsTime_changePeer (s : State) (r : RouteIx) (peer : PeerIx) : s.KeepsTime (s.changePeer r peer) := by
  unfold State.changePeer
  split
  · exact .refl s
  · dsimp only
    refine (s.keepsTime_disableRoute r).trans (.of_chosen ?_ (State.rechoose_timeRouteSound _))
    simp

theorem State.keepsTime_applyRoute (s : State) (r : RouteIx) (x : RouteSettings) : s.KeepsTime (s.applyRoute r x) := by
  unfold State.applyRoute
  have hset (s : State) (y : RouteSettings) (h : y.peer = s.cfg.routes[r].peer) :
      s.KeepsTime (s.setCfg (s.cfg.withRoute r y)) :=
    s.keepsTime_setCfg rfl fun q => s.cfg.withRoute_peer r q h
  have hlast (u : State) (h : s.KeepsTime u) :
      s.KeepsTime (if x.enable then u.returnRoute r else u.disableRoute r) := by
    split
    · exact h.trans (u.keepsTime_returnRoute r)
    · exact h.trans (u.keepsTime_disableRoute r)
  refine hlast _ (KeepsTime.trans (KeepsTime.trans ?_ (State.keepsTime_changePeer _ r x.peer)) (hset _ _ rfl))
  exact hset s _ rfl

theorem State.keepsTime_applyProbe (s : State) (p : ProbeSettings) : s.KeepsTime (s.applyProbe p) := by
  unfold State.applyProbe
  have hrestart (tests : Bool) (r : RouteIx) (t : State) : t.KeepsTime (t.restartSchedules tests r) := by
    unfold State.restartSchedules
    exact (t.keepsTime_modProbe r (by simp)).trans (State.keepsTime_modHealth _ r (by simp))
  refine KeepsTime.trans (KeepsTime.trans ?_ (State.keepsTime_forRoutes _ fun r t => hrestart _ r t))
    (State.keepsTime_forRoutes _ fun r t => t.keepsTime_loseDue r _)
  exact s.keepsTime_setCfg rfl fun _ => rfl

theorem State.keepsTime_applyPeer (s : State) (p : PeerIx) (x : PeerSettings) : s.KeepsTime (s.applyPeer p x) := by
  unfold State.applyPeer
  refine KeepsTime.trans ?_ (State.keepsTime_applyMoves _ _)
  exact s.keepsTime_setCfg rfl fun _ => rfl

theorem State.keepsTime_applyHealth (s : State) (h : HealthSettings) : s.KeepsTime (s.applyHealth h) := by
  unfold State.applyHealth
  refine KeepsTime.trans ?_ (State.keepsTime_applyMoves _ _)
  exact s.keepsTime_setCfg rfl fun _ => rfl

theorem State.keepsTime_applyCalendar (s : State) (r : RouteIx) (cal : Calendar) :
    s.KeepsTime (s.applyCalendar r cal) := by
  have h : s.KeepsTime (s.setCfg (s.cfg.withCalendar r cal)) := s.keepsTime_setCfg rfl fun _ => rfl
  exact h.trans (.of_frame rfl rfl rfl rfl)

theorem State.keepsTime_testRoute (s : State) (r : RouteIx) : s.KeepsTime (s.testRoute r) := by
  unfold State.testRoute
  split
  · exact s.keepsTime_modHealth r (by simp)
  · exact s.keepsTime_moveRoute r _

theorem State.keepsTime_applyTime (s : State) (t : TimeSettings) : s.KeepsTime (s.applyTime t) := by
  unfold State.applyTime
  refine KeepsTime.trans ?_ (State.keepsTime_judgeHoldover _)
  exact .of_chosen rfl (State.rechoose_timeRouteSound _)

/-! ### Start-up -/

/-- The settings of an image and what they bring about leave the time base but for its time route. -/
@[simp] theorem State.applyImage_routeless (s : State) (i : Image) : (s.applyImage i).time.routeless = s.time.routeless := by
  simp [State.applyImage]

theorem State.keepsTime_endLoad (s : State) (m : List Host.Cell) : s.KeepsTime (s.endLoad m) := by
  have hlast (u : State) (hu : u.time.routeless = s.time.routeless) : s.KeepsTime u.rechoose.judgeHoldover.answerRestart :=
    ((KeepsTime.of_chosen (by simp [hu]) (u.rechoose_timeRouteSound)).trans (State.keepsTime_judgeHoldover _)).trans
      (.of_frame (by simp) (by simp) (by simp) (by simp))
  unfold State.endLoad
  split
  · exact hlast _ (by simp)
  · exact hlast _ rfl

/-- A RESTART keeps TT, ET, FC and the time state, sets SL to 0 and chooses the time route under the SAFE settings (R21). -/
theorem State.keepsTime_restart (s : State) (p : PortIx) (request : Byte) : s.KeepsTime (s.restart p request) := by
  unfold State.restart State.beginLoad
  dsimp only
  refine ⟨fun h => (TimeBase.sound_congr (State.rechoose_routeless _)).2 ?_, fun _ => State.rechoose_timeRouteSound _⟩
  generalize hu : State.applyMoves _ _ = u
  have hsound : u.time.Sound := by
    refine (TimeBase.sound_congr (u := s.time) ?_).2 h
    rw [← hu, State.applyMoves_routeless]
    simp
  obtain ⟨-, -, hfc, hgood, hlocked, hfree, hoffset⟩ := hsound
  exact ⟨rfl, rfl, hfc, hgood, hlocked, hfree, hoffset⟩

/-- The time base after cold reset is sound (R20). -/
theorem TimeBase.coldReset_sound : TimeBase.coldReset.Sound := by
  simp [TimeBase.Sound, TimeBase.coldReset, totalTerm, incOf, roundHalfAway]

theorem State.keepsTime_coldReset (s : State) (m : List Host.Cell) : s.KeepsTime (s.coldReset m) := by
  refine ⟨fun _ => TimeBase.coldReset_sound, fun _ => rfl⟩

/-! ### Every command -/

theorem State.keepsTime_operatorDirective (s : State) (d : Directive) (name argLen : Nat) {owner : State → Judged}
    (h : ∀ u : State, u.KeepsTime (owner u).1) : s.KeepsTime (s.operatorDirective d name argLen owner) :=
  State.operatorDirective_keeps (P := s.KeepsTime) (fun u v hu => hu.trans (u.keepsTime_withPorts v))
    (fun u _ _ hu => hu.trans (h u)) d name argLen (.refl s)

theorem State.keepsTime_openDirective (s : State) (d : Directive) (name argLen : Nat) {owner : State → Judged}
    (h : ∀ u : State, u.KeepsTime (owner u).1) : s.KeepsTime (s.openDirective d name argLen owner) :=
  State.openDirective_keeps (P := s.KeepsTime) (fun u v hu => hu.trans (u.keepsTime_withPorts v))
    (fun u _ hu => hu.trans (h u)) d name argLen (.refl s)

theorem State.keepsTime_ownedDirective (s : State) (d : Directive) (name : Nat) (outOnly : Bool)
    (effect : Circuit → Circuit) : s.KeepsTime (s.ownedDirective d name outOnly effect) :=
  State.ownedDirective_keeps (P := s.KeepsTime) (fun u v hu => hu.trans (u.keepsTime_withPorts v))
    (fun _ _ _ _ _ _ _ hu => hu.trans (.of_frame rfl rfl rfl rfl)) d name (.refl s)

/-- One tick moves TT, its fraction and ET alone (R1). -/
theorem TimeBase.tick_eq (t : TimeBase) : ∃ tt frac et, t.tick = { t with tt := tt, frac := frac, et := et } :=
  ⟨_, _, _, rfl⟩

/-- One tick moves neither INC nor anything its soundness rests on (R1). -/
theorem State.keepsTime_tick (s : State) : s.KeepsTime (s.setTime s.time.tick) := by
  obtain ⟨tt, frac, et, e⟩ := s.time.tick_eq
  rw [e]
  exact .of_sound (TimeBase.sound_of_fields rfl rfl rfl rfl rfl rfl rfl) rfl (State.routeView_congr rfl rfl rfl)

theorem State.keepsTime_fire (s : State) : s.KeepsTime (s.setTime s.time.fire) := by
  refine .of_sound (TimeBase.sound_of_fields ?_ ?_ ?_ ?_ ?_ ?_ ?_) ?_ (State.routeView_congr rfl rfl rfl) <;> simp

theorem State.keepsTime_ppsEdge (s : State) : s.KeepsTime s.ppsEdge := by
  unfold State.ppsEdge
  split
  · exact .of_sound (TimeBase.sound_of_fields rfl rfl rfl rfl rfl rfl rfl) rfl (State.routeView_congr rfl rfl rfl)
  · have hcapture : s.KeepsTime (s.setTime s.time.capturePps) := .of_sound (TimeBase.sound_of_fields rfl rfl rfl rfl rfl rfl rfl) rfl (State.routeView_congr rfl rfl rfl)
    dsimp only
    split
    · exact hcapture.trans (State.keepsTime_acceptOffset _ _ _)
    · exact hcapture

@[simp] theorem State.readAt_fst {n : Nat} (s : State) (reading : Fin n → List Byte) (v : Nat) :
    (s.readAt reading v).1 = s := by
  unfold State.readAt
  split <;> rfl

/-- READ_TABLE gives a reading of the state and leaves it as it is. -/
@[simp] theorem State.ownReadTable_fst (s : State) (d : Directive) : (s.ownReadTable d).1 = s := by
  unfold State.ownReadTable
  dsimp only
  split <;> simp [State.reply]

@[simp] theorem State.reply_fst (s : State) (st : Status) : (s.reply st).1 = s := rfl

theorem State.keepsTime_closeCircuit (s : State) (d : Directive) : s.KeepsTime (s.ownCloseCircuit d).1 := by
  unfold State.ownCloseCircuit
  split
  · exact .refl s
  · split
    · exact .refl s
    · split
      · exact .refl s
      · exact .refl s
      · exact .of_frame (by simp [State.reply]) (by simp [State.reply]) (by simp [State.reply]) (by simp [State.reply])
      · exact .of_frame (by simp [State.reply]) (by simp [State.reply]) (by simp [State.reply]) (by simp [State.reply])

theorem execColdReset_keepsTime {s t : State} {left : FlashLeft} (h : execColdReset left s = .next t) :
    s.KeepsTime t := by
  unfold execColdReset at h
  split at h
  · cases h; exact s.keepsTime_coldReset _
  · split at h
    · cases h; exact s.keepsTime_coldReset _
    · cases h

theorem execLoadEnd_keepsTime {s t : State} {answers : Bool} (h : execLoadEnd answers s = .next t) :
    s.KeepsTime t := by
  unfold execLoadEnd at h
  split at h <;> cases h
  · exact s.keepsTime_endLoad _
  · exact .refl s

theorem State.keepsTime_ownSetTime (u : State) (d : Directive) : u.KeepsTime (u.ownSetTime d).1 := by
  unfold State.ownSetTime
  split
  · exact .refl u
  · rw [State.reply_fst]; exact u.keepsTime_applyTime _

theorem execTransmitEnd_keepsTime {s t : State} {r : RouteIx} (h : execTransmitEnd r s = .next t) :
    s.KeepsTime t := by
  unfold execTransmitEnd at h
  split at h
  · cases h; exact .refl s
  · split at h <;> cases h
    · exact .of_frame (by simp) (by simp) (by simp) (by simp)
    · exact .refl s

theorem execFrameStart_keepsTime {s t : State} {r : RouteIx} {first : Byte} (h : execFrameStart r first s = .next t) :
    s.KeepsTime t := by
  unfold execFrameStart at h
  split at h <;> cases h
  · exact .of_frame (by simp) (by simp) (by simp) (by simp)
  · exact .refl s

theorem execLengthLimitEnd_keepsTime {s t : State} {r : RouteIx} (h : execLengthLimitEnd r s = .next t) :
    s.KeepsTime t := by
  unfold execLengthLimitEnd at h
  split at h <;> cases h
  · exact .refl s
  · exact s.keepsTime_lengthLimit r _

theorem execFrameEnd_keepsTime {s t : State} {r : RouteIx} {rest : List Byte} (h : execFrameEnd r rest s = .next t) :
    s.KeepsTime t := by
  unfold execFrameEnd at h
  split at h
  · cases h; exact .refl s
  · split at h <;> cases h
    · exact s.keepsTime_lengthLimit r _
    · exact s.keepsTime_frameJudged r _ _

theorem execProbeRequest_keepsTime {s t : State} {r : RouteIx} (h : execProbeRequest r s = .next t) :
    s.KeepsTime t := by
  unfold execProbeRequest at h
  split at h
  · cases h; exact .refl s
  · split at h <;> cases h
    · exact (s.keepsTime_requestProbe r).trans (State.keepsTime_modProbe _ r (by simp))
    · exact .refl s

theorem execProbeTimeout_keepsTime {s t : State} {r : RouteIx} (h : execProbeTimeout r s = .next t) :
    s.KeepsTime t := by
  unfold execProbeTimeout at h
  split at h <;> cases h
  · exact .refl s
  · exact s.keepsTime_loseProbe r _

theorem execTestRequest_keepsTime {s t : State} {r : RouteIx} (h : execTestRequest r s = .next t) :
    s.KeepsTime t := by
  unfold execTestRequest at h
  split at h
  · cases h; exact .refl s
  · split at h <;> cases h
    · exact ((s.keepsTime_requestTest r).trans (State.keepsTime_modHealth _ r (by simp))).trans
        (State.keepsTime_evaluate _ r)
    · exact .refl s

theorem execSendStart_keepsTime {s t : State} {p : PortIx} (h : execSendStart p s = .next t) :
    s.KeepsTime t := by
  unfold execSendStart at h
  split at h <;> cases h
  · exact .of_frame (by simp) (by simp) (by simp) (by simp)
  · exact .refl s

theorem execSendEnd_keepsTime {s t : State} {p : PortIx} {status : Byte} {body : List Byte} {crc : BitVec 32} (h : execSendEnd p status body crc s = .next t) :
    s.KeepsTime t := by
  unfold execSendEnd at h
  split at h <;> cases h
  · exact .refl s
  · exact .of_frame rfl rfl rfl rfl
  · exact .of_frame (by simp) (by simp) (by simp) (by simp)

theorem execOutboundTurn_keepsTime {s t : State} {p : PortIx} (h : execOutboundTurn p s = .next t) :
    s.KeepsTime t := by
  unfold execOutboundTurn at h
  split at h <;> cases h
  · exact .of_frame (by simp) (by simp) (by simp) (by simp)
  · exact .refl s

theorem execOutboundFrameEnd_keepsTime {s t : State} {p : PortIx} (h : execOutboundFrameEnd p s = .next t) :
    s.KeepsTime t := by
  unfold execOutboundFrameEnd at h
  split at h <;> cases h
  · exact .refl s
  · exact .of_frame (by simp) (by simp) (by simp) (by simp)

theorem execLinkDown_keepsTime {s t : State} {p : PortIx} (h : execLinkDown p s = .next t) :
    s.KeepsTime t := by
  unfold execLinkDown at h
  split at h <;> cases h
  · exact .of_frame (by simp) (by simp) (by simp) (by simp)
  · exact .refl s

theorem execLinkUp_keepsTime {s t : State} {p : PortIx} (h : execLinkUp p s = .next t) :
    s.KeepsTime t := by
  unfold execLinkUp at h
  split at h <;> cases h
  · exact .of_frame rfl rfl rfl rfl
  · exact .refl s

theorem execBadInboundEnvelope_keepsTime {s t : State} {p : PortIx} (h : execBadInboundEnvelope p s = .next t) :
    s.KeepsTime t := by
  unfold execBadInboundEnvelope at h
  split at h <;> cases h
  · exact .of_frame (by simp) (by simp) (by simp) (by simp)
  · exact .refl s

theorem execUnknownDirective_keepsTime {s t : State} {p : PortIx} {status : Byte} {body : List Byte} {crc : BitVec 32} (h : execUnknownDirective p status body crc s = .next t) :
    s.KeepsTime t := by
  unfold execUnknownDirective at h
  split at h <;> cases h
  obtain ⟨v, e⟩ := s.unknownDirective_withPorts p (body.getD 1 0) (crc == crc32 (covered 0xA2 status body))
  rw [e]
  exact s.keepsTime_withPorts v

theorem State.keepsTime_ownWatch (u : State) (d : Directive) : u.KeepsTime (u.ownWatch d).1 := by
  unfold State.ownWatch
  split
  · exact .refl u
  · exact .of_frame rfl rfl rfl rfl

theorem State.keepsTime_ownSetIdentity (u : State) (d : Directive) : u.KeepsTime (u.ownSetIdentity d).1 := by
  simp only [State.ownSetIdentity]
  split
  · exact .refl u
  · exact u.keepsTime_setCfg rfl fun _ => rfl

theorem State.keepsTime_ownSetPeer (u : State) (d : Directive) : u.KeepsTime (u.ownSetPeer d).1 := by
  unfold State.ownSetPeer
  split
  · split
    · exact .refl u
    · rw [State.reply_fst]; exact u.keepsTime_applyPeer _ _
  · exact .refl u

theorem State.keepsTime_ownSetRoute (u : State) (d : Directive) : u.KeepsTime (u.ownSetRoute d).1 := by
  unfold State.ownSetRoute
  split
  · rw [State.reply_fst]; exact u.keepsTime_applyRoute _ _
  · exact .refl u

theorem State.keepsTime_ownSetLane (u : State) (d : Directive) : u.KeepsTime (u.ownSetLane d).1 := by
  unfold State.ownSetLane
  split
  · rw [State.reply_fst]; exact u.keepsTime_applyLane _ _
  · exact .refl u

theorem State.keepsTime_ownSetHealth (u : State) (d : Directive) : u.KeepsTime (u.ownSetHealth d).1 := by
  unfold State.ownSetHealth
  split
  · exact .refl u
  · rw [State.reply_fst]; exact u.keepsTime_applyHealth _

theorem State.keepsTime_ownSetProbe (u : State) (d : Directive) : u.KeepsTime (u.ownSetProbe d).1 := by
  unfold State.ownSetProbe
  split
  · exact .refl u
  · rw [State.reply_fst]; exact u.keepsTime_applyProbe _

theorem State.keepsTime_ownSetCalendar (u : State) (d : Directive) : u.KeepsTime (u.ownSetCalendar d).1 := by
  unfold State.ownSetCalendar
  split
  · rw [State.reply_fst]; exact u.keepsTime_applyCalendar _ _
  · exact .refl u

theorem State.keepsTime_ownOpenCircuit (u : State) (d : Directive) : u.KeepsTime (u.ownOpenCircuit d).1 := by
  unfold State.ownOpenCircuit
  split
  · exact .refl u
  · split
    · exact .refl u
    · split
      · exact .refl u
      · split
        · exact .refl u
        · exact .of_frame rfl rfl rfl rfl

theorem State.keepsTime_ownForceRoute (u : State) (d : Directive) : u.KeepsTime (u.ownForceRoute d).1 := by
  unfold State.ownForceRoute
  split
  · split
    · exact .of_frame rfl rfl rfl rfl
    · exact .refl u
  · exact .refl u

theorem State.keepsTime_ownReleaseRoute (u : State) (d : Directive) : u.KeepsTime (u.ownReleaseRoute d).1 := by
  unfold State.ownReleaseRoute
  split
  · exact .refl u
  · exact .of_frame rfl rfl rfl rfl

theorem State.keepsTime_ownTestRoute (u : State) (d : Directive) : u.KeepsTime (u.ownTestRoute d).1 := by
  unfold State.ownTestRoute
  split
  · exact .refl u
  · split
    · exact .refl u
    · exact u.keepsTime_testRoute _

theorem execSaveProfile_keepsTime {s t : State} {d : Directive} (h : execSaveProfile d s = .next t) :
    s.KeepsTime t := by
  cases h
  exact s.keepsTime_operatorDirective d 20 0 fun u => .of_frame rfl rfl rfl rfl

theorem execSaveComplete_keepsTime {s t : State} {result : SaveResult} (h : execSaveComplete result s = .next t) :
    s.KeepsTime t := by
  unfold execSaveComplete at h
  split at h
  · cases h; exact .refl s
  · split at h <;> cases h
    exact .of_frame (by simp) (by simp) (by simp) (by simp)

theorem execMiss_keepsTime {s t : State} {p : PortIx} {first : Bool} (h : execMiss p first s = .next t) :
    s.KeepsTime t := by
  unfold execMiss at h
  split at h <;> cases h
  · exact .of_frame (by simp) (by simp) (by simp) (by simp)
  · exact .refl s

/-- A command keeps the time base sound, and the time route the one R15 chooses. -/
theorem exec_keepsTime {c : Instr} {s t : State} (h : exec c s = .next t) : s.KeepsTime t := by
  cases c with
  | coldReset left => exact execColdReset_keepsTime h
  | loadEnd answers => exact execLoadEnd_keepsTime h
  | advance => cases h; exact s.keepsTime_tick
  | ppsOutFire => cases h; exact s.keepsTime_fire
  | holdoverExpiry => cases h; exact s.keepsTime_judgeHoldover
  | ppsEdge => cases h; exact s.keepsTime_ppsEdge
  | setTime d => cases h; exact s.keepsTime_operatorDirective d 13 15 fun u => u.keepsTime_ownSetTime d
  | readTime d => cases h; exact s.keepsTime_openDirective d 1 0 State.KeepsTime.refl
  | laneByteTaken r => cases h; exact .of_frame rfl rfl rfl rfl
  | transmitEnd r => exact execTransmitEnd_keepsTime h
  | frameStart r first => exact execFrameStart_keepsTime h
  | lengthLimitEnd r => exact execLengthLimitEnd_keepsTime h
  | frameEnd r rest => exact execFrameEnd_keepsTime h
  | losAssert r => cases h; exact s.keepsTime_losAssert r
  | losRelease r => cases h; exact s.keepsTime_losRelease r
  | laneReport r record => cases h; exact s.keepsTime_laneReport r record
  | silenceExpiry r => cases h; exact s.keepsTime_judgeSilence r
  | probeRequest r => exact execProbeRequest_keepsTime h
  | probeTimeout r => exact execProbeTimeout_keepsTime h
  | testRequest r => exact execTestRequest_keepsTime h
  | offer r => cases h; exact s.keepsTime_offer r
  | sendStart p => exact execSendStart_keepsTime h
  | sendEnd p status body crc => exact execSendEnd_keepsTime h
  | outboundTurn p => exact execOutboundTurn_keepsTime h
  | outboundFrameEnd p => exact execOutboundFrameEnd_keepsTime h
  | linkDown p => exact execLinkDown_keepsTime h
  | linkUp p => exact execLinkUp_keepsTime h
  | badInboundEnvelope p => exact execBadInboundEnvelope_keepsTime h
  | unknownDirective p status body crc => exact execUnknownDirective_keepsTime h
  | readTable d =>
    cases h
    refine s.keepsTime_openDirective d 2 2 fun u => ?_
    rw [State.ownReadTable_fst]
    exact .refl u
  | watch d => cases h; exact s.keepsTime_openDirective d 3 2 fun u => u.keepsTime_ownWatch d
  | pause d => cases h; exact s.keepsTime_ownedDirective d 4 true _
  | resume d => cases h; exact s.keepsTime_ownedDirective d 5 true _
  | clearCounts d => cases h; exact s.keepsTime_ownedDirective d 6 false _
  | setIdentity d => cases h; exact s.keepsTime_operatorDirective d 7 3 fun u => u.keepsTime_ownSetIdentity d
  | setPeer d => cases h; exact s.keepsTime_operatorDirective d 8 3 fun u => u.keepsTime_ownSetPeer d
  | setRoute d => cases h; exact s.keepsTime_operatorDirective d 9 7 fun u => u.keepsTime_ownSetRoute d
  | setLane d => cases h; exact s.keepsTime_operatorDirective d 10 7 fun u => u.keepsTime_ownSetLane d
  | setHealth d => cases h; exact s.keepsTime_operatorDirective d 11 9 fun u => u.keepsTime_ownSetHealth d
  | setProbe d => cases h; exact s.keepsTime_operatorDirective d 12 4 fun u => u.keepsTime_ownSetProbe d
  | setCalendar d => cases h; exact s.keepsTime_operatorDirective d 14 17 fun u => u.keepsTime_ownSetCalendar d
  | openCircuit d => cases h; exact s.keepsTime_operatorDirective d 15 10 fun u => u.keepsTime_ownOpenCircuit d
  | closeCircuit d => cases h; exact s.keepsTime_operatorDirective d 16 1 fun u => u.keepsTime_closeCircuit d
  | forceRoute d => cases h; exact s.keepsTime_operatorDirective d 17 2 fun u => u.keepsTime_ownForceRoute d
  | releaseRoute d => cases h; exact s.keepsTime_operatorDirective d 18 1 fun u => u.keepsTime_ownReleaseRoute d
  | testRoute d => cases h; exact s.keepsTime_operatorDirective d 19 1 fun u => u.keepsTime_ownTestRoute d
  | saveProfile d => exact execSaveProfile_keepsTime h
  | saveComplete result => exact execSaveComplete_keepsTime h
  | restart d => cases h; exact s.keepsTime_operatorDirective d 21 0 fun u => u.keepsTime_restart d.port d.request
  | miss p first => exact execMiss_keepsTime h

/-- A step takes in what comes from outside, or makes the effect of one command on the rest of the queue. -/
theorem step_cases {s t : State} (h : step s = .next t) :
    (s.pending = [] ∧ t = s.takeIn) ∨
    ∃ c rest, s.pending = c :: rest ∧ exec c { s with pending := rest } = .next t := by
  unfold step at h
  split at h
  · cases h; exact .inl ⟨‹_›, rfl⟩
  · exact .inr ⟨_, _, ‹_›, h⟩

/-- Settles O54: each command keeps the time base sound and the time route chosen, and taking in what comes from outside
touches neither. -/
theorem timeKept : Obligations.TimeKept := by
  intro s t h
  rcases step_cases h with ⟨-, rfl⟩ | ⟨c, rest, -, hc⟩
  · exact State.KeepsTime.of_frame (by simp) (by simp) (by simp) (by simp)
  · refine State.KeepsTime.trans ?_ (exec_keepsTime hc)
    exact .of_frame rfl rfl rfl rfl

end Sys2Proof.Machine
end

