-- ==== Sys2Proof/Proofs/CircuitKeys.lean ====
section
/-! SUPPORT. Which operations leave the state, the close pending count and the definition of every circuit: all but those that end
a current frame and the directives on circuits. -/

namespace Sys2Proof.Machine

/-- What a circuit record holds but for its numbers, its window and its tallies. -/
def Circuit.key (x : Circuit) : CircState × Option Nat × Option CircuitDef := (x.state, x.closing, x.defn)

/-- The keys of all circuit records. -/
def State.circuitKeys (s : State) : CircIx → CircState × Option Nat × Option CircuitDef := fun n => s.circuits[n].key

theorem State.circuitKeys_congr {s t : State} (h : t.circuits = s.circuits) : t.circuitKeys = s.circuitKeys := by
  funext n
  simp only [State.circuitKeys, h]

/-- The keys of all records are equal just when each record's is. -/
theorem State.circuitKeys_iff {s t : State} :
    t.circuitKeys = s.circuitKeys ↔ ∀ n : CircIx, t.circuits[n].state = s.circuits[n].state ∧
      t.circuits[n].closing = s.circuits[n].closing ∧ t.circuits[n].defn = s.circuits[n].defn := by
  simp [State.circuitKeys, Circuit.key, funext_iff]

@[simp] theorem State.circuitKeys_setCfg (s : State) (c : Settings) : (s.setCfg c).circuitKeys = s.circuitKeys := rfl
@[simp] theorem State.circuitKeys_setTime (s : State) (t : TimeBase) : (s.setTime t).circuitKeys = s.circuitKeys := rfl
@[simp] theorem State.circuitKeys_setPool (s : State) (p : Pool) : (s.setPool p).circuitKeys = s.circuitKeys := rfl
@[simp] theorem State.circuitKeys_setProfile (s : State) (p : Profile) : (s.setProfile p).circuitKeys = s.circuitKeys := rfl
@[simp] theorem State.circuitKeys_modLane (s : State) (r : RouteIx) (f : Lane → Lane) :
    (s.modLane r f).circuitKeys = s.circuitKeys := rfl
@[simp] theorem State.circuitKeys_modProbe (s : State) (r : RouteIx) (f : Probe → Probe) :
    (s.modProbe r f).circuitKeys = s.circuitKeys := rfl
@[simp] theorem State.circuitKeys_modHealth (s : State) (r : RouteIx) (f : Health → Health) :
    (s.modHealth r f).circuitKeys = s.circuitKeys := rfl
@[simp] theorem State.circuitKeys_modPeer (s : State) (p : PeerIx) (f : PeerSel → PeerSel) :
    (s.modPeer p f).circuitKeys = s.circuitKeys := rfl
@[simp] theorem State.circuitKeys_modSel (s : State) (r : RouteIx) (f : RouteSel → RouteSel) :
    (s.modSel r f).circuitKeys = s.circuitKeys := rfl
@[simp] theorem State.circuitKeys_modTx (s : State) (r : RouteIx) (f : Tx → Tx) :
    (s.modTx r f).circuitKeys = s.circuitKeys := rfl
@[simp] theorem State.circuitKeys_modScore (s : State) (r : RouteIx) (f : Score → Score) :
    (s.modScore r f).circuitKeys = s.circuitKeys := rfl
@[simp] theorem State.circuitKeys_modPort (s : State) (p : PortIx) (f : Port → Port) :
    (s.modPort p f).circuitKeys = s.circuitKeys := rfl
@[simp] theorem State.circuitKeys_raiseAt (s : State) (p : PortIx) (n : Notice) :
    (s.raiseAt p n).circuitKeys = s.circuitKeys := rfl
@[simp] theorem State.circuitKeys_raiseAll (s : State) (n : Notice) : (s.raiseAll n).circuitKeys = s.circuitKeys := rfl
@[simp] theorem State.circuitKeys_release (s : State) (k : Nat) : (s.release k).circuitKeys = s.circuitKeys := rfl
@[simp] theorem State.circuitKeys_updateFrame (s : State) (k : Nat) (g : Frame → Frame) :
    (s.updateFrame k g).circuitKeys = s.circuitKeys := rfl
@[simp] theorem State.circuitKeys_enqueue (s : State) (r : RouteIx) (c : Copy) :
    (s.enqueue r c).circuitKeys = s.circuitKeys := rfl
@[simp] theorem State.circuitKeys_countNoRoute (s : State) (p : PeerIx) :
    (s.countNoRoute p).circuitKeys = s.circuitKeys := rfl
@[simp] theorem State.circuitKeys_rechoose (s : State) : s.rechoose.circuitKeys = s.circuitKeys := rfl
@[simp] theorem State.circuitKeys_countPort (s : State) (p : PortIx) (g : PortCounts → PortCounts) :
    (s.countPort p g).circuitKeys = s.circuitKeys := rfl

/-- A change of a record that is none of its key. -/
theorem State.circuitKeys_modCircuit (s : State) (n : CircIx) {f : Circuit → Circuit} (h : ∀ x, (f x).key = x.key) :
    (s.modCircuit n f).circuitKeys = s.circuitKeys := by
  funext m
  show (s.modCircuit n f).circuits[m].key = s.circuits[m].key
  simp only [State.modCircuit, Fin.getElem_fin, Vector.getElem_set]
  split
  · rename_i e
    rw [h]
    congr 2
  · rfl

/-! ### Routes -/

@[simp] theorem State.circuitKeys_countDiscard (s : State) (r : RouteIx) (c : Copy) (reason : DiscardReason) :
    (s.countDiscard r c reason).circuitKeys = s.circuitKeys := by
  unfold State.countDiscard
  split
  · exact (State.circuitKeys_raiseAt ..).trans (s.circuitKeys_modCircuit _ (by intro; rfl))
  · rfl

@[simp] theorem State.circuitKeys_resteerCopy (s : State) (r : RouteIx) (c : Copy) :
    (s.resteerCopy r c).circuitKeys = s.circuitKeys := by
  unfold State.resteerCopy
  (repeat' split) <;> simp

@[simp] theorem State.circuitKeys_resteer (s : State) (r : RouteIx) : (s.resteer r).circuitKeys = s.circuitKeys := by
  unfold State.resteer
  rw [foldl_leaves State.circuitKeys _ (by intros; simp), State.circuitKeys_modTx]

@[simp] theorem State.circuitKeys_consequences (s : State) (r : RouteIx) (old new : RouteState) :
    (s.consequences r old new).circuitKeys = s.circuitKeys := by
  unfold State.consequences
  dsimp only
  rw [State.circuitKeys_raiseAll]
  have h (u : State) (hu : u.circuits = s.circuits) :
      (if (old.carries && !new.carries) = true then u.rechoose.resteer r else u.rechoose).circuitKeys = s.circuitKeys := by
    split <;> simp [State.circuitKeys_congr hu]
  apply h
  (repeat' split) <;> simp

@[simp] theorem State.circuitKeys_moveConsequences (s : State) (r : RouteIx) (old : RouteState) (via : List RouteState) :
    (s.moveConsequences r old via).circuitKeys = s.circuitKeys := by
  induction via generalizing s old with
  | nil => rfl
  | cons new via ih => rw [State.moveConsequences, ih, State.circuitKeys_consequences]

@[simp] theorem State.circuitKeys_applyMoves (s : State) (moves : List Move) :
    (s.applyMoves moves).circuitKeys = s.circuitKeys := by
  unfold State.applyMoves
  dsimp only
  rw [foldl_leaves State.circuitKeys _ (by intros; simp)]
  exact State.circuitKeys_congr (foldl_leaves State.circuits _ (by intros; simp) moves s)

@[simp] theorem State.circuitKeys_moveRoute (s : State) (r : RouteIx) (via : List RouteState) :
    (s.moveRoute r via).circuitKeys = s.circuitKeys := s.circuitKeys_applyMoves _

@[simp] theorem State.circuitKeys_disableRoute (s : State) (r : RouteIx) :
    (s.disableRoute r).circuitKeys = s.circuitKeys := by
  unfold State.disableRoute
  split <;> simp

@[simp] theorem State.circuitKeys_returnRoute (s : State) (r : RouteIx) :
    (s.returnRoute r).circuitKeys = s.circuitKeys := by
  unfold State.returnRoute
  split <;> simp

@[simp] theorem State.circuitKeys_evaluate (s : State) (r : RouteIx) : (s.evaluate r).circuitKeys = s.circuitKeys := by
  unfold State.evaluate
  split <;> simp

@[simp] theorem State.circuitKeys_resolve (s : State) (r : RouteIx) (res : Resolution) :
    (s.resolve r res).circuitKeys = s.circuitKeys := by
  simp [State.resolve]

@[simp] theorem State.circuitKeys_crcFailure (s : State) (r : RouteIx) :
    (s.crcFailure r).circuitKeys = s.circuitKeys := by
  simp [State.crcFailure]

@[simp] theorem State.circuitKeys_loseProbe (s : State) (r : RouteIx) (o : Outstanding) :
    (s.loseProbe r o).circuitKeys = s.circuitKeys := by
  simp [State.loseProbe]

@[simp] theorem State.circuitKeys_loseDue (s : State) (r : RouteIx) (fuel : Nat) :
    (s.loseDue r fuel).circuitKeys = s.circuitKeys := by
  induction fuel generalizing s with
  | zero => rfl
  | succ fuel ih =>
    unfold State.loseDue
    split
    · rfl
    · rw [ih, State.circuitKeys_loseProbe]

@[simp] theorem State.circuitKeys_judgeSilence (s : State) (r : RouteIx) :
    (s.judgeSilence r).circuitKeys = s.circuitKeys := by
  unfold State.judgeSilence
  split <;> simp

@[simp] theorem State.circuitKeys_requestTest (s : State) (r : RouteIx) :
    (s.requestTest r).circuitKeys = s.circuitKeys := State.circuitKeys_congr (by simp)

@[simp] theorem State.circuitKeys_losRelease (s : State) (r : RouteIx) :
    (s.losRelease r).circuitKeys = s.circuitKeys := by
  unfold State.losRelease
  dsimp only
  (repeat' split) <;> simp

@[simp] theorem State.circuitKeys_laneReport (s : State) (r : RouteIx) (bs : List Byte) :
    (s.laneReport r bs).circuitKeys = s.circuitKeys := by
  unfold State.laneReport
  split
  · rfl
  · split
    · rfl
    · rw [State.circuitKeys_evaluate]
      exact State.circuitKeys_congr (by simp)

@[simp] theorem State.circuitKeys_testRoute (s : State) (r : RouteIx) : (s.testRoute r).circuitKeys = s.circuitKeys := by
  unfold State.testRoute
  split <;> simp

@[simp] theorem State.circuitKeys_changePeer (s : State) (r : RouteIx) (p : PeerIx) :
    (s.changePeer r p).circuitKeys = s.circuitKeys := by
  unfold State.changePeer
  split
  · rfl
  · exact s.circuitKeys_disableRoute r

@[simp] theorem State.circuitKeys_applyRoute (s : State) (r : RouteIx) (x : RouteSettings) :
    (s.applyRoute r x).circuitKeys = s.circuitKeys := by
  unfold State.applyRoute
  dsimp only
  split <;> simp

@[simp] theorem State.circuitKeys_applyPeer (s : State) (p : PeerIx) (x : PeerSettings) :
    (s.applyPeer p x).circuitKeys = s.circuitKeys := by
  simp [State.applyPeer]

@[simp] theorem State.circuitKeys_applyHealth (s : State) (h : HealthSettings) :
    (s.applyHealth h).circuitKeys = s.circuitKeys := by
  simp [State.applyHealth]

@[simp] theorem State.circuitKeys_applyProbe (s : State) (p : ProbeSettings) :
    (s.applyProbe p).circuitKeys = s.circuitKeys := by
  unfold State.applyProbe
  dsimp only
  rw [forRoutes_leaves State.circuitKeys _ (by intros; simp)]
  exact State.circuitKeys_congr (forRoutes_leaves State.circuits _ (by intros; simp) _)

/-! ### Offers and arrivals -/

@[simp] theorem State.circuitKeys_countStart (s : State) (c : Copy) : (s.countStart c).circuitKeys = s.circuitKeys := by
  unfold State.countStart
  split
  · exact (State.circuitKeys_modCircuit _ _ (by intro; rfl)).trans (State.circuitKeys_updateFrame ..)
  · rfl

@[simp] theorem State.circuitKeys_startCargo (s : State) (r : RouteIx) (c : Copy) (slot : Option (Fin 16)) :
    (s.startCargo r c slot).circuitKeys = s.circuitKeys := by
  simp [State.startCargo]

@[simp] theorem State.circuitKeys_expireAtStart (s : State) (r : RouteIx) (c : Copy) :
    (s.expireAtStart r c).circuitKeys = s.circuitKeys := by
  simp [State.expireAtStart]

@[simp] theorem State.circuitKeys_grantLoop (s : State) (r : RouteIx) (fuel : Nat) :
    (s.grantLoop r fuel).circuitKeys = s.circuitKeys := by
  induction fuel generalizing s with
  | zero => rfl
  | succ fuel ih =>
    unfold State.grantLoop
    dsimp only
    split
    · rfl
    · split <;> split <;> simp [ih]

@[simp] theorem State.circuitKeys_offerTest (s : State) (r : RouteIx) : (s.offerTest r).circuitKeys = s.circuitKeys := by
  unfold State.offerTest State.offerCargo
  split
  · exact State.circuitKeys_congr (by simp)
  · split <;> simp

@[simp] theorem State.circuitKeys_offer (s : State) (r : RouteIx) : (s.offer r).circuitKeys = s.circuitKeys := by
  unfold State.offer State.offerProbe
  split
  · split
    · exact State.circuitKeys_congr (by simp)
    · split
      · split
        · exact State.circuitKeys_congr (by simp)
        · rw [State.circuitKeys_offerTest]
          exact State.circuitKeys_congr (by simp)
      · exact s.circuitKeys_offerTest r
  · rfl

/-- A placement counts on its circuit and gives the next sequence number (R90). -/
theorem State.circuitKeys_place {s s' : State} {n : CircIx} {port : PortIx} {peer : PeerIx} {cls : TrafficClass}
    {k len : Nat} {o : Ticks} (h : s.place n port peer cls k len o = some s') : s'.circuitKeys = s.circuitKeys := by
  unfold State.place at h
  dsimp only at h
  split at h
  · cases h
  · simp only [Option.some.injEq] at h
    subst h
    rw [State.circuitKeys_modCircuit _ _ (by intro; rfl), State.circuitKeys_updateFrame]
    split <;> simp

@[simp] theorem State.circuitKeys_deliver (s : State) (n : CircIx) (p : PortIx) (k : Nat) (seq : BitVec 16) :
    (s.deliver n p k seq).circuitKeys = s.circuitKeys := by
  have h : ((s.release k).modCircuit n fun x => { x with inn := { x.inn with overrun := x.inn.overrun + 1 } }).circuitKeys =
      s.circuitKeys := State.circuitKeys_modCircuit _ _ (by intro; rfl)
  unfold State.deliver
  split
  · exact h
  · split
    · exact h
    · rfl

@[simp] theorem State.circuitKeys_relayFails (s : State) (n : CircIx) (p : PortIx) (k : Nat) (seq : BitVec 16) :
    (s.relayFails n p k seq).circuitKeys = s.circuitKeys := by
  unfold State.relayFails
  exact (State.circuitKeys_raiseAt ..).trans (State.circuitKeys_modCircuit _ _ (by intro; rfl))

@[simp] theorem State.circuitKeys_relay (s : State) (n target : CircIx) (p : PortIx) (k len : Nat) (seq : BitVec 16)
    (o : Ticks) : (s.relay n target p k len seq o).circuitKeys = s.circuitKeys := by
  unfold State.relay
  split
  · simp
  · split
    · rename_i h
      rw [State.circuitKeys_modCircuit _ _ (by intro; rfl), State.circuitKeys_place h]
    · simp

@[simp] theorem State.circuitKeys_acceptCargo (s : State) (r : RouteIx) (n : CircIx) (p : PortIx) (relay : Option CircIx)
    (rx : Rx) (k len : Nat) (seq : BitVec 16) (v : Verdict) :
    (s.acceptCargo r n p relay rx k len seq v).circuitKeys = s.circuitKeys := by
  unfold State.acceptCargo
  dsimp only
  split
  · rw [State.circuitKeys_deliver, State.circuitKeys_modScore, State.circuitKeys_modCircuit _ _ (by intro; rfl)]
  · rw [State.circuitKeys_relay, State.circuitKeys_modScore, State.circuitKeys_modCircuit _ _ (by intro; rfl)]

@[simp] theorem State.circuitKeys_judgeCargo (s : State) (r : RouteIx) (n : CircIx) (p : PortIx) (relay : Option CircIx)
    (rx : Rx) (k len : Nat) (seq : BitVec 16) : (s.judgeCargo r n p relay rx k len seq).circuitKeys = s.circuitKeys := by
  unfold State.judgeCargo
  split
  · exact State.circuitKeys_modCircuit _ _ (by intro; rfl)
  · exact State.circuitKeys_modCircuit _ _ (by intro; rfl)
  · simp

@[simp] theorem State.circuitKeys_cargoArrived (s : State) (r : RouteIx) (rx : Rx) (k : Nat) (bs : List Byte) :
    (s.cargoArrived r rx k bs).circuitKeys = s.circuitKeys := by
  unfold State.cargoArrived
  (repeat' split) <;> simp

@[simp] theorem State.circuitKeys_goodSample (s : State) (r : RouteIx) (o : Outstanding) (x : Sample)
    (state errors : Byte) : (s.goodSample r o x state errors).circuitKeys = s.circuitKeys := by
  unfold State.goodSample
  dsimp only
  rw [State.circuitKeys_resolve]
  exact State.circuitKeys_congr (by simp)

@[simp] theorem State.circuitKeys_resolveEcho (s : State) (r : RouteIx) (n : Byte) (t1 t2 t3 t4 : Stamp)
    (errors state : Byte) : (s.resolveEcho r n t1 t2 t3 t4 errors state).circuitKeys = s.circuitKeys := by
  unfold State.resolveEcho
  split
  · rfl
  · split
    · exact State.circuitKeys_resolve ..
    · simp

@[simp] theorem State.circuitKeys_dropRx (s : State) (r : RouteIx) : (s.dropRx r).circuitKeys = s.circuitKeys :=
  State.circuitKeys_congr (by simp)

@[simp] theorem State.circuitKeys_dispatch (s : State) (r : RouteIx) (rx : Rx) (kind : TrunkKind) (bs : List Byte) :
    (s.dispatch r rx kind bs).circuitKeys = s.circuitKeys := by
  cases kind with
  | probe => exact State.circuitKeys_congr (by simp [State.dispatch, State.answerProbe_leaves])
  | echo => simp [State.dispatch]
  | test => exact State.circuitKeys_congr (by simp [State.dispatch])
  | cargo =>
    unfold State.dispatch
    dsimp only
    split <;> simp

@[simp] theorem State.circuitKeys_frameJudged (s : State) (r : RouteIx) (rx : Rx) (bs : List Byte) :
    (s.frameJudged r rx bs).circuitKeys = s.circuitKeys := by
  unfold State.frameJudged
  (repeat' split) <;> simp

@[simp] theorem State.circuitKeys_lengthLimit (s : State) (r : RouteIx) (rx : Rx) :
    (s.lengthLimit r rx).circuitKeys = s.circuitKeys := by
  unfold State.lengthLimit
  dsimp only
  split <;> simp

@[simp] theorem State.circuitKeys_sendEnd (s : State) (p : PortIx) (k : Nat) (status : Byte) (body : List Byte)
    (crc : BitVec 32) : (s.sendEnd p k status body crc).circuitKeys = s.circuitKeys := by
  have hrefuse (s : State) (reason : RefusalReason) : (s.refuseSend p k body reason).circuitKeys = s.circuitKeys :=
    State.circuitKeys_congr (by simp)
  have hjudge (s : State) : (s.judgeSend p k body).circuitKeys = s.circuitKeys := by
    unfold State.judgeSend
    split
    · exact hrefuse ..
    · split
      · exact hrefuse ..
      · split
        · exact hrefuse ..
        · split
          · rename_i h
            rw [State.circuitKeys_countPort, State.circuitKeys_place h]
          · rw [hrefuse, State.circuitKeys_countNoRoute]
  unfold State.sendEnd
  dsimp only
  split
  · rfl
  · rw [hjudge]; rfl

/-! ### A circuit closed -/

@[simp] theorem State.circuitKeys_flushRoute (s : State) (n : CircIx) (r : RouteIx) :
    (s.flushRoute n r).circuitKeys = s.circuitKeys := by
  unfold State.flushRoute
  rw [foldl_leaves State.circuitKeys _ (by intros; simp [State.flushCopy]), State.circuitKeys_modTx]

theorem State.circuitKeys_withdrawEntry (s : State) (n : CircIx) (p : PortIx) (e : DeliveryEntry) :
    (s.withdrawEntry n p e).circuitKeys = s.circuitKeys := by
  unfold State.withdrawEntry
  exact (State.circuitKeys_raiseAt ..).trans (State.circuitKeys_modCircuit _ _ (by intro; rfl))

/-- The close of an OUT circuit writes its own record: CLOSED, or with the count of its current frames pending (R85). -/
theorem State.closeOut_eq (s : State) (n : CircIx) :
    ∃ (u : State) (current : Nat), u.circuitKeys = s.circuitKeys ∧ s.closeOut n = u.modCircuit n fun x => x.close current :=
  ⟨_, _, forRoutes_leaves State.circuitKeys _ (by intros; simp) s, rfl⟩

/-- The close of an IN circuit writes its own record: CLOSED, its window invalid (R87). -/
theorem State.closeIn_eq (s : State) (n : CircIx) (p : PortIx) :
    ∃ u : State, u.circuitKeys = s.circuitKeys ∧
      s.closeIn n p = u.modCircuit n fun x => { x with state := .closed, window := Window.invalid } := by
  unfold State.closeIn
  dsimp only
  refine ⟨_, ?_, rfl⟩
  rw [foldl_leaves State.circuitKeys _ (by intro s e; exact s.circuitKeys_withdrawEntry n p e), State.circuitKeys_modPort]

end Sys2Proof.Machine
end

