-- ==== Sys2Proof/Proofs/Ranges.lean ====
section
/-! SUPPORT. What the readers of arguments answer lies within the ranges of the directives that take them (R17, R33, R56, R72, R77,
R83), so does what a load reads from an image (R181), and the image of settings in range fits the flash (R180). -/

namespace Sys2Proof.Machine

/-! ### Fields -/

/-- A field of `len` bytes is below 256 to the power of `len`. -/
theorem field_lt (bs : List Byte) (off len : Nat) : field bs off len < 256 ^ len := by
  have h (g : Nat → Byte) (l : List Nat) (v : Nat) :
      l.foldl (fun v i => 256 * v + (g i).toNat) v < 256 ^ l.length * (v + 1) := by
    induction l generalizing v with
    | nil => simp
    | cons i l ih =>
      calc (i :: l).foldl (fun v i => 256 * v + (g i).toNat) v
          < 256 ^ l.length * (256 * v + (g i).toNat + 1) := ih _
        _ ≤ 256 ^ l.length * (256 * (v + 1)) := Nat.mul_le_mul_left _ (by have := (g i).isLt; omega)
        _ = 256 ^ (i :: l).length * (v + 1) := by rw [List.length_cons, Nat.pow_succ, Nat.mul_assoc]
  simpa [field] using h (fun i => bs.getD (off + i) 0) (List.range len) 0

@[simp] theorem length_bytesOf (n v : Nat) : (bytesOf n v).length = n := by
  induction n with
  | zero => rfl
  | succ n ih => rw [bytesOf, List.length_cons, ih]

@[simp] theorem length_bytesOfInt (n : Nat) (v : Int) : (bytesOfInt n v).length = n := length_bytesOf ..

/-! ### Arguments of directives -/

theorem laneArgs_inRange {bs : List Byte} {x : LaneSettings} (h : laneArgs? bs = some x) : x.InRange := by
  unfold laneArgs? at h
  dsimp only at h
  split at h
  · split at h
    · cases h
      have htxc := field_lt bs 1 2
      have hrxc := field_lt bs 3 2
      exact ⟨by simp only; omega, by simp only; omega, ‹_›⟩
    · cases h
  · cases h

theorem routeArgs_inRange {bs : List Byte} {x : RouteSettings} (h : routeArgs? bs = some x) :
    -1000000 ≤ x.a ∧ x.a ≤ 1000000 := by
  unfold routeArgs? at h
  dsimp only at h
  split at h
  · split at h
    · cases h; assumption
    · cases h
  · cases h

theorem healthArgs_ok {bs : List Byte} {x : HealthSettings} (h : healthArgs? bs = some x) : x.ok = true := by
  unfold healthArgs? at h
  dsimp only at h
  split at h
  · cases h; assumption
  · cases h

theorem probeArgs_ok {bs : List Byte} {x : ProbeSettings} (h : probeArgs? bs = some x) : x.ok = true := by
  unfold probeArgs? at h
  dsimp only at h
  split at h
  · cases h; assumption
  · cases h

theorem timeArgs_ok {bs : List Byte} {x : TimeSettings} (h : timeArgs? bs = some x) : x.ok = true := by
  unfold timeArgs? at h
  dsimp only at h
  split at h
  · split at h
    · cases h; assumption
    · cases h
  · cases h

theorem relay_ne {n : CircIx} {present target : Nat} {relay : Option CircIx} (h : relay? n present target = some relay) :
    relay ≠ some n := by
  unfold relay? at h
  split at h
  · cases h; simp
  · split at h
    · cases h
    · cases h
      simpa using ‹¬ _›
  · cases h

theorem circuitArgs_inRange {n : CircIx} {bs : List Byte} {defn : CircuitDef} (h : circuitArgs? n bs = some defn) :
    defn.InRange n := by
  unfold circuitArgs? at h
  split at h
  · split at h
    · split at h
      · cases h
        have hage := field_lt bs 5 2
        simp only [CircuitDef.InRange, Flow.inRange, Bool.and_eq_true, decide_eq_true_eq]
        omega
      · cases h
    · cases h
  · split at h
    · cases h
      simpa [CircuitDef.InRange, Flow.inRange] using relay_ne ‹_›
    · cases h
  · cases h

/-! ### Sections of an image -/

/-- What a section reads as is read record by record. -/
theorem mem_of_readAll {α : Type} {f : List Byte → Option α} {l : List (List Byte)} {xs : List α}
    (h : readAll f l = some xs) : xs.length = l.length ∧ ∀ x ∈ xs, ∃ bs, f bs = some x := by
  induction l generalizing xs with
  | nil => cases h; simp
  | cons bs l ih =>
    unfold readAll at h
    split at h
    · cases h
      obtain ⟨hlen, hmem⟩ := ih ‹_›
      refine ⟨by simp [hlen], fun x hx => ?_⟩
      rcases List.mem_cons.1 hx with rfl | hx
      · exact ⟨bs, ‹_›⟩
      · exact hmem x hx
    · cases h

theorem length_cutRecords (len count : Nat) (bs : List Byte) : (cutRecords len count bs).length = count := by
  induction count generalizing bs with
  | zero => rfl
  | succ count ih => rw [cutRecords, List.length_cons, ih]

/-- A section read holds as many records as its column allows, each of them read. -/
theorem readSection_ok {α : Type} {part : ImagePart} {tag least most len : Nat} {f : List Byte → Option α}
    {bs rest : List Byte} {xs : List α} (h : readSection part tag least most len f bs = .ok (xs, rest)) :
    least ≤ xs.length ∧ xs.length ≤ most ∧ ∀ x ∈ xs, ∃ b, f b = some x := by
  unfold readSection at h
  split at h
  · cases h
  · rename_i records _ htake
    split at h
    · cases h
    · cases h
      obtain ⟨hlen, hmem⟩ := mem_of_readAll ‹_›
      unfold takeSection at htake
      dsimp only at htake
      split at htake
      · rename_i hcond
        obtain ⟨-, -, hleast, hmost, -⟩ := hcond
        cases htake
        rw [length_cutRecords] at hlen
        exact ⟨by rwa [hlen], by rwa [hlen], hmem⟩
      · cases htake

/-- Where a step of a walk is answered, each part of it is. -/
theorem exists_of_bind_eq_ok {ε α β : Type} {x : Except ε α} {f : α → Except ε β} {b : β} (h : x >>= f = .ok b) :
    ∃ a, x = .ok a ∧ f a = .ok b := by
  cases x with
  | error e => cases h
  | ok a => exact ⟨a, rfl, h⟩

/-- Where a walk is answered, the check that it makes holds. -/
theorem check_of_eq_ok {ε α β : Type} {b : Bool} {e : ε} {k : β → Except ε α} {x : Except ε α} {a : α}
    (h : (if (!b) = true then throw e >>= k else x) = .ok a) : b = true ∧ x = .ok a := by
  cases b with
  | true => exact ⟨rfl, h⟩
  | false => cases h

/-- The circuit record of an image (R181). -/
theorem circuitRecord_inRange {bs : List Byte} {c : SavedCircuit} (h : circuitRecord? bs = some c) :
    c.defn.InRange c.number ∧ (c.paused = true → c.defn.flow.isOut = true) := by
  unfold circuitRecord? at h
  split at h
  · rw [Option.map_eq_some_iff] at h
    obtain ⟨defn, hdefn, rfl⟩ := h
    exact ⟨circuitArgs_inRange hdefn, by simp⟩
  · split at h
    · cases h
      exact ⟨circuitArgs_inRange (defn := { port := _, peer := _, flow := .out _ _ _ }) ‹_›, fun _ => rfl⟩
    · cases h
  · cases h

/-- The peer checks of R74 over a list of peers are those over the settings it fills. -/
theorem idsDistinct_of_peersDistinct {c : Settings} {peers : List PeerSettings} (hlen : peers.length = 4)
    (hpeers : ∀ p : PeerIx, c.peers[p] = peers.getD p.val { enabled := false, termId := 0 })
    (h : peersDistinct c.termId peers = true) : c.IdsDistinct := by
  have hget (p : PeerIx) : ∃ hp : p.val < peers.length, c.peers[p] = peers[p.val] := by
    have hp : p.val < peers.length := by rw [hlen]; exact p.isLt
    exact ⟨hp, by rw [hpeers, List.getD_eq_getElem _ _ hp]⟩
  simp only [peersDistinct, Bool.and_eq_true, Bool.not_eq_true', decide_eq_true_eq] at h
  obtain ⟨hid, hnodup⟩ := h
  rw [List.Nodup, List.pairwise_map, List.pairwise_filter, List.pairwise_iff_getElem] at hnodup
  have hne (p q : PeerIx) (hlt : p < q) (hpe : c.peers[p].enabled = true) (hqe : c.peers[q].enabled = true) :
      c.peers[p].termId ≠ c.peers[q].termId := by
    obtain ⟨hp, hpeq⟩ := hget p
    obtain ⟨hq, hqeq⟩ := hget q
    rw [hpeq] at hpe ⊢
    rw [hqeq] at hqe ⊢
    exact hnodup p.val q.val hp hq hlt hpe hqe
  intro p hpe
  refine ⟨fun hterm => ?_, fun q hqe hterm => ?_⟩
  · obtain ⟨hp, hpeq⟩ := hget p
    rw [hpeq] at hpe hterm
    have hmem : c.termId ∈ (peers.filter fun p => p.enabled).map PeerSettings.termId :=
      List.mem_map.2 ⟨peers[p.val], List.mem_filter.2 ⟨List.getElem_mem hp, hpe⟩, hterm⟩
    rw [List.contains_iff_mem.2 hmem] at hid
    cases hid
  · rcases lt_trichotomy p q with hlt | rfl | hlt
    · exact absurd hterm.symm (hne p q hlt hpe hqe)
    · rfl
    · exact absurd hterm (hne q p hlt hqe hpe)

theorem headD_of_readSection {α : Type} {P : α → Prop} {xs : List α} {f : List Byte → Option α} (d : α)
    (hlen : 1 ≤ xs.length) (hmem : ∀ x ∈ xs, ∃ b, f b = some x) (h : ∀ b x, f b = some x → P x) : P (xs.headD d) := by
  cases xs with
  | nil => simp at hlen
  | cons x xs =>
    obtain ⟨b, hb⟩ := hmem x (List.mem_cons_self ..)
    exact h b x hb

theorem getD_of_readSection {α : Type} {P : α → Prop} {xs : List α} {f : List Byte → Option α} (d : α) {i : Nat}
    (hlen : i < xs.length) (hmem : ∀ x ∈ xs, ∃ b, f b = some x) (h : ∀ b x, f b = some x → P x) : P (xs.getD i d) := by
  rw [List.getD_eq_getElem _ _ hlen]
  obtain ⟨b, hb⟩ := hmem _ (List.getElem_mem hlen)
  exact h b _ hb

/-- What the sections from PEERS on read as is within the ranges of the directives (R181). -/
theorem readPeersOn_inRange {identity : Byte × BitVec 16} {bs : List Byte} {i : Image}
    (h : readPeersOn identity bs = .ok i) : i.InRange := by
  unfold readPeersOn at h
  obtain ⟨⟨peers, _⟩, hpeers, h⟩ := exists_of_bind_eq_ok h
  obtain ⟨hdistinct, h⟩ := check_of_eq_ok h
  obtain ⟨⟨lanes, _⟩, hlanes, h⟩ := exists_of_bind_eq_ok h
  obtain ⟨⟨routes, _⟩, hroutes, h⟩ := exists_of_bind_eq_ok h
  obtain ⟨⟨health, _⟩, hhealth, h⟩ := exists_of_bind_eq_ok h
  obtain ⟨⟨probe, _⟩, hprobe, h⟩ := exists_of_bind_eq_ok h
  obtain ⟨⟨time, _⟩, htime, h⟩ := exists_of_bind_eq_ok h
  obtain ⟨⟨calendars, _⟩, -, h⟩ := exists_of_bind_eq_ok h
  obtain ⟨-, h⟩ := check_of_eq_ok h
  obtain ⟨⟨circuits, _⟩, hcircuits, h⟩ := exists_of_bind_eq_ok h
  obtain ⟨hwhole, h⟩ := check_of_eq_ok h
  cases h
  obtain ⟨hpeersLeast, hpeersMost, -⟩ := readSection_ok hpeers
  obtain ⟨hlanesLeast, -, hlanes⟩ := readSection_ok hlanes
  obtain ⟨hroutesLeast, -, hroutes⟩ := readSection_ok hroutes
  obtain ⟨hhealthLeast, -, hhealth⟩ := readSection_ok hhealth
  obtain ⟨hprobeLeast, -, hprobe⟩ := readSection_ok hprobe
  obtain ⟨htimeLeast, -, htime⟩ := readSection_ok htime
  obtain ⟨-, hcircuitsMost, hcircuits⟩ := readSection_ok hcircuits
  refine ⟨⟨idsDistinct_of_peersDistinct (peers := peers) (by omega) (fun p => by simp) hdistinct, fun r => ?_,
    fun r => ?_, ?_, ?_, ?_⟩, hcircuitsMost, ?_, fun c hc => ?_⟩
  · simp only [Fin.getElem_fin, Vector.getElem_ofFn]
    exact getD_of_readSection (P := LaneSettings.InRange) _ (by omega) hlanes fun _ _ => laneArgs_inRange
  · simp only [Fin.getElem_fin, Vector.getElem_ofFn]
    exact getD_of_readSection (P := fun x : RouteSettings => -1000000 ≤ x.a ∧ x.a ≤ 1000000) _ (by omega) hroutes
      fun _ _ => routeArgs_inRange
  · exact headD_of_readSection (P := fun x : HealthSettings => x.ok = true) _ hhealthLeast hhealth fun _ _ => healthArgs_ok
  · exact headD_of_readSection (P := fun x : ProbeSettings => x.ok = true) _ hprobeLeast hprobe fun _ _ => probeArgs_ok
  · exact headD_of_readSection (P := fun x : TimeSettings => x.ok = true) _ htimeLeast htime fun _ _ => timeArgs_ok
  · exact (Bool.and_eq_true_iff.1 hwhole).1
  · obtain ⟨b, hb⟩ := hcircuits c hc
    exact circuitRecord_inRange hb

/-- What a load reads from the flash is within the ranges of the directives. -/
theorem judgeFlash_inRange {m : List Host.Cell} {i : Image} (h : judgeFlash m = .ok i) : i.InRange := by
  have hsections {bs : List Byte} (h : readSections bs = .ok i) : i.InRange := by
    unfold readSections at h
    obtain ⟨⟨identity, rest⟩, -, h⟩ := exists_of_bind_eq_ok h
    exact readPeersOn_inRange h
  unfold judgeFlash at h
  dsimp only at h
  split at h
  · cases h
  · split at h
    · cases h
    · split at h
      · cases h
      · split at h
        · cases h
        · split at h
          · cases h
          · split at h
            · cases h
            · cases h; exact hsections ‹_›

/-! ### The image of settings -/

/-- The bytes of records of one width. -/
theorem length_flatten_map {α : Type} {f : α → List Byte} {w : Nat} (h : ∀ x, (f x).length = w) (xs : List α) :
    (xs.map f).flatten.length = w * xs.length := by
  induction xs with
  | nil => rfl
  | cons x xs ih => rw [List.map_cons, List.flatten_cons, List.length_append, h, ih, List.length_cons, Nat.mul_succ, Nat.add_comm]

theorem length_sectionBytes {α : Type} {f : α → List Byte} {w : Nat} (h : ∀ x, (f x).length = w) (tag : Nat)
    (xs : List α) : (sectionBytes tag (xs.map f)).length = 2 + w * xs.length := by
  rw [sectionBytes, List.length_append, List.length_append, length_bytesOf, length_bytesOf, length_flatten_map h]

theorem length_circuitRecord (c : SavedCircuit) : (circuitRecord c).length = 11 := by
  have hflow (x : Flow) : (flowRecord x).length = 6 := by
    cases x with
    | out far cls maxAge => simp [flowRecord]
    | inn relay => cases relay <;> simp [flowRecord]
  simp [circuitRecord, hflow]

theorem length_calendarRecord (r : RouteIx) (cal : Calendar) : (calendarRecord r cal).length = 17 := by
  have h := length_flatten_map (f := fun x : Option PortIx => bytesOf 1 (slotCode x)) (w := 1) (fun x => length_bytesOf ..)
    cal.toList
  rw [calendarRecord, List.length_append, List.flatMap_def, h, length_bytesOf, Vector.length_toList]

/-- The length of an image: 531 bytes, and 11 for each circuit (R198). -/
theorem length_encodeImage (i : Image) : (encodeImage i).length = 531 + 11 * i.circuits.length := by
  have hidentity : (identityRecord i.settings).length = 3 := by simp [identityRecord]
  have hhealth : (healthRecord i.settings.health).length = 9 := by simp [healthRecord]
  have hprobe : (probeRecord i.settings.probe).length = 4 := by simp [probeRecord]
  have htime : (timeRecord i.settings.time).length = 15 := by simp [timeRecord]
  have hone (tag : Nat) (r : List Byte) : (sectionBytes tag [r]).length = 2 + r.length := by
    simp [sectionBytes]; omega
  have hcalendars := length_sectionBytes (f := fun r : RouteIx => calendarRecord r i.settings.calendars[r])
    (fun r => length_calendarRecord r _) 8 (List.finRange 16)
  have hpeers := length_sectionBytes (f := peerRecord) (w := 2) (fun p => by simp [peerRecord]) 2 i.settings.peers.toList
  have hlanes := length_sectionBytes (f := laneRecord) (w := 6) (fun p => by simp [laneRecord]) 3 i.settings.lanes.toList
  have hroutes := length_sectionBytes (f := routeRecord) (w := 6) (fun p => by simp [routeRecord]) 4
    i.settings.routes.toList
  have hcircuits := length_sectionBytes length_circuitRecord 9 i.circuits
  simp only [Vector.length_toList, List.length_finRange] at hcalendars hpeers hlanes hroutes
  simp only [encodeImage, imageSections, headerStart, List.length_append, length_bytesOf, hone, hidentity, hhealth, hprobe,
    htime, hcalendars, hpeers, hlanes, hroutes, hcircuits]
  omega

/-- An image whose circuits number at most 64 fits the flash. -/
theorem encodeImage_fits {i : Image} (h : i.InRange) : (encodeImage i).length ≤ Config.flashBytes := by
  obtain ⟨-, hcircuits, -⟩ := h
  rw [length_encodeImage]
  simp only [Config.flashBytes]
  omega

end Sys2Proof.Machine
end

