-- ==== Sys2Proof/Proofs/Profile.lean ====
section
/-! SUPPORT. Every step keeps the live settings, the circuit records, the snapshot of a SAVE and the flash within what their
directives allow (R17 to R198). -/

namespace Sys2Proof.Machine

/-! ### Changes of a circuit record -/

/-- What an event may make of a circuit record: it is CLOSED, its key stays, or an OUT circuit that is not CLOSED stays so. -/
def Circuit.Follows (x y : Circuit) : Prop :=
  y.defn = x.defn ∧
  ((y.state = .closed ∧ y.closing = none) ∨ (y.state = x.state ∧ y.closing = x.closing) ∨
    (x.state ≠ .closed ∧ y.state ≠ .closed ∧ ∀ defn ∈ x.defn, defn.flow.isOut = true))

theorem Circuit.Follows.refl (x : Circuit) : x.Follows x := ⟨rfl, .inr (.inl ⟨rfl, rfl⟩)⟩

/-- A record CLOSED before is CLOSED after. -/
theorem Circuit.Follows.closed {x y : Circuit} (h : x.Follows y) (hx : x.state = .closed) : y.state = .closed := by
  obtain ⟨-, ⟨hy, -⟩ | ⟨hy, -⟩ | ⟨hne, -⟩⟩ := h
  · exact hy
  · rw [hy, hx]
  · exact absurd hx hne

/-- A circuit feeds its far circuit after the event only if it did before. -/
theorem Circuit.Follows.feeds {x y : Circuit} (h : x.Follows y) {peer : PeerIx} {far : CircIx}
    (hy : y.feeds peer far = true) : x.feeds peer far = true := by
  have hclosed : x.state ≠ .closed := fun hx => by simp [Circuit.feeds, h.closed hx] at hy
  unfold Circuit.feeds at hy ⊢
  rw [h.1] at hy
  simp only [Bool.and_eq_true, bne_iff_ne] at hy ⊢
  exact ⟨hclosed, hy.2⟩

/-- A circuit feeds a far circuit of a peer: it is not CLOSED, and OUT to them. -/
theorem Circuit.feeds_iff {x : Circuit} {peer : PeerIx} {far : CircIx} :
    x.feeds peer far = true ↔
      x.state ≠ .closed ∧ ∃ port cls maxAge, x.defn = some { port := port, peer := peer, flow := .out far cls maxAge } := by
  unfold Circuit.feeds
  simp only [Bool.and_eq_true, bne_iff_ne]
  refine and_congr_right fun _ => ?_
  split
  · rename_i port p far' cls maxAge h
    simp only [h, Bool.and_eq_true, decide_eq_true_eq, Option.some.injEq, CircuitDef.mk.injEq, Flow.out.injEq]
    constructor
    · rintro ⟨rfl, rfl⟩
      exact ⟨port, cls, maxAge, rfl, rfl, rfl, rfl, rfl⟩
    · rintro ⟨_, _, _, -, rfl, rfl, -⟩
      exact ⟨rfl, rfl⟩
  · rename_i h
    simp only [Bool.false_eq_true, false_iff, not_exists]
    exact fun port cls maxAge e => h _ _ _ _ _ e

/-- The far circuit of a definition is taken by another circuit that feeds it. -/
theorem State.farTaken_eq_true {s : State} {n : CircIx} {defn : CircuitDef} :
    s.farTaken n defn = true ↔
      ∃ far cls maxAge, defn.flow = .out far cls maxAge ∧ ∃ m : CircIx, m ≠ n ∧ s.circuits[m].feeds defn.peer far = true := by
  unfold State.farTaken
  split
  · rename_i far cls maxAge h
    simp only [h, List.any_eq_true, List.mem_finRange, true_and, Bool.and_eq_true, decide_eq_true_eq, Flow.out.injEq]
    constructor
    · rintro ⟨m, hm⟩
      exact ⟨far, cls, maxAge, ⟨rfl, rfl, rfl⟩, m, hm⟩
    · rintro ⟨_, _, _, ⟨rfl, rfl, rfl⟩, m, hm⟩
      exact ⟨m, hm⟩
  · simp [*]

/-- A far circuit is taken after an event only if it was before. -/
theorem State.farTaken_of_follows {s t : State} (h : ∀ m : CircIx, s.circuits[m].Follows t.circuits[m]) {n : CircIx}
    {defn : CircuitDef} (hs : s.farTaken n defn = false) : t.farTaken n defn = false := by
  rw [← Bool.not_eq_true, State.farTaken_eq_true] at hs ⊢
  rintro ⟨far, cls, maxAge, hflow, m, hm, hfeeds⟩
  exact hs ⟨far, cls, maxAge, hflow, m, hm, (h m).feeds hfeeds⟩

/-- Records that follow sound ones are sound. -/
theorem State.circuitSound_of_follows {s t : State} (h : ∀ m : CircIx, s.circuits[m].Follows t.circuits[m])
    {n : CircIx} (hs : s.CircuitSound n) : t.CircuitSound n := by
  obtain ⟨hclosing, hopen⟩ := hs
  obtain ⟨hdefn, hcase⟩ := h n
  have hkeep (hne : s.circuits[n].state ≠ .closed)
      (hin : ∀ defn ∈ s.circuits[n].defn, defn.flow.isOut = false →
        t.circuits[n].state = .opened ∧ t.circuits[n].closing = none) :
      t.circuits[n].defn.isSome = true ∧ ∀ defn ∈ t.circuits[n].defn, defn.InRange n ∧ t.farTaken n defn = false ∧
        (defn.flow.isOut = false → t.circuits[n].state = .opened ∧ t.circuits[n].closing = none) := by
    obtain ⟨hsome, hdefs⟩ := hopen hne
    rw [hdefn]
    exact ⟨hsome, fun defn hd => ⟨(hdefs defn hd).1, State.farTaken_of_follows h (hdefs defn hd).2.1, hin defn hd⟩⟩
  rcases hcase with ⟨hst, hcl⟩ | ⟨hst, hcl⟩ | ⟨hne, hst, hout⟩
  · exact ⟨fun _ => hcl, fun hne => absurd hst hne⟩
  · refine ⟨fun ht => ?_, fun ht => hkeep (by rwa [← hst]) fun defn hd hin => ?_⟩
    · rw [hcl]; exact hclosing (hst ▸ ht)
    · rw [hst, hcl]
      exact ((hopen (by rwa [← hst])).2 defn hd).2.2 hin
  · refine ⟨fun ht => absurd ht hst, fun _ => hkeep hne fun defn hd hin => ?_⟩
    rw [hout defn hd] at hin
    cases hin

/-- A close pending falls only on an OUT circuit that is not CLOSED (R86). -/
theorem State.CircuitSound.copyCeased {s : State} {n : CircIx} (h : s.CircuitSound n) :
    s.circuits[n].Follows s.circuits[n].copyCeased := by
  obtain ⟨hclosing, hopen⟩ := h
  unfold Circuit.copyCeased
  split
  · exact .refl _
  · rename_i k hk
    have hne : s.circuits[n].state ≠ .closed := fun hc => by rw [hclosing hc] at hk; cases hk
    split
    · exact ⟨rfl, .inl ⟨rfl, rfl⟩⟩
    · refine ⟨rfl, .inr (.inr ⟨hne, hne, fun defn hd => ?_⟩)⟩
      by_contra hin
      have hnone := (((hopen hne).2 defn hd).2.2 (Bool.eq_false_iff.2 hin)).2
      rw [hnone] at hk
      cases hk

/-! ### What a step keeps -/

/-- `t` keeps of `s` that the settings, the circuits, the snapshot and the flash are sound. -/
def State.KeepsProfile (s t : State) : Prop := s.ProfileSound → t.ProfileSound

theorem State.KeepsProfile.refl (s : State) : s.KeepsProfile s := id

theorem State.KeepsProfile.trans {s t u : State} (h : s.KeepsProfile t) (h' : t.KeepsProfile u) : s.KeepsProfile u := h' ∘ h

/-- What makes of sound circuit records those that follow them, and of sound settings sound ones, and leaves the profile unit's
load state and SAVE and the flash, keeps all sound. -/
theorem State.ProfileSound.of_follows {s t : State} (h : s.ProfileSound) (hcfg : t.cfg.InRange)
    (hcircuits : ∀ n : CircIx, s.circuits[n].Follows t.circuits[n]) (hload : t.profile.load = s.profile.load)
    (hsave : t.profile.save = s.profile.save) (hflash : t.flash = s.flash) : t.ProfileSound := by
  obtain ⟨-, hsound, hclosed, hsnapshot, hwf⟩ := h
  refine ⟨hcfg, fun n => State.circuitSound_of_follows hcircuits (hsound n), fun hl n => ?_, ?_, ?_⟩
  · exact (hcircuits n).closed (hclosed (hload ▸ hl) n)
  · rw [hsave]; exact hsnapshot
  · rw [hflash]; exact hwf

theorem Circuit.follows_of_keys {s t : State} (h : t.circuitKeys = s.circuitKeys) (n : CircIx) :
    s.circuits[n].Follows t.circuits[n] := by
  obtain ⟨hstate, hclosing, hdefn⟩ := State.circuitKeys_iff.1 h n
  exact ⟨hdefn, .inr (.inl ⟨hstate, hclosing⟩)⟩

/-- What leaves the settings, the keys of the circuit records, the load state, the SAVE and the flash keeps all sound. -/
theorem State.KeepsProfile.of_keys {s t : State} (hcfg : t.cfg = s.cfg) (hkeys : t.circuitKeys = s.circuitKeys)
    (hload : t.profile.load = s.profile.load) (hsave : t.profile.save = s.profile.save) (hflash : t.flash = s.flash) :
    s.KeepsProfile t :=
  fun h => h.of_follows (by rw [hcfg]; exact h.1) (Circuit.follows_of_keys hkeys) hload hsave hflash

/-- What leaves the settings, the circuits, the profile unit and the flash keeps all sound. -/
theorem State.KeepsProfile.of_frame {s t : State} (hcfg : t.cfg = s.cfg) (hcircuits : t.circuits = s.circuits)
    (hprofile : t.profile = s.profile) (hflash : t.flash = s.flash) : s.KeepsProfile t :=
  .of_keys hcfg (State.circuitKeys_congr hcircuits) (by rw [hprofile]) (by rw [hprofile]) hflash

/-- What brings sound settings and leaves the keys of the circuit records, the profile unit and the flash keeps all sound. -/
theorem State.KeepsProfile.of_settings {s t : State} (hcfg : s.cfg.InRange → t.cfg.InRange)
    (hkeys : t.circuitKeys = s.circuitKeys) (hprofile : t.profile = s.profile) (hflash : t.flash = s.flash) :
    s.KeepsProfile t :=
  fun h => h.of_follows (hcfg h.1) (Circuit.follows_of_keys hkeys) (by rw [hprofile]) (by rw [hprofile]) hflash

/-- What changes one circuit record to one that follows it, and no other key, keeps all sound. -/
theorem State.KeepsProfile.of_modCircuit {s u : State} {n : CircIx} {f : Circuit → Circuit} (hcfg : u.cfg = s.cfg)
    (hkeys : u.circuitKeys = s.circuitKeys) (hprofile : u.profile = s.profile) (hflash : u.flash = s.flash)
    (hf : u.ProfileSound → u.circuits[n].Follows (f u.circuits[n])) : s.KeepsProfile (u.modCircuit n f) := by
  refine .trans (.of_keys hcfg hkeys (by rw [hprofile]) (by rw [hprofile]) hflash) fun h => ?_
  refine h.of_follows h.1 (fun m => ?_) rfl rfl rfl
  simp only [State.modCircuit, Fin.getElem_fin, Vector.getElem_set]
  split
  · rename_i e
    obtain rfl : n = m := Fin.ext e
    exact hf h
  · exact .refl _

theorem State.keepsProfile_withPorts (s : State) (v : Vector Port 6) : s.KeepsProfile (s.withPorts v) :=
  .of_frame rfl rfl rfl rfl

/-! ### Frames that end -/

/-- The end of a current frame lets a close pending on its circuit fall, and touches no other circuit (R86). -/
theorem State.keepsProfile_endCurrent (s : State) (r : RouteIx) : s.KeepsProfile (s.endCurrent r) := by
  unfold State.endCurrent
  split
  · exact .refl s
  · dsimp only
    split
    · exact .of_frame rfl rfl rfl rfl
    · exact .of_modCircuit rfl rfl rfl rfl fun h => (h.2.1 _).copyCeased

theorem State.keepsProfile_abandonCurrent (s : State) (r : RouteIx) : s.KeepsProfile (s.abandonCurrent r) := by
  unfold State.abandonCurrent
  split
  · exact .refl s
  · exact (s.keepsProfile_endCurrent r).trans (.of_frame rfl rfl rfl rfl)

theorem State.keepsProfile_evaluate (s : State) (r : RouteIx) : s.KeepsProfile (s.evaluate r) :=
  .of_keys (by simp) (by simp) (by simp) (by simp) (by simp)

theorem State.keepsProfile_losAssert (s : State) (r : RouteIx) : s.KeepsProfile (s.losAssert r) := by
  unfold State.losAssert State.losEffects
  dsimp only
  split
  · exact .refl s
  · split
    · exact .of_frame rfl rfl rfl rfl
    · refine .trans ?_ (State.keepsProfile_evaluate _ r)
      refine .trans (.trans ?_ (State.keepsProfile_abandonCurrent _ r)) (.of_frame rfl rfl rfl rfl)
      exact .of_frame (by simp) (by simp) (by simp) (by simp)

/-! ### New settings -/

theorem Settings.InRange.withLane {c : Settings} (h : c.InRange) (r : RouteIx) {x : LaneSettings} (hx : x.InRange) :
    (c.withLane r x).InRange := by
  obtain ⟨hids, hlanes, hrest⟩ := h
  refine ⟨hids, fun q => ?_, hrest⟩
  simp only [Settings.withLane, Fin.getElem_fin, Vector.getElem_set]
  split
  · exact hx
  · exact hlanes q

theorem Settings.InRange.withRoute {c : Settings} (h : c.InRange) (r : RouteIx) {x : RouteSettings}
    (hx : -1000000 ≤ x.a ∧ x.a ≤ 1000000) : (c.withRoute r x).InRange := by
  obtain ⟨hids, hlanes, hroutes, hrest⟩ := h
  refine ⟨hids, hlanes, fun q => ?_, hrest⟩
  simp only [Settings.withRoute, Fin.getElem_fin, Vector.getElem_set]
  split
  · exact hx
  · exact hroutes q

theorem Settings.InRange.withCalendar {c : Settings} (h : c.InRange) (r : RouteIx) (x : Calendar) :
    (c.withCalendar r x).InRange := h

/-- A peer takes an id that neither the terminal nor another enabled peer has (R74). -/
theorem State.inRange_withPeer {s : State} (h : s.cfg.InRange) (p : PeerIx) {x : PeerSettings}
    (hid : ¬ (x.enabled && s.idTaken p x.termId) = true) : (s.cfg.withPeer p x).InRange := by
  obtain ⟨hids, hrest⟩ := h
  refine ⟨?_, hrest⟩
  simp only [State.idTaken, Bool.and_eq_true, Bool.or_eq_true, beq_iff_eq, List.any_eq_true, List.mem_finRange, true_and,
    decide_eq_true_eq, not_and, not_or, not_exists] at hid
  have hget (q : PeerIx) : (s.cfg.withPeer p x).peers[q] = if q = p then x else s.cfg.peers[q] := by
    simp [Settings.withPeer, Vector.getElem_set, Fin.ext_iff, eq_comm]
  have hterm : (s.cfg.withPeer p x).termId = s.cfg.termId := rfl
  intro q hq
  rw [hget] at hq ⊢
  rw [hterm]
  by_cases hqp : q = p
  · rw [if_pos hqp] at hq ⊢
    obtain ⟨hown, hothers⟩ := hid hq
    refine ⟨hown, fun q' hq' heq => ?_⟩
    rw [hget] at hq' heq
    by_cases hqp' : q' = p
    · rw [hqp', hqp]
    · rw [if_neg hqp'] at hq' heq
      exact absurd heq (hothers q' ⟨hqp', hq'⟩)
  · rw [if_neg hqp] at hq ⊢
    obtain ⟨hown, hothers⟩ := hids q hq
    refine ⟨hown, fun q' hq' heq => ?_⟩
    rw [hget] at hq' heq
    by_cases hqp' : q' = p
    · rw [if_pos hqp'] at hq' heq
      exact absurd heq.symm ((hid hq').2 q ⟨hqp, hq⟩)
    · rw [if_neg hqp'] at hq' heq
      exact hothers q' hq' heq

/-- The terminal takes an id that no enabled peer has (R169). -/
theorem Settings.InRange.withIdentity {c : Settings} (h : c.InRange) {id : Byte} (code : BitVec 16)
    (hid : ¬ c.peerHasId id = true) : Settings.InRange { c with termId := id, opCode := code } := by
  obtain ⟨hids, hrest⟩ := h
  simp only [Settings.peerHasId, List.any_eq_true, List.mem_finRange, true_and, Bool.and_eq_true, beq_iff_eq,
    not_exists, not_and] at hid
  exact ⟨fun p hp => ⟨hid p hp, (hids p hp).2⟩, hrest⟩

theorem State.keepsProfile_applyLane (s : State) (r : RouteIx) {x : LaneSettings} (hx : x.InRange) :
    s.KeepsProfile (s.applyLane r x) := by
  have hset : s.KeepsProfile (s.setCfg (s.cfg.withLane r x)) :=
    .of_settings (fun h => h.withLane r hx) rfl rfl rfl
  unfold State.applyLane
  dsimp only
  refine .trans hset ?_
  generalize s.setCfg (s.cfg.withLane r x) = u
  split
  · exact .of_keys (by simp) (by simp) (by simp) (by simp) (by simp)
  · refine .trans ?_ (.of_keys (by simp) (State.circuitKeys_returnRoute ..) (by simp) (by simp) (by simp))
    refine .trans (.trans ?_ (State.keepsProfile_abandonCurrent _ r)) (.of_frame rfl rfl rfl rfl)
    refine .of_keys (by simp) ?_ (by simp) (by simp) (by simp)
    exact (State.circuitKeys_congr (State.abandonRx_leaves _ r).2.2.2.2.1).trans (u.circuitKeys_disableRoute r)

/-- An accepted SET_ROUTE replaces the settings of its route (R73). -/
theorem State.applyRoute_inRange {s : State} (r : RouteIx) {x : RouteSettings} (hx : -1000000 ≤ x.a ∧ x.a ≤ 1000000)
    (h : s.cfg.InRange) : (s.applyRoute r x).cfg.InRange := by
  have hset (s : State) (y : RouteSettings) (hy : y.a = s.cfg.routes[r].a) (h : s.cfg.InRange) :
      (s.setCfg (s.cfg.withRoute r y)).cfg.InRange :=
    h.withRoute r (by rw [hy]; obtain ⟨-, -, hroutes, -⟩ := h; exact hroutes r)
  have hpeer (s : State) (h : s.cfg.InRange) : (s.changePeer r x.peer).cfg.InRange := by
    unfold State.changePeer
    split
    · exact h
    · dsimp only
      rw [(State.rechoose_leaves _).1, (State.clearForce_leaves _ _ _).1]
      refine hset _ _ rfl ?_
      rwa [(State.disableRoute_leaves _ _).1]
  unfold State.applyRoute
  have hlast (u : State) (h : u.cfg.InRange) : (if x.enable then u.returnRoute r else u.disableRoute r).cfg.InRange := by
    split
    · rwa [(State.returnRoute_leaves _ _).1]
    · rwa [(State.disableRoute_leaves _ _).1]
  refine hlast _ (hset _ _ rfl (hpeer _ ?_))
  exact h.withRoute r hx

/-- An accepted SET_PROBE replaces the probe settings (R57). -/
theorem State.applyProbe_cfg (s : State) (p : ProbeSettings) : (s.applyProbe p).cfg = { s.cfg with probe := p } := by
  unfold State.applyProbe
  dsimp only
  rw [forRoutes_leaves State.cfg _ (by intros; simp), forRoutes_leaves State.cfg _ (by intros; simp)]
  rfl

theorem State.keepsProfile_applyTime (s : State) {x : TimeSettings} (hx : x.ok = true) :
    s.KeepsProfile (s.applyTime x) := by
  refine .of_settings (fun h => ?_) (State.circuitKeys_congr (by simp)) (by simp) (by simp)
  obtain ⟨hids, hlanes, hroutes, hhealth, hprobe, -⟩ := h
  simp only [State.applyTime, State.judgeHoldover_leaves, State.rechoose_leaves, State.setCfg_cfg]
  exact ⟨hids, hlanes, hroutes, hhealth, hprobe, hx⟩

/-! ### Circuits -/

/-- A circuit opened: its far circuit was not taken, and it takes no other's (R83). -/
theorem State.keepsProfile_open (s : State) {n : CircIx} {defn : CircuitDef} (hclosed : s.circuits[n].state = .closed)
    (hrun : s.profile.load = .running) (hrange : defn.InRange n) (hfree : s.farTaken n defn = false) :
    s.KeepsProfile (s.modCircuit n fun _ => Circuit.fresh defn) := by
  rintro ⟨hcfg, hsound, -, hsave, hflash⟩
  have hself : (s.modCircuit n fun _ => Circuit.fresh defn).circuits[n] = Circuit.fresh defn := by
    rw [State.modCircuit_get_self]
  have hother {m : CircIx} (hm : m ≠ n) :
      (s.modCircuit n fun _ => Circuit.fresh defn).circuits[m] = s.circuits[m] := by
    rw [State.modCircuit_get_other _ _ _ _ hm]
  rw [← Bool.not_eq_true, State.farTaken_eq_true] at hfree
  refine ⟨hcfg, fun m => ?_, fun hl => absurd (hrun.symm.trans hl) (by decide), hsave, hflash⟩
  by_cases hm : m = n
  · subst hm
    rw [State.CircuitSound, hself]
    refine ⟨fun h => (by cases h), fun _ => ⟨rfl, fun d hd => ?_⟩⟩
    cases hd
    refine ⟨hrange, ?_, fun _ => ⟨rfl, rfl⟩⟩
    rw [← Bool.not_eq_true, State.farTaken_eq_true]
    rintro ⟨far, cls, maxAge, hflow, q, hq, hfeeds⟩
    rw [hother hq] at hfeeds
    exact hfree ⟨far, cls, maxAge, hflow, q, hq, hfeeds⟩
  · obtain ⟨hclosing, hopen⟩ := hsound m
    rw [State.CircuitSound, hother hm]
    refine ⟨hclosing, fun hne => ⟨(hopen hne).1, fun d hd => ?_⟩⟩
    obtain ⟨hd', hnot, hin⟩ := (hopen hne).2 d hd
    refine ⟨hd', ?_, hin⟩
    rw [← Bool.not_eq_true, State.farTaken_eq_true] at hnot ⊢
    rintro ⟨far, cls, maxAge, hflow, q, hq, hfeeds⟩
    by_cases hqn : q = n
    · rw [hqn, hself, Circuit.feeds_iff] at hfeeds
      obtain ⟨-, port, cls', maxAge', hdefn⟩ := hfeeds
      cases hdefn
      refine hfree ⟨far, cls', maxAge', rfl, m, hm, Circuit.feeds_iff.2 ⟨hne, d.port, cls, maxAge, ?_⟩⟩
      rw [Option.mem_def.1 hd, ← hflow]
    · rw [hother hqn] at hfeeds
      exact hnot ⟨far, cls, maxAge, hflow, q, hq, hfeeds⟩

theorem State.keepsProfile_closeOut (s : State) {n : CircIx} {port : PortIx} {peer : PeerIx} {far : CircIx}
    {cls : TrafficClass} {maxAge : Nat} (hne : s.circuits[n].state ≠ .closed) (hnone : s.circuits[n].closing = none)
    (hdefn : s.circuits[n].defn = some { port := port, peer := peer, flow := .out far cls maxAge }) :
    s.KeepsProfile (s.closeOut n) := by
  obtain ⟨u, current, hkeys, e⟩ := s.closeOut_eq n
  have hcfg : u.cfg = s.cfg := by rw [← (s.closeOut_leaves n).1, e]; rfl
  have hprofile : u.profile = s.profile := by
    rw [← (s.closeOut_leaves n).2.2.2.2.2.2.2.2.1, e]; rfl
  have hflash : u.flash = s.flash := by rw [← (s.closeOut_leaves n).2.2.2.2.2.2.2.2.2.1, e]; rfl
  rw [e]
  refine .of_modCircuit hcfg hkeys hprofile hflash fun _ => ?_
  obtain ⟨hstate, hclosing, hdefn'⟩ := State.circuitKeys_iff.1 hkeys n
  rw [← hstate] at hne
  unfold Circuit.close
  split
  · exact ⟨rfl, .inl ⟨rfl, hclosing.trans hnone⟩⟩
  · refine ⟨rfl, .inr (.inr ⟨hne, hne, fun d hd => ?_⟩)⟩
    rw [hdefn', hdefn] at hd
    cases hd
    rfl

theorem State.keepsProfile_closeIn (s : State) {n : CircIx} (p : PortIx) (hnone : s.circuits[n].closing = none) :
    s.KeepsProfile (s.closeIn n p) := by
  obtain ⟨u, hkeys, e⟩ := s.closeIn_eq n p
  have hcfg : u.cfg = s.cfg := by rw [← (s.closeIn_leaves n p).1, e]; rfl
  have hprofile : u.profile = s.profile := by
    rw [← (s.closeIn_leaves n p).2.2.2.2.2.2.2.2.2.1, e]; rfl
  have hflash : u.flash = s.flash := by rw [← (s.closeIn_leaves n p).2.2.2.2.2.2.2.2.2.2.1, e]; rfl
  rw [e]
  refine .of_modCircuit hcfg hkeys hprofile hflash fun _ => ?_
  obtain ⟨-, hclosing, -⟩ := State.circuitKeys_iff.1 hkeys n
  exact ⟨rfl, .inl ⟨rfl, hclosing.trans hnone⟩⟩

/-! ### The end of a load -/

/-- The last record of a number, of those restored, stands; with each number once, each record of the image does. -/
theorem State.restoreCircuits_get (s : State) {cs : List SavedCircuit} (h : (cs.map SavedCircuit.number).Nodup) :
    (∀ c ∈ cs, (s.restoreCircuits cs).circuits[c.number] = c.restored) ∧
    ∀ n : CircIx, (∀ c ∈ cs, c.number ≠ n) → (s.restoreCircuits cs).circuits[n] = s.circuits[n] := by
  induction cs generalizing s with
  | nil => simp [State.restoreCircuits]
  | cons c cs ih =>
    rw [List.map_cons, List.nodup_cons] at h
    obtain ⟨hnotin, hnodup⟩ := h
    obtain ⟨hin, hout⟩ := ih (s.modCircuit c.number fun _ => c.restored) hnodup
    have hhead : ∀ x ∈ cs, x.number ≠ c.number := fun x hx he => hnotin (he ▸ List.mem_map_of_mem hx)
    refine ⟨fun x hx => ?_, fun n hn => ?_⟩
    · rcases List.mem_cons.1 hx with rfl | hx
      · exact (hout _ hhead).trans (State.modCircuit_get_self ..)
      · exact hin x hx
    · refine (hout n fun x hx => hn x (List.mem_cons_of_mem _ hx)).trans ?_
      exact State.modCircuit_get_other _ _ _ _ (hn c (List.mem_cons_self ..)).symm

/-- Two entries of a list whose pictures are all different have different ones. -/
theorem ne_of_nodup_filterMap {α β : Type} {f : α → Option β} {l : List α} (h : (l.filterMap f).Nodup) {a b : α}
    (ha : a ∈ l) (hb : b ∈ l) (hne : a ≠ b) {y : β} (hay : f a = some y) : f b ≠ some y := by
  rw [List.Nodup, List.pairwise_filterMap] at h
  have hsymm : Std.Symm fun a a' => ∀ b, f a = some b → ∀ b', f a' = some b' → b ≠ b' :=
    ⟨fun _ _ hab x hx y hy => (hab y hy x hx).symm⟩
  exact fun hby => h.forall ha hb hne y hay y hby rfl

/-- The circuits of an image in range are sound where every circuit was CLOSED (R97, R181). -/
theorem State.circuitSound_restored {s : State} {cs : List SavedCircuit} (hdistinct : circuitsDistinct cs = true)
    (hrange : ∀ c ∈ cs, c.defn.InRange c.number ∧ (c.paused = true → c.defn.flow.isOut = true))
    (hclosed : ∀ n : CircIx, s.circuits[n].state = .closed) (hsound : ∀ n : CircIx, s.CircuitSound n) (n : CircIx) :
    (s.restoreCircuits cs).CircuitSound n := by
  simp only [circuitsDistinct, Bool.and_eq_true, decide_eq_true_eq] at hdistinct
  obtain ⟨hnumbers, hpairs⟩ := hdistinct
  obtain ⟨hin, hout⟩ := s.restoreCircuits_get hnumbers
  by_cases hn : ∃ c ∈ cs, c.number = n
  · obtain ⟨c, hc, rfl⟩ := hn
    have hrec := hin c hc
    obtain ⟨hdefn, hpaused⟩ := hrange c hc
    have hne : c.restored.state ≠ .closed := by
      cases hp : c.paused <;> simp [SavedCircuit.restored, hp]
    rw [State.CircuitSound, hrec]
    refine ⟨fun h => absurd h hne, fun _ => ⟨rfl, fun d hd => ?_⟩⟩
    cases hd
    refine ⟨hdefn, ?_, fun hf => ?_⟩
    · rw [← Bool.not_eq_true, State.farTaken_eq_true]
      rintro ⟨far, cls, maxAge, hflow, m, hm, hfeeds⟩
      rw [Circuit.feeds_iff] at hfeeds
      obtain ⟨hm', port, cls', maxAge', hdefn'⟩ := hfeeds
      by_cases hmc : ∃ c' ∈ cs, c'.number = m
      · obtain ⟨c', hc', rfl⟩ := hmc
        rw [hin c' hc'] at hdefn'
        have hd : c'.defn = { port := port, peer := c.defn.peer, flow := .out far cls' maxAge' } := Option.some.inj hdefn'
        exact ne_of_nodup_filterMap hpairs hc hc' (fun e => hm (by rw [e])) (y := (c.defn.peer, far)) (by rw [hflow]) (by rw [hd])
      · rw [hout m (by simpa using hmc)] at hm'
        exact absurd (hclosed m) hm'
    · have hp : c.paused = false := by
        cases hp : c.paused with
        | false => rfl
        | true => rw [hpaused hp] at hf; cases hf
      simp [SavedCircuit.restored, hp, Circuit.fresh]
  · have hsame := hout n (by simpa using hn)
    rw [State.CircuitSound, hsame]
    exact ⟨(hsound n).1, fun h => absurd (hclosed n) h⟩

end Sys2Proof.Machine
end

