-- ==== Sys2Proof/Proofs/ProfileUnit.lean ====
section
/-! SUPPORT. The profile unit keeps its settings, circuits, snapshot and flash sound: LOAD_END, SAVE_PROFILE, SAVE_COMPLETE,
RESTART and COLD_RESET (R183 to R191). -/

namespace Sys2Proof.Machine

/-! ### The snapshot of a SAVE (R186) -/

/-- What a snapshot holds of circuit `n`. -/
def State.savedCircuit? (s : State) (n : CircIx) : Option SavedCircuit :=
  match s.circuits[n].state, s.circuits[n].closing, s.circuits[n].defn with
  | .opened, none, some defn => some { number := n, paused := false, defn := defn }
  | .paused, none, some defn => some { number := n, paused := true, defn := defn }
  | _, _, _ => none

theorem State.savedCircuits_eq (s : State) : s.savedCircuits = (List.finRange 64).filterMap s.savedCircuit? := rfl

/-- A circuit in a snapshot is one that is not CLOSED, with its number, its definition and whether it is PAUSED. -/
theorem State.of_savedCircuit {s : State} {n : CircIx} {c : SavedCircuit} (h : s.savedCircuit? n = some c) :
    c.number = n ∧ s.circuits[n].state ≠ .closed ∧ s.circuits[n].defn = some c.defn ∧
    (c.paused = true → s.circuits[n].state = .paused) := by
  unfold State.savedCircuit? at h
  split at h <;> cases h
  · rename_i hstate _ hdefn
    exact ⟨rfl, by rw [hstate]; decide, hdefn, by simp⟩
  · rename_i hstate _ hdefn
    exact ⟨rfl, by rw [hstate]; decide, hdefn, fun _ => hstate⟩

/-- An OUT circuit that is not CLOSED feeds the far circuit of its definition. -/
theorem Circuit.feeds_of_defn {x : Circuit} {d : CircuitDef} {far : CircIx} {cls : TrafficClass} {maxAge : Nat}
    (hopen : x.state ≠ .closed) (hdefn : x.defn = some d) (hflow : d.flow = .out far cls maxAge) :
    x.feeds d.peer far = true :=
  Circuit.feeds_iff.2 ⟨hopen, d.port, cls, maxAge, by rw [hdefn, ← hflow]⟩

/-- A list picked from one without repeats by a key that the pick keeps is without repeats of the key. -/
theorem nodup_map_filterMap {α β γ : Type} {f : α → Option β} {k : β → γ} {g : α → γ} (hk : ∀ a b, f a = some b → k b = g a)
    {l : List α} (h : (l.map g).Nodup) : ((l.filterMap f).map k).Nodup := by
  rw [List.Nodup, List.pairwise_map, List.pairwise_filterMap]
  rw [List.Nodup, List.pairwise_map] at h
  refine h.imp fun hne b hb b' hb' e => hne ?_
  rw [← hk _ _ hb, ← hk _ _ hb', e]

/-- Sound circuits make a snapshot within the checks of R181. -/
theorem State.snapshot_inRange {s : State} (hcfg : s.cfg.InRange) (hsound : ∀ n : CircIx, s.CircuitSound n) :
    s.snapshot.InRange := by
  have hmem {c : SavedCircuit} (hc : c ∈ s.savedCircuits) : s.savedCircuit? c.number = some c := by
    rw [s.savedCircuits_eq, List.mem_filterMap] at hc
    obtain ⟨n, -, hn⟩ := hc
    rw [(State.of_savedCircuit hn).1, hn]
  have hnumbers : (s.savedCircuits.map SavedCircuit.number).Nodup := by
    rw [s.savedCircuits_eq]
    refine nodup_map_filterMap (g := id) (fun n c hc => (State.of_savedCircuit hc).1) ?_
    rw [List.map_id]
    exact List.nodup_finRange 64
  refine ⟨hcfg, ?_, ?_, fun c hc => ?_⟩
  · calc s.savedCircuits.length ≤ (List.finRange 64).length := by
          rw [s.savedCircuits_eq]; exact List.length_filterMap_le ..
      _ = 64 := List.length_finRange
  · have hpairs : (farPairs s.savedCircuits).Nodup := by
      simp only [farPairs, List.Nodup, List.pairwise_filterMap]
      rw [List.Nodup, List.pairwise_map] at hnumbers
      refine hnumbers.imp_of_mem fun {c c'} hc hc' hne x hx y hy e => ?_
      subst e
      obtain ⟨-, hopen, hdefn, -⟩ := State.of_savedCircuit (hmem hc)
      obtain ⟨-, hopen', hdefn', -⟩ := State.of_savedCircuit (hmem hc')
      obtain ⟨-, hfree, -⟩ := ((hsound c.number).2 hopen).2 c.defn hdefn
      rw [← Bool.not_eq_true, State.farTaken_eq_true] at hfree
      split at hx
      · rename_i far cls maxAge hflow
        cases hx
        split at hy
        · rename_i far' cls' maxAge' hflow'
          have hfeeds := Circuit.feeds_of_defn hopen' hdefn' hflow'
          rw [Option.some.injEq, Prod.mk.injEq] at hy
          obtain ⟨hpeer, hfar⟩ := hy
          rw [hpeer, hfar] at hfeeds
          exact hfree ⟨far, cls, maxAge, hflow, c'.number, hne.symm, hfeeds⟩
        · cases hy
      · cases hx
    simp [State.snapshot, circuitsDistinct, hnumbers, hpairs]
  · obtain ⟨-, hopen, hdefn, hpaused⟩ := State.of_savedCircuit (hmem hc)
    obtain ⟨hrange, -, hin⟩ := ((hsound c.number).2 hopen).2 c.defn hdefn
    refine ⟨hrange, fun hp => ?_⟩
    by_contra hout
    have := (hin (Bool.eq_false_iff.2 hout)).1
    rw [hpaused hp] at this
    cases this

theorem State.keepsProfile_ownSaveProfile (s : State) (d : Directive) (hrun : s.profile.load = .running) :
    s.KeepsProfile (s.ownSaveProfile d).1 := by
  rintro ⟨hcfg, hsound, -, -, hflash⟩
  refine ⟨hcfg, hsound, fun hl => absurd (hrun.symm.trans hl) (by decide), ?_, hflash⟩
  simp only [State.ownSaveProfile, State.modPort_profile, State.setProfile_profile, Option.mem_def, Option.some.injEq,
    forall_eq']
  exact State.snapshot_inRange hcfg hsound

/-! ### The end of a SAVE (R187, R188) -/

/-- What an accepted completion leaves behind is a step of a SAVE. -/
theorem State.saveFailure_wf {s : State} {job : SaveJob} {result : SaveResult} (h : result.wf = true) :
    ∀ left ∈ s.saveFailure job result, left.wf = true := by
  intro left hleft
  unfold State.saveFailure at hleft
  split at hleft
  · cases hleft; exact h
  · split at hleft <;> cases hleft
    decide

/-- The flash that a SAVE leaves, done or failed, has its canonical form. -/
theorem flashWf_flashAfter {m : List Host.Cell} {i : Image} {failure : Option FlashLeft} (hm : flashWf m = true)
    (hi : i.InRange) (hwf : ∀ left ∈ failure, left.wf = true) : flashWf (flashAfter m (encodeImage i) failure) = true := by
  cases failure with
  | none => exact flashWf_savedFlash hm (encodeImage_fits hi)
  | some left => exact flashWf_leaveFlash hm (encodeImage_fits hi) (hwf left rfl)

theorem State.keepsProfile_completeSave (s : State) {job : SaveJob} {failure : Option FlashLeft}
    (hsave : s.profile.save = some job) (hwf : ∀ left ∈ failure, left.wf = true) :
    s.KeepsProfile (s.completeSave job failure) := by
  rintro ⟨hcfg, hsound, hclosed, hjob, hflash⟩
  refine ⟨hcfg, hsound, fun hl => hclosed (Eq.trans ?_ hl), ?_, ?_⟩
  · cases failure <;> rfl
  · intro j hj
    have hnone : (s.completeSave job failure).profile.save = none := by cases failure <;> rfl
    rw [hnone] at hj
    cases hj
  · exact flashWf_flashAfter hflash (hjob job hsave) hwf

theorem State.keepsProfile_execSaveComplete {s t : State} {result : SaveResult}
    (h : execSaveComplete result s = .next t) : s.KeepsProfile t := by
  unfold execSaveComplete at h
  split at h
  · cases h; exact .refl s
  · split at h <;> cases h
    exact s.keepsProfile_completeSave ‹_› (State.saveFailure_wf ‹_›)

/-! ### What cold reset and RESTART leave (R178, R183) -/

/-- The SAFE settings are within the ranges of the directives (R183). -/
theorem Settings.safe_inRange : Settings.safe.InRange := by
  refine ⟨fun p hp => ?_, fun r => ?_, fun r => ?_, by decide, by decide, by decide⟩
  · simp [Settings.safe] at hp
  · simp [Settings.safe, LaneSettings.safe, LaneSettings.InRange]
  · simp [Settings.safe]

/-- Where every circuit is CLOSED with no close pending, each is sound. -/
theorem State.circuitSound_of_blank {s : State} {n : CircIx} (h : s.circuits[n] = Circuit.blank) : s.CircuitSound n := by
  rw [State.CircuitSound, h]
  exact ⟨fun _ => rfl, fun hne => absurd rfl hne⟩

theorem State.profileSound_coldReset {s : State} {m : List Host.Cell} (h : flashWf m = true) :
    (s.coldReset m).ProfileSound := by
  have hblank (n : CircIx) : (s.coldReset m).circuits[n] = Circuit.blank := by
    simp [State.coldReset, State.reset]
  refine ⟨Settings.safe_inRange, fun n => State.circuitSound_of_blank (hblank n), fun _ n => ?_, ?_, h⟩
  · rw [hblank]; rfl
  · rintro job ⟨⟩

theorem State.keepsProfile_execColdReset {s t : State} {left : FlashLeft} (h : execColdReset left s = .next t) :
    s.KeepsProfile t := by
  rintro ⟨-, -, -, hjob, hflash⟩
  unfold execColdReset at h
  split at h
  · cases h; exact State.profileSound_coldReset hflash
  · rename_i job hsave
    split at h <;> cases h
    exact State.profileSound_coldReset (flashWf_leaveFlash hflash (encodeImage_fits (hjob job hsave)) ‹_›)

theorem State.restart_save (s : State) (p : PortIx) (request : Byte) :
    (s.restart p request).profile.save = s.profile.save := by
  simp [State.restart, State.beginLoad, Profile.countRestart]

theorem State.keepsProfile_restart (s : State) (p : PortIx) (request : Byte) :
    s.KeepsProfile (s.restart p request) := by
  rintro ⟨-, -, -, hjob, hflash⟩
  have hblank (n : CircIx) : (s.restart p request).circuits[n] = Circuit.blank := by
    simp [State.restart, State.beginLoad, State.restartBlocks]
  refine ⟨?_, fun n => State.circuitSound_of_blank (hblank n), fun _ n => ?_, ?_, ?_⟩
  · exact Settings.safe_inRange
  · rw [hblank]; rfl
  · rw [State.restart_save]; exact hjob
  · rw [(State.restart_leaves _ _ _).1]; exact hflash

/-! ### LOAD_END (R185) -/

/-- The last steps of a load leave all that its soundness rests on. -/
theorem State.keepsProfile_loadEffects (s : State) : s.KeepsProfile s.rechoose.judgeHoldover.answerRestart := by
  have hanswer (u : State) : u.answerRestart.profile.load = u.profile.load ∧ u.answerRestart.profile.save = u.profile.save := by
    unfold State.answerRestart
    split <;> simp
  exact .of_keys (by simp) (State.circuitKeys_congr (by simp)) (by simp [hanswer]) (by simp [hanswer]) (by simp)

@[simp] theorem State.circuitKeys_startTimers (s : State) : s.startTimers.circuitKeys = s.circuitKeys :=
  State.circuitKeys_congr (by simp)

/-- An image taken up: what its settings bring about leaves the key of every circuit, and its circuits are restored last. -/
theorem State.applyImage_eq (s : State) (i : Image) :
    ∃ u : State, s.applyImage i = u.restoreCircuits i.circuits ∧ u.cfg = i.settings ∧ u.circuitKeys = s.circuitKeys ∧
      u.profile = s.profile ∧ u.flash = s.flash := by
  refine ⟨_, rfl, ?_, ?_, ?_, ?_⟩
  · simp
  · rw [State.circuitKeys_startTimers, State.circuitKeys_applyMoves, State.circuitKeys_setCfg]
  · simp
  · simp

theorem State.profileSound_applyImage {s : State} {i : Image} (hi : i.InRange) (h : s.ProfileSound)
    (hrun : s.profile.load = .running) (hclosed : ∀ n : CircIx, s.circuits[n].state = .closed) :
    (s.applyImage i).ProfileSound := by
  obtain ⟨hcfg, -, hdistinct, hrange⟩ := hi
  obtain ⟨u, e, hset, hkeys, hprofile, hflash⟩ := s.applyImage_eq i
  have hkeep : s.KeepsProfile u := .of_settings (fun _ => hset ▸ hcfg) hkeys hprofile hflash
  obtain ⟨hcfg', hsound, -, hjob, hwf⟩ := hkeep h
  have hclosed' (n : CircIx) : u.circuits[n].state = .closed := by
    rw [(State.circuitKeys_iff.1 hkeys n).1]
    exact hclosed n
  have hsame := State.restoreCircuits_leaves u i.circuits
  rw [e]
  refine ⟨?_, State.circuitSound_restored hdistinct hrange hclosed' hsound, fun hl => ?_, ?_, ?_⟩
  · rw [hsame.1]; exact hcfg'
  · simp [hprofile, hrun] at hl
  · simpa using hjob
  · simpa using hwf

theorem State.keepsProfile_endLoad (s : State) (m : List Host.Cell) (hload : s.profile.load = .loading) :
    s.KeepsProfile (s.endLoad m) := by
  rintro ⟨hcfg, hsound, hclosed, hjob, hflash⟩
  have hend (outcome : LoadOutcome) (failing : Option ImagePart) :
      (s.setProfile (s.profile.endLoad outcome failing)).ProfileSound :=
    ⟨hcfg, hsound, fun hl => (by cases hl), hjob, hflash⟩
  unfold State.endLoad
  split
  · rename_i i hi
    refine State.keepsProfile_loadEffects _ (State.profileSound_applyImage (judgeFlash_inRange hi) (hend _ _) rfl ?_)
    exact hclosed hload
  · exact State.keepsProfile_loadEffects _ (hend _ _)

end Sys2Proof.Machine
end

