-- ==== Sys2Proof/Proofs/ProfileKept.lean ====
section
/-! CHECK. Every command keeps the settings, the circuits, the snapshot of a SAVE and the flash sound. -/

namespace Sys2Proof.Machine

/-! ### The directives -/

theorem State.keepsProfile_operatorDirective (s : State) (d : Directive) (name argLen : Nat) {owner : State → Judged}
    (h : ∀ u : State, u.profile.load = .running → u.KeepsProfile (owner u).1) :
    s.KeepsProfile (s.operatorDirective d name argLen owner) :=
  State.operatorDirective_keeps (P := s.KeepsProfile) (fun u v hu => hu.trans (u.keepsProfile_withPorts v))
    (fun u hrun _ hu => hu.trans (h u hrun)) d name argLen (.refl s)

theorem State.keepsProfile_openDirective (s : State) (d : Directive) (name argLen : Nat) {owner : State → Judged}
    (h : ∀ u : State, u.KeepsProfile (owner u).1) : s.KeepsProfile (s.openDirective d name argLen owner) :=
  State.openDirective_keeps (P := s.KeepsProfile) (fun u v hu => hu.trans (u.keepsProfile_withPorts v))
    (fun u _ hu => hu.trans (h u)) d name argLen (.refl s)

/-- PAUSE, RESUME and CLEAR_COUNTS keep a circuit's definition, and neither open nor close it; the first two are for OUT
circuits alone (R88, R95). -/
theorem State.keepsProfile_ownedDirective (s : State) (d : Directive) (name : Nat) {outOnly : Bool}
    {effect : Circuit → Circuit} (hdefn : ∀ x, (effect x).defn = x.defn)
    (hstate : ∀ x, ((effect x).state = x.state ∧ (effect x).closing = x.closing) ∨
      ((effect x).state ≠ .closed ∧ outOnly = true)) :
    s.KeepsProfile (s.ownedDirective d name outOnly effect) := by
  refine State.ownedDirective_keeps (P := s.KeepsProfile) (fun u v hu => hu.trans (u.keepsProfile_withPorts v))
    (fun u n defn hopen _ hd hout hu => hu.trans ?_) d name (.refl s)
  refine .of_modCircuit rfl rfl rfl rfl fun _ => ⟨hdefn _, ?_⟩
  rcases hstate u.circuits[n] with hsame | ⟨hopen', ho⟩
  · exact .inr (.inl hsame)
  · refine .inr (.inr ⟨hopen, hopen', fun d hmem => ?_⟩)
    rw [hd] at hmem
    cases hmem
    exact hout ho

theorem Circuit.clearCounts_key (x : Circuit) :
    x.clearCounts.defn = x.defn ∧ x.clearCounts.state = x.state ∧ x.clearCounts.closing = x.closing := by
  unfold Circuit.clearCounts
  split <;> exact ⟨rfl, rfl, rfl⟩

theorem State.keepsProfile_ownSetIdentity (u : State) (d : Directive) : u.KeepsProfile (u.ownSetIdentity d).1 := by
  simp only [State.ownSetIdentity]
  split
  · exact .refl u
  · exact .of_settings (fun h => h.withIdentity _ ‹_›) rfl rfl rfl

theorem State.keepsProfile_ownSetPeer (u : State) (d : Directive) : u.KeepsProfile (u.ownSetPeer d).1 := by
  unfold State.ownSetPeer
  split
  · split
    · exact .refl u
    · rw [State.reply_fst]
      refine .of_settings (fun h => ?_) (by simp) (by simp [State.applyPeer]) (by simp [State.applyPeer])
      simp only [State.applyPeer, State.applyMoves_leaves, State.setCfg_cfg]
      exact State.inRange_withPeer h _ ‹_›
  · exact .refl u

theorem State.keepsProfile_ownSetRoute (u : State) (d : Directive) : u.KeepsProfile (u.ownSetRoute d).1 := by
  unfold State.ownSetRoute
  split
  · rw [State.reply_fst]
    exact .of_settings (State.applyRoute_inRange _ (routeArgs_inRange ‹_›)) (by simp) (by simp) (by simp)
  · exact .refl u

theorem State.keepsProfile_ownSetLane (u : State) (d : Directive) : u.KeepsProfile (u.ownSetLane d).1 := by
  unfold State.ownSetLane
  split
  · rw [State.reply_fst]; exact u.keepsProfile_applyLane _ (laneArgs_inRange ‹_›)
  · exact .refl u

theorem State.keepsProfile_ownSetHealth (u : State) (d : Directive) : u.KeepsProfile (u.ownSetHealth d).1 := by
  unfold State.ownSetHealth
  split
  · exact .refl u
  · rw [State.reply_fst]
    refine .of_settings (fun h => ?_) (by simp) (by simp [State.applyHealth]) (by simp [State.applyHealth])
    simp only [State.applyHealth, State.applyMoves_leaves, State.setCfg_cfg]
    obtain ⟨hids, hlanes, hroutes, -, hprobe, htime⟩ := h
    exact ⟨hids, hlanes, hroutes, healthArgs_ok ‹_›, hprobe, htime⟩

theorem State.keepsProfile_ownSetProbe (u : State) (d : Directive) : u.KeepsProfile (u.ownSetProbe d).1 := by
  unfold State.ownSetProbe
  split
  · exact .refl u
  · rw [State.reply_fst]
    refine .of_settings (fun h => ?_) (by simp) (by simp) (by simp)
    rw [State.applyProbe_cfg]
    obtain ⟨hids, hlanes, hroutes, hhealth, -, htime⟩ := h
    exact ⟨hids, hlanes, hroutes, hhealth, probeArgs_ok ‹_›, htime⟩

theorem State.keepsProfile_ownSetTime (u : State) (d : Directive) : u.KeepsProfile (u.ownSetTime d).1 := by
  unfold State.ownSetTime
  split
  · exact .refl u
  · rw [State.reply_fst]; exact u.keepsProfile_applyTime (timeArgs_ok ‹_›)

theorem State.keepsProfile_ownSetCalendar (u : State) (d : Directive) : u.KeepsProfile (u.ownSetCalendar d).1 := by
  unfold State.ownSetCalendar
  split
  · rw [State.reply_fst]
    exact .of_settings (fun h => h.withCalendar _ _) rfl rfl rfl
  · exact .refl u

theorem State.keepsProfile_ownOpenCircuit (u : State) (d : Directive) (hrun : u.profile.load = .running) :
    u.KeepsProfile (u.ownOpenCircuit d).1 := by
  unfold State.ownOpenCircuit
  split
  · exact .refl u
  · split
    · exact .refl u
    · rename_i hfree
      split
      · exact .refl u
      · split
        · exact .refl u
        · rw [State.reply_fst]
          refine u.keepsProfile_open ?_ hrun (circuitArgs_inRange ‹_›) (Bool.eq_false_iff.2 ‹_›)
          by_contra hopen
          exact hfree (.inl hopen)

theorem State.keepsProfile_ownCloseCircuit (u : State) (d : Directive) : u.KeepsProfile (u.ownCloseCircuit d).1 := by
  unfold State.ownCloseCircuit
  split
  · exact .refl u
  · split
    · exact .refl u
    · rename_i hclosing
      rw [Option.not_isSome_iff_eq_none] at hclosing
      split
      · exact .refl u
      · exact .refl u
      · rename_i hdefn hopen
        rw [State.reply_fst]; exact u.keepsProfile_closeOut hopen hclosing hdefn
      · rw [State.reply_fst]; exact u.keepsProfile_closeIn _ hclosing

theorem State.keepsProfile_ownForceRoute (u : State) (d : Directive) : u.KeepsProfile (u.ownForceRoute d).1 := by
  unfold State.ownForceRoute
  split
  · split
    · exact .of_frame rfl rfl rfl rfl
    · exact .refl u
  · exact .refl u

theorem State.keepsProfile_ownReleaseRoute (u : State) (d : Directive) : u.KeepsProfile (u.ownReleaseRoute d).1 := by
  unfold State.ownReleaseRoute
  split
  · exact .refl u
  · exact .of_frame rfl rfl rfl rfl

theorem State.keepsProfile_ownTestRoute (u : State) (d : Directive) : u.KeepsProfile (u.ownTestRoute d).1 := by
  unfold State.ownTestRoute
  split
  · exact .refl u
  · split
    · exact .refl u
    · rw [State.reply_fst]; exact .of_keys (by simp) (by simp) (by simp) (by simp) (by simp)

theorem State.keepsProfile_ownWatch (u : State) (d : Directive) : u.KeepsProfile (u.ownWatch d).1 := by
  unfold State.ownWatch
  split
  · exact .refl u
  · exact .of_frame rfl rfl rfl rfl

/-! ### The other commands -/

/-- The link that goes DOWN may owe no RESTART answer any more: the load and the SAVE stay (R162). -/
theorem Profile.disown_leaves (x : Profile) (p : PortIx) : (x.disown p).load = x.load ∧ (x.disown p).save = x.save := by
  unfold Profile.disown
  split
  · split <;> exact ⟨rfl, rfl⟩
  · exact ⟨rfl, rfl⟩

theorem State.keepsProfile_linkDown (s : State) (p : PortIx) : s.KeepsProfile (s.linkDown p) := by
  have hprofile : (s.linkDown p).profile = s.profile.disown p := by simp [State.linkDown]
  refine .of_keys (by simp) (State.circuitKeys_congr (by simp)) ?_ ?_ (by simp)
  · rw [hprofile, (s.profile.disown_leaves p).1]
  · rw [hprofile, (s.profile.disown_leaves p).2]

theorem State.keepsProfile_setTime (s : State) (x : TimeBase) : s.KeepsProfile (s.setTime x) := .of_frame rfl rfl rfl rfl

theorem execTransmitEnd_keepsProfile {s t : State} {r : RouteIx} (h : execTransmitEnd r s = .next t) :
    s.KeepsProfile t := by
  unfold execTransmitEnd at h
  split at h
  · cases h; exact .refl s
  · split at h <;> cases h
    · exact s.keepsProfile_endCurrent r
    · exact .refl s

theorem execFrameStart_keepsProfile {s t : State} {r : RouteIx} {first : Byte} (h : execFrameStart r first s = .next t) :
    s.KeepsProfile t := by
  unfold execFrameStart at h
  split at h <;> cases h
  · exact .of_frame (by simp) (by simp) (by simp) (by simp)
  · exact .refl s

theorem execLengthLimitEnd_keepsProfile {s t : State} {r : RouteIx} (h : execLengthLimitEnd r s = .next t) :
    s.KeepsProfile t := by
  unfold execLengthLimitEnd at h
  split at h <;> cases h
  · exact .refl s
  · exact .of_keys (by simp) (by simp) (by simp) (by simp) (by simp)

theorem execFrameEnd_keepsProfile {s t : State} {r : RouteIx} {rest : List Byte} (h : execFrameEnd r rest s = .next t) :
    s.KeepsProfile t := by
  unfold execFrameEnd at h
  split at h
  · cases h; exact .refl s
  · split at h <;> cases h
    · exact .of_keys (by simp) (by simp) (by simp) (by simp) (by simp)
    · exact .of_keys (by simp) (by simp) (by simp) (by simp) (by simp)

theorem execProbeRequest_keepsProfile {s t : State} {r : RouteIx} (h : execProbeRequest r s = .next t) :
    s.KeepsProfile t := by
  unfold execProbeRequest at h
  split at h
  · cases h; exact .refl s
  · split at h <;> cases h
    · exact .of_frame (by simp) (by simp) (by simp) (by simp)
    · exact .refl s

theorem execProbeTimeout_keepsProfile {s t : State} {r : RouteIx} (h : execProbeTimeout r s = .next t) :
    s.KeepsProfile t := by
  unfold execProbeTimeout at h
  split at h <;> cases h
  · exact .refl s
  · exact .of_keys (by simp) (by simp) (by simp) (by simp) (by simp)

theorem execTestRequest_keepsProfile {s t : State} {r : RouteIx} (h : execTestRequest r s = .next t) :
    s.KeepsProfile t := by
  unfold execTestRequest at h
  split at h
  · cases h; exact .refl s
  · split at h <;> cases h
    · refine State.KeepsProfile.trans ?_ (State.keepsProfile_evaluate _ r)
      exact .of_keys (by simp) (by simp) (by simp) (by simp) (by simp)
    · exact .refl s

theorem execSendStart_keepsProfile {s t : State} {p : PortIx} (h : execSendStart p s = .next t) :
    s.KeepsProfile t := by
  unfold execSendStart at h
  split at h <;> cases h
  · exact .of_frame (by simp) (by simp) (by simp) (by simp)
  · exact .refl s

theorem execSendEnd_keepsProfile {s t : State} {p : PortIx} {status : Byte} {body : List Byte} {crc : BitVec 32}
    (h : execSendEnd p status body crc s = .next t) : s.KeepsProfile t := by
  unfold execSendEnd at h
  split at h <;> cases h
  · exact .refl s
  · exact .of_frame rfl rfl rfl rfl
  · exact .of_keys (by simp) (by simp) (by simp) (by simp) (by simp)

theorem execOutboundTurn_keepsProfile {s t : State} {p : PortIx} (h : execOutboundTurn p s = .next t) :
    s.KeepsProfile t := by
  unfold execOutboundTurn at h
  split at h <;> cases h
  · exact .of_frame (by simp) (by simp) (by simp) (by simp)
  · exact .refl s

theorem execOutboundFrameEnd_keepsProfile {s t : State} {p : PortIx} (h : execOutboundFrameEnd p s = .next t) :
    s.KeepsProfile t := by
  unfold execOutboundFrameEnd at h
  split at h <;> cases h
  · exact .refl s
  · exact .of_frame (by simp) (by simp) (by simp) (by simp)

theorem execLinkDown_keepsProfile {s t : State} {p : PortIx} (h : execLinkDown p s = .next t) : s.KeepsProfile t := by
  unfold execLinkDown at h
  split at h <;> cases h
  · exact s.keepsProfile_linkDown p
  · exact .refl s

theorem execLinkUp_keepsProfile {s t : State} {p : PortIx} (h : execLinkUp p s = .next t) : s.KeepsProfile t := by
  unfold execLinkUp at h
  split at h <;> cases h
  · exact .of_frame rfl rfl rfl rfl
  · exact .refl s

theorem execBadInboundEnvelope_keepsProfile {s t : State} {p : PortIx} (h : execBadInboundEnvelope p s = .next t) :
    s.KeepsProfile t := by
  unfold execBadInboundEnvelope at h
  split at h <;> cases h
  · exact .of_frame (by simp) (by simp) (by simp) (by simp)
  · exact .refl s

theorem execMiss_keepsProfile {s t : State} {p : PortIx} {first : Bool} (h : execMiss p first s = .next t) :
    s.KeepsProfile t := by
  have hmiss (n : Nat) : s.KeepsProfile (s.modPort p fun x => { x with misses := n }) := .of_frame rfl rfl rfl rfl
  unfold execMiss at h
  split at h <;> cases h
  · unfold State.miss
    dsimp only
    split
    · split
      · exact s.keepsProfile_linkDown p
      · exact hmiss _
    · split
      · exact s.keepsProfile_linkDown p
      · exact hmiss _
  · exact .refl s

theorem execUnknownDirective_keepsProfile {s t : State} {p : PortIx} {status : Byte} {body : List Byte} {crc : BitVec 32}
    (h : execUnknownDirective p status body crc s = .next t) : s.KeepsProfile t := by
  unfold execUnknownDirective at h
  split at h <;> cases h
  obtain ⟨v, e⟩ := s.unknownDirective_withPorts p (body.getD 1 0) (crc == crc32 (covered 0xA2 status body))
  rw [e]
  exact s.keepsProfile_withPorts v

theorem execLoadEnd_keepsProfile {s t : State} {answers : Bool} (h : execLoadEnd answers s = .next t) :
    s.KeepsProfile t := by
  unfold execLoadEnd at h
  split at h <;> cases h
  · exact s.keepsProfile_endLoad _ ‹_›
  · exact .refl s

/-- A command keeps the settings, the circuits, the snapshot of a SAVE and the flash sound. -/
theorem exec_keepsProfile {c : Instr} {s t : State} (h : exec c s = .next t) : s.KeepsProfile t := by
  cases c with
  | coldReset left => exact State.keepsProfile_execColdReset h
  | loadEnd answers => exact execLoadEnd_keepsProfile h
  | advance => cases h; exact s.keepsProfile_setTime _
  | ppsOutFire => cases h; exact s.keepsProfile_setTime _
  | holdoverExpiry => cases h; exact .of_frame (by simp) (by simp) (by simp) (by simp)
  | ppsEdge => cases h; exact .of_frame (by simp) (by simp) (by simp) (by simp)
  | setTime d => cases h; exact s.keepsProfile_operatorDirective d 13 15 fun u _ => u.keepsProfile_ownSetTime d
  | readTime d => cases h; exact s.keepsProfile_openDirective d 1 0 State.KeepsProfile.refl
  | laneByteTaken r => cases h; exact .of_frame rfl rfl rfl rfl
  | transmitEnd r => exact execTransmitEnd_keepsProfile h
  | frameStart r first => exact execFrameStart_keepsProfile h
  | lengthLimitEnd r => exact execLengthLimitEnd_keepsProfile h
  | frameEnd r rest => exact execFrameEnd_keepsProfile h
  | losAssert r => cases h; exact s.keepsProfile_losAssert r
  | losRelease r => cases h; exact .of_keys (by simp) (by simp) (by simp) (by simp) (by simp)
  | laneReport r record => cases h; exact .of_keys (by simp) (by simp) (by simp) (by simp) (by simp)
  | silenceExpiry r => cases h; exact .of_keys (by simp) (by simp) (by simp) (by simp) (by simp)
  | probeRequest r => exact execProbeRequest_keepsProfile h
  | probeTimeout r => exact execProbeTimeout_keepsProfile h
  | testRequest r => exact execTestRequest_keepsProfile h
  | offer r => cases h; exact .of_keys (by simp) (by simp) (by simp) (by simp) (by simp)
  | sendStart p => exact execSendStart_keepsProfile h
  | sendEnd p status body crc => exact execSendEnd_keepsProfile h
  | outboundTurn p => exact execOutboundTurn_keepsProfile h
  | outboundFrameEnd p => exact execOutboundFrameEnd_keepsProfile h
  | linkDown p => exact execLinkDown_keepsProfile h
  | linkUp p => exact execLinkUp_keepsProfile h
  | badInboundEnvelope p => exact execBadInboundEnvelope_keepsProfile h
  | unknownDirective p status body crc => exact execUnknownDirective_keepsProfile h
  | readTable d =>
    cases h
    refine s.keepsProfile_openDirective d 2 2 fun u => ?_
    rw [State.ownReadTable_fst]
    exact .refl u
  | watch d => cases h; exact s.keepsProfile_openDirective d 3 2 fun u => u.keepsProfile_ownWatch d
  | pause d =>
    cases h
    exact s.keepsProfile_ownedDirective d 4 (fun _ => rfl) fun _ => .inr ⟨by rintro ⟨⟩, rfl⟩
  | resume d =>
    cases h
    exact s.keepsProfile_ownedDirective d 5 (fun _ => rfl) fun _ => .inr ⟨by rintro ⟨⟩, rfl⟩
  | clearCounts d =>
    cases h
    exact s.keepsProfile_ownedDirective d 6 (fun x => x.clearCounts_key.1) fun x => .inl x.clearCounts_key.2
  | setIdentity d => cases h; exact s.keepsProfile_operatorDirective d 7 3 fun u _ => u.keepsProfile_ownSetIdentity d
  | setPeer d => cases h; exact s.keepsProfile_operatorDirective d 8 3 fun u _ => u.keepsProfile_ownSetPeer d
  | setRoute d => cases h; exact s.keepsProfile_operatorDirective d 9 7 fun u _ => u.keepsProfile_ownSetRoute d
  | setLane d => cases h; exact s.keepsProfile_operatorDirective d 10 7 fun u _ => u.keepsProfile_ownSetLane d
  | setHealth d => cases h; exact s.keepsProfile_operatorDirective d 11 9 fun u _ => u.keepsProfile_ownSetHealth d
  | setProbe d => cases h; exact s.keepsProfile_operatorDirective d 12 4 fun u _ => u.keepsProfile_ownSetProbe d
  | setCalendar d => cases h; exact s.keepsProfile_operatorDirective d 14 17 fun u _ => u.keepsProfile_ownSetCalendar d
  | openCircuit d =>
    cases h; exact s.keepsProfile_operatorDirective d 15 10 fun u hrun => u.keepsProfile_ownOpenCircuit d hrun
  | closeCircuit d =>
    cases h; exact s.keepsProfile_operatorDirective d 16 1 fun u _ => u.keepsProfile_ownCloseCircuit d
  | forceRoute d => cases h; exact s.keepsProfile_operatorDirective d 17 2 fun u _ => u.keepsProfile_ownForceRoute d
  | releaseRoute d => cases h; exact s.keepsProfile_operatorDirective d 18 1 fun u _ => u.keepsProfile_ownReleaseRoute d
  | testRoute d => cases h; exact s.keepsProfile_operatorDirective d 19 1 fun u _ => u.keepsProfile_ownTestRoute d
  | saveProfile d =>
    cases h; exact s.keepsProfile_operatorDirective d 20 0 fun u hrun => u.keepsProfile_ownSaveProfile d hrun
  | saveComplete result => exact State.keepsProfile_execSaveComplete h
  | restart d => cases h; exact s.keepsProfile_operatorDirective d 21 0 fun u _ => u.keepsProfile_restart d.port d.request
  | miss p first => exact execMiss_keepsProfile h

/-- Settles O60: each command keeps the settings, the circuits, the snapshot and the flash sound, and taking in what comes from
outside touches none of them. -/
theorem profileKept : Obligations.ProfileKept := by
  intro s t h
  rcases step_cases h with ⟨-, rfl⟩ | ⟨c, rest, -, hc⟩
  · exact State.KeepsProfile.of_frame (by simp) (by simp) (by simp) (by simp)
  · refine State.KeepsProfile.trans ?_ (exec_keepsProfile hc)
    exact .of_frame rfl rfl rfl rfl

end Sys2Proof.Machine
end

