-- ==== Sys2Proof/Proofs/TimeRules.lean ====
section
/-! CHECK. What ADVANCE, PPS_OUT_FIRE, HOLDOVER_EXPIRY and PPS_EDGE do to terminal time, and which route is the time route
(R1, R6 to R15). -/

namespace Sys2Proof.Machine

/-! ### Steps that touch the time base and the ports alone -/

/-- A change of the time base and the ports, undone, is none. -/
theorem State.timed_frame (s : State) (x : TimeBase) (v : Vector Port 6) :
    { (s.setTime x).withPorts v with time := s.time, ports := s.ports } = s := rfl

/-- The ports after a time state taken: a change raises TIME_STATE at each (R11). -/
def State.stateNoticed (s : State) (new : TimeState) : Vector Port 6 :=
  Vector.ofFn fun p => if s.time.state = new then s.ports[p] else s.ports[p].record (.timeState new s.time.state)

/-- A time state taken touches the time base and the ports alone (R9, R11). -/
theorem State.enterTimeState_eq (s : State) (new : TimeState) :
    s.enterTimeState new = (s.setTime { s.time with state := new }).withPorts (s.stateNoticed new) := by
  unfold State.enterTimeState State.stateNoticed
  split
  · rename_i h
    have hports : (Vector.ofFn fun p : PortIx => s.ports[p]) = s.ports := by
      ext i hi
      simp
    simp only [hports]
    rw [← h]
    rfl
  · rfl

/-! ### ADVANCE and PPS_OUT_FIRE (R1, R14) -/

/-- One tick, over the 96 bits of TT and its fraction and the 64 of ET (R1). -/
theorem TimeBase.tick_sum (t : TimeBase) :
    t.tick.tt.toNat * 2 ^ 32 + t.tick.frac.toNat = (t.tt.toNat * 2 ^ 32 + t.frac.toNat + t.inc) % 2 ^ 96 := by
  simp only [TimeBase.tick, BitVec.toNat_ofNat]
  omega

theorem State.setTime_tick_frame (s : State) :
    { s.setTime s.time.tick with time := { s.time.tick with tt := s.time.tt, frac := s.time.frac, et := s.time.et } } = s := by
  obtain ⟨tt, frac, et, e⟩ := s.time.tick_eq
  rw [e]
  rfl

theorem TimeBase.tick_et (t : TimeBase) : t.tick.et = t.et + 1 := by simp [TimeBase.tick]

/-- Settles O4. -/
theorem timeAdvances : Obligations.TimeAdvances := by
  intro s
  exact ⟨⟨_, rfl, s.time.tick_sum, s.time.tick_et, s.setTime_tick_frame⟩, rfl⟩

/-! ### Holdover (R10) -/

/-- The holdover expiry is reached in ACQUIRING and LOCKED alone, once HOLDOVER_TIME has passed since the last offset. -/
theorem State.holdoverDue_iff {s : State} {since : Ticks} (h : s.time.lastOffset = some since) :
    s.holdoverDue = true ↔
      (s.time.state = .acquiring ∨ s.time.state = .locked) ∧ s.cfg.time.holdover * 125000 ≤ (s.time.et - since).toNat := by
  simp only [State.holdoverDue, h]
  cases s.time.state with
  | free => simp only [Bool.false_eq_true, reduceCtorEq, or_self, false_and]
  | holdover => simp only [Bool.false_eq_true, reduceCtorEq, or_self, false_and]
  | acquiring => simp only [decide_eq_true_eq, true_or, true_and]; rfl
  | locked => simp only [decide_eq_true_eq, or_true, true_and]; rfl

/-- Holdover begun touches the time base and the ports alone (R10, R11). -/
theorem State.judgeHoldover_of_due {s : State} (h : s.holdoverDue = true) :
    s.judgeHoldover =
      (s.setTime { s.time.retune s.time.fc 0 with good := 0, state := .holdover }).withPorts
        (Vector.ofFn fun p => s.ports[p].record (.timeState .holdover s.time.state)) := by
  obtain ⟨hstate, -⟩ := State.lastOffset_of_holdoverDue h
  have hne : s.time.state ≠ .holdover := by rcases hstate with e | e <;> simp [e]
  rw [State.judgeHoldover, if_pos h, State.enterTimeState_eq]
  have hnotes : (s.setTime { s.time.retune s.time.fc 0 with good := 0 }).stateNoticed .holdover =
      Vector.ofFn fun p => s.ports[p].record (.timeState .holdover s.time.state) := by
    unfold State.stateNoticed
    congr 1
    funext p
    exact if_neg hne
  rw [hnotes]
  rfl

theorem State.judgeHoldover_of_not_due {s : State} (h : s.holdoverDue = false) : s.judgeHoldover = s := by
  rw [State.judgeHoldover, h]
  rfl

/-- In FREE and HOLDOVER, without an accepted offset, and before the expiry, holdover does not begin. -/
theorem State.not_holdoverDue {s : State}
    (h : s.time.state = .free ∨ s.time.state = .holdover ∨ s.time.lastOffset = none ∨
      ∃ since, s.time.lastOffset = some since ∧ (s.time.et - since).toNat < s.cfg.time.holdover * 125000) :
    s.holdoverDue = false := by
  rw [← Bool.not_eq_true]
  intro hdue
  obtain ⟨hstate, since, hsince, hle⟩ := State.lastOffset_of_holdoverDue hdue
  have hle' := ((State.holdoverDue_iff hsince).1 hdue).2
  rcases h with e | e | e | ⟨since', hsince', hlt⟩
  · rw [e] at hstate; simp at hstate
  · rw [e] at hstate; simp at hstate
  · rw [e] at hsince; cases hsince
  · obtain rfl : since = since' := Option.some.inj (hsince.symm.trans hsince')
    omega

theorem retune_zero (t : TimeBase) :
    { t.retune t.fc 0 with good := 0, state := .holdover } =
      { t with
        state := .holdover, sl := 0, good := 0, p := max (-500000) (min 500000 t.fc)
        inc := incOf (max (-500000) (min 500000 t.fc)) } := by
  simp only [TimeBase.retune, totalTerm, Int.add_zero]

/-- Settles O5. -/
theorem holdoverBegins : Obligations.HoldoverBegins := by
  refine fun s since => ⟨fun hstate hsince hle => ⟨s.judgeHoldover, rfl, ?_⟩, fun h => ?_⟩
  · have hdue := (State.holdoverDue_iff hsince).2 ⟨hstate, hle⟩
    rw [State.judgeHoldover_of_due hdue, retune_zero]
    refine ⟨rfl, fun p => ?_, State.timed_frame ..⟩
    simp
  · have hnot : s.holdoverDue = false := State.not_holdoverDue (by
      rcases h with h | h | h
      · exact .inl h
      · exact .inr (.inl h)
      · exact .inr (.inr (.inr ⟨since, h⟩)))
    show Host.Outcome.next s.judgeHoldover = .next s
    rw [State.judgeHoldover_of_not_due hnot]

/-! ### PPS edges (R12, R13) -/

theorem TimeBase.glitch_of_near {t : TimeBase} {since : Ticks} (h : t.lastEdge = some since)
    (hlt : (t.et - since).toNat < 62500000) : t.glitch = true := by
  simp only [TimeBase.glitch, h, decide_eq_true_eq]
  exact hlt

theorem TimeBase.not_glitch {t : TimeBase} (h : ∀ since, t.lastEdge = some since → 62500000 ≤ (t.et - since).toNat) :
    t.glitch = false := by
  unfold TimeBase.glitch
  split
  · rfl
  · exact decide_eq_false (Nat.not_lt.2 (h _ ‹_›))

/-- An edge that is no glitch is captured, and its offset accepted for a disciplined reference. -/
theorem State.ppsEdge_of_not_glitch {s : State} (h : s.time.glitch = false) :
    s.ppsEdge =
      if s.cfg.time.role = .reference ∧ s.cfg.time.ppsEnable = true then
        (s.setTime s.time.capturePps).acceptOffset (ppsOffset s.time.tt) Config.ppsIntervalUs
      else s.setTime s.time.capturePps := by
  unfold State.ppsEdge
  rw [h]
  rfl

/-- Settles O6. -/
theorem ppsEdgeJudged : Obligations.PpsEdgeJudged := by
  refine fun s => ⟨fun since hsince hlt => ?_, fun hfar hrole => ?_⟩
  · show Host.Outcome.next s.ppsEdge = _
    rw [State.ppsEdge, if_pos (TimeBase.glitch_of_near hsince hlt)]
    rfl
  · show Host.Outcome.next s.ppsEdge = _
    rw [State.ppsEdge_of_not_glitch (TimeBase.not_glitch hfar), if_neg]
    · rfl
    · rintro ⟨href, hpps⟩
      rcases hrole with h | h
      · rw [href] at h; cases h
      · rw [hpps] at h; cases h

/-! ### Accepted offsets (R6 to R9) -/

/-- A port once terminal time has stepped or slewed by θ: TIME_STEP at a step, and TIME_STATE at a change of state (R7, R11). -/
def State.offsetNoticed (s : State) (θ : Int) (p : PortIx) : Port :=
  if s.cfg.time.stepLimit ≤ θ.natAbs then
    if s.time.state = .acquiring then s.ports[p].record (.timeStep θ)
    else (s.ports[p].record (.timeStep θ)).record (.timeState .acquiring s.time.state)
  else
    if s.time.state = (lockCount s.cfg.time.lockLimit s.time.state s.time.good θ).2 then s.ports[p]
    else s.ports[p].record (.timeState (lockCount s.cfg.time.lockLimit s.time.state s.time.good θ).2 s.time.state)

theorem State.stepTime_eq (s : State) (θ : Int) :
    ∃ x, s.stepTime θ = (s.setTime x).withPorts (Vector.ofFn fun p =>
      if s.time.state = .acquiring then s.ports[p].record (.timeStep θ)
      else (s.ports[p].record (.timeStep θ)).record (.timeState .acquiring s.time.state)) := by
  refine ⟨_, (State.enterTimeState_eq _ _).trans (congrArg (State.withPorts _) ?_)⟩
  unfold State.stateNoticed
  congr 1
  funext p
  simp [State.raiseAll, TimeBase.retune]

/-- An accepted offset touches the time base and the ports alone (R6). -/
theorem State.acceptOffset_timed (s : State) (θ : Int) (interval : Nat) :
    ∃ x, s.acceptOffset θ interval = (s.setTime x).withPorts (Vector.ofFn (s.offsetNoticed θ)) := by
  rw [State.acceptOffset_eq]
  unfold State.offsetNoticed
  split
  · obtain ⟨x, e⟩ := (s.setTime { s.time with lastOffset := some s.time.et }).stepTime_eq θ
    exact ⟨x, e⟩
  · rw [State.enterTimeState_eq]
    exact ⟨_, rfl⟩

/-- The last second fired at once PPS out has been evaluated (R14). -/
theorem TimeBase.fire_lastFired (t : TimeBase) :
    t.fire.lastFired = max t.lastFired (t.tt.toNat / 1000000000) ∧
    t.fire.ppsEdgesOut = t.ppsEdgesOut + (if t.lastFired < t.tt.toNat / 1000000000 then 1 else 0) := by
  unfold TimeBase.fire TimeBase.seconds Config.nsPerSecond
  split
  · refine ⟨?_, rfl⟩
    simp only
    omega
  · refine ⟨?_, rfl⟩
    omega

/-- The offset of a capture reaches a whole second, the nearest (R13). -/
theorem ppsOffset_spec (c : Stamp) :
    ∃ second : Nat, ppsOffset c = second * 1000000000 - c.toNat ∧ -499999999 ≤ ppsOffset c ∧ ppsOffset c ≤ 500000000 := by
  refine ⟨(c.toNat + 500000000) / 1000000000, ?_, ?_, ?_⟩
  · simp [ppsOffset, Config.nsPerSecond]
  · simp only [ppsOffset, Config.nsPerSecond]
    omega
  · simp only [ppsOffset, Config.nsPerSecond]
    omega

/-- At an interval of one second EST is the offset itself (R8). -/
theorem estOf_second (θ : Int) : estOf θ Config.ppsIntervalUs = θ := by
  simp [estOf, Config.ppsIntervalUs, Int.mul_tdiv_cancel]

theorem State.acceptOffset_port (s : State) (θ : Int) (interval : Nat) (p : PortIx) :
    (s.acceptOffset θ interval).ports[p] = s.offsetNoticed θ p := by
  obtain ⟨x, e⟩ := s.acceptOffset_timed θ interval
  rw [e, State.withPorts_ports, Fin.getElem_fin, Vector.getElem_ofFn]

theorem State.acceptOffset_frame (s : State) (θ : Int) (interval : Nat) :
    { s.acceptOffset θ interval with time := s.time, ports := s.ports } = s := by
  obtain ⟨x, e⟩ := s.acceptOffset_timed θ interval
  rw [e]
  rfl

/-- What every accepted offset does to the time base (R2, R6). -/
theorem State.acceptOffset_always (s : State) (θ : Int) (interval : Nat) :
    (s.acceptOffset θ interval).time.lastOffset = some s.time.et ∧
    (s.acceptOffset θ interval).time.et = s.time.et ∧
    (s.acceptOffset θ interval).time.capture = s.time.capture ∧
    (s.acceptOffset θ interval).time.accepted = s.time.accepted ∧
    (s.acceptOffset θ interval).time.glitches = s.time.glitches ∧
    (s.acceptOffset θ interval).time.lastEdge = s.time.lastEdge ∧
    (s.acceptOffset θ interval).time.p =
      max (-500000) (min 500000 ((s.acceptOffset θ interval).time.fc + (s.acceptOffset θ interval).time.sl)) ∧
    (s.acceptOffset θ interval).time.inc = incOf (s.acceptOffset θ interval).time.p := by
  rw [State.acceptOffset_time]
  split
  · simp [TimeBase.retune, totalTerm]
  · exact ⟨rfl, rfl, rfl, rfl, rfl, rfl, rfl, rfl⟩

/-- What the step of R7 does to the time base. -/
theorem State.acceptOffset_of_step {s : State} {θ : Int} (h : s.cfg.time.stepLimit ≤ θ.natAbs) (interval : Nat) :
    (s.acceptOffset θ interval).time.fc = s.time.fc ∧ (s.acceptOffset θ interval).time.sl = 0 ∧
    (s.acceptOffset θ interval).time.good = 0 ∧ (s.acceptOffset θ interval).time.state = .acquiring ∧
    (0 ≤ (s.time.tt.toNat : Int) + θ →
      (s.acceptOffset θ interval).time.tt = BitVec.ofInt 64 (s.time.tt.toNat + θ) ∧
      (s.acceptOffset θ interval).time.frac = s.time.frac) ∧
    ((s.time.tt.toNat : Int) + θ < 0 →
      (s.acceptOffset θ interval).time.tt = 0 ∧ (s.acceptOffset θ interval).time.frac = 0) ∧
    (s.acceptOffset θ interval).time.lastFired =
      max s.time.lastFired ((s.acceptOffset θ interval).time.tt.toNat / 1000000000) ∧
    (s.acceptOffset θ interval).time.ppsEdgesOut = s.time.ppsEdgesOut +
      (if s.time.lastFired < (s.acceptOffset θ interval).time.tt.toNat / 1000000000 then 1 else 0) := by
  rw [State.acceptOffset_time, if_pos h]
  refine ⟨?_, ?_, rfl, rfl, fun hpos => ?_, fun hneg => ?_, ?_, ?_⟩
  · simp [TimeBase.retune]
  · simp [TimeBase.retune]
  · simp [TimeBase.retune, TimeBase.stepBy, Int.not_lt.2 hpos]
  · simp [TimeBase.retune, TimeBase.stepBy, hneg]
  · simp [TimeBase.fire_lastFired, TimeBase.retune]
  · simp [TimeBase.fire_lastFired, TimeBase.retune]

/-- What the slew of R8 and the lock count of R9 do to the time base. -/
theorem State.acceptOffset_of_slew {s : State} {θ : Int} (h : θ.natAbs < s.cfg.time.stepLimit) (interval : Nat) :
    (s.acceptOffset θ interval).time.tt = s.time.tt ∧ (s.acceptOffset θ interval).time.frac = s.time.frac ∧
    (s.acceptOffset θ interval).time.lastFired = s.time.lastFired ∧
    (s.acceptOffset θ interval).time.ppsEdgesOut = s.time.ppsEdgesOut ∧
    (s.acceptOffset θ interval).time.fc =
      max (-200000) (min 200000 (s.time.fc + (estOf θ interval).tdiv (2 ^ s.cfg.time.ki : Nat))) ∧
    (s.acceptOffset θ interval).time.sl = (estOf θ interval).tdiv (2 ^ s.cfg.time.kp : Nat) ∧
    ((s.acceptOffset θ interval).time.good, (s.acceptOffset θ interval).time.state) =
      lockCount s.cfg.time.lockLimit s.time.state s.time.good θ := by
  rw [State.acceptOffset_time, if_neg (Nat.not_le.2 h)]
  exact ⟨rfl, rfl, rfl, rfl, rfl, rfl, rfl⟩

/-- Settles O7. -/
theorem ppsOffsetDisciplines : Obligations.PpsOffsetDisciplines := by
  intro s hfar hrole hpps
  obtain ⟨second, hθ, hlow, hhigh⟩ := ppsOffset_spec s.time.tt
  have hedge : s.ppsEdge = (s.setTime s.time.capturePps).acceptOffset (ppsOffset s.time.tt) Config.ppsIntervalUs := by
    rw [State.ppsEdge_of_not_glitch (TimeBase.not_glitch hfar), if_pos ⟨hrole, hpps⟩]
  generalize ppsOffset s.time.tt = θ at *
  generalize hu : s.setTime s.time.capturePps = u at hedge
  have hport (p : PortIx) : (u.acceptOffset θ Config.ppsIntervalUs).ports[p] = s.offsetNoticed θ p := by
    rw [State.acceptOffset_port, ← hu]
    rfl
  have hframe : { u.acceptOffset θ Config.ppsIntervalUs with time := s.time, ports := s.ports } = s := by
    have h := u.acceptOffset_frame θ Config.ppsIntervalUs
    subst hu
    exact congrArg (fun t : State => { t with time := s.time, ports := s.ports }) h
  obtain ⟨hlast, het, hcapture, haccepted, hglitches, hedge', hp, hinc⟩ := u.acceptOffset_always θ Config.ppsIntervalUs
  have hroute := u.acceptOffset_timeRoute θ Config.ppsIntervalUs
  have hstep : s.cfg.time.stepLimit ≤ θ.natAbs → _ := fun h =>
    State.acceptOffset_of_step (s := u) (θ := θ) (by rw [← hu]; exact h) Config.ppsIntervalUs
  have hslew : θ.natAbs < s.cfg.time.stepLimit → _ := fun h =>
    State.acceptOffset_of_slew (s := u) (θ := θ) (by rw [← hu]; exact h) Config.ppsIntervalUs
  generalize u.acceptOffset θ Config.ppsIntervalUs = t at *
  subst hu
  refine ⟨t, θ, second, congrArg Host.Outcome.next hedge, hθ, hlow, hhigh, hlast, hcapture, haccepted, hedge', fun h => ?_,
    fun h => ?_, hp, hinc, ?_, het, hroute, hglitches, hframe⟩
  · obtain ⟨hfc, hsl, hgood, hstate, hpos, -, hfired, -⟩ := hstep h
    refine ⟨(hpos ?_).1, hfc, hsl, hgood, hstate, hfired, fun p => ?_⟩
    · show (0 : Int) ≤ (s.time.tt.toNat : Int) + θ
      omega
    · rw [hport, State.offsetNoticed, if_pos h]
  · obtain ⟨htt, -, hfired, -, hfc, hsl, hlock⟩ := hslew h
    rw [estOf_second] at hfc hsl
    refine ⟨htt, hfired, hfc, hsl, hlock, fun p => ?_⟩
    have hstate : t.time.state = (lockCount s.cfg.time.lockLimit s.time.state s.time.good θ).2 := congrArg Prod.snd hlock
    rw [hport, State.offsetNoticed, if_neg (Nat.not_le.2 h), ← hstate]
    simp only [eq_comm]
  · by_cases h : s.cfg.time.stepLimit ≤ θ.natAbs
    · obtain ⟨-, -, -, -, hpos, -, -, -⟩ := hstep h
      refine (hpos ?_).2
      show (0 : Int) ≤ (s.time.tt.toNat : Int) + θ
      omega
    · exact (hslew (Nat.lt_of_not_le h)).2.1

/-! ### The time route (R15) -/

/-- The least RTT of a list is that of one of its samples, and none is below it (R49). -/
theorem leastRtt_eq_some {ring : List Sample} (h : ring ≠ []) :
    ∃ x ∈ ring, leastRtt ring = some x.rtt ∧ ∀ y ∈ ring, x.rtt ≤ y.rtt := by
  induction ring with
  | nil => exact absurd rfl h
  | cons a ring ih =>
    rw [leastRtt]
    by_cases hnil : ring = []
    · subst hnil
      exact ⟨a, List.mem_cons_self .., rfl, by simp⟩
    · obtain ⟨x, hx, e, hle⟩ := ih hnil
      rw [e]
      by_cases hax : a.rtt ≤ x.rtt
      · refine ⟨a, List.mem_cons_self .., by simp [Nat.min_eq_left hax], fun y hy => ?_⟩
        rcases List.mem_cons.1 hy with rfl | hy
        · exact Nat.le_refl _
        · exact hax.trans (hle y hy)
      · refine ⟨x, List.mem_cons_of_mem _ hx, by simp [Nat.min_eq_right (Nat.le_of_not_le hax)], fun y hy => ?_⟩
        rcases List.mem_cons.1 hy with rfl | hy
        · exact Nat.le_of_not_le hax
        · exact hle y hy

/-- The first element of least figure, of a list in rising order, is least in figure and then in itself. -/
theorem leastBy_spec {n : Nat} (f : Fin n → Nat) {l : List (Fin n)} (hl : l.Pairwise (· < ·)) (hne : l ≠ []) :
    ∃ y ∈ l, leastBy f l = some y ∧ ∀ z ∈ l, f y < f z ∨ (f y = f z ∧ y ≤ z) := by
  induction l with
  | nil => exact absurd rfl hne
  | cons x xs ih =>
    rw [List.pairwise_cons] at hl
    obtain ⟨hx, hxs⟩ := hl
    rw [leastBy]
    by_cases hnil : xs = []
    · subst hnil
      exact ⟨x, List.mem_cons_self .., rfl, by simp⟩
    · obtain ⟨y, hy, e, hleast⟩ := ih hxs hnil
      rw [e]
      dsimp only
      by_cases hxy : f x ≤ f y
      · refine ⟨x, List.mem_cons_self .., if_pos hxy, fun z hz => ?_⟩
        rcases List.mem_cons.1 hz with rfl | hz
        · exact .inr ⟨rfl, le_refl _⟩
        · have hxz := hx z hz
          rcases hleast z hz with h | ⟨h, -⟩
          · exact .inl (by omega)
          · rcases Nat.lt_or_eq_of_le hxy with h' | h'
            · exact .inl (by omega)
            · exact .inr ⟨h'.trans h, hxz.le⟩
      · refine ⟨y, List.mem_cons_of_mem _ hy, if_neg hxy, fun z hz => ?_⟩
        rcases List.mem_cons.1 hz with rfl | hz
        · exact .inl (by omega)
        · exact hleast z hz

theorem leastBy_eq_none_iff {n : Nat} {f : Fin n → Nat} {l : List (Fin n)} (hl : l.Pairwise (· < ·)) :
    leastBy f l = none ↔ l = [] := by
  refine ⟨fun h => ?_, fun h => by rw [h]; rfl⟩
  by_contra hne
  obtain ⟨y, -, e, -⟩ := leastBy_spec f hl hne
  rw [h] at e
  cases e

theorem leastBy_eq_some_iff {n : Nat} {f : Fin n → Nat} {l : List (Fin n)} (hl : l.Pairwise (· < ·)) {y : Fin n} :
    leastBy f l = some y ↔ y ∈ l ∧ ∀ z ∈ l, f y < f z ∨ (f y = f z ∧ y ≤ z) := by
  constructor
  · intro h
    have hne : l ≠ [] := fun e => by rw [(leastBy_eq_none_iff hl).2 e] at h; cases h
    obtain ⟨y', hy', e, hleast⟩ := leastBy_spec f hl hne
    obtain rfl : y' = y := Option.some.inj (e.symm.trans h)
    exact ⟨hy', hleast⟩
  · rintro ⟨hy, hleast⟩
    obtain ⟨y', hy', e, hleast'⟩ := leastBy_spec f hl (List.ne_nil_of_mem hy)
    have hyy' : y' = y := by
      have h := hleast y' hy'
      have h' := hleast' y hy
      omega
    rw [e, hyy']

/-- A list of routes picked in index order is in rising order. -/
theorem pairwise_lt_filter_finRange (n : Nat) (p : Fin n → Bool) : ((List.finRange n).filter p).Pairwise (· < ·) :=
  (List.pairwise_lt_finRange n).filter p

/-- A route has a least RTT just when its ring holds a sample (R49). -/
theorem Probe.m_isSome (p : Probe) : p.m.isSome = true ↔ p.ring ≠ [] := by
  constructor
  · intro h e
    simp [Probe.m, e, leastRtt] at h
  · intro h
    obtain ⟨x, -, e, -⟩ := leastRtt_eq_some h
    simp [Probe.m, e]

theorem RouteState.carries_iff (x : RouteState) : x.carries = true ↔ x = .up ∨ x = .fading := by
  cases x <;> simp [RouteState.carries]

theorem State.qualifies_iff (s : State) (r : RouteIx) :
    s.qualifies r = true ↔
      s.cfg.routes[r].peer = s.cfg.time.followed ∧ (s.health[r].state = .up ∨ s.health[r].state = .fading) ∧
        s.probes[r].ring ≠ [] := by
  simp only [State.qualifies, Bool.and_eq_true, decide_eq_true_eq, Probe.m_isSome, RouteState.carries_iff, and_assoc]

/-- Settles O9. -/
theorem timeRouteIsLeast : Obligations.TimeRouteIsLeast := by
  intro s hsound
  rw [State.TimeRouteSound] at hsound
  have hsorted := pairwise_lt_filter_finRange 16 fun r => s.qualifies r
  have hmem (r : RouteIx) : (r ∈ (List.finRange 16).filter fun r => s.qualifies r) ↔ s.qualifies r = true := by
    simp
  refine ⟨fun hrole => ?_, fun hrole => ?_, fun r => ⟨fun hnil => ?_, fun hne => ?_⟩⟩
  · rw [hsound, State.bestTimeRoute, hrole]
  · have hbest : s.time.timeRoute = leastBy _ _ := hsound.trans (by rw [State.bestTimeRoute, hrole])
    refine ⟨?_, fun r => ?_⟩
    · rw [hbest, leastBy_eq_none_iff hsorted, List.filter_eq_nil_iff]
      simp only [List.mem_finRange, true_implies, State.qualifies_iff]
    · rw [hbest, leastBy_eq_some_iff hsorted]
      simp only [hmem, State.qualifies_iff, and_imp]
  · rw [Probe.m, hnil]; rfl
  · exact leastRtt_eq_some hne

end Sys2Proof.Machine
end

