-- ==== Sys2Proof/Proofs/Fields.lean ====
section
/-! SUPPORT. Fields written and read back (R193), and the notices that a directive's effects raise beside its answer (R166). -/

namespace Sys2Proof.Machine

/-! ### Fields -/

/-- The bytes of a value, read most significant first after `v`, give the value modulo its width. -/
theorem foldl_bytesOf (n v acc : Nat) :
    (bytesOf n v).foldl (fun a (b : Byte) => 256 * a + b.toNat) acc = acc * 256 ^ n + v % 256 ^ n := by
  induction n generalizing acc with
  | zero => simp [bytesOf, Nat.mod_one]
  | succ n ih =>
    have hbyte : (BitVec.ofNat 8 (v / 256 ^ n)).toNat = v / 256 ^ n % 256 := BitVec.toNat_ofNat ..
    have hsplit : v % 256 ^ (n + 1) = v % 256 ^ n + 256 ^ n * (v / 256 ^ n % 256) := by rw [Nat.pow_succ, Nat.mod_mul]
    rw [bytesOf, List.foldl_cons, ih, hbyte, hsplit]
    generalize v / 256 ^ n % 256 = d
    ring

theorem foldl_range_getD {α : Type} (l : List Byte) (f : α → Byte → α) (a : α) :
    (List.range l.length).foldl (fun a i => f a (l.getD i 0)) a = l.foldl f a := by
  have h : (List.range l.length).map (fun i => l.getD i 0) = l :=
    List.ext_getElem (by simp) fun i hi hi' => by simp [hi']
  calc (List.range l.length).foldl (fun a i => f a (l.getD i 0)) a
      = ((List.range l.length).map fun i => l.getD i 0).foldl f a := by rw [List.foldl_map]
    _ = l.foldl f a := by rw [h]

/-- Where a value's bytes stand at an offset, the field there is the value. -/
theorem field_of_take {bs : List Byte} {off n v : Nat} (h : (bs.drop off).take n = bytesOf n v) (hv : v < 256 ^ n) :
    field bs off n = v := by
  have hbyte (i : Nat) (hi : i < n) : bs.getD (off + i) 0 = (bytesOf n v).getD i 0 := by
    rw [← h]
    simp [List.getD, hi]
  calc field bs off n
      = (List.range n).foldl (fun a i => 256 * a + ((bytesOf n v).getD i 0).toNat) 0 := by
        refine List.foldl_ext _ _ _ fun a i hi => ?_
        rw [hbyte i (List.mem_range.1 hi)]
    _ = (bytesOf n v).foldl (fun a (b : Byte) => 256 * a + b.toNat) 0 := by
        have := foldl_range_getD (bytesOf n v) (fun a (b : Byte) => 256 * a + b.toNat) 0
        rwa [length_bytesOf] at this
    _ = v := by rw [foldl_bytesOf, Nat.zero_mul, Nat.zero_add, Nat.mod_eq_of_lt hv]

/-- A field of one byte is that byte. -/
theorem field_one (bs : List Byte) (off : Nat) : field bs off 1 = (bs.getD off 0).toNat := by
  simp [field]

@[simp] theorem role_code (x : Role) : role? x.code = some x := by cases x <;> rfl

@[simp] theorem onOff_boolCode (x : Bool) : onOff? (boolCode x) = some x := by cases x <;> rfl

@[simp] theorem index_val {n : Nat} (i : Fin n) : index? n i.val = some i := by simp [index?]

theorem Role.code_lt (x : Role) : x.code < 256 := by cases x <;> decide

theorem boolCode_lt (x : Bool) : boolCode x < 256 := by cases x <;> decide

/-! ### The arguments of SET_TIME (R17, R193) -/

/-- Time settings written in their widths are read back, when they are in range (R17). -/
theorem timeArgs_timeRecord {x : TimeSettings} (hstep : x.stepLimit < 2 ^ 32) (hlock : x.lockLimit < 2 ^ 32)
    (hki : x.ki < 256) (hkp : x.kp < 256) (hholdover : x.holdover < 65536) :
    timeArgs? (timeRecord x) = if x.ok then some x else none := by
  have h0 : field (timeRecord x) 0 1 = x.role.code := field_of_take rfl x.role.code_lt
  have h1 : field (timeRecord x) 1 1 = x.followed.val := field_of_take rfl (by have := x.followed.isLt; omega)
  have h2 : field (timeRecord x) 2 1 = boolCode x.ppsEnable := field_of_take rfl (boolCode_lt _)
  have h3 : field (timeRecord x) 3 4 = x.stepLimit := field_of_take rfl hstep
  have h7 : field (timeRecord x) 7 4 = x.lockLimit := field_of_take rfl hlock
  have h11 : field (timeRecord x) 11 1 = x.ki := field_of_take rfl hki
  have h12 : field (timeRecord x) 12 1 = x.kp := field_of_take rfl hkp
  have h13 : field (timeRecord x) 13 2 = x.holdover := field_of_take rfl hholdover
  simp only [timeArgs?, h0, h1, h2, h3, h7, h11, h12, h13, role_code, index_val, onOff_boolCode]

/-- Settings in range fit the widths of their fields (R17). -/
theorem TimeSettings.fits_of_ok {x : TimeSettings} (h : x.ok = true) :
    x.stepLimit < 2 ^ 32 ∧ x.lockLimit < 2 ^ 32 ∧ x.ki < 256 ∧ x.kp < 256 ∧ x.holdover < 65536 := by
  simp only [TimeSettings.ok, Bool.and_eq_true, decide_eq_true_eq] at h
  omega

theorem le_one_of_role {v : Nat} {x : Role} (h : role? v = some x) : v ≤ 1 := by
  unfold role? at h
  split at h
  · exact Nat.zero_le _
  · exact Nat.le_refl _
  · cases h

theorem le_one_of_onOff {v : Nat} {x : Bool} (h : onOff? v = some x) : v ≤ 1 := by
  unfold onOff? at h
  split at h
  · exact Nat.zero_le _
  · exact Nat.le_refl _
  · cases h

theorem lt_of_index {n v : Nat} {i : Fin n} (h : index? n v = some i) : v < n := by
  unfold index? at h
  split at h
  · assumption
  · cases h

/-- A role, a followed peer or a PPS enable byte that names none is no argument (log entry 13). -/
theorem timeArgs_of_wild {bs : List Byte} (h : 1 < (bs.getD 0 0).toNat ∨ 3 < (bs.getD 1 0).toNat ∨ 1 < (bs.getD 2 0).toNat) :
    timeArgs? bs = none := by
  unfold timeArgs?
  split
  · rename_i role followed pps hrole hfollowed hpps
    have hr := le_one_of_role hrole
    have hf := lt_of_index hfollowed
    have hp := le_one_of_onOff hpps
    rw [field_one] at hr hf hp
    omega
  · rfl

/-! ### Notices raised before the answer -/

/-- A port that has taken a directive (R166). -/
def Port.noted (x : Port) (request : Byte) : Port :=
  { x with misses := 0, lastRequest := some request, counts := { x.counts with taken := x.counts.taken + 1 } }

theorem State.taken_eq (s : State) (d : Directive) : s.taken d = s.modPort d.port fun x => x.noted d.request := by
  simp only [State.taken, State.markerSeen, State.noteTaken, State.modPort, Fin.getElem_fin, Vector.getElem_set_self,
    Vector.set_set]
  rfl

/-- Taking a directive is nothing to the notices a port records (R173). -/
theorem Port.record_noted (x : Port) (n : Notice) (request : Byte) :
    (x.noted request).record n = (x.record n).noted request := by
  unfold Port.record
  split
  · rename_i h
    rw [if_pos (show (x.up && x.watch.getLsbD n.kind.val) = true from h)]
    rfl
  · rename_i h
    rw [if_neg (show ¬ (x.up && x.watch.getLsbD n.kind.val) = true from h)]

/-- What is noted of a directive taken, and a notice raised at every port, stand in either order. -/
theorem State.raiseAll_taken (s : State) (d : Directive) (n : Notice) : (s.taken d).raiseAll n = (s.raiseAll n).taken d := by
  have hports : ((s.taken d).raiseAll n).ports = ((s.raiseAll n).taken d).ports := by
    refine Vector.ext fun i hi => ?_
    rw [State.taken_eq, State.taken_eq]
    show ((s.modPort d.port _).mapPorts _).ports[(⟨i, hi⟩ : PortIx)] =
      ((s.mapPorts _).modPort d.port _).ports[(⟨i, hi⟩ : PortIx)]
    rw [State.mapPorts_get, State.modPort_get, State.modPort_get]
    split
    · rw [State.mapPorts_get, Port.record_noted]
    · rw [State.mapPorts_get]
  calc (s.taken d).raiseAll n = s.withPorts ((s.taken d).raiseAll n).ports := rfl
    _ = s.withPorts ((s.raiseAll n).taken d).ports := by rw [hports]
    _ = (s.raiseAll n).taken d := rfl

/-! ### SET_TIME (R17, R18) -/

/-- SET_TIME taken: the time settings replaced and the time route chosen by them, before holdover is judged (R18). -/
theorem State.rechoose_taken (s : State) (d : Directive) (x : TimeSettings) :
    ((s.taken d).setCfg { (s.taken d).cfg with time := x }).rechoose =
      State.taken { s with
        cfg := { s.cfg with time := x }
        time := { s.time with timeRoute := State.bestTimeRoute { s with cfg := { s.cfg with time := x } } } } d := by
  have hroute : State.bestTimeRoute ((s.taken d).setCfg { (s.taken d).cfg with time := x }) =
      State.bestTimeRoute { s with cfg := { s.cfg with time := x } } :=
    State.bestTimeRoute_congr (State.routeView_congr rfl rfl rfl)
  rw [State.rechoose, hroute]
  rfl

theorem State.judgeHoldover_taken (s : State) (d : Directive) : (s.taken d).judgeHoldover = s.judgeHoldover.taken d := by
  cases h : s.holdoverDue with
  | false => rw [State.judgeHoldover_of_not_due h, State.judgeHoldover_of_not_due (s := s.taken d) h]
  | true =>
    have h' : (s.taken d).holdoverDue = true := h
    have hraised (u : State) (hu : u.holdoverDue = true) : u.judgeHoldover =
        (u.raiseAll (.timeState .holdover u.time.state)).setTime
          { u.time.retune u.time.fc 0 with good := 0, state := .holdover } :=
      State.judgeHoldover_of_due hu
    have htime : (s.taken d).time = s.time := rfl
    rw [hraised _ h, hraised _ h', htime, State.raiseAll_taken]
    rfl

/-- An authorised SET_TIME with arguments in range is its effects, and the answer DONE. -/
theorem State.setTime_of_ok {s : State} {d : Directive} {x : TimeSettings} (h : s.Authorised d 13 15)
    (hargs : d.args = timeRecord x) (hok : x.ok = true) :
    exec (.setTime d) s = .next (State.answered
      (State.judgeHoldover { s with
        cfg := { s.cfg with time := x }
        time := { s.time with timeRoute := State.bestTimeRoute { s with cfg := { s.cfg with time := x } } } }) d .done []) := by
  obtain ⟨hstep, hlock, hki, hkp, hholdover⟩ := TimeSettings.fits_of_ok hok
  show Host.Outcome.next (s.operatorDirective d 13 15 (State.ownSetTime d)) = _
  rw [State.operatorDirective_of_authorised h, State.ownSetTime, hargs, timeArgs_timeRecord hstep hlock hki hkp hholdover,
    if_pos hok]
  simp only [State.applyTime, State.rechoose_taken, State.judgeHoldover_taken]
  rfl

theorem State.setTime_of_none {s : State} {d : Directive} (h : s.Authorised d 13 15) (hargs : timeArgs? d.args = none) :
    exec (.setTime d) s = .next (s.answered d .badArg []) := by
  show Host.Outcome.next (s.operatorDirective d 13 15 (State.ownSetTime d)) = _
  rw [State.operatorDirective_of_authorised h, State.ownSetTime, hargs]
  rfl

/-- Settles O8. -/
theorem setTimeTakesEffect : Obligations.SetTimeTakesEffect := by
  refine ⟨fun s d x route hauth hargs => ⟨fun hok hroute => ?_, fun hbad hstep hlock hki hkp hholdover => ?_⟩,
    fun s d hauth hwild => ?_⟩
  · rw [State.setTime_of_ok hauth hargs hok, ← hroute]
    generalize hu : ({ s with cfg := { s.cfg with time := x }, time := { s.time with timeRoute := route } } : State) = u
    have hset : u.cfg.time = x := by rw [← hu]
    have hstate' : u.time.state = s.time.state := by rw [← hu]
    have hoffset : u.time.lastOffset = s.time.lastOffset := by rw [← hu]
    have het : u.time.et = s.time.et := by rw [← hu]
    refine ⟨fun hnot => ?_, fun since hstate hsince hle => ?_⟩
    · rw [← hstate', ← hoffset, ← het, ← hset] at hnot
      rw [State.judgeHoldover_of_not_due (State.not_holdoverDue hnot)]
    · rw [← hstate'] at hstate
      rw [← het, ← hset] at hle
      rw [State.judgeHoldover_of_due ((State.holdoverDue_iff (hoffset.trans hsince)).2 ⟨hstate, hle⟩), retune_zero, ← hu]
      rfl
  · refine State.setTime_of_none hauth ?_
    rw [hargs, timeArgs_timeRecord hstep hlock hki hkp hholdover, if_neg (by simp [hbad])]
  · exact State.setTime_of_none hauth (timeArgs_of_wild hwild)

end Sys2Proof.Machine
end

