-- ==== Sys2Proof/Proofs/Reset.lean ====
section
/-! CHECK. The state after reset meets every invariant, and COLD_RESET restores it (R20, R36, R56, R59, R77, R80, R97, R116,
R134, R153, R161, R178, R182, R183, R188, R191). -/

namespace Sys2Proof.Machine

/-! ### The records of the reset state -/

theorem State.reset_lanes (r : RouteIx) : State.reset.lanes[r] = Lane.coldReset false := by simp [State.reset]
theorem State.reset_probes (r : RouteIx) : State.reset.probes[r] = Probe.blank := by simp [State.reset]
theorem State.reset_health (r : RouteIx) : State.reset.health[r] = Health.coldReset := by simp [State.reset]
theorem State.reset_tx (r : RouteIx) : State.reset.tx[r] = Tx.blank := by simp [State.reset]
theorem State.reset_score (r : RouteIx) : State.reset.score[r] = {} := by simp [State.reset]
theorem State.reset_circuits (n : CircIx) : State.reset.circuits[n] = Circuit.blank := by simp [State.reset]
theorem State.reset_peers (p : PeerIx) : State.reset.peers[p] = { forced := none, noRoute := 0 } := by
  simp [State.reset]
theorem State.reset_ports (p : PortIx) : State.reset.ports[p] = Port.coldReset false := by simp [State.reset]

/-! ### Its invariants -/

theorem State.reset_bounded : State.reset.Bounded := by
  refine ⟨fun r => ?_, fun p => ?_⟩
  · rw [State.RouteBounded, State.reset_lanes, State.reset_probes, State.reset_health, State.reset_tx, State.reset_score]
    decide
  · rw [State.PortBounded, State.reset_ports]
    decide

theorem State.reset_quiet (r : RouteIx) : State.reset.QuietRoute r := by
  rw [State.QuietRoute, State.reset_probes, State.reset_health, State.reset_tx]
  decide

theorem State.reset_figured (r : RouteIx) : State.reset.FiguredRoute r := by
  rw [State.FiguredRoute, State.reset_lanes, State.reset_probes, State.reset_health]
  refine ⟨fun h => (by cases h), fun h => (by cases h), rfl⟩

/-- After reset no slot is taken and none has a holder. -/
theorem State.reset_slotsSound : State.reset.SlotsSound := by
  refine ⟨by decide, fun k => ⟨fun _ => ?_, fun f hf => by cases hf⟩⟩
  have htx : Tx.blank.holds k = 0 := rfl
  have hlane : (Lane.coldReset false).holds k = 0 := rfl
  have hport : (Port.coldReset false).inbound.holds k = 0 := rfl
  have hdelivery : (Port.coldReset false).delivery.countP (fun e => e.slot == k) = 0 := rfl
  simp only [State.holders, State.receiving, State.reset_tx, State.reset_lanes, State.reset_ports, htx, hlane, hport, hdelivery,
    List.map_const', List.sum_replicate, smul_zero, Nat.add_zero]

theorem State.reset_copiesSound : State.reset.CopiesSound := by
  intro r
  rw [State.reset_tx]
  exact ⟨by decide, fun c hc => by cases hc⟩

theorem State.reset_closesSound : State.reset.ClosesSound := by
  have hcurrent (n : CircIx) : State.reset.currentCopies n = 0 := by
    simp only [State.currentCopies, State.reset_tx]
    rfl
  intro n
  rw [State.reset_circuits, hcurrent]
  refine ⟨fun k hk => (by cases hk), fun _ => ⟨?_, rfl⟩, fun h => absurd h (by decide)⟩
  simp only [State.waitingOf, State.reset_tx]
  rfl

theorem State.reset_answersSound : State.reset.AnswersSound := by
  refine ⟨fun p => ?_, fun p => ?_, fun _ => rfl, fun _ => rfl⟩
  · rw [State.reset_ports]
    exact ⟨Nat.zero_le _, fun _ => Nat.zero_le _⟩
  · rw [State.reset_ports]
    intro h
    cases h

theorem State.reset_profileSound : State.reset.ProfileSound := by
  refine ⟨Settings.safe_inRange, fun n => State.circuitSound_of_blank (State.reset_circuits n), fun _ n => ?_, ?_, rfl⟩
  · rw [State.reset_circuits]; rfl
  · rintro job ⟨⟩

/-- Settles O3. -/
theorem resetMeetsInvariants : Obligations.ResetMeetsInvariants := by
  refine ⟨TimeBase.coldReset_sound, rfl, State.reset_bounded, fun r _ => ?_, State.reset_quiet, State.reset_figured,
    fun r _ => ?_,
    ⟨fun p r h => ?_, fun _ p => ?_⟩, fun n => ?_, State.reset_slotsSound, State.reset_copiesSound, State.reset_closesSound,
    State.reset_answersSound, State.reset_profileSound⟩
  · rw [State.reset_health]; rfl
  · rw [State.reset_tx]; rfl
  · rw [State.reset_peers] at h; cases h
  · rw [State.reset_peers]
  · rw [State.reset_circuits]; decide

/-! ### COLD_RESET -/

/-- A slot of the default calendar (R134). -/
theorem Calendar.default_get (i : Fin 16) : Calendar.default[i] =
    if _h : i.val < 12 then some (⟨i.val % 6, Nat.mod_lt _ (by decide)⟩ : PortIx) else none := by
  revert i
  decide

/-- A cold reset is the reset state but for what is as sensed, and for what waits or is to come. -/
theorem State.coldReset_eq (s : State) (m : List Host.Cell) :
    s.coldReset m =
      { State.reset with
        lanes := Vector.ofFn fun r => { State.reset.lanes[r] with los := s.lanes[r].los }
        ports := Vector.ofFn fun p =>
          { State.reset.ports[p] with
            up := s.ports[p].up
            receiver :=
              { unit := [], fills := 0, hunting := false, lastByte := s.ports[p].receiver.lastByte.map fun _ => 0 } }
        profile := { State.reset.profile with restarts := s.profile.restarts }
        flash := m
        pending := s.pending
        arriving := s.arriving } := by
  simp only [State.reset_lanes, State.reset_ports]
  rfl

/-- Settles O52. -/
theorem coldResetRestoresReset : Obligations.ColdResetRestoresReset := by
  refine ⟨fun s left m h => ?_, ?_, rfl, rfl, rfl, rfl, rfl, rfl, rfl, fun p => ?_, fun r => ⟨?_, ?_, fun i => ?_, ?_, ?_, ?_⟩,
    fun n => ?_, fun p => ?_⟩
  · rw [← State.coldReset_eq]
    rcases h with ⟨hsave, rfl⟩ | ⟨job, hsave, hwf, rfl⟩
    · show execColdReset left s = _
      rw [execColdReset, hsave]
    · show execColdReset left s = _
      rw [execColdReset, hsave]
      exact if_pos hwf
  · simp [State.reset, TimeBase.coldReset, Config.nominalInc]
  · simp [State.reset, Settings.safe]
  · simp [State.reset, Settings.safe, LaneSettings.safe]
  · simp [State.reset, Settings.safe]
  · rw [← Calendar.default_get]
    simp [State.reset, Settings.safe]
  · rw [State.reset_health]; rfl
  · rw [State.reset_tx]; rfl
  · rw [State.reset_lanes]; rfl
  · rw [State.reset_circuits]; exact ⟨rfl, rfl⟩
  · rw [State.reset_ports]; exact ⟨rfl, rfl, rfl⟩

end Sys2Proof.Machine
end

