-- ==== Sys2Proof/Proofs/Readings.lean ====
section
/-! CHECK. READ_TIME and READ_TABLE change nothing, and each reading is its fields in table order (R19, R35, R58, R96, R115,
R133, R148, R160, R171, R191, R192, R194). -/

namespace Sys2Proof.Machine

/-! ### Forms of fields (R194) -/

theorem optBytes_map {α : Type} (n : Nat) (f : α → List Byte) (x : Option α) : optBytes n id (x.map f) = optBytes n f x := by
  cases x <;> rfl

theorem optBytes_some {α : Type} (n : Nat) (f : α → List Byte) (x : α) : optBytes n f (some x) = 1 :: f x := rfl

theorem optBytes_none {α : Type} (n : Nat) (f : α → List Byte) : optBytes n f none = 0 :: List.replicate n 0 := rfl

/-- A set of the eight kinds in two bytes (R172). -/
theorem bytesOf_watch (w : BitVec 8) : bytesOf 2 w.toNat = [0, w] := by
  have h : w.toNat / 256 = 0 := Nat.div_eq_of_lt w.isLt
  simp [bytesOf, h]

theorem flatMap_toList {α : Type} {n : Nat} (v : Vector α n) (f : α → List Byte) :
    v.toList.flatMap f = (List.finRange n).flatMap fun k => f v[k] := by
  have h : v.toList = (List.finRange n).map fun k => v[k] :=
    List.ext_getElem (by simp) fun i hi hi' => by simp
  rw [h, List.flatMap_map]

theorem numberBytes_eq : numberBytes = bytesOf 4 := rfl

theorem listBytes_map {α : Type} (f : α → List Byte) (xs : List α) : listBytes id (xs.map f) = listBytes f xs := by
  simp [listBytes, List.flatMap]

theorem length_optBytes {α : Type} {n : Nat} {f : α → List Byte} (h : ∀ x, (f x).length = n) (x : Option α) :
    (optBytes n f x).length = n + 1 := by
  cases x with
  | none => simp [optBytes]
  | some a => simp [optBytes, h]

theorem bytesOf_one (v : Nat) : bytesOf 1 v = [BitVec.ofNat 8 v] := by simp [bytesOf]

/-- Bytes side by side, however they are grouped. -/
theorem reportBytes_eq : reportBytes = fun x => List.flatten
    [bytesOfInt 2 x.rsl, bytesOf 1 x.step, bytesOf 2 x.quality,
     bytesOf 1 (boolCode x.fault + 2 * boolCode x.temp + 4 * boolCode x.mute)] := by
  funext x
  simp [reportBytes]

theorem currentBytes_eq : currentBytes = fun c => List.flatten
    [bytesOf 1 c.kind.code, optBytes 3 id (c.copy.map fun x => bytesOf 1 x.circuit.val ++ bytesOf 2 x.seq.toNat),
     bytesOf 4 c.untaken] := by
  funext c
  simp [currentBytes, optBytes_map, circSeq, numberBytes]

theorem State.sampleBytes_eq (u : State) (r : RouteIx) : u.sampleBytes r = fun x => List.flatten
    [[x.number], bytesOf 8 x.rtt, bytesOfInt 8 x.d, bytesOfInt 8 ((x.d - u.cfg.routes[r].a) / 2),
     bytesOf 8 ((u.time.et - x.at_).toNat * 8)] := by
  funext x
  simp only [State.sampleBytes, theta, ageNs, ticksSince, List.flatten_cons, List.flatten_nil, List.append_nil,
    List.append_assoc]

theorem State.outstandingBytes_eq (u : State) : u.outstandingBytes = fun o => List.flatten
    [[o.number], bytesOf 8 o.t1.toNat, bytesOf 8 ((u.time.et - o.sentAt).toNat * 8)] := by
  funext x
  simp only [State.outstandingBytes, ageNs, ticksSince, List.flatten_cons, List.flatten_nil, List.append_nil,
    List.append_assoc]

theorem State.viewBytes_eq (u : State) : u.viewBytes = fun v => List.flatten
    [[v.state], bytesOf 4 v.errors.toNat, bytesOf 8 ((u.time.et - v.at_).toNat * 8)] := by
  funext x
  simp only [State.viewBytes, numberBytes, ageNs, ticksSince, List.flatten_cons, List.flatten_nil, List.append_nil,
    List.append_assoc]

theorem chargedBytes_eq (queue : List Copy) : chargedBytes queue = fun p => List.flatten
    [bytesOf 4 (queue.countP fun c => decide (c.port = p)),
     optBytes 3 id ((queue.find? fun c => decide (c.port = p)).map fun c =>
       bytesOf 1 c.circuit.val ++ bytesOf 2 c.seq.toNat)] := by
  funext p
  simp [chargedBytes, optBytes_map, circSeq, numberBytes, List.countP_eq_length_filter, List.head?_filter]

theorem recordBytes_eq : recordBytes = fun x => List.flatten
    [bytesOf 4 x.count, optBytes 2 id ((x.latest.bind Notice.subject).map (bytesOf 2)),
     optBytes 8 id (x.latest.map Notice.detail)] := by
  funext x
  simp only [recordBytes, optBytes_map, numberBytes, List.flatten_cons, List.flatten_nil, List.append_nil, List.append_assoc]

theorem saveOutcomeBytes_eq : saveOutcomeBytes = fun x =>
    match x with
    | .done => [0, 0, 0]
    | .flashError step => [9, 1, BitVec.ofNat 8 (step.val + 1)] := by
  funext x
  cases x with
  | done => rfl
  | flashError step => simp [saveOutcomeBytes, SaveOutcome.status, SaveOutcome.failedStep, Status.code, optBytes, bytesOf_one]

/-! ### READ_TIME and READ_TABLE (R19, R170) -/

theorem State.length_timeReading (u : State) : u.timeReading.length = 74 := by
  simp [State.timeReading, numberBytes, countBytes, length_optBytes]

theorem State.take_timeReading (u : State) :
    u.timeReading.take 18 =
      bytesOf 8 u.time.tt.toNat ++ bytesOf 8 u.time.et.toNat ++
        [BitVec.ofNat 8 u.time.state.code, BitVec.ofNat 8 u.cfg.time.role.code] := by
  rw [State.timeReading, bytesOf_one, bytesOf_one]
  rfl

theorem State.readTime_of_reaches {s : State} {d : Directive} (h : s.Reaches d 1 0) :
    exec (.readTime d) s = .next (s.answered d .done s.timeReading) := by
  show Host.Outcome.next (s.openDirective d 1 0 State.ownReadTime) = _
  rw [State.openDirective_of_reaches h]
  rfl

/-- A reading at an index of its table. -/
theorem State.readAt_of_val {n : Nat} (u : State) (reading : Fin n → List Byte) {i : Fin n} {v : Nat} (h : i.val = v) :
    u.readAt reading v = u.results (reading i) := by
  rw [State.readAt, ← h, index_val]

/-- An index outside its table. -/
theorem State.readAt_of_le {n : Nat} (u : State) (reading : Fin n → List Byte) {v : Nat} (h : n ≤ v) :
    u.readAt reading v = u.reply .notFound := by
  rw [State.readAt, index?, dif_neg (Nat.not_lt.2 h)]

/-- READ_TABLE that reaches its owner is answered as its table and index have it. -/
theorem State.readTable_of_reaches {s : State} {d : Directive} (h : s.Reaches d 2 2) {status : Status} {results : List Byte}
    (howner : (s.taken d).ownReadTable d = (s.taken d, some (status, results))) :
    exec (.readTable d) s = .next (s.answered d status results) := by
  show Host.Outcome.next (s.openDirective d 2 2 (State.ownReadTable d)) = _
  rw [State.openDirective_of_reaches h, howner]
  rfl

/-- The tables of R170, by their codes. -/
theorem State.ownReadTable_of_args {u : State} {d : Directive} {code i : Byte} (h : d.args = [code, i]) :
    u.ownReadTable d =
      match code.toNat with
      | 0 => u.readAt u.routeReading i.toNat
      | 1 => u.readAt u.laneReading i.toNat
      | 2 => u.readAt u.peerReading i.toNat
      | 3 => u.readAt u.circuitReading i.toNat
      | 4 => u.readAt u.calendarReading i.toNat
      | 5 => u.readAt u.samplesReading i.toNat
      | 6 => u.readAt u.scoreReading i.toNat
      | 7 => u.readAt (n := 1) (fun _ => u.poolReading) i.toNat
      | 8 => u.readAt u.portReading i.toNat
      | _ => u.reply .badArg := by
  rw [State.ownReadTable, h, field_one, field_one]
  rfl

/-- An index outside the range of its table is answered NOT_FOUND (R170). -/
theorem State.ownReadTable_of_wild_index {u : State} {d : Directive} {code i : Byte} (h : d.args = [code, i])
    (hcode : code.toNat < 9) (hi : [16, 16, 4, 64, 16, 16, 16, 1, 6].getD code.toNat 0 ≤ i.toNat) :
    u.ownReadTable d = u.reply .notFound := by
  rw [State.ownReadTable_of_args h]
  generalize code.toNat = c at *
  interval_cases c
  all_goals exact u.readAt_of_le _ hi

/-- A code that names no table is answered BAD_ARG (R170). -/
theorem State.ownReadTable_of_wild_code {u : State} {d : Directive} {code i : Byte} (h : d.args = [code, i])
    (hcode : 9 ≤ code.toNat) : u.ownReadTable d = u.reply .badArg := by
  rw [State.ownReadTable_of_args h]
  obtain ⟨k, hk⟩ := Nat.exists_eq_add_of_le' hcode
  rw [hk]
  rfl

theorem State.readTable_spec {s : State} {d : Directive} (h : s.Reaches d 2 2) {code i : Byte} (hargs : d.args = [code, i]) :
    (∀ r : RouteIx, r.val = i.toNat →
      (code = 0 → exec (.readTable d) s = .next (s.answered d .done ((s.taken d).routeReading r))) ∧
      (code = 1 → exec (.readTable d) s = .next (s.answered d .done ((s.taken d).laneReading r))) ∧
      (code = 4 → exec (.readTable d) s = .next (s.answered d .done ((s.taken d).calendarReading r))) ∧
      (code = 5 → exec (.readTable d) s = .next (s.answered d .done ((s.taken d).samplesReading r))) ∧
      (code = 6 → exec (.readTable d) s = .next (s.answered d .done ((s.taken d).scoreReading r)))) ∧
    (code = 2 → ∀ p : PeerIx, p.val = i.toNat →
      exec (.readTable d) s = .next (s.answered d .done ((s.taken d).peerReading p))) ∧
    (code = 3 → ∀ n : CircIx, n.val = i.toNat →
      exec (.readTable d) s = .next (s.answered d .done ((s.taken d).circuitReading n))) ∧
    (code = 7 → i = 0 → exec (.readTable d) s = .next (s.answered d .done (s.taken d).poolReading)) ∧
    (code = 8 → ∀ p : PortIx, p.val = i.toNat →
      exec (.readTable d) s = .next (s.answered d .done ((s.taken d).portReading p))) := by
  have howner := State.ownReadTable_of_args (u := s.taken d) hargs
  refine ⟨fun r hr => ⟨?_, ?_, ?_, ?_, ?_⟩, ?_, ?_, ?_, ?_⟩
  · rintro rfl; exact State.readTable_of_reaches h (howner.trans (State.readAt_of_val _ _ hr))
  · rintro rfl; exact State.readTable_of_reaches h (howner.trans (State.readAt_of_val _ _ hr))
  · rintro rfl; exact State.readTable_of_reaches h (howner.trans (State.readAt_of_val _ _ hr))
  · rintro rfl; exact State.readTable_of_reaches h (howner.trans (State.readAt_of_val _ _ hr))
  · rintro rfl; exact State.readTable_of_reaches h (howner.trans (State.readAt_of_val _ _ hr))
  · rintro rfl p hp; exact State.readTable_of_reaches h (howner.trans (State.readAt_of_val _ _ hp))
  · rintro rfl n hn; exact State.readTable_of_reaches h (howner.trans (State.readAt_of_val _ _ hn))
  · rintro rfl rfl
    exact State.readTable_of_reaches h (howner.trans (State.readAt_of_val (n := 1) _ _ (i := 0) rfl))
  · rintro rfl p hp; exact State.readTable_of_reaches h (howner.trans (State.readAt_of_val _ _ hp))

/-! ### The readings, field by field -/

/-- A route that is open for frames (R100), as it reads. -/
theorem State.open_code (u : State) (r : RouteIx) :
    boolCode (u.open_ r) =
      if (u.health[r].state = .up ∨ u.health[r].state = .fading) ∧ u.cfg.lanes[r].type ≠ .unused ∧
        u.tx[r].queue.length < 48 then 1 else 0 := by
  have h : (u.open_ r = true) = ((u.health[r].state = .up ∨ u.health[r].state = .fading) ∧ u.cfg.lanes[r].type ≠ .unused ∧
      u.tx[r].queue.length < 48) := by
    simp only [State.open_, Bool.and_eq_true, RouteState.carries_iff, bne_iff_ne, decide_eq_true_eq, and_assoc]
  simp only [boolCode, h]

theorem stepShown_eq (ty : LaneType) (l : Lane) :
    optBytes 1 (bytesOf 1) (stepShown ty l) =
      optBytes 1 id (if ty = .radio then some (bytesOf 1 l.effectiveStep) else none) := by
  cases ty <;> rfl

/-- F of a route, as it reads (R50). -/
theorem State.forward_bytes (u : State) (r : RouteIx) :
    optBytes 8 (bytesOf 8) (u.forward r) =
      optBytes 8 id (u.probes[r].m.map fun m => bytesOf 8 ((m + u.cfg.routes[r].a) / 2).toNat) := by
  unfold State.forward
  cases u.probes[r].m <;> rfl

/-- The tallies of a circuit, OUT and IN (R96). -/
theorem outTallyBytes_eq (t : OutTallies) : outTallyBytes t = List.flatten
    [bytesOf 4 t.accepted.toNat, bytesOf 4 t.sent.toNat, bytesOf 4 t.expired.toNat, bytesOf 4 t.noRoute.toNat,
     bytesOf 4 t.flushed.toNat, bytesOf 4 t.held.toNat, bytesOf 4 t.shadowMissed.toNat] := by
  simp only [outTallyBytes, countBytes, List.flatten_cons, List.flatten_nil, List.append_nil, List.append_assoc]

theorem inTallyBytes_eq (t : InTallies) : inTallyBytes t = List.flatten
    [bytesOf 4 t.accepted.toNat, bytesOf 4 t.duplicates.toNat, bytesOf 4 t.stale.toNat, bytesOf 4 t.overrun.toNat,
     bytesOf 4 t.relayed.toNat, bytesOf 4 t.relayFailures.toNat, bytesOf 4 t.withdrawn.toNat] := by
  simp only [inTallyBytes, countBytes, List.flatten_cons, List.flatten_nil, List.append_nil, List.append_assoc]

/-- A window, with H behind its own presence byte (R96). -/
theorem windowBytes_eq (w : Window) : windowBytes w = List.flatten
    [bytesOf 1 (boolCode w.valid), optBytes 2 id (if w.valid then some (bytesOf 2 w.h.toNat) else none),
     listBytes id ((List.range 64).reverse.filterMap fun b =>
       (w.entries.getD b none).map fun e => List.flatten
         [bytesOf 2 (w.h - BitVec.ofNat 16 b).toNat, bytesOf 1 e.route.val, bytesOf 8 e.stamp.toNat])] := by
  have htop : optBytes 2 (fun h : BitVec 16 => bytesOf 2 h.toNat) w.top =
      optBytes 2 id (if w.valid then some (bytesOf 2 w.h.toNat) else none) := by
    unfold Window.top
    cases w.valid <;> rfl
  have hseen : listBytes (fun e : BitVec 16 × WinEntry => bytesOf 2 e.1.toNat ++ bytesOf 1 e.2.route.val ++
      bytesOf 8 e.2.stamp.toNat) w.seen = listBytes id ((List.range 64).reverse.filterMap fun b =>
        (w.entries.getD b none).map fun e => List.flatten
          [bytesOf 2 (w.h - BitVec.ofNat 16 b).toNat, bytesOf 1 e.route.val, bytesOf 8 e.stamp.toNat]) := by
    rw [← listBytes_map, Window.seen, List.map_filterMap]
    simp only [Option.map_map, Function.comp_def, List.flatten_cons, List.flatten_nil, List.append_nil, List.append_assoc]
  rw [windowBytes, htop, hseen]
  simp only [boolBytes, List.flatten_cons, List.flatten_nil, List.append_nil, List.append_assoc]

/-- The ports whose SEND, and the lanes whose frame, holds a slot while it is received (R160). -/
theorem State.poolReading_eq (u : State) : u.poolReading = List.flatten
    [bytesOf 2 (1024 - u.pool.slots.length), bytesOf 1 (boolCode u.pool.hold), bytesOf 2 u.pool.lowWater,
     bytesOf 4 u.sendsReceived, bytesOf 4 u.arrivalsReceived,
     bytesOf 4 ((u.pool.slots.countP fun e => decide (e.2.refs = 1)) - u.sendsReceived - u.arrivalsReceived),
     bytesOf 4 (u.pool.slots.countP fun e => decide (e.2.refs = 2)), bytesOf 4 u.pool.holds.toNat,
     bytesOf 4 u.pool.underHold.toNat, bytesOf 4 u.pool.sendNoBuffer.toNat, bytesOf 4 u.pool.arrivalNoBuffer.toNat] := by
  simp only [State.poolReading, Pool.free, boolBytes, numberBytes, countBytes, beq_eq_decide, List.flatten_cons,
    List.flatten_nil,
    List.append_nil, List.append_assoc]

/-- The fields of a circuit that is OUT, IN, or was never opened (R96). -/
theorem State.circuitReading_out (u : State) {n : CircIx} {port : PortIx} {peer : PeerIx} {far : CircIx} {cls : TrafficClass}
    {maxAge : Nat} (h : u.circuits[n].defn = some { port := port, peer := peer, flow := .out far cls maxAge }) :
    u.circuitReading n = List.flatten
      [bytesOf 1 u.circuits[n].state.code, optBytes 4 id (u.circuits[n].closing.map (bytesOf 4)),
       [1, 0], [1, BitVec.ofNat 8 port.val], [1, BitVec.ofNat 8 peer.val], [1, BitVec.ofNat 8 far.val],
       [1, BitVec.ofNat 8 cls.code], 1 :: bytesOf 2 maxAge, 1 :: bytesOf 2 u.circuits[n].nextSeq.toNat,
       outTallyBytes u.circuits[n].out] := by
  simp only [State.circuitReading, h, Option.map_some, flowBytes, outBytes, optBytes_some, Flow.code, bytesOf_one, optBytes_map,
    numberBytes_eq, List.flatten_cons, List.flatten_nil, List.append_nil, List.append_assoc, List.cons_append, List.nil_append]
  rfl

theorem State.circuitReading_in (u : State) {n : CircIx} {port : PortIx} {peer : PeerIx} {relay : Option CircIx}
    (h : u.circuits[n].defn = some { port := port, peer := peer, flow := .inn relay }) :
    u.circuitReading n = List.flatten
      [bytesOf 1 u.circuits[n].state.code, optBytes 4 id (u.circuits[n].closing.map (bytesOf 4)),
       [1, 1], [1, BitVec.ofNat 8 port.val], [1, BitVec.ofNat 8 peer.val],
       optBytes 1 id (relay.map fun m => bytesOf 1 m.val), windowBytes u.circuits[n].window,
       inTallyBytes u.circuits[n].inn] := by
  simp only [State.circuitReading, h, Option.map_some, flowBytes, innBytes, optBytes_some, Flow.code, bytesOf_one, optBytes_map,
    numberBytes_eq, List.flatten_cons, List.flatten_nil, List.append_nil, List.append_assoc, List.cons_append, List.nil_append]
  rfl

theorem State.circuitReading_none (u : State) {n : CircIx} (h : u.circuits[n].defn = none) :
    u.circuitReading n = List.flatten
      [bytesOf 1 u.circuits[n].state.code, optBytes 4 id (u.circuits[n].closing.map (bytesOf 4)),
       [0, 0], [0, 0], [0, 0], [0, 0], [0, 0], [0, 0, 0], [0, 0, 0], outTallyBytes u.circuits[n].out, [0, 0],
       windowBytes u.circuits[n].window, inTallyBytes u.circuits[n].inn] := by
  simp only [State.circuitReading, h, Option.map_none, flowBytes, outBytes, innBytes, optBytes_none, optBytes_map,
    numberBytes_eq, List.flatten_cons, List.flatten_nil, List.append_nil, List.append_assoc, List.cons_append, List.nil_append]
  rfl

/-- Settles O47. -/
theorem readingsChangeNothing : Obligations.ReadingsChangeNothing := by
  refine ⟨fun s d => ⟨fun h => ⟨State.readTime_of_reaches h, s.length_timeReading, s.take_timeReading⟩,
    fun h code i hargs => ?_⟩,
    fun n bs => ⟨rfl, rfl⟩, fun xs => ?_, fun u => ⟨?_, fun r => ⟨?_, ?_, ?_, ?_, ?_, ?_⟩, fun p => ?_, ?_, ?_, fun p => ?_⟩⟩
  · obtain ⟨hroutes, hpeers, hcircuits, hpool, hports⟩ := State.readTable_spec h hargs
    refine ⟨hroutes, hpeers, hcircuits, hpool, hports, fun hcode hi => ?_, fun hcode => ?_⟩
    · exact State.readTable_of_reaches h (State.ownReadTable_of_wild_index hargs hcode hi)
    · exact State.readTable_of_reaches h (State.ownReadTable_of_wild_code hargs hcode)
  · simp [listBytes, bytesOf_one]
  · simp only [State.timeReading, numberBytes, countBytes, optBytes_map, List.flatten_cons, List.flatten_nil, List.append_nil,
      List.append_assoc]
  · simp only [State.routeReading, State.healthReading, State.selReading, State.txReading, boolBytes, numberBytes, countBytes,
      ageNs, ticksSince, State.open_code, currentBytes_eq, optBytes_map, List.flatten_cons, List.flatten_nil, List.append_nil,
      List.append_assoc]
  · rw [Tx.backlog]
    cases u.tx[r].current <;> rfl
  · simp only [State.laneReading, boolBytes, countBytes, reportBytes_eq, stepShown_eq, optBytes_map, listBytes_map,
      List.flatten_cons, List.flatten_nil, List.append_nil, List.append_assoc]
  · simp only [State.calendarReading, chargedBytes_eq, List.flatten_cons, List.flatten_nil, List.append_nil,
      List.append_assoc] <;> rfl
  · unfold State.samplesReading
    simp only [State.sampleBytes_eq, State.outstandingBytes_eq, State.viewBytes_eq, State.forward_bytes, boolBytes, numberBytes,
      countBytes, optBytes_map, listBytes_map, List.flatten_cons, List.flatten_nil, List.append_nil, List.append_assoc]
  · simp only [State.scoreReading, countBytes, List.flatten_cons, List.flatten_nil, List.append_nil, List.append_assoc]
  · simp only [State.peerReading, State.routesOf, boolBytes, countBytes, optBytes_map, listBytes_map, List.flatten_cons,
      List.flatten_nil, List.append_nil, List.append_assoc]
  · rintro n outTallies window inTallies port peer rfl rfl rfl
    rw [← outTallyBytes_eq, ← inTallyBytes_eq, ← windowBytes_eq]
    exact ⟨fun far cls maxAge h => u.circuitReading_out h, fun relay h => u.circuitReading_in h, u.circuitReading_none⟩
  · rintro sends arrivals rfl rfl
    exact u.poolReading_eq
  · unfold State.portReading State.startUpReading portCountBytes
    simp only [boolBytes, numberBytes, countBytes, circSeq, recordBytes_eq, saveOutcomeBytes_eq, optBytes_map,
      List.flatten_cons,
      List.flatten_nil, List.append_nil, List.append_assoc, bytesOf_watch, flatMap_toList] <;> rfl

end Sys2Proof.Machine
end

