-- ==== Sys2Proof/Proofs/Moves.lean ====
section
/-! SUPPORT. What a change of route state does: to the route itself, to the other routes, to the circuits and at the ports
(R65, R66, R76, R128). -/

namespace Sys2Proof.Machine

/-! ### Records apart from what re-steering and notices move -/

/-- A transmit record apart from its waiting queue. -/
def Tx.queueless (t : Tx) : Tx := { t with queue := [] }

/-- A transmit record apart from its waiting queue and its counts. -/
def Tx.entries (t : Tx) : Tx := { t with queue := [], counts := {} }

/-- A circuit record apart from its OUT tallies. -/
def Circuit.outless (x : Circuit) : Circuit := { x with out := {} }

/-- A port apart from its pending records. -/
def Port.recordless (x : Port) : Port := { x with records := Vector.replicate 8 PendingRecord.clear }

theorem Tx.eq_of_queueless {x y : Tx} (h : x.queueless = y.queueless) : { x with queue := y.queue } = y := by
  have e : { x.queueless with queue := y.queue } = { y.queueless with queue := y.queue } := by rw [h]
  exact e

theorem Circuit.eq_of_outless {x y : Circuit} (h : x.outless = y.outless) : { x with out := y.out } = y := by
  have e : { x.outless with out := y.out } = { y.outless with out := y.out } := by rw [h]
  exact e

theorem Port.eq_of_recordless {x y : Port} (h : x.recordless = y.recordless) : { x with records := y.records } = y := by
  have e : { x.recordless with records := y.records } = { y.recordless with records := y.records } := by rw [h]
  exact e

/-- The health, probe and transmit records of a route, its waiting queue apart. -/
def State.routeRecords (s : State) (q : RouteIx) : Health × Probe × Tx := (s.health[q], s.probes[q], s.tx[q].queueless)

theorem State.routeRecords_congr {s t : State} (hhealth : t.health = s.health) (hprobes : t.probes = s.probes)
    (htx : t.tx = s.tx) (q : RouteIx) : t.routeRecords q = s.routeRecords q := by
  rw [State.routeRecords, State.routeRecords, hhealth, hprobes, htx]

theorem State.routeRecords_modHealth (s : State) {q r : RouteIx} (h : q ≠ r) (f : Health → Health) :
    (s.modHealth r f).routeRecords q = s.routeRecords q := by
  rw [State.routeRecords, State.modHealth_get_other _ _ _ _ h]
  rfl

theorem State.routeRecords_modProbe (s : State) {q r : RouteIx} (h : q ≠ r) (f : Probe → Probe) :
    (s.modProbe r f).routeRecords q = s.routeRecords q := by
  rw [State.routeRecords, State.modProbe_get_other _ _ _ _ h]
  rfl

theorem State.routeRecords_modTx (s : State) {q r : RouteIx} (h : q ≠ r) (f : Tx → Tx) :
    (s.modTx r f).routeRecords q = s.routeRecords q := by
  rw [State.routeRecords, State.modTx_get_other _ _ _ _ h]
  rfl

/-- What a change of one transmit record leaves of it, it leaves of every route's. -/
theorem State.modTx_proj {β : Type} (s : State) (r q : RouteIx) (g : Tx → β) {f : Tx → Tx} (hf : ∀ t, g (f t) = g t) :
    g (s.modTx r f).tx[q] = g s.tx[q] := by
  rw [State.modTx_get]
  split
  · rename_i e; rw [hf, e]
  · rfl

/-- What a change of one circuit record leaves of it, it leaves of every circuit's. -/
theorem State.modCircuit_proj {β : Type} (s : State) (m n : CircIx) (g : Circuit → β) {f : Circuit → Circuit}
    (hf : ∀ x, g (f x) = g x) : g (s.modCircuit m f).circuits[n] = g s.circuits[n] := by
  rw [State.modCircuit_get]
  split
  · rename_i e; rw [hf, e]
  · rfl

/-- A copy that joins a queue is nothing to the other records of any route. -/
theorem State.routeRecords_enqueue (s : State) (r : RouteIx) (c : Copy) (q : RouteIx) :
    (s.enqueue r c).routeRecords q = s.routeRecords q := by
  have h : (s.enqueue r c).tx[q].queueless = s.tx[q].queueless := s.modTx_proj r q Tx.queueless (by intro; rfl)
  rw [State.routeRecords, h]
  rfl

/-! ### Re-steering (R128) -/

theorem leastBy_mem {α : Type} {f : α → Nat} {l : List α} {y : α} (h : leastBy f l = some y) : y ∈ l := by
  induction l generalizing y with
  | nil => cases h
  | cons x xs ih =>
    rw [leastBy] at h
    split at h
    · cases h; exact List.mem_cons_self ..
    · split at h <;> cases h
      · exact List.mem_cons_self ..
      · exact List.mem_cons_of_mem _ (ih ‹_›)


theorem State.routeRecords_countDiscard (s : State) (r : RouteIx) (c : Copy) (reason : DiscardReason) (q : RouteIx) :
    (s.countDiscard r c reason).routeRecords q = s.routeRecords q :=
  State.routeRecords_congr (by simp) (by simp) (by simp) q

theorem State.routeRecords_release (s : State) (k : Nat) (q : RouteIx) : (s.release k).routeRecords q = s.routeRecords q := rfl

/-- A copy re-steered touches, of another route, its queue alone. -/
theorem State.routeRecords_resteerCopy (s : State) {q r : RouteIx} (h : q ≠ r) (c : Copy) :
    (s.resteerCopy r c).routeRecords q = s.routeRecords q := by
  unfold State.resteerCopy
  split
  · rw [State.routeRecords_modTx _ h]; rfl
  · split
    · rw [State.routeRecords_modTx _ h, State.routeRecords_release, State.routeRecords_countDiscard]
    · split
      · rw [State.routeRecords_modTx _ h]
        exact s.routeRecords_enqueue _ c q
      · rw [State.routeRecords_modTx _ h, State.routeRecords_release, State.routeRecords_countDiscard]

theorem State.routeRecords_resteer (s : State) {q r : RouteIx} (h : q ≠ r) :
    (s.resteer r).routeRecords q = s.routeRecords q := by
  unfold State.resteer
  rw [foldl_leaves (fun t : State => t.routeRecords q) _ (fun t c => t.routeRecords_resteerCopy h c),
    State.routeRecords_modTx _ h]

/-- Re-steering keeps the entries of every route. -/
theorem State.entries_resteerCopy (s : State) (r q : RouteIx) (c : Copy) :
    (s.resteerCopy r c).tx[q].entries = s.tx[q].entries := by
  unfold State.resteerCopy
  split
  · exact State.modTx_proj _ r q Tx.entries (by intro; rfl)
  · split
    · refine (State.modTx_proj _ r q Tx.entries (by intro; rfl)).trans ?_
      simp [State.release]
    · split
      · rename_i r' _
        refine (State.modTx_proj _ r q Tx.entries (by intro; rfl)).trans ?_
        show (s.enqueue r' c).tx[q].entries = _
        exact s.modTx_proj r' q Tx.entries (by intro; rfl)
      · refine (State.modTx_proj _ r q Tx.entries (by intro; rfl)).trans ?_
        simp [State.release]

theorem State.entries_resteer (s : State) (r q : RouteIx) : (s.resteer r).tx[q].entries = s.tx[q].entries := by
  unfold State.resteer
  rw [foldl_leaves (fun t : State => t.tx[q].entries) _ (fun t c => t.entries_resteerCopy r q c)]
  exact s.modTx_proj r q Tx.entries (by intro; rfl)

theorem State.mem_eligible {s : State} {peer : PeerIx} {r : RouteIx} (h : r ∈ s.eligible peer) :
    s.health[r].state.carries = true := by
  simp only [State.eligible, State.open_, List.mem_filter, Bool.and_eq_true] at h
  exact h.2.2.1.1

/-- A primary is one of the routes it is sought among (R103). -/
theorem State.primary_mem {s : State} {peer : PeerIx} {len : Nat} {routes : List RouteIx} {r : RouteIx}
    (h : s.primary peer len routes = some r) : r ∈ routes := by
  have hleast : leastBy (s.expectedArrival len) routes = some r → r ∈ routes := leastBy_mem
  unfold State.primary at h
  split at h
  · split at h
    · cases h; assumption
    · exact hleast h
  · exact hleast h

/-- The route a re-steer finds is eligible, so it carries frames (R100, R110). -/
theorem State.resteerTarget_carries {s : State} {r r' : RouteIx} {c : Copy} (h : s.resteerTarget r c = some r') :
    s.health[r'].state.carries = true := by
  unfold State.resteerTarget at h
  split at h
  · cases h
  · exact State.mem_eligible (List.mem_filter.1 (State.primary_mem h)).1

/-- A copy re-steered joins no queue of a route that carries no frames. -/
theorem State.queue_resteerCopy (s : State) (r : RouteIx) (c : Copy) {q : RouteIx} (h : s.health[q].state.carries = false) :
    (s.resteerCopy r c).tx[q].queue = s.tx[q].queue := by
  unfold State.resteerCopy
  split
  · exact State.modTx_proj _ r q Tx.queue (by intro; rfl)
  · split
    · refine (State.modTx_proj _ r q Tx.queue (by intro; rfl)).trans ?_
      simp [State.release]
    · split
      · rename_i r' hr'
        have hne : q ≠ r' := fun e => by
          rw [e, State.resteerTarget_carries hr'] at h
          cases h
        refine (State.modTx_proj _ r q Tx.queue (by intro; rfl)).trans ?_
        show (s.enqueue r' c).tx[q].queue = _
        rw [State.enqueue, State.modTx_get_other _ _ _ _ hne]
      · refine (State.modTx_proj _ r q Tx.queue (by intro; rfl)).trans ?_
        simp [State.release]

theorem State.queue_resteer (s : State) (r : RouteIx) {q : RouteIx} (h : s.health[q].state.carries = false) :
    (s.resteer r).tx[q].queue = if q = r then [] else s.tx[q].queue := by
  have hfold (l : List Copy) (u : State) (hu : u.health = s.health) :
      (l.foldl (fun s c => s.resteerCopy r c) u).tx[q].queue = u.tx[q].queue := by
    induction l generalizing u with
    | nil => rfl
    | cons c l ih => rw [List.foldl_cons, ih _ (by simp [hu]), State.queue_resteerCopy _ _ _ (by rw [hu]; exact h)]
  unfold State.resteer
  rw [hfold _ _ (by simp), State.modTx_get]
  split <;> rfl

/-! ### Circuits and ports -/

theorem State.outless_countDiscard (s : State) (r : RouteIx) (c : Copy) (reason : DiscardReason) (n : CircIx) :
    (s.countDiscard r c reason).circuits[n].outless = s.circuits[n].outless := by
  unfold State.countDiscard
  split
  · exact s.modCircuit_proj c.circuit n Circuit.outless
      (f := fun x => { x with out := { x.out.discard reason with held := x.out.held - 1 } }) (by intro; rfl)
  · rfl

/-- A copy re-steered touches, of a circuit, its OUT tallies alone. -/
theorem State.outless_resteerCopy (s : State) (r : RouteIx) (c : Copy) (n : CircIx) :
    (s.resteerCopy r c).circuits[n].outless = s.circuits[n].outless := by
  unfold State.resteerCopy
  split
  · rfl
  · split
    · exact s.outless_countDiscard r c _ n
    · split
      · rfl
      · exact s.outless_countDiscard r c _ n

theorem State.outless_resteer (s : State) (r : RouteIx) (n : CircIx) :
    (s.resteer r).circuits[n].outless = s.circuits[n].outless := by
  unfold State.resteer
  rw [foldl_leaves (fun t : State => t.circuits[n].outless) _ (fun t c => t.outless_resteerCopy r c n)]
  rfl

theorem Port.recordless_record (x : Port) (n : Notice) : (x.record n).recordless = x.recordless := by
  unfold Port.record
  split <;> rfl

/-- A notice touches the pending record of its own kind alone (R173). -/
theorem Port.record_records_other (x : Port) (n : Notice) {k : Fin 8} (h : n.kind ≠ k) :
    (x.record n).records[k] = x.records[k] := by
  unfold Port.record
  split
  · simp only [Fin.getElem_fin]
    rw [Vector.getElem_set_ne]
    exact fun e => h (Fin.ext e)
  · rfl

theorem State.recordless_countDiscard (s : State) (r : RouteIx) (c : Copy) (reason : DiscardReason) (p : PortIx) :
    (s.countDiscard r c reason).ports[p].recordless = s.ports[p].recordless ∧
    ∀ k : Fin 8, k ≠ 5 → (s.countDiscard r c reason).ports[p].records[k] = s.ports[p].records[k] := by
  unfold State.countDiscard
  split
  · simp only [State.raiseAt, State.modPort_get]
    split
    · rename_i e
      subst e
      exact ⟨Port.recordless_record .., fun k hk => Port.record_records_other _ _ (Ne.symm hk)⟩
    · exact ⟨rfl, fun _ _ => rfl⟩
  · exact ⟨rfl, fun _ _ => rfl⟩

/-- A copy re-steered touches, at a port, the record of CIRCUIT_DISCARD alone. -/
theorem State.recordless_resteerCopy (s : State) (r : RouteIx) (c : Copy) (p : PortIx) :
    (s.resteerCopy r c).ports[p].recordless = s.ports[p].recordless ∧
    ∀ k : Fin 8, k ≠ 5 → (s.resteerCopy r c).ports[p].records[k] = s.ports[p].records[k] := by
  unfold State.resteerCopy
  split
  · exact ⟨rfl, fun _ _ => rfl⟩
  · split
    · exact s.recordless_countDiscard r c _ p
    · split
      · exact ⟨rfl, fun _ _ => rfl⟩
      · exact s.recordless_countDiscard r c _ p

theorem State.recordless_resteer (s : State) (r : RouteIx) (p : PortIx) :
    (s.resteer r).ports[p].recordless = s.ports[p].recordless ∧
    ∀ k : Fin 8, k ≠ 5 → (s.resteer r).ports[p].records[k] = s.ports[p].records[k] := by
  refine ⟨?_, fun k hk => ?_⟩
  · exact foldl_leaves (fun t : State => t.ports[p].recordless) _ (fun t c => (t.recordless_resteerCopy r c p).1) _ _
  · exact foldl_leaves (fun t : State => t.ports[p].records[k]) _ (fun t c => (t.recordless_resteerCopy r c p).2 k hk) _ _

/-! ### The consequences of one change (R65) -/

/-- What a change does to the route's own records, before the time route is chosen again (steps 2 to 4 of R65). -/
def State.settle (s : State) (r : RouteIx) (old new : RouteState) : State :=
  let s := if old = .proving then s.leaveProving r else s
  let s := if new = .proving then s.enterProving r else s
  let s := if new = .down ∨ new = .disabled then s.flush r else s
  let s := if new = .disabled then s.disableEffects r else s
  if old = .disabled then s.startProbes r else s

theorem State.consequences_eq (s : State) (r : RouteIx) (old new : RouteState) :
    s.consequences r old new =
      ((if (old.carries && !new.carries) = true then (s.settle r old new).rechoose.resteer r
        else (s.settle r old new).rechoose).raiseAll (.routeState r old new)) := rfl

/-- Settling a change touches no records but the route's own, and of those not the queue. -/
theorem State.settle_leaves (s : State) (r : RouteIx) (old new : RouteState) :
    (s.settle r old new).cfg = s.cfg ∧ (s.settle r old new).time = s.time ∧ (s.settle r old new).circuits = s.circuits ∧
    (s.settle r old new).sel = s.sel ∧ (s.settle r old new).pool = s.pool ∧ (s.settle r old new).ports = s.ports := by
  simp [State.settle, apply_ite State.cfg, apply_ite State.time, apply_ite State.circuits, apply_ite State.sel,
    apply_ite State.pool, apply_ite State.ports]

theorem State.routeRecords_settle (s : State) {q r : RouteIx} (h : q ≠ r) (old new : RouteState) :
    (s.settle r old new).routeRecords q = s.routeRecords q := by
  have hleave (u : State) : (u.leaveProving r).routeRecords q = u.routeRecords q := by
    rw [State.leaveProving, State.routeRecords_modTx _ h, State.routeRecords_modHealth _ h]
  have henter (u : State) : (u.enterProving r).routeRecords q = u.routeRecords q := by
    rw [State.enterProving, State.routeRecords_modHealth _ h, State.requestTest]
    split
    · exact u.routeRecords_modHealth h _
    · exact u.routeRecords_modTx h _
  have hdisable (u : State) : (u.disableEffects r).routeRecords q = u.routeRecords q := by
    rw [State.disableEffects, State.routeRecords_modTx _ h, State.routeRecords_modProbe _ h]
  have hstart (u : State) : (u.startProbes r).routeRecords q = u.routeRecords q := by
    rw [State.startProbes, State.routeRecords_modProbe _ h, State.requestProbe]
    split
    · exact u.routeRecords_modProbe h _
    · exact u.routeRecords_modTx h _
  have hflush (u : State) : (u.flush r).routeRecords q = u.routeRecords q := u.routeRecords_modProbe h _
  simp only [State.settle, apply_ite (fun u : State => u.routeRecords q), hleave, henter, hdisable, hstart, hflush, ite_self]

theorem State.modHealth_proj {β : Type} (s : State) (r q : RouteIx) (g : Health → β) {f : Health → Health}
    (hf : ∀ x, g (f x) = g x) : g (s.modHealth r f).health[q] = g s.health[q] := by
  rw [State.modHealth_get]
  split
  · rename_i e; rw [hf, e]
  · rfl

/-- Settling a change leaves every waiting queue. -/
theorem State.queue_settle (s : State) (r q : RouteIx) (old new : RouteState) :
    (s.settle r old new).tx[q].queue = s.tx[q].queue := by
  have hleave (u : State) : (u.leaveProving r).tx[q].queue = u.tx[q].queue := State.modTx_proj _ r q Tx.queue (by intro; rfl)
  have henter (u : State) : (u.enterProving r).tx[q].queue = u.tx[q].queue := by
    rw [State.enterProving, State.requestTest]
    split
    · rfl
    · exact u.modTx_proj r q Tx.queue (f := fun t => { t with testEntry := true }) (by intro; rfl)
  have hdisable (u : State) : (u.disableEffects r).tx[q].queue = u.tx[q].queue :=
    State.modTx_proj _ r q Tx.queue (by intro; rfl)
  have hstart (u : State) : (u.startProbes r).tx[q].queue = u.tx[q].queue := by
    rw [State.startProbes, State.requestProbe]
    split
    · rfl
    · exact u.modTx_proj r q Tx.queue (f := fun t => { t with probeEntry := true }) (by intro; rfl)
  have hflush (u : State) : (u.flush r).tx[q].queue = u.tx[q].queue := rfl
  simp only [State.settle, apply_ite (fun u : State => u.tx[q].queue), hleave, henter, hdisable, hstart, hflush, ite_self]

/-- A route's state, its count of changes and the ET of the last: what step 1 of R65 sets. -/
def Health.core (h : Health) : RouteState × Count × Option Ticks := (h.state, h.counts.changes, h.lastChange)

theorem State.core_settle (s : State) (r q : RouteIx) (old new : RouteState) :
    (s.settle r old new).health[q].core = s.health[q].core := by
  have hleave (u : State) : (u.leaveProving r).health[q].core = u.health[q].core := by
    exact u.modHealth_proj r q Health.core (f := fun h => { h with testDue := none }) (by intro; rfl)
  have henter (u : State) : (u.enterProving r).health[q].core = u.health[q].core := by
    rw [State.enterProving]
    refine (State.modHealth_proj _ r q Health.core (by intro; rfl)).trans ?_
    rw [State.requestTest]
    split
    · exact State.modHealth_proj _ r q Health.core (by intro; rfl)
    · rfl
  have hdisable (u : State) : (u.disableEffects r).health[q].core = u.health[q].core := rfl
  have hstart (u : State) : (u.startProbes r).health[q].core = u.health[q].core := by simp
  have hflush (u : State) : (u.flush r).health[q].core = u.health[q].core := rfl
  simp only [State.settle, apply_ite (fun u : State => u.health[q].core), hleave, henter, hdisable, hstart, hflush, ite_self]

/-- The error count and the good-window count of a route, its TEST schedule, and whether a TEST waits. -/
def State.proveRecords (s : State) (r : RouteIx) : (Nat × Nat) × (Option Ticks × Bool) :=
  ((s.health[r].error, s.health[r].good), (s.health[r].testDue, s.tx[r].testEntry))

/-- Entering PROVING zeroes both counts and begins the TEST schedule, leaving it stops the schedule and withdraws the TEST, and
any other change leaves all four (R65, R67). -/
theorem State.proveRecords_settle (s : State) (r : RouteIx) (old new : RouteState) :
    (s.settle r old new).proveRecords r =
      if new = .proving then ((0, 0), (some s.nextDue, true))
      else if old = .proving then ((s.health[r].error, s.health[r].good), (none, false))
      else s.proveRecords r := by
  have hleave (u : State) : (u.leaveProving r).proveRecords r = ((u.health[r].error, u.health[r].good), (none, false)) := by
    simp [State.proveRecords, State.leaveProving]
  have henter (u : State) : (u.enterProving r).proveRecords r = ((0, 0), (some u.nextDue, true)) := by
    rw [State.proveRecords, State.enterProving, State.requestTest]
    split
    · rename_i hwaits
      simp only [State.modHealth_get_self, State.modHealth_tx, hwaits]
    · simp [State.nextDue, State.probeTicks]
  have hdisable (u : State) : (u.disableEffects r).proveRecords r = u.proveRecords r := by
    simp [State.proveRecords, State.disableEffects]
  have hstart (u : State) : (u.startProbes r).proveRecords r = u.proveRecords r := by
    rw [State.proveRecords, State.startProbes, State.requestProbe]
    split <;> simp [State.proveRecords]
  have hflush (u : State) : (u.flush r).proveRecords r = u.proveRecords r := by simp [State.proveRecords, State.flush]
  have hdue : (if old = .proving then s.leaveProving r else s).nextDue = s.nextDue := by
    split <;> simp [State.nextDue, State.probeTicks]
  simp only [State.settle, apply_ite (fun u : State => u.proveRecords r), hleave, henter, hdisable, hstart, hflush, ite_self,
    hdue]

/-- The samples and outstanding records of a route, and its peer view. -/
def State.probeRecords (s : State) (r : RouteIx) : (List Sample × List Outstanding) × Option PeerView :=
  ((s.probes[r].ring, s.probes[r].outstanding), s.probes[r].peerView)

/-- Entering DOWN or DISABLED flushes a route's samples and outstanding records (R53). -/
theorem State.probeRecords_settle (s : State) (r : RouteIx) (old new : RouteState) :
    (s.settle r old new).probeRecords r =
      if new = .down ∨ new = .disabled then (([], []), s.probes[r].peerView) else s.probeRecords r := by
  have hleave (u : State) : (u.leaveProving r).probeRecords r = u.probeRecords r := rfl
  have henter (u : State) : (u.enterProving r).probeRecords r = u.probeRecords r := by simp [State.probeRecords]
  have hdisable (u : State) : (u.disableEffects r).probeRecords r = u.probeRecords r := by
    simp [State.probeRecords, State.disableEffects]
  have hstart (u : State) : (u.startProbes r).probeRecords r = u.probeRecords r := by
    rw [State.probeRecords, State.startProbes, State.requestProbe]
    split <;> simp [State.probeRecords]
  have hflush (u : State) : (u.flush r).probeRecords r = (([], []), u.probes[r].peerView) := by
    simp [State.probeRecords, State.flush]
  have hview : (if new = .proving then (if old = .proving then s.leaveProving r else s).enterProving r
      else if old = .proving then s.leaveProving r else s).probeRecords r = s.probeRecords r := by
    simp only [apply_ite (fun u : State => u.probeRecords r), hleave, henter, ite_self]
  rw [State.settle]
  generalize (if new = .proving then (if old = .proving then s.leaveProving r else s).enterProving r
      else if old = .proving then s.leaveProving r else s) = u at hview ⊢
  have hpeer : u.probes[r].peerView = s.probes[r].peerView := congrArg Prod.snd hview
  simp only [apply_ite (fun u : State => u.probeRecords r), hdisable, hstart, hflush, ite_self, hview, hpeer]

end Sys2Proof.Machine
end

