-- ==== Sys2Proof/Proofs/Changes.lean ====
section
/-! SUPPORT. One change of route state with all its consequences, the changes of one route in turn, and the moves of one event
(R65, R66, R76). -/

namespace Sys2Proof.Machine

/-! ### One change -/

/-- The rest of a change after its settling: the time route chosen again, then the waiting copies re-steered. -/
theorem State.consequences_proj {β : Type} (g : State → β) (hraise : ∀ (u : State) (n : Notice), g (u.raiseAll n) = g u)
    (hsteer : ∀ (u : State) (q : RouteIx), g (u.resteer q) = g u) (hchoose : ∀ u : State, g u.rechoose = g u)
    (s : State) (r : RouteIx) (old new : RouteState) : g (s.consequences r old new) = g (s.settle r old new) := by
  rw [State.consequences_eq, hraise]
  split
  · rw [hsteer, hchoose]
  · exact hchoose _

@[simp] theorem State.consequences_et (s : State) (r : RouteIx) (old new : RouteState) :
    (s.consequences r old new).time.et = s.time.et :=
  (congrArg TimeBase.et (s.consequences_routeless r old new) :)

@[simp] theorem State.nextDue_consequences (s : State) (r : RouteIx) (old new : RouteState) :
    (s.consequences r old new).nextDue = s.nextDue := by
  simp [State.nextDue, State.probeTicks]

theorem State.core_consequences (s : State) (r q : RouteIx) (old new : RouteState) :
    (s.consequences r old new).health[q].core = s.health[q].core :=
  (State.consequences_proj (fun u => u.health[q].core) (by intros; rfl) (by intros; simp) (by intros; rfl) ..).trans
    (s.core_settle r q old new)

theorem State.routeRecords_consequences (s : State) {q r : RouteIx} (h : q ≠ r) (old new : RouteState) :
    (s.consequences r old new).routeRecords q = s.routeRecords q := by
  have hrest (u : State) (n : Notice) : (u.rechoose.raiseAll n).routeRecords q = u.routeRecords q := rfl
  have hraise (u : State) (n : Notice) : (u.raiseAll n).routeRecords q = u.routeRecords q := rfl
  rw [State.consequences_eq]
  split
  · rw [hraise, State.routeRecords_resteer _ h]
    exact s.routeRecords_settle h old new
  · rw [hrest]
    exact s.routeRecords_settle h old new

theorem State.proveRecords_consequences (s : State) (r : RouteIx) (old new : RouteState) :
    (s.consequences r old new).proveRecords r =
      if new = .proving then ((0, 0), (some s.nextDue, true))
      else if old = .proving then ((s.health[r].error, s.health[r].good), (none, false))
      else s.proveRecords r := by
  have hsteer (u : State) (q : RouteIx) : (u.resteer q).proveRecords r = u.proveRecords r := by
    have hentry : (u.resteer q).tx[r].testEntry = u.tx[r].testEntry := (congrArg Tx.testEntry (u.entries_resteer q r) :)
    simp only [State.proveRecords, State.resteer_leaves, hentry]
  exact (State.consequences_proj (fun u => u.proveRecords r) (by intros; rfl) hsteer (by intros; rfl) ..).trans
    (s.proveRecords_settle r old new)

theorem State.probeRecords_consequences (s : State) (r : RouteIx) (old new : RouteState) :
    (s.consequences r old new).probeRecords r =
      if new = .down ∨ new = .disabled then (([], []), s.probes[r].peerView) else s.probeRecords r :=
  (State.consequences_proj (fun u => u.probeRecords r) (by intros; rfl) (by intros; simp [State.probeRecords])
    (by intros; rfl) ..).trans (s.probeRecords_settle r old new)

/-- A route that carries no frames gains no waiting copy in any change; the changed route loses its own when it leaves UP or
FADING (R128). -/
theorem State.queue_consequences (s : State) (r : RouteIx) (old new : RouteState) {q : RouteIx}
    (h : s.health[q].state.carries = false) :
    (s.consequences r old new).tx[q].queue =
      if q = r ∧ old.carries = true ∧ new.carries = false then [] else s.tx[q].queue := by
  have hstate : (s.settle r old new).rechoose.health[q].state = s.health[q].state :=
    congrArg Prod.fst (s.core_settle r q old new)
  rw [State.consequences_eq]
  split
  · rename_i hleft
    simp only [Bool.and_eq_true, Bool.not_eq_true'] at hleft
    show ((s.settle r old new).rechoose.resteer r).tx[q].queue = _
    rw [State.queue_resteer _ _ (by rw [hstate]; exact h)]
    simp only [hleft, and_self, and_true]
    split
    · rfl
    · exact s.queue_settle r q old new
  · rename_i hstays
    simp only [Bool.and_eq_true, Bool.not_eq_true', not_and] at hstays
    have hnot : ¬ (q = r ∧ old.carries = true ∧ new.carries = false) := fun hall => hstays hall.2.1 hall.2.2
    rw [if_neg hnot]
    exact s.queue_settle r q old new

theorem State.resteer_of_empty {s : State} {r : RouteIx} (h : s.tx[r].queue = []) :
    s.resteer r = s.modTx r fun t => { t with queue := [] } := by
  rw [State.resteer, h]
  rfl

/-- A change re-steers nothing when it does not leave UP and FADING, or no copy waits (R128). -/
theorem State.consequences_unsteered {s : State} {r : RouteIx} {old new : RouteState}
    (h : (old.carries && !new.carries) = false ∨ s.tx[r].queue = []) :
    (∀ q : RouteIx, (s.consequences r old new).tx[q].queue = s.tx[q].queue) ∧ (s.consequences r old new).pool = s.pool ∧
    (s.consequences r old new).circuits = s.circuits ∧
    ∀ p : PortIx, (s.consequences r old new).ports[p] = s.ports[p].record (.routeState r old new) := by
  obtain ⟨-, -, hcircuits, -, hpool, hports⟩ := s.settle_leaves r old new
  have hqueue (q : RouteIx) : (s.settle r old new).rechoose.tx[q].queue = s.tx[q].queue := s.queue_settle r q old new
  have hnotice (u : State) (hu : u.ports = s.ports) (p : PortIx) :
      (u.raiseAll (.routeState r old new)).ports[p] = s.ports[p].record (.routeState r old new) := by
    rw [State.raiseAll, State.mapPorts_get, hu]
  rw [State.consequences_eq]
  split
  · rename_i hleft
    have hempty : s.tx[r].queue = [] := h.resolve_left (by rw [hleft]; decide)
    rw [State.resteer_of_empty ((hqueue r).trans hempty)]
    have hemptied (q : RouteIx) :
        ((s.settle r old new).rechoose.modTx r fun t => { t with queue := [] }).tx[q].queue = s.tx[q].queue := by
      rw [State.modTx_get]
      split
      · rename_i hq
        rw [hq, hempty]
      · exact hqueue q
    exact ⟨hemptied, hpool, hcircuits, hnotice _ hports⟩
  · exact ⟨hqueue, hpool, hcircuits, hnotice _ hports⟩

theorem State.outless_consequences (s : State) (r : RouteIx) (old new : RouteState) (n : CircIx) :
    (s.consequences r old new).circuits[n].outless = s.circuits[n].outless := by
  refine (State.consequences_proj (fun u => u.circuits[n].outless) (by intros; rfl) (fun u q => u.outless_resteer q n)
    (by intros; rfl) ..).trans ?_
  rw [(s.settle_leaves r old new).2.2.1]

/-! ### Notices at a port -/

/-- Two ports take the same notices of kind `k` from here on: the link, the watch set and the pending record agree. -/
def Port.SameAt (k : Fin 8) (x y : Port) : Prop := x.up = y.up ∧ x.watch = y.watch ∧ x.records[k] = y.records[k]

theorem Port.SameAt.refl (k : Fin 8) (x : Port) : x.SameAt k x := ⟨rfl, rfl, rfl⟩

theorem Port.SameAt.symm {k : Fin 8} {x y : Port} (h : x.SameAt k y) : y.SameAt k x := ⟨h.1.symm, h.2.1.symm, h.2.2.symm⟩

theorem Port.SameAt.trans {k : Fin 8} {x y z : Port} (h : x.SameAt k y) (h' : y.SameAt k z) : x.SameAt k z :=
  ⟨h.1.trans h'.1, h.2.1.trans h'.2.1, h.2.2.trans h'.2.2⟩

theorem Port.sameAt_of_recordless {k : Fin 8} {x y : Port} (h : x.recordless = y.recordless)
    (hrec : x.records[k] = y.records[k]) :
    x.SameAt k y := ⟨(congrArg Port.up h :), (congrArg Port.watch h :), hrec⟩

/-- A notice of another kind changes nothing for kind `k`. -/
theorem Port.sameAt_record (x : Port) {n : Notice} {k : Fin 8} (h : n.kind ≠ k) : (x.record n).SameAt k x :=
  Port.sameAt_of_recordless (x.recordless_record n) (x.record_records_other n h)

/-- The records of kind `k` depend on the link, the watch set and the record before alone. -/
theorem Port.SameAt.record {k : Fin 8} {x y : Port} (h : x.SameAt k y) (n : Notice) : (x.record n).SameAt k (y.record n) := by
  by_cases hk : n.kind = k
  · subst hk
    obtain ⟨hup, hwatch, hrec⟩ := h
    unfold Port.record
    rw [hup, hwatch]
    split
    · exact ⟨rfl, rfl, by simp only [Fin.getElem_fin, Vector.getElem_set_self] at hrec ⊢; rw [hrec]⟩
    · exact ⟨hup, hwatch, hrec⟩
  · exact ((x.sameAt_record hk).trans h).trans (y.sameAt_record hk).symm

theorem Port.SameAt.foldl_record {k : Fin 8} {x y : Port} (h : x.SameAt k y) (l : List Notice) :
    (l.foldl Port.record x).SameAt k (l.foldl Port.record y) := by
  induction l generalizing x y with
  | nil => exact h
  | cons n l ih => exact ih (h.record n)

/-- At a port a change raises its ROUTE_STATE notice; what it re-steers may raise CIRCUIT_DISCARD besides. -/
theorem State.ports_consequences (s : State) (r : RouteIx) (old new : RouteState) (p : PortIx) :
    (s.consequences r old new).ports[p].recordless = s.ports[p].recordless ∧
    (s.consequences r old new).ports[p].SameAt 1 (s.ports[p].record (.routeState r old new)) ∧
    ∀ k : Fin 8, k ≠ 1 → k ≠ 5 → (s.consequences r old new).ports[p].records[k] = s.ports[p].records[k] := by
  have key (u : State) (hless : u.ports[p].recordless = s.ports[p].recordless)
      (hrec : ∀ k : Fin 8, k ≠ 5 → u.ports[p].records[k] = s.ports[p].records[k]) :
      (u.raiseAll (.routeState r old new)).ports[p].recordless = s.ports[p].recordless ∧
      (u.raiseAll (.routeState r old new)).ports[p].SameAt 1 (s.ports[p].record (.routeState r old new)) ∧
      ∀ k : Fin 8, k ≠ 1 → k ≠ 5 → (u.raiseAll (.routeState r old new)).ports[p].records[k] = s.ports[p].records[k] := by
    simp only [State.raiseAll, State.mapPorts_get]
    refine ⟨(Port.recordless_record ..).trans hless, ?_, fun k h1 h5 => ?_⟩
    · exact (Port.sameAt_of_recordless hless (hrec 1 (by decide))).record _
    · exact (Port.record_records_other _ _ (Ne.symm h1)).trans (hrec k h5)
  have hports : (s.settle r old new).rechoose.ports = s.ports := (s.settle_leaves r old new).2.2.2.2.2
  rw [State.consequences_eq]
  split
  · obtain ⟨hless, hrec⟩ := (s.settle r old new).rechoose.recordless_resteer r p
    rw [hports] at hless hrec
    exact key _ hless hrec
  · exact key _ (by rw [hports]) (by rw [hports]; exact fun _ _ => rfl)

/-! ### The changes of one route in turn -/

/-- What no change of route `r` alters, no series of them does. -/
theorem State.moveConsequences_proj {β : Type} (g : State → β) {r : RouteIx}
    (h : ∀ (u : State) (old new : RouteState), g (u.consequences r old new) = g u) (s : State) (old : RouteState)
    (via : List RouteState) : g (s.moveConsequences r old via) = g s := by
  induction via generalizing s old with
  | nil => rfl
  | cons new via ih => rw [State.moveConsequences, ih, h]

theorem State.core_moveConsequences (s : State) (r q : RouteIx) (old : RouteState) (via : List RouteState) :
    (s.moveConsequences r old via).health[q].core = s.health[q].core :=
  State.moveConsequences_proj (fun u => u.health[q].core) (fun u _ _ => u.core_consequences r q _ _) s old via

theorem State.outless_moveConsequences (s : State) (r : RouteIx) (old : RouteState) (via : List RouteState) (n : CircIx) :
    (s.moveConsequences r old via).circuits[n].outless = s.circuits[n].outless :=
  State.moveConsequences_proj (fun u => u.circuits[n].outless) (fun u _ _ => u.outless_consequences r _ _ n) s old via

/-- A series that ends in PROVING leaves both counts 0 and the TEST schedule begun. -/
theorem State.proveRecords_of_ends (s : State) (r : RouteIx) (old : RouteState) {via : List RouteState}
    (h : via.getLast? = some .proving) : (s.moveConsequences r old via).proveRecords r = ((0, 0), (some s.nextDue, true)) := by
  induction via generalizing s old with
  | nil => cases h
  | cons new via ih =>
    rw [State.moveConsequences]
    cases via with
    | nil =>
      have hnew : new = .proving := by simpa using h
      rw [State.moveConsequences, State.proveRecords_consequences, if_pos hnew]
    | cons next via => rw [ih _ _ (by simpa using h), State.nextDue_consequences]

/-- A series that ends out of PROVING leaves no TEST schedule, unless there was one and it was never in PROVING. -/
theorem State.proveRecords_of_leaves (s : State) (r : RouteIx) {old : RouteState} {via : List RouteState}
    (hstart : old ≠ .proving → (s.proveRecords r).2 = (none, false)) (h : via.getLastD old ≠ .proving) :
    ((s.moveConsequences r old via).proveRecords r).2 = (none, false) := by
  induction via generalizing s old with
  | nil => exact hstart h
  | cons new via ih =>
    rw [List.getLastD_cons] at h
    refine ih _ (fun hnew => ?_) h
    rw [State.proveRecords_consequences, if_neg hnew]
    split
    · rfl
    · exact hstart ‹_›

/-- A series through DOWN or DISABLED leaves no sample and no outstanding record. -/
theorem State.probeRecords_of_flushed (s : State) (r : RouteIx) (old : RouteState) {via : List RouteState}
    (h : (.down ∈ via ∨ .disabled ∈ via) ∨ (s.probeRecords r).1 = ([], [])) :
    ((s.moveConsequences r old via).probeRecords r).1 = ([], []) := by
  induction via generalizing s old with
  | nil => exact h.resolve_left (by simp)
  | cons new via ih =>
    refine ih _ _ ?_
    rw [State.probeRecords_consequences]
    split
    · exact .inr rfl
    · rename_i hnew
      refine h.imp_left fun hmem => ?_
      simp only [List.mem_cons, eq_comm] at hmem
      tauto

/-- A series that ends out of UP and FADING leaves no waiting copy. -/
theorem State.queue_of_left (s : State) (r : RouteIx) {old : RouteState} {via : List RouteState}
    (hstate : s.health[r].state.carries = false) (hstart : old.carries = false → s.tx[r].queue = [])
    (h : (via.getLastD old).carries = false) : (s.moveConsequences r old via).tx[r].queue = [] := by
  induction via generalizing s old with
  | nil => exact hstart h
  | cons new via ih =>
    rw [List.getLastD_cons] at h
    refine ih _ ?_ (fun hnew => ?_) h
    · have hcore : (s.consequences r old new).health[r].state = s.health[r].state :=
        (congrArg Prod.fst (s.core_consequences r r old new) :)
      rw [hcore]
      exact hstate
    · rw [State.queue_consequences _ _ _ _ hstate]
      split
      · rfl
      · rename_i hnot
        exact hstart (Bool.not_eq_true _ ▸ fun hold => hnot ⟨rfl, hold, hnew⟩)

theorem State.ports_moveConsequences (s : State) (r : RouteIx) (old : RouteState) (via : List RouteState) (p : PortIx) :
    (s.moveConsequences r old via).ports[p].recordless = s.ports[p].recordless ∧
    (s.moveConsequences r old via).ports[p].SameAt 1 ((changeNotices r old via).foldl Port.record s.ports[p]) ∧
    ∀ k : Fin 8, k ≠ 1 → k ≠ 5 → (s.moveConsequences r old via).ports[p].records[k] = s.ports[p].records[k] := by
  induction via generalizing s old with
  | nil => exact ⟨rfl, .refl _ _, fun _ _ _ => rfl⟩
  | cons new via ih =>
    obtain ⟨hless, hsame, hrec⟩ := s.ports_consequences r old new p
    obtain ⟨hless', hsame', hrec'⟩ := ih (s.consequences r old new) new
    exact ⟨hless'.trans hless, hsame'.trans (hsame.foldl_record _), fun k h1 h5 => (hrec' k h1 h5).trans (hrec k h1 h5)⟩

/-! ### The moves of one event -/

/-- The consequences of an event's moves, route after route, each route starting from the state `was` names. -/
def State.follow (was : RouteIx → RouteState) (s : State) (moves : List Move) : State :=
  moves.foldl (fun s m => s.moveConsequences m.route (was m.route) m.via) s

theorem State.applyMoves_eq (s : State) (moves : List Move) :
    s.applyMoves moves = State.follow (fun r => s.health[r].state) (moves.foldl State.recordMove s) moves := rfl

/-- The states through which a list of moves takes route `r`. -/
def viaOf (moves : List Move) (r : RouteIx) : List RouteState := ((moves.find? fun m => m.route = r).map Move.via).getD []

theorem viaOf_cons (m : Move) (moves : List Move) (r : RouteIx) :
    viaOf (m :: moves) r = if m.route = r then m.via else viaOf moves r := by
  rw [viaOf, List.find?_cons]
  by_cases h : m.route = r
  · simp [h]
  · simp [h, viaOf]

theorem viaOf_eq_nil {moves : List Move} {r : RouteIx} (h : r ∉ moves.map Move.route) : viaOf moves r = [] := by
  induction moves with
  | nil => rfl
  | cons m moves ih =>
    simp only [List.map_cons, List.mem_cons, not_or] at h
    rw [viaOf_cons, if_neg (Ne.symm h.1), ih h.2]

/-- The moves of one event name routes in route-index order, each at most once (R76). -/
def Ordered (moves : List Move) : Prop := (moves.map Move.route).Sublist (List.finRange 16)

theorem Ordered.nodup {moves : List Move} (h : Ordered moves) : (moves.map Move.route).Nodup :=
  (List.nodup_finRange 16).sublist h

theorem ordered_one (r : RouteIx) (via : List RouteState) : Ordered [{ route := r, via := via }] :=
  List.singleton_sublist.2 (List.mem_finRange r)

theorem ordered_filter (p : RouteIx → Bool) (via : RouteIx → List RouteState) :
    Ordered (((List.finRange 16).filter p).map fun r => { route := r, via := via r }) := by
  rw [Ordered, List.map_map]
  exact (List.map_id _).symm ▸ List.filter_sublist

/-- A health record whose route has passed through the states of `via` at ET `et` (R65, step 1). -/
def Health.through (h : Health) (via : List RouteState) (et : Ticks) : Health :=
  if via = [] then h
  else
    { h with
      state := via.getLastD h.state, lastChange := some et
      counts := { h.counts with changes := h.counts.changes + BitVec.ofNat 32 via.length } }

theorem Health.through_state (h : Health) (via : List RouteState) (et : Ticks) :
    (h.through via et).state = via.getLastD h.state := by
  cases via <;> rfl

theorem Health.through_cons (h : Health) (new : RouteState) (via : List RouteState) (et : Ticks) :
    Health.through { h with state := new, lastChange := some et, counts := { h.counts with changes := h.counts.changes + 1 } }
      via et = h.through (new :: via) et := by
  cases via with
  | nil => rfl
  | cons next via =>
    simp only [Health.through, reduceCtorEq, if_false, List.getLastD_cons, List.length_cons]
    simp [BitVec.ofNat_add, BitVec.add_assoc, BitVec.add_comm]

theorem State.health_recordMove (s : State) (m : Move) (q : RouteIx) :
    (s.recordMove m).health[q] = if m.route = q then s.health[q].through m.via s.time.et else s.health[q] := by
  obtain ⟨r, via⟩ := m
  show (via.foldl (fun s new => s.recordChange r new) s).health[q] =
    if r = q then s.health[q].through via s.time.et else s.health[q]
  induction via generalizing s with
  | nil => simp [Health.through]
  | cons new via ih =>
    rw [List.foldl_cons, ih, State.recordChange_leaves .. |>.2.1]
    split
    · rename_i e
      subst e
      rw [State.recordChange, State.modHealth_get_self, Health.through_cons]
    · rename_i hne
      rw [State.recordChange, State.modHealth_get_other _ _ _ _ (Ne.symm hne)]

/-- Once an event's changes are recorded, each route stands in the last state of its own series. -/
theorem State.health_recorded {moves : List Move} (h : (moves.map Move.route).Nodup) (s : State) (q : RouteIx) :
    (moves.foldl State.recordMove s).health[q] = s.health[q].through (viaOf moves q) s.time.et := by
  induction moves generalizing s with
  | nil => rfl
  | cons m moves ih =>
    rw [List.map_cons, List.nodup_cons] at h
    rw [List.foldl_cons, ih h.2, State.health_recordMove, State.recordMove_leaves .. |>.2.1, viaOf_cons]
    split
    · rename_i e
      rw [viaOf_eq_nil (by rw [← e]; exact h.1)]
      rfl
    · rfl

theorem State.recorded_leaves (s : State) (moves : List Move) :
    (moves.foldl State.recordMove s).cfg = s.cfg ∧ (moves.foldl State.recordMove s).time = s.time ∧
    (moves.foldl State.recordMove s).probes = s.probes ∧ (moves.foldl State.recordMove s).circuits = s.circuits ∧
    (moves.foldl State.recordMove s).tx = s.tx ∧ (moves.foldl State.recordMove s).pool = s.pool ∧
    (moves.foldl State.recordMove s).sel = s.sel ∧ (moves.foldl State.recordMove s).ports = s.ports :=
  ⟨foldl_leaves State.cfg _ (by simp) _ _, foldl_leaves State.time _ (by simp) _ _, foldl_leaves State.probes _ (by simp) _ _,
    foldl_leaves State.circuits _ (by simp) _ _, foldl_leaves State.tx _ (by simp) _ _, foldl_leaves State.pool _ (by simp) _ _,
    foldl_leaves State.sel _ (by simp) _ _, foldl_leaves State.ports _ (by simp) _ _⟩

/-- Two states agree on route `q`: on its records, on when a schedule begun now falls due and, when it carries no frames, on its
waiting queue. -/
def State.SameRoute (q : RouteIx) (u v : State) : Prop :=
  u.routeRecords q = v.routeRecords q ∧ u.nextDue = v.nextDue ∧
  (v.health[q].state.carries = false → u.tx[q].queue = v.tx[q].queue)

theorem State.SameRoute.refl (q : RouteIx) (u : State) : u.SameRoute q u := ⟨rfl, rfl, fun _ => rfl⟩

theorem State.SameRoute.trans {q : RouteIx} {u v w : State} (h : State.SameRoute q u v) (h' : State.SameRoute q v w) :
    State.SameRoute q u w := by
  obtain ⟨hrecords, hdue, hqueue⟩ := h
  obtain ⟨hrecords', hdue', hqueue'⟩ := h'
  have hhealth : v.health[q] = w.health[q] := congrArg Prod.fst hrecords'
  exact ⟨hrecords.trans hrecords', hdue.trans hdue', fun hw => (hqueue (by rw [hhealth]; exact hw)).trans (hqueue' hw)⟩

theorem State.sameRoute_consequences (s : State) {q r : RouteIx} (h : q ≠ r) (old new : RouteState) :
    State.SameRoute q (s.consequences r old new) s :=
  ⟨s.routeRecords_consequences h old new, s.nextDue_consequences r old new, fun hq => by
    rw [s.queue_consequences r old new hq, if_neg fun hall => h hall.1]⟩

theorem State.sameRoute_moveConsequences (s : State) {q r : RouteIx} (h : q ≠ r) (old : RouteState) (via : List RouteState) :
    State.SameRoute q (s.moveConsequences r old via) s := by
  induction via generalizing s old with
  | nil => exact .refl q s
  | cons new via ih => exact (ih _ _).trans (s.sameRoute_consequences h old new)

theorem State.sameRoute_follow {moves : List Move} {q : RouteIx} (h : q ∉ moves.map Move.route) (was : RouteIx → RouteState)
    (s : State) : State.SameRoute q (State.follow was s moves) s := by
  induction moves generalizing s with
  | nil => exact .refl q s
  | cons m moves ih =>
    rw [List.map_cons, List.mem_cons, not_or] at h
    exact (ih h.2 _).trans (s.sameRoute_moveConsequences h.1 _ _)

/-- What an event's moves do to one route is what its own series does to it. -/
theorem State.follow_route {moves : List Move} (h : (moves.map Move.route).Nodup) (was : RouteIx → RouteState) (s : State)
    (q : RouteIx) : ∃ u, State.SameRoute q u s ∧
      State.SameRoute q (State.follow was s moves) (u.moveConsequences q (was q) (viaOf moves q)) := by
  induction moves generalizing s with
  | nil => exact ⟨s, .refl q s, .refl q s⟩
  | cons m moves ih =>
    rw [List.map_cons, List.nodup_cons] at h
    rw [viaOf_cons]
    split
    · rename_i e
      subst e
      exact ⟨s, .refl _ s, State.sameRoute_follow h.1 was _⟩
    · rename_i hne
      obtain ⟨u, hu, hrest⟩ := ih h.2 (s.moveConsequences m.route (was m.route) m.via)
      exact ⟨u, hu.trans (s.sameRoute_moveConsequences (Ne.symm hne) _ _), hrest⟩

theorem State.outless_follow (was : RouteIx → RouteState) (s : State) (moves : List Move) (n : CircIx) :
    (State.follow was s moves).circuits[n].outless = s.circuits[n].outless :=
  foldl_leaves (fun u : State => u.circuits[n].outless) _ (fun u (m : Move) => u.outless_moveConsequences m.route _ m.via n) _ _

theorem State.ports_follow (was : RouteIx → RouteState) (s : State) (moves : List Move) (p : PortIx) :
    (State.follow was s moves).ports[p].recordless = s.ports[p].recordless ∧
    (State.follow was s moves).ports[p].SameAt 1
      ((moves.flatMap fun m => changeNotices m.route (was m.route) m.via).foldl Port.record s.ports[p]) ∧
    ∀ k : Fin 8, k ≠ 1 → k ≠ 5 → (State.follow was s moves).ports[p].records[k] = s.ports[p].records[k] := by
  induction moves generalizing s with
  | nil => exact ⟨rfl, .refl _ _, fun _ _ _ => rfl⟩
  | cons m moves ih =>
    obtain ⟨hless, hsame, hrec⟩ := s.ports_moveConsequences m.route (was m.route) m.via p
    obtain ⟨hless', hsame', hrec'⟩ := ih (s.moveConsequences m.route (was m.route) m.via)
    refine ⟨hless'.trans hless, ?_, fun k h1 h5 => (hrec' k h1 h5).trans (hrec k h1 h5)⟩
    rw [List.flatMap_cons, List.foldl_append]
    exact hsame'.trans (hsame.foldl_record _)

/-- Moves of one change each, none of which has a copy to re-steer, raise their notices and move no copy. -/
theorem State.follow_unsteered {was : RouteIx → RouteState} {moves : List Move} {s : State}
    (h : ∀ m ∈ moves, ∃ new, m.via = [new] ∧ (((was m.route).carries && !new.carries) = false ∨ s.tx[m.route].queue = [])) :
    (∀ q : RouteIx, (State.follow was s moves).tx[q].queue = s.tx[q].queue) ∧ (State.follow was s moves).pool = s.pool ∧
    (State.follow was s moves).circuits = s.circuits ∧
    ∀ p : PortIx, (State.follow was s moves).ports[p] =
      (moves.flatMap fun m => changeNotices m.route (was m.route) m.via).foldl Port.record s.ports[p] := by
  induction moves generalizing s with
  | nil => exact ⟨fun _ => rfl, rfl, rfl, fun _ => rfl⟩
  | cons m moves ih =>
    obtain ⟨new, hvia, hstays⟩ := h m (List.mem_cons_self ..)
    have hmove : s.moveConsequences m.route (was m.route) m.via = s.consequences m.route (was m.route) new := by
      rw [hvia]
      rfl
    have hcons : State.follow was s (m :: moves) = State.follow was (s.consequences m.route (was m.route) new) moves := by
      rw [← hmove]
      rfl
    obtain ⟨hqueue, hpool, hcircuits, hports⟩ := State.consequences_unsteered hstays
    obtain ⟨hqueue', hpool', hcircuits', hports'⟩ := ih (s := s.consequences m.route (was m.route) new) fun m' hm' => by
      obtain ⟨new', hvia', hstays'⟩ := h m' (List.mem_cons_of_mem _ hm')
      exact ⟨new', hvia', by rw [hqueue]; exact hstays'⟩
    rw [hcons]
    refine ⟨fun q => (hqueue' q).trans (hqueue q), hpool'.trans hpool, hcircuits'.trans hcircuits, fun p => ?_⟩
    rw [hports', hports, List.flatMap_cons, List.foldl_append, hvia]
    rfl

/-- Moves in route order raise their notices in route order. -/
theorem flatMap_viaOf (was : RouteIx → RouteState) {moves : List Move} {l : List RouteIx}
    (h : (moves.map Move.route).Sublist l) (hl : l.Nodup) :
    (l.flatMap fun r => changeNotices r (was r) (viaOf moves r)) =
      moves.flatMap fun m => changeNotices m.route (was m.route) m.via := by
  induction l generalizing moves with
  | nil =>
    rw [List.sublist_nil, List.map_eq_nil_iff] at h
    rw [h]
    rfl
  | cons a l ih =>
    rw [List.nodup_cons] at hl
    obtain ⟨ha, hl⟩ := hl
    rw [List.flatMap_cons]
    rcases List.sublist_cons_iff.1 h with hrest | ⟨rs, hcons, hrest⟩
    · rw [viaOf_eq_nil fun hmem => ha (hrest.subset hmem), ih hrest hl]
      rfl
    · obtain ⟨m, ms, rfl, rfl, rfl⟩ := List.map_eq_cons_iff.1 hcons
      rw [List.flatMap_cons, viaOf_cons, if_pos rfl, ← ih hrest hl]
      congr 1
      refine List.flatMap_congr fun r hr => ?_
      rw [viaOf_cons, if_neg fun e => ha (by rw [e]; exact hr)]

end Sys2Proof.Machine
end

