-- ==== Sys2Proof/Proofs/MovesMade.lean ====
section
/-! SUPPORT. The moves of one event show as `ChangesMade` and leave what `RoutesFrame` names (R65, R66, R76). -/

namespace Sys2Proof.Machine

/-! ### `ChangesMade` and `RoutesFrame` of the moves of one event -/

theorem Port.eq_of_recordless_wide {x y : Port} (h : x.recordless = y.recordless) :
    { x with
      records := y.records, answers := y.answers, misses := y.misses, lastRequest := y.lastRequest, counts := y.counts } = y := by
  have e : { x.recordless with
      records := y.records, answers := y.answers, misses := y.misses, lastRequest := y.lastRequest, counts := y.counts } =
      { y.recordless with
      records := y.records, answers := y.answers, misses := y.misses, lastRequest := y.lastRequest, counts := y.counts } := by
    rw [h]
  exact e

/-- What the moves of one event do to route `q`, its other routes apart. -/
theorem State.applyMoves_route {moves : List Move} (h : Ordered moves) (s : State) (q : RouteIx) :
    ∃ u : State, u.routeRecords q =
        (s.health[q].through (viaOf moves q) s.time.et, s.probes[q], s.tx[q].queueless) ∧ u.nextDue = s.nextDue ∧
      ((s.health[q].through (viaOf moves q) s.time.et).state.carries = false → u.tx[q].queue = s.tx[q].queue) ∧
      State.SameRoute q (s.applyMoves moves) (u.moveConsequences q s.health[q].state (viaOf moves q)) := by
  obtain ⟨hcfg, htime, hprobes, -, htx, -⟩ := s.recorded_leaves moves
  obtain ⟨u, ⟨hrecords, hdue, hqueue⟩, hrest⟩ :=
    State.follow_route h.nodup (fun r => s.health[r].state) (moves.foldl State.recordMove s) q
  rw [s.applyMoves_eq]
  refine ⟨u, ?_, ?_, ?_, hrest⟩
  · rw [hrecords, State.routeRecords, State.health_recorded h.nodup, hprobes, htx]
  · rw [hdue, State.nextDue, State.nextDue, State.probeTicks, State.probeTicks, hcfg, htime]
  · rw [State.health_recorded h.nodup, htx] at hqueue
    exact hqueue

theorem State.core_applyMoves {moves : List Move} (h : Ordered moves) (s : State) (q : RouteIx) :
    (s.applyMoves moves).health[q].core = (s.health[q].through (viaOf moves q) s.time.et).core := by
  obtain ⟨u, hu, -, -, hsame, -⟩ := State.applyMoves_route h s q
  have hhealth : (s.applyMoves moves).health[q] = _ := congrArg Prod.fst hsame
  have hu' : u.health[q] = _ := congrArg Prod.fst hu
  rw [hhealth]
  exact (u.core_moveConsequences q q _ _).trans (congrArg Health.core hu')

/-- A route that no move names keeps its records, and its transmit record but for the waiting queue. -/
theorem State.applyMoves_other {moves : List Move} (h : Ordered moves) (s : State) {q : RouteIx}
    (hq : q ∉ moves.map Move.route) : (s.applyMoves moves).routeRecords q = s.routeRecords q := by
  obtain ⟨u, hu, -, -, hsame, -⟩ := State.applyMoves_route h s q
  rw [viaOf_eq_nil hq] at hu hsame
  exact hsame.trans hu

theorem State.ports_applyMoves {moves : List Move} (h : Ordered moves) (s : State) (p : PortIx) :
    (s.applyMoves moves).ports[p].recordless = s.ports[p].recordless ∧
    (s.applyMoves moves).ports[p].SameAt 1
      (((List.finRange 16).flatMap fun r => changeNotices r s.health[r].state (viaOf moves r)).foldl Port.record s.ports[p]) ∧
    ∀ k : Fin 8, k ≠ 1 → k ≠ 5 → (s.applyMoves moves).ports[p].records[k] = s.ports[p].records[k] := by
  have hports := (s.recorded_leaves moves).2.2.2.2.2.2.2
  rw [flatMap_viaOf (fun r => s.health[r].state) h (List.nodup_finRange 16), s.applyMoves_eq, ← hports]
  exact State.ports_follow _ _ _ p

theorem State.outless_applyMoves (s : State) (moves : List Move) (n : CircIx) :
    (s.applyMoves moves).circuits[n].outless = s.circuits[n].outless := by
  rw [s.applyMoves_eq, State.outless_follow, (s.recorded_leaves moves).2.2.2.1]

theorem getLastD_ne {α : Type} {l : List α} {x a : α} (hne : l ≠ []) (h : l.getLast? ≠ some x) : l.getLastD a ≠ x := by
  rw [List.getLast?_eq_some_getLast hne, ne_eq, Option.some.injEq] at h
  rw [List.getLastD_eq_getLast?, List.getLast?_eq_some_getLast hne]
  exact h

/-- Each route that the moves of one event name shows its changes as R65 and R66 say. -/
theorem State.applyMoves_changesMade {moves : List Move} (h : Ordered moves) (s : State) :
    s.ChangesMade (s.applyMoves moves) (viaOf moves) := by
  refine ⟨fun q => ?_, fun p => (s.ports_applyMoves h p).2.1.2.2⟩
  have hcore := s.core_applyMoves h q
  obtain ⟨u, hu, hdue, hqueue, hsame, -, hcopies⟩ := State.applyMoves_route h s q
  generalize viaOf moves q = via at *
  have hdue' : s.time.et + BitVec.ofNat 64 ((s.applyMoves moves).cfg.probe.interval * 125000) = s.nextDue := by
    rw [State.applyMoves_leaves .. |>.1]
    rfl
  have hprove : (s.applyMoves moves).proveRecords q = (u.moveConsequences q s.health[q].state via).proveRecords q :=
    congrArg (fun x : Health × Probe × Tx => ((x.1.error, x.1.good), (x.1.testDue, x.2.2.testEntry))) hsame
  have hprobe : (s.applyMoves moves).probeRecords q = (u.moveConsequences q s.health[q].state via).probeRecords q :=
    congrArg (fun x : Health × Probe × Tx => ((x.2.1.ring, x.2.1.outstanding), x.2.1.peerView)) hsame
  have hstate : (s.applyMoves moves).health[q].state = via.getLastD s.health[q].state :=
    (congrArg Prod.fst hcore).trans (Health.through_state ..)
  refine ⟨hstate, ?_, ?_, fun hlast => ?_, fun hold hne hlast => ?_, fun hmem => ?_, fun hcarries hleft => ?_⟩
  · refine (congrArg (fun c => c.2.1) hcore).trans ?_
    cases via <;> simp [Health.core, Health.through]
  · refine (congrArg (fun c => c.2.2) hcore).trans ?_
    cases via <;> simp [Health.core, Health.through]
  · have hends := hprove.trans (u.proveRecords_of_ends q s.health[q].state hlast)
    rw [hdue', ← hdue]
    simp only [State.proveRecords, Prod.mk.injEq] at hends
    exact ⟨hends.1.1, hends.1.2, hends.2.2, hends.2.1⟩
  · have hleaves := u.proveRecords_of_leaves q (old := s.health[q].state) (via := via) (fun hnot => absurd hold hnot)
      (getLastD_ne hne hlast)
    rw [← hprove] at hleaves
    simp only [State.proveRecords, Prod.mk.injEq] at hleaves
    exact hleaves
  · have hflushed := u.probeRecords_of_flushed q s.health[q].state (.inl hmem)
    rw [← hprobe] at hflushed
    simp only [State.probeRecords, Prod.mk.injEq] at hflushed
    exact hflushed
  · have hu' : u.health[q].state = (s.applyMoves moves).health[q].state := by
      have hhealth : u.health[q] = s.health[q].through via s.time.et := congrArg Prod.fst hu
      rw [hstate, hhealth, Health.through_state]
    have hend : (u.moveConsequences q s.health[q].state via).health[q].state.carries = false := by
      have hstays : (u.moveConsequences q s.health[q].state via).health[q].state = u.health[q].state :=
        congrArg Prod.fst (u.core_moveConsequences q q s.health[q].state via)
      rw [hstays, hu', hleft]
    rw [hcopies hend]
    exact u.queue_of_left q (by rw [hu', hleft]) (fun hnot => absurd hcarries (by rw [hnot]; decide)) (by rw [← hstate, hleft])

/-- What the moves of one event leave alone. -/
theorem State.applyMoves_routesFrame {moves : List Move} (h : Ordered moves) (s : State) :
    s.RoutesFrame (s.applyMoves moves) (fun q => q ∈ moves.map Move.route) := by
  obtain ⟨-, hlanes, -, hscore, hprofile, hflash, hpending, harriving⟩ := s.applyMoves_leaves moves
  refine ⟨fun q hq => ?_, fun n => Circuit.eq_of_outless (s.outless_applyMoves moves n),
    fun p => Port.eq_of_recordless_wide (s.ports_applyMoves h p).1, TimeBase.eq_of_routeless (by simp), hscore, hprofile, hflash,
    hpending, harriving⟩
  have hsame := s.applyMoves_other h hq
  simp only [State.routeRecords, Prod.mk.injEq] at hsame
  exact ⟨by rw [hlanes], hsame.2.1, hsame.1, Tx.eq_of_queueless hsame.2.2⟩

/-- Moves of one change each, none of which has a copy to re-steer, raise their notices and move no copy. -/
theorem State.applyMoves_unsteered {moves : List Move} {s : State}
    (h : ∀ m ∈ moves, ∃ new, m.via = [new] ∧
      ((s.health[m.route].state.carries && !new.carries) = false ∨ s.tx[m.route].queue = [])) :
    (∀ q : RouteIx, (s.applyMoves moves).tx[q].queue = s.tx[q].queue) ∧ (s.applyMoves moves).pool = s.pool ∧
    (s.applyMoves moves).circuits = s.circuits ∧
    ∀ p : PortIx, (s.applyMoves moves).ports[p] =
      (moves.flatMap fun m => changeNotices m.route s.health[m.route].state m.via).foldl Port.record s.ports[p] := by
  obtain ⟨-, -, -, hcircuits, htx, hpool, -, hports⟩ := s.recorded_leaves moves
  have hfollow := State.follow_unsteered (was := fun r => s.health[r].state) (moves := moves)
    (s := moves.foldl State.recordMove s) (by rw [htx]; exact h)
  rw [htx, hpool, hcircuits, hports] at hfollow
  exact hfollow

/-- Routes that made at most one change each, to another state, made the one that their states show. -/
theorem State.ChangesMade.one {s t : State} {via : RouteIx → List RouteState} (h : s.ChangesMade t via)
    (hone : ∀ r, via r = [] ∨ ∃ new, via r = [new] ∧ new ≠ s.health[r].state) : s.ChangesMade t (s.oneChange t) := by
  have hvia : via = s.oneChange t := by
    funext r
    have hstate := (h.1 r).1
    rw [State.oneChange, hstate]
    rcases hone r with hnone | ⟨new, hnew, hne⟩
    · rw [hnone]
      simp
    · rw [hnew]
      exact (if_neg hne).symm
  rw [← hvia]
  exact h

end Sys2Proof.Machine
end

