-- ==== Sys2Proof/Proofs/Evaluation.lean ====
section
/-! SUPPORT. What an evaluation of a route does and leaves (R64 to R66). -/

namespace Sys2Proof.Machine

/-- A transition of R64 is to another state, and neither from nor to DISABLED. -/
theorem evalTarget_some {h : HealthSettings} {ty : LaneType} {l : Lane} {rec : Health} {new : RouteState}
    (e : evalTarget h ty l rec = some new) : new ≠ rec.state ∧ new ≠ .disabled ∧ rec.state ≠ .disabled := by
  unfold evalTarget at e
  cases hstate : rec.state <;> simp only [hstate, Option.ite_none_right_eq_some, Option.some.injEq] at e
  case up =>
    split at e
    · cases e; decide
    · simp only [Option.ite_none_right_eq_some, Option.some.injEq] at e
      rw [← e.2]; decide
  case fading =>
    split at e
    · cases e; decide
    · simp only [Option.ite_none_right_eq_some, Option.some.injEq] at e
      rw [← e.2]; decide
  case down => rw [← e.2]; decide
  case proving =>
    split at e
    · cases e; decide
    · simp only [Option.ite_none_right_eq_some, Option.some.injEq] at e
      rw [← e.2]; decide
  case disabled => cases e

theorem State.evaluate_cases (s : State) (r : RouteIx) :
    (s.evaluation r = none ∧ s.evaluate r = s) ∨
    ∃ new, s.evaluation r = some new ∧ s.evaluate r = s.moveRoute r [new] ∧ new ≠ s.health[r].state ∧ new ≠ .disabled ∧
      s.health[r].state ≠ .disabled := by
  unfold State.evaluate
  cases h : s.evaluation r with
  | none => exact .inl ⟨rfl, rfl⟩
  | some new => exact .inr ⟨new, rfl, rfl, evalTarget_some h⟩

theorem viaOf_one (r q : RouteIx) (via : List RouteState) :
    viaOf [{ route := r, via := via }] q = if r = q then via else [] := viaOf_cons ..

theorem State.state_moveRoute (s : State) (r : RouteIx) (new : RouteState) :
    (s.moveRoute r [new]).health[r].state = new := by
  refine (congrArg Prod.fst (s.core_applyMoves (ordered_one r [new]) r)).trans ?_
  rw [viaOf_one, if_pos rfl]
  rfl

/-- One change of a route makes that change and leaves what `RouteFrame` names. -/
theorem State.moveRoute_routeFrame (s : State) {r : RouteIx} {new : RouteState} (h : new ≠ s.health[r].state) :
    s.RouteFrame (s.moveRoute r [new]) r := by
  have hordered := ordered_one r [new]
  refine ⟨?_, ?_, by simp, by simp, fun p => Port.eq_of_recordless (s.ports_applyMoves hordered p).1⟩
  · have hframe := s.applyMoves_routesFrame hordered
    simp only [List.map_cons, List.map_nil, List.mem_singleton] at hframe
    exact hframe
  · refine (s.applyMoves_changesMade hordered).one fun q => ?_
    rw [viaOf_one]
    split
    · rename_i e
      subst e
      exact .inr ⟨new, rfl, h⟩
    · exact .inl rfl

/-- A state and itself: no route has moved. -/
theorem State.routeFrame_refl (s : State) (r : RouteIx) : s.RouteFrame s r := by
  have hordered : Ordered [] := List.nil_sublist _
  have hmade : s.ChangesMade s (s.oneChange s) := (s.applyMoves_changesMade hordered).one fun _ => .inl rfl
  exact ⟨⟨fun _ _ => ⟨rfl, rfl, rfl, rfl⟩, fun _ => rfl, fun _ => rfl, rfl, rfl, rfl, rfl, rfl, rfl⟩, hmade, rfl, rfl,
    fun _ => rfl⟩

theorem State.evaluate_routeFrame (s : State) (r : RouteIx) : s.RouteFrame (s.evaluate r) r := by
  obtain ⟨-, e⟩ | ⟨new, -, e, hne, -⟩ := s.evaluate_cases r
  · rw [e]
    exact s.routeFrame_refl r
  · rw [e]
    exact s.moveRoute_routeFrame hne

theorem State.evaluate_state (s : State) (r : RouteIx) :
    (s.evaluate r).health[r].state = (s.evaluation r).getD s.health[r].state := by
  obtain ⟨hnone, e⟩ | ⟨new, hnew, e, -⟩ := s.evaluate_cases r
  · rw [e, hnone]
    rfl
  · rw [e, hnew, State.state_moveRoute]
    rfl

/-- An evaluation that leaves the route's state leaves everything. -/
theorem State.evaluate_of_stays {s : State} {r : RouteIx} (h : (s.evaluate r).health[r].state = s.health[r].state) :
    s.evaluate r = s := by
  obtain ⟨-, e⟩ | ⟨new, -, e, hne, -⟩ := s.evaluate_cases r
  · exact e
  · rw [e, State.state_moveRoute] at h
    exact absurd h hne

theorem State.probes_settle {s : State} {r : RouteIx} {old new : RouteState} (hold : old ≠ .disabled) (hnew : new ≠ .disabled) :
    (s.settle r old new).probes = if new = .down then (s.flush r).probes else s.probes := by
  have hflush (u : State) (hu : u.probes = s.probes) : (u.flush r).probes = (s.flush r).probes := by
    simp [State.flush, State.modProbe, hu]
  simp only [State.settle, hold, hnew, or_false, if_false, apply_ite State.probes]
  split
  · exact hflush _ (by simp [apply_ite State.probes])
  · simp [apply_ite State.probes]

/-- A transition into DOWN flushes the route's samples and outstanding records; no other touches its probe record (R53). -/
theorem State.evaluate_probe (s : State) (r : RouteIx) :
    (s.evaluate r).probes[r] =
      if (s.evaluate r).health[r].state ≠ s.health[r].state ∧ (s.evaluate r).health[r].state = .down then
        { s.probes[r] with ring := [], outstanding := [] }
      else s.probes[r] := by
  obtain ⟨-, e⟩ | ⟨new, -, e, hne, hdisabled, hold⟩ := s.evaluate_cases r
  · rw [e, if_neg fun h => h.1 rfl]
  · rw [e, State.state_moveRoute]
    have hprobes : (s.moveRoute r [new]).probes = if new = .down then (s.flush r).probes else s.probes := by
      refine (State.consequences_proj State.probes (by intros; rfl) (by intros; simp) (by intros; rfl)
        (s.recordChange r new) r s.health[r].state new).trans ?_
      exact State.probes_settle hold hdisabled
    rw [hprobes, apply_ite (fun v : Vector Probe 16 => v[r]), State.flush, State.modProbe_get_self]
    simp only [ne_eq, hne, not_false_eq_true, true_and]

/-- A transition into PROVING zeroes the error count and the good-window count; no other touches them (R65). -/
theorem State.evaluate_counts (s : State) (r : RouteIx) :
    ((s.evaluate r).health[r].error, (s.evaluate r).health[r].good) =
      if s.health[r].state ≠ .proving ∧ (s.evaluate r).health[r].state = .proving then (0, 0)
      else (s.health[r].error, s.health[r].good) := by
  obtain ⟨-, e⟩ | ⟨new, -, e, hne, -⟩ := s.evaluate_cases r
  · rw [e, if_neg fun h => h.1 h.2]
  · rw [e, State.state_moveRoute]
    have hcounts : ((s.moveRoute r [new]).proveRecords r).1 = if new = .proving then (0, 0) else (s.proveRecords r).1 := by
      refine (congrArg Prod.fst ((s.recordChange r new).proveRecords_consequences r s.health[r].state new)).trans ?_
      have hrecorded : ((s.recordChange r new).proveRecords r).1 = (s.proveRecords r).1 := by
        rw [State.proveRecords, State.recordChange, State.modHealth_get_self]
        rfl
      simp only [apply_ite Prod.fst]
      split
      · rfl
      · split
        · exact hrecorded
        · exact hrecorded
    refine hcounts.trans ?_
    by_cases hnew : new = .proving
    · have hold : s.health[r].state ≠ .proving := fun h => hne (by rw [hnew, h])
      rw [if_pos hnew, if_pos ⟨hold, hnew⟩]
    · rw [if_neg hnew, if_neg fun h : s.health[r].state ≠ .proving ∧ new = .proving => hnew h.2]
      rfl

/-- An evaluation raises no notice but ROUTE_STATE and CIRCUIT_DISCARD. -/
theorem State.evaluate_records (s : State) (r : RouteIx) (p : PortIx) {k : Fin 8} (h1 : k ≠ 1) (h5 : k ≠ 5) :
    (s.evaluate r).ports[p].records[k] = s.ports[p].records[k] := by
  obtain ⟨-, e⟩ | ⟨new, -, e, -⟩ := s.evaluate_cases r
  · rw [e]
  · rw [e]
    exact (s.ports_applyMoves (ordered_one r [new]) p).2.2 k h1 h5

theorem State.evaluate_routeless (s : State) (r : RouteIx) : (s.evaluate r).time.routeless = s.time.routeless := by
  obtain ⟨-, e⟩ | ⟨new, -, e, -⟩ := s.evaluate_cases r
  · rw [e]
  · rw [e]
    exact s.applyMoves_routeless _

/-! ### A state that an event has touched before its route is evaluated -/

/-- `v` is `s` but for what an event of route `r` has set before the route's move: the route's own lane, probe and health records,
the scores, the time base, and at the ports records other than ROUTE_STATE's. -/
structure State.Prepares (s v : State) (r : RouteIx) : Prop where
  cfg : v.cfg = s.cfg
  et : v.time.et = s.time.et
  lanes : ∀ q, q ≠ r → v.lanes[q] = s.lanes[q]
  probes : ∀ q, q ≠ r → v.probes[q] = s.probes[q]
  health : ∀ q, q ≠ r → v.health[q] = s.health[q]
  core : v.health[r].core = s.health[r].core
  tx : v.tx = s.tx
  circuits : v.circuits = s.circuits
  peers : v.peers = s.peers
  profile : v.profile = s.profile
  flash : v.flash = s.flash
  pending : v.pending = s.pending
  arriving : v.arriving = s.arriving
  port : ∀ p : PortIx, v.ports[p].recordless = s.ports[p].recordless
  record : ∀ p : PortIx, v.ports[p].records[(1 : Fin 8)] = s.ports[p].records[(1 : Fin 8)]

/-- What a route's move leaves of the state it starts from, the whole event leaves of the state before it. -/
theorem State.Prepares.routeFrame {s v t : State} {r : RouteIx} (h : s.Prepares v r) (hframe : v.RouteFrame t r) {time : TimeBase}
    (htime : { time with timeRoute := s.time.timeRoute } = s.time) :
    s.RouteFrame { t with lanes := s.lanes, score := s.score, time := time } r := by
  obtain ⟨⟨hother, hcircuits, -, -, -, hprofile, hflash, hpending, harriving⟩, ⟨hmade, hnotices⟩, hcfg, hpeers, hports⟩ := hframe
  have hport (p : PortIx) : t.ports[p].recordless = s.ports[p].recordless := by
    rw [← h.port p, ← hports p]
    rfl
  have hcore (q : RouteIx) : v.health[q].core = s.health[q].core := by
    by_cases hq : q = r
    · subst hq; exact h.core
    · rw [h.health q hq]
  have hone : State.oneChange s { t with lanes := s.lanes, score := s.score, time := time } = v.oneChange t := by
    funext q
    have hstate : v.health[q].state = s.health[q].state := congrArg Prod.fst (hcore q)
    rw [State.oneChange, State.oneChange, hstate]
  have het : s.time.et = v.time.et := h.et.symm
  refine ⟨⟨fun q hq => ?_, fun n => ?_, fun p => Port.eq_of_recordless_wide (hport p), htime, rfl, hprofile.trans h.profile,
    hflash.trans h.flash, hpending.trans h.pending, harriving.trans h.arriving⟩, ⟨fun q => ?_, fun p => ?_⟩, hcfg.trans h.cfg,
    hpeers.trans h.peers, fun p => Port.eq_of_recordless (hport p)⟩
  · obtain ⟨-, hprobe, hhealth, htx⟩ := hother q hq
    rw [h.tx] at htx
    exact ⟨rfl, hprobe.trans (h.probes q hq), hhealth.trans (h.health q hq), htx⟩
  · rw [← h.circuits]
    exact hcircuits n
  · have hcq := hcore q
    simp only [Health.core, Prod.mk.injEq] at hcq
    have hq := hmade q
    rw [hone, ← hcq.1, ← hcq.2.1, ← hcq.2.2, het]
    exact hq
  · rw [hone]
    have hstate (q : RouteIx) : s.health[q].state = v.health[q].state := (congrArg Prod.fst (hcore q) :).symm
    simp only [hstate]
    exact (hnotices p).trans ((Port.sameAt_of_recordless (h.port p) (h.record p)).foldl_record _).2.2

end Sys2Proof.Machine
end

