-- ==== Sys2Proof/Proofs/Echo.lean ====
section
/-! CHECK. An ECHO received: late, bad or good, and the offset of a good one (R45 to R52, R61, R64, R70). -/

namespace Sys2Proof.Machine

/-! ### The frame -/

/-- The lane has handed on a frame held in its buffer, and the score has counted an ECHO (R137, R139). -/
def State.echoTaken (s : State) (r : RouteIx) : State :=
  (s.modLane r fun l => { l with rx := none }).modScore r fun x => { x with echoes := x.echoes + 1 }

/-- The bytes behind which an ECHO's CRC stands (R195). -/
def echoBody (id number errors view : Byte) (t1 t2 t3 : Stamp) : List Byte :=
  [3, id, number, errors, view] ++ bytesOf 8 t1.toNat ++ bytesOf 8 t2.toNat ++ bytesOf 8 t3.toNat

theorem length_echoBody (id number errors view : Byte) (t1 t2 t3 : Stamp) :
    (echoBody id number errors view t1 t2 t3).length = 29 := by
  simp [echoBody]

theorem withCrc_good {bs : List Byte} (hlen : 1 ≤ bs.length) (hkind : field (withCrc bs) 0 1 ≠ TrunkKind.test.code) :
    frameCrcGood (withCrc bs) = true := by
  have hlength : (withCrc bs).length = bs.length + 4 := by simp [withCrc]
  have htake : (withCrc bs).take bs.length = bs := by simp [withCrc]
  have hfield : field (withCrc bs) bs.length 4 = (crc32 bs).toNat :=
    field_of_take (by simp [withCrc]) (crc32 bs).isLt
  rw [frameCrcGood, if_neg hkind, hlength, Nat.add_sub_cancel, htake, hfield]
  simp
  omega

theorem execFrameEnd_of_echo {s : State} {r : RouteIx} {rx : Rx} {rest : List Byte} {number errors view : Byte} {t1 t2 t3 : Stamp}
    (hrx : s.lanes[r].rx = some rx) (hstore : rx.store = .buffer) (hstate : s.health[r].state ≠ .disabled)
    (hbytes : rx.first :: rest =
      withCrc (echoBody s.cfg.peers[s.cfg.routes[r].peer].termId number errors view t1 t2 t3)) :
    exec (.frameEnd r rest) s = .next ((s.echoTaken r).resolveEcho r number t1 t2 t3 rx.stamp errors view) := by
  have hexec : exec (.frameEnd r rest) s = execFrameEnd r rest s := rfl
  have hfirst : rx.first = 3 := (List.cons.inj hbytes).1
  generalize hid : s.cfg.peers[s.cfg.routes[r].peer].termId = id at *
  have hlength : (rx.first :: rest).length = 33 := by rw [hbytes]; simp [withCrc, length_echoBody]
  have hkind : field (rx.first :: rest) 0 1 = 3 := by rw [field_one, hfirst]; rfl
  have hgood : frameCrcGood (rx.first :: rest) = true := by
    rw [hbytes] at hkind ⊢
    exact withCrc_good (by simp [length_echoBody]) (by rw [hkind]; decide)
  have hecho : frameKind (rx.first :: rest) = some .echo := by rw [frameKind, hkind]; simp only [hlength]; rfl
  have hnumber (i : Nat) (b : Byte) (h : (withCrc (echoBody id number errors view t1 t2 t3)).getD i 0 = b) :
    (rx.first :: rest).getD i 0 = b := by
    rw [hbytes]; exact h
  have hstamp (i : Nat) (t : Stamp)
      (h : ((withCrc (echoBody id number errors view t1 t2 t3)).drop i).take 8 = bytesOf 8 t.toNat) :
      BitVec.ofNat 64 (field (rx.first :: rest) i 8) = t := by
    rw [hbytes, field_of_take h t.isLt, BitVec.ofNat_toNat, BitVec.setWidth_eq]
  rw [hexec, execFrameEnd, hrx]
  simp only [hlength, Config.trunkMax, State.frameJudged, hstore, hstate, hgood, hecho, hid, hnumber 1 id rfl, State.dispatch,
    hnumber 2 number rfl, hnumber 3 errors rfl, hnumber 4 view rfl, hstamp 5 t1 rfl, hstamp 13 t2 rfl, hstamp 21 t3 rfl,
    State.dropRx, hrx, Nat.reduceLT, if_false, reduceCtorEq, or_self, Bool.not_true, Bool.false_eq_true, ne_eq,
    not_true_eq_false]
  rfl

/-! ### The state before the route is evaluated -/

/-- What an ECHO whose record was found has set before its route is evaluated. -/
def State.echoed (s : State) (r : RouteIx) (probe : Probe) (error good : Nat) (time : TimeBase) (ports : Vector Port 6) :
    State :=
  { s with
    lanes := s.lanes.set r { s.lanes[r] with rx := none }
    score := s.score.set r { s.score[r] with echoes := s.score[r].echoes + 1 }
    health := s.health.set r { s.health[r] with error := error, good := good }
    probes := s.probes.set r probe
    time := time
    ports := ports }

theorem moveError_good (error : Nat) (errors : Byte) :
    moveError error (Resolution.good errors).errorChange = min 255 (error - if errors = 0 then 1 else 0) := by
  unfold moveError Resolution.errorChange
  by_cases h : errors = 0
  · simp only [h, if_true]
    omega
  · simp only [h, if_false]
    omega

theorem moveError_bad (error : Nat) (errors : Byte) :
    moveError error (Resolution.badSample errors).errorChange = min 255 (error + if errors = 0 then 8 else 9) := by
  unfold moveError Resolution.errorChange
  by_cases h : errors = 0
  · simp only [h, if_true]
    omega
  · simp only [h, if_false]
    omega

theorem find?_number {before after : List Outstanding} {o : Outstanding} {number : Byte}
    (hbefore : ∀ x ∈ before, x.number ≠ number) (ho : o.number = number) :
    (before ++ o :: after).find? (fun o => o.number == number) = some o := by
  rw [List.find?_append, List.find?_eq_none.2 fun x hx => by simpa using hbefore x hx]
  simp [ho]

theorem erase_number {before after : List Outstanding} {o : Outstanding} {number : Byte}
    (hbefore : ∀ x ∈ before, x.number ≠ number) (ho : o.number = number) :
    (before ++ o :: after).erase o = before ++ after := by
  rw [List.erase_append_right _ fun h => hbefore o h ho, List.erase_cons_head]

/-- The probe record of a route after a BAD_SAMPLE (R48). -/
def Probe.bad (p : Probe) (left : List Outstanding) (view errors : Byte) (now : Ticks) : Probe :=
  { p with
    outstanding := left, peerView := some { state := view, errors := errors, at_ := now }
    counts := { p.counts with badSample := p.counts.badSample + 1 } }

/-- The probe record of a route after a GOOD sample, its offset handed over or not (R47, R48, R52). -/
def Probe.sampled (p : Probe) (left : List Outstanding) (x : Sample) (view errors : Byte) (now : Ticks) (handed : Bool) :
    Probe :=
  { p with
    outstanding := left, ring := enterSample p.ring x, peerView := some { state := view, errors := errors, at_ := now }
    counts :=
      if handed then { p.counts with good := p.counts.good + 1, offsetsHanded := p.counts.offsetsHanded + 1 }
      else { p.counts with good := p.counts.good + 1 } }

/-! ### The offset of a GOOD sample (R6 to R9, R52) -/

theorem State.acceptOffset_state (s : State) (θ : Int) (interval : Nat) :
    (s.acceptOffset θ interval).time.state =
      if s.cfg.time.stepLimit ≤ θ.natAbs then .acquiring
      else (lockCount s.cfg.time.lockLimit s.time.state s.time.good θ).2 := by
  rw [State.acceptOffset_time]
  split <;> rfl

/-- A TIME_STATE notice is raised at an accepted offset exactly when the time state changes (R11). -/
theorem State.acceptOffset_stateRecord (s : State) (θ : Int) (interval : Nat) (p : PortIx) :
    (s.acceptOffset θ interval).ports[p].records[(2 : Fin 8)] =
      if (s.acceptOffset θ interval).time.state = s.time.state then s.ports[p].records[(2 : Fin 8)]
      else (s.ports[p].record (.timeState (s.acceptOffset θ interval).time.state s.time.state)).records[(2 : Fin 8)] := by
  rw [State.acceptOffset_port, State.offsetNoticed, State.acceptOffset_state]
  have hstep : (s.ports[p].record (.timeStep θ)).SameAt 2 s.ports[p] := s.ports[p].sameAt_record (by simp [Notice.kind])
  by_cases hlimit : s.cfg.time.stepLimit ≤ θ.natAbs
  · rw [if_pos hlimit, if_pos hlimit]
    by_cases hsame : s.time.state = .acquiring
    · rw [if_pos hsame, if_pos hsame.symm]
      exact hstep.2.2
    · rw [if_neg hsame, if_neg (Ne.symm hsame)]
      exact (hstep.record _).2.2
  · rw [if_neg hlimit, if_neg hlimit]
    by_cases hsame : s.time.state = (lockCount s.cfg.time.lockLimit s.time.state s.time.good θ).2
    · rw [if_pos hsame, if_pos hsame.symm]
    · rw [if_neg hsame, if_neg (Ne.symm hsame)]

/-- A TIME_STEP notice is raised at a step alone (R7). -/
theorem State.acceptOffset_stepRecord (s : State) (θ : Int) (interval : Nat) (p : PortIx) :
    (s.acceptOffset θ interval).ports[p].records[(0 : Fin 8)] =
      if s.cfg.time.stepLimit ≤ θ.natAbs then (s.ports[p].record (.timeStep θ)).records[(0 : Fin 8)]
      else s.ports[p].records[(0 : Fin 8)] := by
  rw [State.acceptOffset_port, State.offsetNoticed]
  split
  · split
    · rfl
    · exact Port.record_records_other _ _ (by simp [Notice.kind])
  · split
    · rfl
    · exact Port.record_records_other _ _ (by simp [Notice.kind])

theorem State.offsetNoticed_recordless (s : State) (θ : Int) (p : PortIx) :
    (s.offsetNoticed θ p).recordless = s.ports[p].recordless ∧
    (s.offsetNoticed θ p).records[(1 : Fin 8)] = s.ports[p].records[(1 : Fin 8)] := by
  have hrecord (x : Port) {n : Notice} (h : n.kind ≠ 1) :
      (x.record n).recordless = x.recordless ∧ (x.record n).records[(1 : Fin 8)] = x.records[(1 : Fin 8)] :=
    ⟨x.recordless_record n, x.record_records_other n h⟩
  unfold State.offsetNoticed
  split
  · obtain ⟨hless, hrec⟩ := hrecord s.ports[p] (n := .timeStep θ) (by simp [Notice.kind])
    split
    · exact ⟨hless, hrec⟩
    · obtain ⟨hless', hrec'⟩ := hrecord (s.ports[p].record (.timeStep θ)) (n := .timeState .acquiring s.time.state)
        (by simp [Notice.kind])
      exact ⟨hless'.trans hless, hrec'.trans hrec⟩
  · split
    · exact ⟨rfl, rfl⟩
    · exact hrecord _ (by simp [Notice.kind])

theorem State.acceptOffset_disciplined (s : State) (θ : Int) (interval : Nat) :
    s.Disciplined (s.acceptOffset θ interval) θ interval := by
  obtain ⟨hlast, het, hcapture, haccepted, hglitches, hedge, hp, hinc⟩ := s.acceptOffset_always θ interval
  refine ⟨hlast, het, hcapture, haccepted, hglitches, hedge, hp, hinc, s.acceptOffset_stateRecord θ interval, fun hstep => ?_,
    fun hslew => ?_⟩
  · obtain ⟨hfc, hsl, hgood, hstate, hpos, hneg, hfired, hedges⟩ := State.acceptOffset_of_step hstep interval
    refine ⟨hfc, hsl, hgood, hstate, hpos, hneg, hfired, hedges, fun p => ?_⟩
    rw [State.acceptOffset_stepRecord, if_pos hstep]
  · obtain ⟨htt, hfrac, hfired, hedges, hfc, hsl, hlock⟩ := State.acceptOffset_of_slew hslew interval
    refine ⟨htt, hfrac, hfired, hedges, hfc, hsl, hlock, fun p => ?_⟩
    rw [State.acceptOffset_stepRecord, if_neg (Nat.not_le.2 hslew)]

/-- What follows an accepted offset without touching the time base but for its time route, nor its two notices, leaves it so. -/
theorem State.Disciplined.of_later {s w t : State} {θ : Int} {interval : Nat} (h : s.Disciplined w θ interval)
    (htime : t.time.routeless = w.time.routeless)
    (hstep : ∀ p : PortIx, t.ports[p].records[(0 : Fin 8)] = w.ports[p].records[(0 : Fin 8)])
    (hstate : ∀ p : PortIx, t.ports[p].records[(2 : Fin 8)] = w.ports[p].records[(2 : Fin 8)]) :
        s.Disciplined t θ interval := by
  have e : { w.time with timeRoute := t.time.timeRoute } = t.time := TimeBase.eq_of_routeless htime.symm
  unfold State.Disciplined
  simp only [hstep, hstate]
  rw [← e]
  exact h

/-! ### The three outcomes -/

theorem State.resolveEcho_late {s : State} {r : RouteIx} {number : Byte} (h : ∀ o ∈ s.probes[r].outstanding, o.number ≠ number)
    (t1 t2 t3 t4 : Stamp) (errors view : Byte) :
    (s.echoTaken r).resolveEcho r number t1 t2 t3 t4 errors view =
      { s with
        lanes := s.lanes.set r { s.lanes[r] with rx := none }
        score := s.score.set r { s.score[r] with echoes := s.score[r].echoes + 1 }
        probes := s.probes.set r
          { s.probes[r] with counts := { s.probes[r].counts with lateEcho := s.probes[r].counts.lateEcho + 1 } } } := by
  have hfind : (s.echoTaken r).probes[r].outstanding.find? (fun o => o.number == number) = none :=
    List.find?_eq_none.2 fun o ho => by simpa using h o ho
  rw [State.resolveEcho, hfind]
  rfl

section
variable {s : State} {r : RouteIx} {number : Byte} {before after : List Outstanding} {o : Outstanding}

theorem State.resolveEcho_found (hout : s.probes[r].outstanding = before ++ o :: after)
    (hbefore : ∀ x ∈ before, x.number ≠ number) (ho : o.number = number) (t1 t2 t3 t4 : Stamp) (errors view : Byte) :
    (s.echoTaken r).resolveEcho r number t1 t2 t3 t4 errors view =
      if o.t1 ≠ t1 ∨ roundTrip t1 t2 t3 t4 < 0 then (s.echoTaken r).badSample r o view errors
      else
        (s.echoTaken r).goodSample r o
          { number := number, rtt := (roundTrip t1 t2 t3 t4).toNat, d := offsetTerm t1 t2 t3 t4, at_ := s.time.et }
          view errors := by
  have hfind : (s.echoTaken r).probes[r].outstanding.find? (fun o => o.number == number) = some o := by
    show s.probes[r].outstanding.find? (fun o => o.number == number) = some o
    rw [hout]
    exact find?_number hbefore ho
  rw [State.resolveEcho, hfind]
  rfl

theorem State.badSample_eq (hout : s.probes[r].outstanding = before ++ o :: after)
    (hbefore : ∀ x ∈ before, x.number ≠ number) (ho : o.number = number) (errors view : Byte) :
    (s.echoTaken r).badSample r o view errors =
      (s.echoed r (s.probes[r].bad (before ++ after) view errors s.time.et)
        (min 255 (s.health[r].error + if errors = 0 then 8 else 9))
        (if s.health[r].state = .proving then 0 else s.health[r].good) s.time s.ports).evaluate r := by
  rw [State.badSample, State.resolve]
  congr 1
  rw [← moveError_bad, ← erase_number hbefore ho, ← hout]
  simp [State.echoed, State.echoTaken, State.modProbe, State.viewPeer, State.modHealth, State.modLane, State.modScore,
    Probe.bad,
    Resolution.window]

/-- The state in which the gate judges a GOOD sample: the sample in the ring and the time route chosen again (R48, R52). -/
def State.entered (s : State) (r : RouteIx) (left : List Outstanding) (x : Sample) : State :=
  { s with
    lanes := s.lanes.set r { s.lanes[r] with rx := none }
    score := s.score.set r { s.score[r] with echoes := s.score[r].echoes + 1 }
    probes := s.probes.set r
      { s.probes[r] with
        outstanding := left, ring := enterSample s.probes[r].ring x
        counts := { s.probes[r].counts with good := s.probes[r].counts.good + 1 } }
    time := { s.time with timeRoute := (s.withSample r x).bestTimeRoute } }

theorem State.entered_probe (s : State) (r : RouteIx) (left : List Outstanding) (x : Sample) :
    (s.entered r left x).probes[r] =
      { s.probes[r] with
        outstanding := left, ring := enterSample s.probes[r].ring x
        counts := { s.probes[r].counts with good := s.probes[r].counts.good + 1 } } := by
  simp [State.entered]

theorem State.withSample_ring (s : State) (r : RouteIx) (x : Sample) :
    (s.withSample r x).probes[r].ring = enterSample s.probes[r].ring x := by
  rw [State.withSample, State.modProbe_get_self]

/-- The choice of the time route looks at no more of a probe record than its ring. -/
theorem State.routeView_of_rings {s t : State} (hcfg : t.cfg = s.cfg) (hhealth : t.health = s.health)
    (hring : ∀ q : RouteIx, t.probes[q].ring = s.probes[q].ring) : t.routeView = s.routeView := by
  simp only [State.routeView, hcfg, hhealth, hring]

theorem State.entered_eq (hout : s.probes[r].outstanding = before ++ o :: after)
    (hbefore : ∀ x ∈ before, x.number ≠ number) (ho : o.number = number) (x : Sample) :
    ((s.echoTaken r).modProbe r fun p =>
      { p with
        outstanding := p.outstanding.erase o
        ring := enterSample p.ring x
        counts := { p.counts with good := p.counts.good + 1 } }).rechoose = s.entered r (before ++ after) x := by
  rw [← erase_number hbefore ho, ← hout]
  generalize hu : (s.echoTaken r).modProbe r (fun p =>
      { p with
        outstanding := p.outstanding.erase o
        ring := enterSample p.ring x
        counts := { p.counts with good := p.counts.good + 1 } }) = u
  have hbest : u.bestTimeRoute = (s.withSample r x).bestTimeRoute := by
    refine State.bestTimeRoute_congr (State.routeView_of_rings (by rw [← hu]; rfl) (by rw [← hu]; rfl) fun q => ?_)
    rw [← hu, State.withSample, State.modProbe_get, State.modProbe_get]
    split <;> rfl
  rw [State.rechoose, hbest, ← hu]
  rfl

theorem State.bestTimeRoute_eq_some (h : s.bestTimeRoute = some r) :
    s.cfg.time.role = .follower ∧ s.cfg.routes[r].peer = s.cfg.time.followed := by
  unfold State.bestTimeRoute at h
  split at h
  · cases h
  · have hmem := (List.mem_filter.1 (leastBy_mem h)).2
    exact ⟨‹_›, ((s.qualifies_iff r).1 hmem).1⟩

/-- The gate of the model is the one of R52. -/
theorem State.gateOpen_iff (left : List Outstanding) (x : Sample) :
    (s.entered r left x).gateOpen r x.rtt = true ↔ s.GateOpens r x := by
  have hm : (s.entered r left x).probes[r].m = (s.withSample r x).probes[r].m := by
    rw [Probe.m, Probe.m, State.withSample_ring, State.entered_probe]
  have hnear : (match (s.withSample r x).probes[r].m with
      | none => false
      | some m => decide (x.rtt ≤ m + s.cfg.probe.gate)) = true ↔
      ∀ m ∈ (s.withSample r x).probes[r].m, x.rtt ≤ m + s.cfg.probe.gate := by
    have hsome : (s.withSample r x).probes[r].m.isSome = true :=
      (Probe.m_isSome _).2 (by rw [State.withSample_ring, enterSample]; simp)
    obtain ⟨m, e⟩ := Option.isSome_iff_exists.1 hsome
    rw [e]
    simp
  unfold State.gateOpen
  rw [hm, Bool.and_eq_true, Bool.and_eq_true, Bool.and_eq_true]
  refine Iff.trans (and_congr_right fun _ => hnear) (and_congr_left fun _ => ?_)
  simp only [State.entered, beq_iff_eq]
  exact ⟨fun h => h.1.1, fun h => ⟨⟨h, (State.bestTimeRoute_eq_some h).1⟩, decide_eq_true (State.bestTimeRoute_eq_some h).2⟩⟩

section
variable (hout : s.probes[r].outstanding = before ++ o :: after) (hbefore : ∀ x ∈ before, x.number ≠ number)
  (ho : o.number = number)
include hout hbefore ho

theorem State.goodSample_of_shut {x : Sample} (h : ¬ s.GateOpens r x) (errors view : Byte) :
    (s.echoTaken r).goodSample r o x view errors =
      (s.echoed r (s.probes[r].sampled (before ++ after) x view errors s.time.et false)
        (min 255 (s.health[r].error - if errors = 0 then 1 else 0))
        (if s.health[r].state = .proving then (if errors = 0 then min 255 (s.health[r].good + 1) else 0) else s.health[r].good)
        { s.time with timeRoute := (s.withSample r x).bestTimeRoute } s.ports).evaluate r := by
  have hgate := (State.gateOpen_iff (s := s) (r := r) (before ++ after) x).not.2 h
  rw [State.goodSample, State.entered_eq hout hbefore ho, State.gateOffset, if_neg hgate, State.resolve]
  congr 1
  rw [← moveError_good]
  simp [State.echoed, State.entered, State.modProbe, State.viewPeer, State.modHealth, Probe.sampled, Resolution.window]

theorem State.goodSample_of_open {x : Sample} (h : s.GateOpens r x) (errors view : Byte) :
    ∃ w : State, s.Disciplined w (theta x.d s.cfg.routes[r].a) (s.cfg.probe.interval * 1000) ∧
      (∀ p : PortIx, w.ports[p].recordless = s.ports[p].recordless ∧
        w.ports[p].records[(1 : Fin 8)] = s.ports[p].records[(1 : Fin 8)]) ∧
      (s.echoTaken r).goodSample r o x view errors =
        (s.echoed r (s.probes[r].sampled (before ++ after) x view errors s.time.et true)
          (min 255 (s.health[r].error - if errors = 0 then 1 else 0))
          (if s.health[r].state = .proving then (if errors = 0 then min 255 (s.health[r].good + 1) else 0) else s.health[r].good)
          w.time w.ports).evaluate r := by
  have hgate := (State.gateOpen_iff (s := s) (r := r) (before ++ after) x).2 h
  obtain ⟨handed, hhanded⟩ : ∃ u, u = (s.entered r (before ++ after) x).modProbe r fun p =>
    { p with counts := { p.counts with offsetsHanded := p.counts.offsetsHanded + 1 } } := ⟨_, rfl⟩
  refine ⟨handed.acceptOffset (theta x.d s.cfg.routes[r].a) (s.cfg.probe.interval * 1000), ?_, fun p => ?_, ?_⟩
  · have hdisciplined := handed.acceptOffset_disciplined (theta x.d s.cfg.routes[r].a) (s.cfg.probe.interval * 1000)
    rw [hhanded] at hdisciplined ⊢
    exact hdisciplined
  · rw [State.acceptOffset_port, (by rw [hhanded]; rfl : s.ports = handed.ports)]
    exact handed.offsetNoticed_recordless _ p
  · rw [State.goodSample, State.entered_eq hout hbefore ho, State.gateOffset, if_pos hgate, State.resolve, ← hhanded]
    obtain ⟨y, e⟩ := handed.acceptOffset_timed (theta x.d s.cfg.routes[r].a) (s.cfg.probe.interval * 1000)
    congr 1
    have het : y.et = s.time.et := by
      have := (handed.acceptOffset_always (theta x.d s.cfg.routes[r].a) (s.cfg.probe.interval * 1000)).2.1
      rw [e] at this
      exact this.trans (by rw [hhanded]; rfl)
    rw [← moveError_good]
    show ((State.acceptOffset handed (theta x.d s.cfg.routes[r].a)
        (s.cfg.probe.interval * 1000)).viewPeer r view errors).modHealth
      r _ = _
    rw [e, hhanded]
    simp [State.echoed, State.entered, State.modProbe, State.viewPeer, State.modHealth, Probe.sampled, Resolution.window,
      State.setTime, State.withPorts, het]

/-- A GOOD sample, its offset handed over or not: what it has set when the route is evaluated (R47, R48, R52). -/
theorem State.goodSample_eq (x : Sample) (errors view : Byte) :
    ∃ (handed : Bool) (time : TimeBase) (ports : Vector Port 6), time.et = s.time.et ∧
      (∀ p : PortIx, ports[p].recordless = s.ports[p].recordless ∧
        ports[p].records[(1 : Fin 8)] = s.ports[p].records[(1 : Fin 8)]) ∧
      (s.GateOpens r x → handed = true ∧ ∃ w : State, w.time = time ∧ w.ports = ports ∧
        s.Disciplined w (theta x.d s.cfg.routes[r].a) (s.cfg.probe.interval * 1000)) ∧
      (¬ s.GateOpens r x → handed = false ∧ time = { s.time with timeRoute := (s.withSample r x).bestTimeRoute } ∧
        ports = s.ports) ∧
      (s.echoTaken r).goodSample r o x view errors =
        (s.echoed r (s.probes[r].sampled (before ++ after) x view errors s.time.et handed)
          (min 255 (s.health[r].error - if errors = 0 then 1 else 0))
          (if s.health[r].state = .proving then (if errors = 0 then min 255 (s.health[r].good + 1) else 0) else s.health[r].good)
          time ports).evaluate r := by
  by_cases h : s.GateOpens r x
  · obtain ⟨w, hw, hports, e⟩ := State.goodSample_of_open hout hbefore ho h errors view
    exact ⟨true, w.time, w.ports, hw.2.1, hports, fun _ => ⟨rfl, w, rfl, rfl, hw⟩, fun hnot => absurd h hnot, e⟩
  · exact ⟨false, { s.time with timeRoute := (s.withSample r x).bestTimeRoute }, s.ports, rfl, fun _ => ⟨rfl, rfl⟩,
      fun hopen => absurd hopen h, fun _ => ⟨rfl, rfl, rfl⟩,
      State.goodSample_of_shut hout hbefore ho h errors view⟩

end

end

/-! ### The route evaluated -/

section
variable (s : State) (r : RouteIx) (probe : Probe) (error good : Nat) (time : TimeBase) (ports : Vector Port 6)

theorem State.echoed_health :
    (s.echoed r probe error good time ports).health[r] = { s.health[r] with error := error, good := good } := by
  simp [State.echoed]

theorem State.echoed_probe : (s.echoed r probe error good time ports).probes[r] = probe := by simp [State.echoed]

theorem State.echoed_evaluation :
    (s.echoed r probe error good time ports).evaluation r =
      evalTarget s.cfg.health s.cfg.lanes[r].type s.lanes[r] { s.health[r] with error := error, good := good } := by
  have hlane : (s.echoed r probe error good time ports).lanes[r] = { s.lanes[r] with rx := none } := by simp [State.echoed]
  rw [State.evaluation, hlane, State.echoed_health]
  rfl

/-- The state of the route once evaluated (R64). -/
theorem State.echoed_state :
    ((s.echoed r probe error good time ports).evaluate r).health[r].state =
      (evalTarget s.cfg.health s.cfg.lanes[r].type s.lanes[r] { s.health[r] with error := error, good := good }).getD
        s.health[r].state := by
  rw [State.evaluate_state, State.echoed_evaluation, State.echoed_health]

theorem State.echoed_probe_evaluated :
    ((s.echoed r probe error good time ports).evaluate r).probes[r] =
      if ((s.echoed r probe error good time ports).evaluate r).health[r].state ≠ s.health[r].state ∧
          ((s.echoed r probe error good time ports).evaluate r).health[r].state = .down then
        { probe with ring := [], outstanding := [] }
      else probe := by
  rw [State.evaluate_probe, State.echoed_probe, State.echoed_health]

/-- A route that stays, or passes to a state other than DOWN, has the probe record set before its evaluation. -/
theorem State.echoed_kept
    (h : ((s.echoed r probe error good time ports).evaluate r).health[r].state = s.health[r].state ∨
      ((s.echoed r probe error good time ports).evaluate r).health[r].state ≠ .down) :
    ((s.echoed r probe error good time ports).evaluate r).probes[r] = probe :=
  (s.echoed_probe_evaluated r probe error good time ports).trans (if_neg fun hall => h.elim hall.1 fun hup => hup hall.2)

/-- A route that passes to DOWN has been flushed (R53). -/
theorem State.echoed_flushed
    (h : ((s.echoed r probe error good time ports).evaluate r).health[r].state ≠ s.health[r].state)
    (hdown : ((s.echoed r probe error good time ports).evaluate r).health[r].state = .down) :
    ((s.echoed r probe error good time ports).evaluate r).probes[r] = { probe with ring := [], outstanding := [] } :=
  (s.echoed_probe_evaluated r probe error good time ports).trans (if_pos ⟨h, hdown⟩)

theorem State.echoed_tallies :
    ((s.echoed r probe error good time ports).evaluate r).probes[r].peerView = probe.peerView ∧
    ((s.echoed r probe error good time ports).evaluate r).probes[r].counts = probe.counts := by
  rw [State.echoed_probe_evaluated]
  split <;> exact ⟨rfl, rfl⟩

theorem State.echoed_leaves :
    ((s.echoed r probe error good time ports).evaluate r).lanes = s.lanes.set r { s.lanes[r] with rx := none } ∧
    ((s.echoed r probe error good time ports).evaluate r).score =
      s.score.set r { s.score[r] with echoes := s.score[r].echoes + 1 } := by
  simp only [State.evaluate_leaves]
  exact ⟨rfl, rfl⟩

theorem State.echoed_counts :
    (((s.echoed r probe error good time ports).evaluate r).health[r].error,
      ((s.echoed r probe error good time ports).evaluate r).health[r].good) =
      if s.health[r].state ≠ .proving ∧ ((s.echoed r probe error good time ports).evaluate r).health[r].state = .proving then (0, 0)
      else (error, good) := by
  rw [State.evaluate_counts, State.echoed_health]

theorem State.echoed_of_stays
    (h : ((s.echoed r probe error good time ports).evaluate r).health[r].state = s.health[r].state) :
    (s.echoed r probe error good time ports).evaluate r = s.echoed r probe error good time ports :=
  State.evaluate_of_stays (by rw [h, State.echoed_health])

variable {time ports}

theorem State.echoed_prepares (het : time.et = s.time.et)
    (hports : ∀ p : PortIx, ports[p].recordless = s.ports[p].recordless ∧
      ports[p].records[(1 : Fin 8)] = s.ports[p].records[(1 : Fin 8)]) :
          s.Prepares (s.echoed r probe error good time ports) r where
  cfg := rfl
  et := het
  lanes q hq := by simp [State.echoed, Vector.getElem_set_ne, Fin.val_ne_of_ne (Ne.symm hq)]
  probes q hq := by simp [State.echoed, Vector.getElem_set_ne, Fin.val_ne_of_ne (Ne.symm hq)]
  health q hq := by simp [State.echoed, Vector.getElem_set_ne, Fin.val_ne_of_ne (Ne.symm hq)]
  core := by rw [State.echoed_health]; rfl
  tx := rfl
  circuits := rfl
  peers := rfl
  profile := rfl
  flash := rfl
  pending := rfl
  arriving := rfl
  port p := (hports p).1
  record p := (hports p).2

end

/-- Settles O17: the frame is decoded, its record found or not, and each outcome is what it sets before the evaluation, then the
evaluation of the route. -/
theorem echoResolved : Obligations.EchoResolved := by
  intro s r rx rest number errors view t1 t2 t3 hrx hstore hstate hbytes
  have hexec := execFrameEnd_of_echo hrx hstore hstate hbytes
  refine ⟨fun hlate => ?_, fun before after o hout hbefore ho => ?_⟩
  · rw [hexec, State.resolveEcho_late hlate]
  by_cases hbad : o.t1 ≠ t1 ∨ roundTrip t1 t2 t3 rx.stamp < 0
  · obtain ⟨probe, hprobe⟩ : ∃ probe, probe = s.probes[r].bad (before ++ after) view errors s.time.et := ⟨_, rfl⟩
    obtain ⟨error, herror⟩ : ∃ error, error = min 255 (s.health[r].error + if errors = 0 then 8 else 9) := ⟨_, rfl⟩
    obtain ⟨good, hgood⟩ : ∃ good, good = if s.health[r].state = .proving then 0 else s.health[r].good := ⟨_, rfl⟩
    rw [hexec, State.resolveEcho_found hout hbefore ho, if_pos hbad, State.badSample_eq hout hbefore ho, ← herror, ← hgood,
      ← hprobe]
    obtain ⟨hlanes, hscore⟩ := s.echoed_leaves r probe error good s.time s.ports
    obtain ⟨hview, hcounts⟩ := s.echoed_tallies r probe error good s.time s.ports
    have hkept := s.echoed_kept r probe error good s.time s.ports
    have hflushed := s.echoed_flushed r probe error good s.time s.ports
    have hstays := s.echoed_of_stays r probe error good s.time s.ports
    refine ⟨_, rfl, hlanes, hscore, by rw [hview, hprobe]; rfl, fun h => by rw [hkept h, hprobe]; rfl,
      fun h hdown => by rw [hflushed h hdown], fun _ => ⟨by rw [hcounts, hprobe]; rfl, s.echoed_state .., fun h => ?_, ?_, ?_,
      fun h => ?_⟩, fun hsame hlong => absurd hbad (not_or.2 ⟨not_not.2 hsame, Int.not_lt.2 hlong⟩)⟩
    · rw [hstays h, State.echoed_health]
      exact ⟨rfl, rfl⟩
    · exact TimeBase.eq_of_routeless (State.evaluate_routeless _ r)
    · exact (s.echoed_prepares r probe error good rfl fun _ => ⟨rfl, rfl⟩).routeFrame (State.evaluate_routeFrame _ r)
        (TimeBase.eq_of_routeless (State.evaluate_routeless _ r))
    · rw [hstays h, hprobe]
      rfl
  · obtain ⟨x, hx⟩ : ∃ x : Sample, x = { number := number, rtt := (roundTrip t1 t2 t3 rx.stamp).toNat
                                         d := offsetTerm t1 t2 t3 rx.stamp, at_ := s.time.et } := ⟨_, rfl⟩
    obtain ⟨handed, time, ports, het, hports, hopen, hshut, hgood⟩ := State.goodSample_eq hout hbefore ho x errors view
    have hsound : ((s.echoTaken r).goodSample r o x view errors).TimeRouteSound := by
      rw [State.goodSample]
      exact (State.keepsTime_resolve _ r _).2 ((State.keepsTime_viewPeer _ r view errors).2
        ((State.keepsTime_gateOffset _ r x).2 (State.rechoose_timeRouteSound _)))
    rw [hgood] at hsound
    obtain ⟨probe, hprobe⟩ : ∃ probe, probe = s.probes[r].sampled (before ++ after) x view errors s.time.et handed := ⟨_, rfl⟩
    obtain ⟨error, herror⟩ : ∃ error, error = min 255 (s.health[r].error - if errors = 0 then 1 else 0) := ⟨_, rfl⟩
    obtain ⟨good, hcount⟩ : ∃ good, good = if s.health[r].state = .proving then
      (if errors = 0 then min 255 (s.health[r].good + 1) else 0) else s.health[r].good := ⟨_, rfl⟩
    rw [hexec, State.resolveEcho_found hout hbefore ho, if_neg hbad, ← hx, hgood]
    rw [← hprobe, ← herror, ← hcount] at hsound ⊢
    obtain ⟨hlanes, hscore⟩ := s.echoed_leaves r probe error good time ports
    obtain ⟨hview, hcounts⟩ := s.echoed_tallies r probe error good time ports
    have hkept := s.echoed_kept r probe error good time ports
    have hflushed := s.echoed_flushed r probe error good time ports
    have hstays := s.echoed_of_stays r probe error good time ports
    have hstate := s.echoed_state r probe error good time ports
    have hproving := s.echoed_counts r probe error good time ports
    have htime : ((s.echoed r probe error good time ports).evaluate r).time.routeless = time.routeless :=
      State.evaluate_routeless _ r
    have hrecords (p : PortIx) (k : Fin 8) (h1 : k ≠ 1) (h5 : k ≠ 5) :
        ((s.echoed r probe error good time ports).evaluate r).ports[p].records[k] = ports[p].records[k] :=
      State.evaluate_records _ r p h1 h5
    have hframe := fun t (ht : { t with timeRoute := s.time.timeRoute } = s.time) =>
      (s.echoed_prepares r probe error good het hports).routeFrame (State.evaluate_routeFrame _ r) (time := t) ht
    generalize (s.echoed r probe error good time ports).evaluate r = t at *
    refine ⟨t, rfl, hlanes, hscore, by rw [hview, hprobe]; rfl, fun h => by rw [hkept h, hprobe]; rfl,
      fun h hdown => by rw [hflushed h hdown], fun h => absurd h hbad, fun _ _ y hy error' herror' good' hcount' θ hθ => ?_⟩
    subst hy herror' hcount'
    refine ⟨fun h => by rw [hkept h, hprobe]; rfl, fun h hdown => by rw [hflushed h hdown], hstate, fun h => ?_, fun h h' => ?_,
      hsound, fun hrole h => ?_, fun h => ?_, fun h => ?_, fun h => ⟨fun hnot => ?_, ?_⟩⟩
    · rw [if_neg fun hall => h.elim hall.1 fun hup => hup hall.2, Prod.mk.injEq] at hproving
      exact hproving
    · rw [if_pos ⟨h, h'⟩, Prod.mk.injEq] at hproving
      exact hproving
    · have hfollower : s.cfg.time.role = .follower := (State.bestTimeRoute_eq_some h.1).1
      rw [hrole] at hfollower
      cases hfollower
    · obtain ⟨hhanded, htimed, hsame⟩ := hshut h
      refine ⟨by rw [hcounts, hprobe, hhanded]; rfl, fun p => ⟨?_, ?_⟩, ?_⟩
      · rw [hrecords p 0 (by decide) (by decide), hsame]
      · rw [hrecords p 2 (by decide) (by decide), hsame]
      · exact hframe t.time (TimeBase.eq_of_routeless (by rw [htime, htimed]; rfl))
    · obtain ⟨hhanded, w, hwtime, hwports, hw⟩ := hopen h
      refine ⟨by rw [hcounts, hprobe, hhanded]; rfl, ?_, hframe s.time rfl⟩
      rw [hθ]
      refine hw.of_later (by rw [htime, hwtime]) (fun p => ?_) (fun p => ?_)
      · rw [hrecords p 0 (by decide) (by decide), hwports]
      · rw [hrecords p 2 (by decide) (by decide), hwports]
    · obtain ⟨-, htimed, hsame⟩ := hshut hnot
      rw [hstays h]
      exact ⟨htimed, hsame⟩
    · rw [hstays h, State.echoed_probe, hprobe]
      rfl

end Sys2Proof.Machine
end

