-- ==== Sys2Proof/Proofs/LoadEnd.lean ====
section
/-! CHECK. The judgement of a load and the effects of its end (R184, R185, R190). -/

namespace Sys2Proof.Machine

/-! ### What a load reads from the flash (R180, R198) -/

theorem flashBytes_take (m : List Host.Cell) (a len n : Nat) : (flashBytes m a len).take n = flashBytes m a (min n len) := by
  simp [flashBytes, ← List.map_take, List.take_range]

theorem flashBytes_drop (m : List Host.Cell) (a len n : Nat) :
    (flashBytes m a len).drop n = flashBytes m (a + n) (len - n) := by
  apply List.ext_getElem
  · simp [flashBytes]
  · intro i _ _
    simp [flashBytes, Nat.add_assoc]

theorem flashBytes_all (m : List Host.Cell) (len : Nat) :
    (flashBytes m 0 len).all (· == 0xFF) = true ↔ ∀ a, a < len → readFlash m a = 0xFF := by
  simp [flashBytes]

theorem markerIsSet_iff (m : List Host.Cell) :
    markerIsSet m = true ↔ ∃ a : Nat, 65280 ≤ a ∧ a < 65536 ∧ readFlash m a ≠ 0xFF := by
  simp only [markerIsSet, flashBytes, List.any_map, List.any_eq_true, List.mem_range, Function.comp_apply, bne_iff_ne,
    Config.markerBase, Config.markerBytes]
  constructor
  · rintro ⟨i, hi, hset⟩
    exact ⟨65280 + i, by omega, by omega, hset⟩
  · rintro ⟨a, hlow, hhigh, hset⟩
    refine ⟨a - 65280, by omega, ?_⟩
    rw [Nat.add_sub_cancel' hlow]
    exact hset

/-- A field reads no byte beyond its end. -/
theorem field_take {bs : List Byte} {off n k : Nat} (h : off + n ≤ k) : field (bs.take k) off n = field bs off n := by
  unfold field
  refine List.foldl_ext _ _ _ fun a i hi => ?_
  have hi' := List.mem_range.1 hi
  have hget : (bs.take k).getD (off + i) 0 = bs.getD (off + i) 0 := by
    simp only [List.getD_eq_getElem?_getD]
    rw [List.getElem?_take_of_lt (by omega)]
  rw [hget]

/-- The CRC of an image covers all of it but its own bytes (R198). -/
theorem imageCrcGood_iff (m : List Host.Cell) {len : Nat} (h : 10 ≤ len) :
    imageCrcGood (flashBytes m 0 len) = true ↔
      field (flashBytes m 0 10) 6 4 = (crc32 (flashBytes m 0 6 ++ flashBytes m 10 (len - 10))).toNat := by
  have hheader : flashBytes m 0 10 = (flashBytes m 0 len).take 10 := by
    rw [flashBytes_take, Nat.min_eq_left h]
  rw [hheader, field_take (by omega), imageCrcGood, decide_eq_true_eq, flashBytes_take, flashBytes_drop,
    Nat.min_eq_left (by omega), Nat.zero_add]

/-- The judgement of R184, in order. -/
theorem judgeFlash_eq (m : List Host.Cell) :
    judgeFlash m =
      if markerIsSet m then .error (.checksumError, none)
      else if (flashBytes m 0 10).all (· == 0xFF) then .error (.empty, none)
      else if field (flashBytes m 0 10) 2 4 < 10 ∨ 16384 < field (flashBytes m 0 10) 2 4 then .error (.checksumError, none)
      else if !imageCrcGood (flashBytes m 0 (field (flashBytes m 0 10) 2 4)) then .error (.checksumError, none)
      else if field (flashBytes m 0 10) 0 2 ≠ 1 then .error (.formatError, some .header)
      else
        match readSections (flashBytes m 10 (field (flashBytes m 0 10) 2 4 - 10)) with
        | .error part => .error (.formatError, some part)
        | .ok i => .ok i := by
  have hbody : (flashBytes m 0 (field (flashBytes m 0 10) 2 4)).drop 10 =
      flashBytes m 10 (field (flashBytes m 0 10) 2 4 - 10) := by rw [flashBytes_drop, Nat.zero_add]
  rw [← hbody]
  rfl

theorem header_not_erased {m : List Host.Cell} (h : ∃ a : Nat, a < 10 ∧ readFlash m a ≠ 0xFF) :
    ¬ (flashBytes m 0 10).all (· == 0xFF) = true := by
  obtain ⟨a, ha, hset⟩ := h
  exact fun hall => hset ((flashBytes_all m 10).1 hall a ha)

theorem judgeFlash_of_marker {m : List Host.Cell} (h : ∃ a : Nat, 65280 ≤ a ∧ a < 65536 ∧ readFlash m a ≠ 0xFF) :
    judgeFlash m = .error (.checksumError, none) := by
  rw [judgeFlash_eq, if_pos ((markerIsSet_iff m).2 h)]

section
variable {m : List Host.Cell} (hmarker : ∀ a : Nat, 65280 ≤ a → a < 65536 → readFlash m a = 0xFF)
include hmarker

theorem markerIsSet_false : ¬ markerIsSet m = true := by
  rw [markerIsSet_iff]
  rintro ⟨a, hlow, hhigh, hset⟩
  exact hset (hmarker a hlow hhigh)

theorem judgeFlash_of_erased (h : ∀ a : Nat, a < 10 → readFlash m a = 0xFF) : judgeFlash m = .error (.empty, none) := by
  rw [judgeFlash_eq, if_neg (markerIsSet_false hmarker), if_pos ((flashBytes_all m 10).2 h)]

variable (hheader : ∃ a : Nat, a < 10 ∧ readFlash m a ≠ 0xFF)
include hheader

theorem judgeFlash_of_length (h : field (flashBytes m 0 10) 2 4 < 10 ∨ 16384 < field (flashBytes m 0 10) 2 4) :
    judgeFlash m = .error (.checksumError, none) := by
  rw [judgeFlash_eq, if_neg (markerIsSet_false hmarker), if_neg (header_not_erased hheader), if_pos h]

variable {len : Nat} (hlen : len = field (flashBytes m 0 10) 2 4) (hlow : 10 ≤ len) (hhigh : len ≤ 16384)
include hlen hlow hhigh

theorem judgeFlash_of_crc
    (h : field (flashBytes m 0 10) 6 4 ≠ (crc32 (flashBytes m 0 6 ++ flashBytes m 10 (len - 10))).toNat) :
    judgeFlash m = .error (.checksumError, none) := by
  rw [judgeFlash_eq, if_neg (markerIsSet_false hmarker), if_neg (header_not_erased hheader), ← hlen,
    if_neg (by omega), if_pos (by rw [Bool.not_eq_true', Bool.eq_false_iff, ne_eq, imageCrcGood_iff m hlow]; exact h)]

/-- An image of good length and CRC is judged by its format number and then by its sections (R184). -/
theorem judgeFlash_of_good
    (h : field (flashBytes m 0 10) 6 4 = (crc32 (flashBytes m 0 6 ++ flashBytes m 10 (len - 10))).toNat) :
    judgeFlash m =
      if field (flashBytes m 0 10) 0 2 ≠ 1 then .error (.formatError, some .header)
      else
        match readSections (flashBytes m 10 (len - 10)) with
        | .error part => .error (.formatError, some part)
        | .ok i => .ok i := by
  rw [judgeFlash_eq, if_neg (markerIsSet_false hmarker), if_neg (header_not_erased hheader), ← hlen,
    if_neg (by omega), if_neg (by rw [(imageCrcGood_iff m hlow).2 h]; decide)]

end

/-! ### The effects that every outcome has (R18, R190) -/

/-- The last steps of a load: the time route chosen again, holdover judged, an owed RESTART answered. -/
def State.loadEffects (w : State) : State := w.rechoose.judgeHoldover.answerRestart

/-- The answer that an owed RESTART gets at port `p`, if it is owed there (R190). -/
def Profile.restartAnswers (x : Profile) (p : PortIx) : List Answer :=
  match x.restartOwed with
  | some (q, request) =>
    if q = p then
      [{ request := request, status := .done,
          results := bytesOf 1 (outcomeCode x.outcome) ++ bytesOf 1 (failingCode x.failing) }]
    else []
  | none => []

theorem State.judgeHoldover_cases (s : State) :
    ∃ (time : TimeBase) (ports : Vector Port 6), s.judgeHoldover = (s.setTime time).withPorts ports ∧
      (∀ p : PortIx, ports[p].recordless = s.ports[p].recordless ∧
        ports[p].records[(1 : Fin 8)] = s.ports[p].records[(1 : Fin 8)]) ∧
      (s.holdoverDue = true → time = { s.time.retune s.time.fc 0 with good := 0, state := .holdover }) ∧
      (s.holdoverDue = false → time = s.time) := by
  cases hdue : s.holdoverDue with
  | true =>
    refine ⟨_, _, State.judgeHoldover_of_due hdue, fun p => ?_, fun _ => rfl, fun h => (by cases h)⟩
    simp only [Fin.getElem_fin, Vector.getElem_ofFn]
    exact ⟨Port.recordless_record .., Port.record_records_other _ _ (by simp [Notice.kind])⟩
  | false => exact ⟨s.time, s.ports, State.judgeHoldover_of_not_due hdue, fun _ => ⟨rfl, rfl⟩, fun h => (by cases h),
      fun _ => rfl⟩

theorem State.answerRestart_cases (u : State) :
    ∃ ports : Vector Port 6, u.answerRestart = (u.setProfile { u.profile with restartOwed := none }).withPorts ports ∧
      ∀ p : PortIx, ports[p] = { u.ports[p] with answers := u.ports[p].answers ++ u.profile.restartAnswers p } := by
  unfold State.answerRestart Profile.restartAnswers
  cases howed : u.profile.restartOwed with
  | none =>
    have hprofile : { u.profile with restartOwed := none } = u.profile := by rw [← howed]
    refine ⟨u.ports, ?_, fun p => ?_⟩
    · simp only [hprofile]
      rfl
    · simp
  | some owed =>
    obtain ⟨q, request⟩ := owed
    refine ⟨_, rfl, fun p => ?_⟩
    show (u.modPort q _).ports[p] = _
    rw [State.modPort_get]
    split
    · rename_i e
      subst e
      simp
    · rename_i hne
      simp [Ne.symm hne]

/-- What the last steps of a load do, on the state they start from. -/
theorem State.loadEffects_spec (w : State) :
    { w.loadEffects with time := w.time, profile := w.profile, ports := w.ports } = w ∧
    w.loadEffects.profile = { w.profile with restartOwed := none } ∧
    (∀ p : PortIx, w.loadEffects.ports[p].answers = w.ports[p].answers ++ w.profile.restartAnswers p ∧
      w.loadEffects.ports[p].records[(1 : Fin 8)] = w.ports[p].records[(1 : Fin 8)]) ∧
    w.loadEffects.TimeRouteSound ∧
    (w.holdoverDue = true →
      w.loadEffects.time.state = .holdover ∧ w.loadEffects.time.fc = w.time.fc ∧ w.loadEffects.time.sl = 0 ∧
      w.loadEffects.time.good = 0) ∧
    (w.holdoverDue = false → w.loadEffects.time.routeless = w.time.routeless) := by
  obtain ⟨time, ports, ehold, hports, hdue, hnot⟩ := w.rechoose.judgeHoldover_cases
  obtain ⟨ports', eanswer, hports'⟩ := w.rechoose.judgeHoldover.answerRestart_cases
  have hchosen : w.rechoose.holdoverDue = w.holdoverDue := rfl
  have hsound : w.loadEffects.TimeRouteSound :=
    (State.KeepsTime.of_frame (t := w.rechoose.judgeHoldover.answerRestart) (by simp) (by simp) (by simp) (by simp)).2
      ((State.keepsTime_judgeHoldover _).2 w.rechoose_timeRouteSound)
  rw [State.loadEffects, eanswer] at *
  rw [ehold] at hports' hsound ⊢
  refine ⟨rfl, rfl, fun p => ?_, hsound, fun h => ?_, fun h => ?_⟩
  · obtain ⟨hless, hrecord⟩ := hports p
    have hanswers : ports[p].answers = w.ports[p].answers := (congrArg Port.answers hless :)
    rw [State.withPorts_ports, hports' p]
    exact ⟨congrArg (· ++ w.profile.restartAnswers p) hanswers, hrecord⟩
  · have htime := hdue (hchosen.trans h)
    exact ⟨(congrArg TimeBase.state htime :), (congrArg TimeBase.fc htime :), (congrArg TimeBase.sl htime :),
      (congrArg TimeBase.good htime :)⟩
  · exact (congrArg TimeBase.routeless (hnot (hchosen.trans h)) :)

/-! ### An image taken up (R76, R185) -/

/-- A fold over distinct indices that touches at each its own part alone touches each part once. -/
theorem foldl_each {σ ι β : Type} [DecidableEq ι] (proj : σ → ι → β) (f : σ → ι → σ) (g : ι → β → β)
    (hown : ∀ s q, proj (f s q) q = g q (proj s q)) (hother : ∀ s r q, q ≠ r → proj (f s r) q = proj s q) {l : List ι}
    (hl : l.Nodup) (s : σ) (q : ι) : proj (l.foldl f s) q = if q ∈ l then g q (proj s q) else proj s q := by
  induction l generalizing s with
  | nil => rfl
  | cons r l ih =>
    rw [List.nodup_cons] at hl
    rw [List.foldl_cons, ih hl.2]
    by_cases hq : q = r
    · subst hq
      rw [if_neg hl.1, if_pos (List.mem_cons_self ..), hown]
    · rw [hother s r q hq]
      simp only [List.mem_cons, hq, false_or]

/-- Each RADIO lane starts its silence timer, and no other lane changes (R31, R185). -/
theorem State.startTimers_lane (s : State) (r : RouteIx) :
    s.startTimers.lanes[r] =
      { s.lanes[r] with timer := if s.cfg.lanes[r].type = .radio then some s.time.et else s.lanes[r].timer } := by
  have h := foldl_each (fun (u : State) q => (u.lanes[q], u.cfg, u.time.et))
    (fun (u : State) q => u.modLane q fun l => { l with timer := if u.cfg.lanes[q].type = .radio then some u.time.et else l.timer })
    (fun q (x : Lane × Settings × Ticks) =>
      (({ x.1 with timer := if x.2.1.lanes[q].type = .radio then some x.2.2 else x.1.timer } : Lane), x.2))
    (fun u q => by simp only [State.modLane_get_self, State.modLane_cfg, State.modLane_time])
    (fun u r q hq => by simp only [State.modLane_get_other _ _ _ _ hq, State.modLane_cfg, State.modLane_time])
    (List.nodup_finRange 16) s r
  rw [if_pos (List.mem_finRange r)] at h
  exact (congrArg Prod.fst h :)

theorem viaOf_filter (p : RouteIx → Bool) (via : List RouteState) (r : RouteIx) :
    viaOf (((List.finRange 16).filter p).map fun r => { route := r, via := via }) r = if p r then via else [] := by
  have hfilter (l : List RouteIx) :
      viaOf ((l.filter p).map fun r => { route := r, via := via }) r = if r ∈ l ∧ p r = true then via else [] := by
    induction l with
    | nil => rfl
    | cons q l ih =>
      by_cases hq : p q = true
      · rw [List.filter_cons_of_pos hq, List.map_cons, viaOf_cons, ih]
        by_cases he : q = r
        · subst he
          simp [hq]
        · simp [he, Ne.symm he]
      · rw [List.filter_cons_of_neg hq, ih]
        by_cases he : q = r
        · subst he
          simp [hq]
        · simp [Ne.symm he]
  rw [hfilter]
  simp

/-- The changes shown rest on nothing but the records they speak of. -/
theorem State.ChangesMade.transport {s u v t : State} {via : RouteIx → List RouteState} (h : u.ChangesMade v via)
    (hhealth : u.health = s.health) (het : u.time.et = s.time.et) (hport : ∀ p : PortIx, s.ports[p].SameAt 1 u.ports[p])
    (hcfg : t.cfg = v.cfg) (hhealth' : t.health = v.health) (htx : t.tx = v.tx) (hprobes : t.probes = v.probes)
    (hrecord : ∀ p : PortIx, t.ports[p].records[(1 : Fin 8)] = v.ports[p].records[(1 : Fin 8)]) : s.ChangesMade t via := by
  obtain ⟨hroutes, hports⟩ := h
  refine ⟨fun r => ?_, fun p => ?_⟩
  · rw [hcfg, hhealth', htx, hprobes, ← hhealth, ← het]
    exact hroutes r
  · rw [hrecord, hports, hhealth]
    exact ((hport p).symm.foldl_record _).2.2

section
variable {u : State}

theorem State.loadMoves_ordered (u : State) : Ordered u.loadMoves := ordered_filter _ _

theorem State.viaOf_loadMoves (u : State) (r : RouteIx) :
    viaOf u.loadMoves r = if (u.permitted r && u.health[r].state == .disabled) = true then [.proving] else [] :=
  viaOf_filter _ _ r

/-- The routes that a load moves: those DISABLED that R60 then permits (R185). -/
theorem State.loadMove_iff (hrun : u.profile.load = .running) (r : RouteIx) :
    (u.permitted r && u.health[r].state == .disabled) = true ↔
      u.health[r].state = .disabled ∧ u.cfg.routes[r].enable = true ∧
        u.cfg.peers[u.cfg.routes[r].peer].enabled = true ∧ u.cfg.lanes[r].type ≠ .unused := by
  simp only [State.permitted, hrun, Bool.and_eq_true, bne_iff_ne, beq_iff_eq, and_true]
  tauto

theorem State.loadMoves_made (u : State) : u.ChangesMade (u.applyMoves u.loadMoves)
    (u.oneChange (u.applyMoves u.loadMoves)) := by
  refine (u.applyMoves_changesMade u.loadMoves_ordered).one fun r => ?_
  rw [State.viaOf_loadMoves]
  split
  · rename_i hmoved
    simp only [Bool.and_eq_true, beq_iff_eq] at hmoved
    exact .inr ⟨_, rfl, by rw [hmoved.2]; decide⟩
  · exact .inl rfl

theorem State.loadMoves_state (hrun : u.profile.load = .running) (r : RouteIx) :
    (u.applyMoves u.loadMoves).health[r].state =
      if u.health[r].state = .disabled ∧ u.cfg.routes[r].enable = true ∧
        u.cfg.peers[u.cfg.routes[r].peer].enabled = true ∧ u.cfg.lanes[r].type ≠ .unused then .proving
      else u.health[r].state := by
  rw [((u.applyMoves_changesMade u.loadMoves_ordered).1 r).1, State.viaOf_loadMoves]
  simp only [State.loadMove_iff hrun]
  split <;> rfl

/-- A load re-steers nothing. -/
theorem State.loadMoves_keep (u : State) :
    (u.applyMoves u.loadMoves).tx.map Tx.queue = u.tx.map Tx.queue ∧ (u.applyMoves u.loadMoves).pool = u.pool ∧
    (u.applyMoves u.loadMoves).circuits = u.circuits := by
  obtain ⟨hqueue, hpool, hcircuits, -⟩ := State.applyMoves_unsteered (s := u) (moves := u.loadMoves) fun m hm => by
    obtain ⟨r, hr, rfl⟩ := List.mem_map.1 hm
    have hpicked := (List.mem_filter.1 hr).2
    simp only [Bool.and_eq_true, beq_iff_eq] at hpicked
    exact ⟨.proving, rfl, .inl (by rw [hpicked.2]; rfl)⟩
  refine ⟨?_, hpool, hcircuits⟩
  apply Vector.ext
  intro i hi
  rw [Vector.getElem_map, Vector.getElem_map]
  exact hqueue ⟨i, hi⟩

end

/-- The state after an image has been taken up: what it sets, what its moves bring about and the rest as it was (R185). -/
theorem State.applyImage_spec {s : State} {i : Image} (hrun : s.profile.load = .running)
    (hnumbers : (i.circuits.map SavedCircuit.number).Nodup) :
    (s.applyImage i).cfg = i.settings ∧ (s.applyImage i).tx.map Tx.queue = s.tx.map Tx.queue ∧ (s.applyImage i).pool = s.pool ∧
    (∀ r : RouteIx,
      (s.applyImage i).health[r].state =
        (if s.health[r].state = .disabled ∧ i.settings.routes[r].enable = true ∧
            i.settings.peers[i.settings.routes[r].peer].enabled = true ∧ i.settings.lanes[r].type ≠ .unused then .proving
        else s.health[r].state) ∧
      (s.applyImage i).lanes[r] =
        { s.lanes[r] with timer := if i.settings.lanes[r].type = .radio then some s.time.et else s.lanes[r].timer }) ∧
    s.ChangesMade (s.applyImage i) (s.oneChange (s.applyImage i)) ∧
    (∀ c ∈ i.circuits, (s.applyImage i).circuits[c.number] = c.restored) ∧
    (∀ n : CircIx, (∀ c ∈ i.circuits, c.number ≠ n) → (s.applyImage i).circuits[n] = s.circuits[n]) ∧
    ∀ p : PortIx, (s.applyImage i).ports[p].recordless = s.ports[p].recordless := by
  obtain ⟨u, hu⟩ : ∃ u, u = s.setCfg i.settings := ⟨_, rfl⟩
  obtain ⟨v, hv⟩ : ∃ v, v = u.applyMoves u.loadMoves := ⟨_, rfl⟩
  have happly : s.applyImage i = v.startTimers.restoreCircuits i.circuits := by rw [hv, hu]; rfl
  have hmade := u.loadMoves_made
  have hstate := State.loadMoves_state (u := u) (by rw [hu]; exact hrun)
  obtain ⟨hqueue, hpool, hcircuits⟩ := u.loadMoves_keep
  have hports (p : PortIx) := (u.ports_applyMoves u.loadMoves_ordered p).1
  have het : v.time.et = u.time.et := by
    rw [hv]
    exact (congrArg TimeBase.et (State.applyMoves_routeless _ _) :)
  have hcfg : v.cfg = u.cfg := by rw [hv]; simp
  have hlanes : v.lanes = u.lanes := by rw [hv]; simp
  rw [← hv] at hmade hstate hqueue hpool hcircuits hports
  obtain ⟨hrestored, hkept⟩ := State.restoreCircuits_get v.startTimers hnumbers
  have hone : s.oneChange (s.applyImage i) = u.oneChange v := by
    funext r
    have hhealth : (v.startTimers.restoreCircuits i.circuits).health = v.health := by simp
    rw [State.oneChange, State.oneChange, happly, hhealth, hu]
    rfl
  rw [hone, happly]
  refine ⟨?_, ?_, ?_, fun r => ⟨?_, ?_⟩, ?_, hrestored, fun n hn => ?_, fun p => ?_⟩
  · rw [State.restoreCircuits_leaves .. |>.1, State.startTimers_leaves .. |>.1, hcfg, hu]
    rfl
  · simp only [State.restoreCircuits_leaves, State.startTimers_leaves]
    rw [hqueue, hu]
    rfl
  · simp only [State.restoreCircuits_leaves, State.startTimers_leaves]
    rw [hpool, hu]
    rfl
  · simp only [State.restoreCircuits_leaves, State.startTimers_leaves]
    rw [hstate, hu]
    rfl
  · rw [State.restoreCircuits_leaves .. |>.2.2.1, State.startTimers_lane, hlanes, hcfg, het, hu]
    rfl
  · exact hmade.transport (by rw [hu]; rfl) (by rw [hu]; rfl) (fun p => by rw [hu]; exact .refl _ _) (by simp) (by simp)
      (by simp)
      (by simp) (fun p => by simp)
  · rw [hkept n hn, State.startTimers_leaves .. |>.2.2.2.2.1, hcircuits, hu]
    rfl
  · simp only [State.restoreCircuits_leaves, State.startTimers_leaves]
    rw [hports, hu]
    rfl

/-- A load that ends has its outcome judged, the image taken up when LOADED, and the last steps in every case (R185). -/
theorem State.endLoad_of_error {s : State} {m : List Host.Cell} {e : LoadOutcome × Option ImagePart} (h : judgeFlash m = .error e) :
    s.endLoad m = (s.setProfile (s.profile.endLoad e.1 e.2)).loadEffects := by
  rw [State.endLoad, h]
  rfl

theorem State.endLoad_of_ok {s : State} {m : List Host.Cell} {i : Image} (h : judgeFlash m = .ok i) :
    s.endLoad m = ((s.setProfile (s.profile.endLoad .loaded none)).applyImage i).loadEffects := by
  rw [State.endLoad, h]
  rfl

/-- The parts of a load's end that every outcome shares: the profile, the answers and the time base, from a state `w` that has
the profile, the answers and the time base of `s` but for the load's outcome and the time route. -/
theorem State.loadEffects_common {s w : State} {o : LoadOutcome} {part : Option ImagePart}
    (hprofile : w.profile = s.profile.endLoad o part) (hports : ∀ p : PortIx, w.ports[p].recordless = s.ports[p].recordless)
    (htime : w.time.routeless = s.time.routeless) :
    w.loadEffects.profile =
      { s.profile with
        load := .running, outcome := some o, failing := part, loads := s.profile.loads + 1, restartOwed := none } ∧
    (∀ p : PortIx, w.loadEffects.ports[p].answers = s.ports[p].answers ++
      match s.profile.restartOwed with
      | some (q, request) =>
        if q = p then
          [{ request := request, status := .done, results := bytesOf 1 (outcomeCode (some o)) ++ bytesOf 1 (failingCode part) }]
        else []
      | none => []) ∧
    w.loadEffects.TimeRouteSound ∧
    (if State.holdoverDue { s with cfg := w.loadEffects.cfg } = true then
      w.loadEffects.time.state = .holdover ∧ w.loadEffects.time.fc = s.time.fc ∧ w.loadEffects.time.sl = 0 ∧
      w.loadEffects.time.good = 0
    else { w.loadEffects.time with timeRoute := s.time.timeRoute } = s.time) := by
  obtain ⟨hframe, hended, hat, hsound, hdue, hnot⟩ := w.loadEffects_spec
  have hcfg : w.loadEffects.cfg = w.cfg := (congrArg State.cfg hframe :)
  have hholds : State.holdoverDue { s with cfg := w.loadEffects.cfg } = w.holdoverDue := by
    have hstate : w.time.state = s.time.state := (congrArg TimeBase.state htime :)
    have hlast : w.time.lastOffset = s.time.lastOffset := (congrArg TimeBase.lastOffset htime :)
    have het : w.time.et = s.time.et := (congrArg TimeBase.et htime :)
    rw [State.holdoverDue, State.holdoverDue, hcfg, hstate, hlast, het]
  have hfc : w.time.fc = s.time.fc := (congrArg TimeBase.fc htime :)
  refine ⟨by rw [hended, hprofile]; rfl, fun p => ?_, hsound, ?_⟩
  · have hanswers : w.ports[p].answers = s.ports[p].answers := (congrArg Port.answers (hports p) :)
    rw [(hat p).1, hanswers, hprofile]
    rfl
  · rw [hholds]
    split
    · rename_i h
      obtain ⟨hstate, hkept, hsl, hgood⟩ := hdue h
      exact ⟨hstate, hkept.trans hfc, hsl, hgood⟩
    · rename_i h
      exact TimeBase.eq_of_routeless ((hnot (Bool.not_eq_true _ ▸ h)).trans htime)

/-- Settles O50: the judgement clause by clause, then the end of a load by outcome. -/
theorem loadEndTakesEffect : Obligations.LoadEndTakesEffect := by
  intro s answers m hm
  refine ⟨fun hrun => ?_, judgeFlash_of_marker, fun hmarker => ⟨judgeFlash_of_erased hmarker, fun hheader len hlen =>
    ⟨fun hlength => judgeFlash_of_length hmarker hheader (hlen ▸ hlength), fun hlow hhigh => ⟨
      judgeFlash_of_crc hmarker hheader hlen hlow hhigh, fun hcrc => ?_⟩⟩⟩, fun hload => ?_⟩
  · show execLoadEnd answers s = _
    rw [execLoadEnd, if_neg (by rw [hrun]; decide)]
  · have hgood := judgeFlash_of_good hmarker hheader hlen hlow hhigh hcrc
    refine ⟨fun hformat => by rw [hgood, if_pos hformat], fun hformat => ⟨fun part hpart => ?_, fun i hi => ?_⟩⟩
    · rw [hgood, if_neg (not_not.2 hformat), hpart]
    · rw [hgood, if_neg (not_not.2 hformat), hi]
  · have hexec : exec (.loadEnd answers) s = .next (s.endLoad m) := by
      show execLoadEnd answers s = _
      rw [execLoadEnd, if_pos hload, hm]
    cases hjudged : judgeFlash m with
    | error e =>
      obtain ⟨w, hw⟩ : ∃ w, w = s.setProfile (s.profile.endLoad e.1 e.2) := ⟨_, rfl⟩
      have hend : s.endLoad m = w.loadEffects := by rw [State.endLoad_of_error hjudged, hw]
      obtain ⟨hprofile, hanswers, hsound, hheld⟩ :=
        State.loadEffects_common (s := s) (w := w) (o := e.1) (part := e.2) (by rw [hw]; rfl) (by intro p; rw [hw]; rfl)
            (by rw [hw]; rfl)
      refine ⟨w.loadEffects, e.1, e.2, by rw [hexec, hend], hprofile, hanswers, hsound, hheld, fun e' he => ?_,
        fun i hi => (by cases hi)⟩
      cases he
      refine ⟨rfl, rfl, ?_⟩
      have hframe := w.loadEffects_spec.1
      rw [hw] at hframe ⊢
      exact congrArg (fun t : State => { t with time := s.time, profile := s.profile, ports := s.ports }) hframe
    | ok i =>
      obtain ⟨-, -, hdistinct, -⟩ := judgeFlash_inRange hjudged
      simp only [circuitsDistinct, Bool.and_eq_true, decide_eq_true_eq] at hdistinct
      obtain ⟨w, hw⟩ : ∃ w, w = (s.setProfile (s.profile.endLoad .loaded none)).applyImage i := ⟨_, rfl⟩
      have hend : s.endLoad m = w.loadEffects := by rw [State.endLoad_of_ok hjudged, hw]
      obtain ⟨hcfg, hqueues, hpool, hroutes, hmade, hrestored, hkept, hports⟩ :=
        State.applyImage_spec (s := s.setProfile (s.profile.endLoad .loaded none)) (i := i) rfl hdistinct.1
      have htime : w.time.routeless = s.time.routeless := by rw [hw, State.applyImage_routeless]; rfl
      have hprofile : w.profile = s.profile.endLoad .loaded none := by rw [hw]; simp
      rw [← hw] at hcfg hqueues hpool hroutes hmade hrestored hkept hports
      obtain ⟨hframe, -, hat, -⟩ := w.loadEffects_spec
      obtain ⟨hended, hanswers, hsound, hheld⟩ := State.loadEffects_common hprofile hports htime
      refine ⟨w.loadEffects, .loaded, none, by rw [hexec, hend], hended, hanswers, hsound, hheld, fun e he => (by cases he),
        fun j hj => ?_⟩
      cases hj
      have hsame {β : Type} (g : State → β)
          (hg : g { w.loadEffects with time := w.time, profile := w.profile, ports := w.ports } = g w.loadEffects) :
          g w.loadEffects = g w := hg.symm.trans (congrArg g hframe)
      have hhealth := hsame State.health rfl
      have hone : s.oneChange w.loadEffects = s.oneChange w := by
        funext r
        rw [State.oneChange, State.oneChange, hhealth]
      refine ⟨rfl, rfl, (hsame State.cfg rfl).trans hcfg, ?_, (hsame State.pool rfl).trans hpool, fun r => ?_, ?_,
        fun c hc => ?_,
        fun n hn => ?_⟩
      · rw [hsame State.tx rfl]
        exact hqueues
      · rw [hhealth, hsame State.lanes rfl]
        exact hroutes r
      · rw [hone]
        exact hmade.transport rfl rfl (fun p => .refl _ _) (hsame State.cfg rfl) hhealth (hsame State.tx rfl)
          (hsame State.probes rfl)
          fun p => (hat p).2
      · rw [hsame State.circuits rfl, hrestored c hc]
        rfl
      · rw [hsame State.circuits rfl]
        exact hkept n hn

end Sys2Proof.Machine
end

