-- ==== Sys2Proof/Proofs/Slots.lean ====
section
/-! SUPPORT. Frame memory as its holders release their frames (R155, R159). -/

namespace Sys2Proof.Machine

/-! ### Lookups in the list of taken slots -/

theorem lookup_cons_ite {β : Type} (l : List (Nat × β)) (i j : Nat) (b : β) :
    ((i, b) :: l).lookup j = if j = i then some b else l.lookup j := by
  rw [List.lookup_cons]
  by_cases h : j = i
  · simp [h]
  · simp [beq_eq_false_iff_ne.2 h, h]

theorem lookup_filter_ne {β : Type} (l : List (Nat × β)) (k j : Nat) :
    (l.filter fun e => e.1 != k).lookup j = if j = k then none else l.lookup j := by
  induction l with
  | nil => simp
  | cons e l ih =>
    obtain ⟨i, b⟩ := e
    rw [lookup_cons_ite]
    by_cases hi : i = k
    · rw [List.filter_cons_of_neg (by simp [hi]), ih, hi]
      split <;> rfl
    · rw [List.filter_cons_of_pos (by simp [hi]), lookup_cons_ite, ih]
      by_cases hj : j = i
      · simp [hj, hi]
      · simp [hj]

theorem lookup_map_update {β : Type} (l : List (Nat × β)) (k j : Nat) (g : β → β) :
    (l.map fun e => if e.1 = k then (e.1, g e.2) else e).lookup j = if j = k then (l.lookup j).map g else l.lookup j := by
  induction l with
  | nil => simp
  | cons e l ih =>
    obtain ⟨i, b⟩ := e
    have hcons : (if i = k then (i, g b) else (i, b)) = (i, if i = k then g b else b) := by split <;> rfl
    rw [List.map_cons, hcons, lookup_cons_ite, lookup_cons_ite, ih]
    by_cases hj : j = i
    · subst hj
      by_cases hk : j = k <;> simp [hk]
    · simp [hj]

theorem Pool.frame_eq_none_iff (p : Pool) (k : Nat) : p.frame k = none ↔ k ∉ p.slots.map Prod.fst := by
  rw [Pool.frame]
  induction p.slots with
  | nil => simp
  | cons e l ih =>
    obtain ⟨i, f⟩ := e
    rw [lookup_cons_ite, List.map_cons, List.mem_cons, not_or, ← ih]
    by_cases h : k = i <;> simp [h]

/-! ### The account of the holders (R155) -/

/-- Frame memory is sound and each slot has the references that `held` counts: none when free, and its reference count, at least
one, when taken. -/
def Pool.Accounts (p : Pool) (held : Nat → Nat) : Prop :=
  p.Sound ∧ ∀ k : Nat, (p.frame k = none → held k = 0) ∧ ∀ f ∈ p.frame k, f.refs = held k ∧ 1 ≤ f.refs

theorem Pool.judge_slots (p : Pool) : p.judge.slots = p.slots := by
  unfold Pool.judge
  dsimp only
  (repeat' split) <;> rfl

/-- Slots given up, in order, and HOLD and the low-water mark judged: frame memory stays sound (R159). -/
theorem Pool.sound_judge {p : Pool} {slots : List (Nat × Frame)} (h : p.Sound) (hsub : slots.Sublist p.slots) :
    (Pool.judge { p with slots := slots }).Sound := by
  obtain ⟨hsorted, hrange, hlow, hreleased, hasserted⟩ := h
  have hsorted' : (slots.map Prod.fst).Pairwise (· < ·) := hsorted.sublist (hsub.map _)
  have hrange' : ∀ e ∈ slots, e.1 < Config.slotCount := fun e he => hrange e (hsub.subset he)
  have hlength : slots.length ≤ p.slots.length := hsub.length_le
  simp only [Pool.free, Config.holdBelow, Config.holdUntil, Config.slotCount] at hlow hreleased hasserted
  unfold Pool.judge
  dsimp only
  split
  · rename_i hhold
    have hbelow := hasserted hhold
    split
    · rename_i huntil
      refine ⟨hsorted', hrange', ?_, fun _ => ?_, fun h => by cases h⟩ <;>
        simp only [Pool.free, Config.holdBelow, Config.holdUntil, Config.slotCount] at * <;> omega
    · rename_i huntil
      refine ⟨hsorted', hrange', ?_, fun h => absurd hhold (by rw [h]; decide), fun _ => ?_⟩ <;>
        simp only [Pool.free, Config.holdUntil, Config.slotCount] at * <;> omega
  · rename_i hhold
    have habove := hreleased (Bool.not_eq_true _ ▸ hhold)
    split
    · rename_i hless
      simp only [Pool.free, Config.holdBelow, Config.slotCount] at hless
      omega
    · refine ⟨hsorted', hrange', ?_, fun _ => ?_, fun h => absurd h hhold⟩ <;>
        simp only [Pool.free, Config.holdBelow, Config.slotCount] at * <;> omega

/-- A holder gives its reference up (R155). -/
theorem Pool.Accounts.release {p : Pool} {held : Nat → Nat} (h : p.Accounts held) {k : Nat} (hk : 1 ≤ held k) :
    (p.release k).Accounts fun j => held j - if j = k then 1 else 0 := by
  obtain ⟨hsound, hslots⟩ := h
  obtain ⟨f, hf⟩ : ∃ f, p.frame k = some f := by
    rcases hframe : p.frame k with _ | f
    · have := (hslots k).1 hframe
      omega
    · exact ⟨f, rfl⟩
  obtain ⟨hrefs, hone⟩ := (hslots k).2 f hf
  unfold Pool.release
  rw [hf]
  dsimp only
  split
  · rename_i hlast
    refine ⟨Pool.sound_judge hsound List.filter_sublist, fun j => ?_⟩
    have hframe : (Pool.judge { p with slots := p.slots.filter fun e => e.1 != k }).frame j = if j = k then none else p.frame j := by
      rw [Pool.frame, Pool.judge_slots]
      exact lookup_filter_ne _ _ _
    rw [hframe]
    by_cases hj : j = k
    · subst hj
      simp only [if_true]
      exact ⟨fun _ => by omega, fun g hg => by cases hg⟩
    · simp only [hj, if_false, Nat.sub_zero]
      exact hslots j
  · rename_i hmore
    obtain ⟨hsorted, hrange, hlow, hreleased, hasserted⟩ := hsound
    have hkeys : (p.update k fun f => { f with refs := f.refs - 1 }).slots.map Prod.fst = p.slots.map Prod.fst := by
      rw [Pool.update, List.map_map]
      refine List.map_congr_left fun e _ => ?_
      simp only [Function.comp_apply]
      split <;> rfl
    have hfree : (p.update k fun f => { f with refs := f.refs - 1 }).free = p.free := by
      rw [Pool.free, Pool.free, ← List.length_map (f := Prod.fst), hkeys, List.length_map]
    refine ⟨⟨by rw [hkeys]; exact hsorted, fun e he => ?_, by rw [hfree]; exact hlow, by rw [hfree]; exact hreleased,
      by rw [hfree]; exact hasserted⟩, fun j => ?_⟩
    · obtain ⟨e', he', hsame⟩ := List.mem_map.1 (hkeys ▸ List.mem_map_of_mem he : e.1 ∈ p.slots.map Prod.fst)
      rw [← hsame]
      exact hrange e' he'
    · have hframe : (p.update k fun f => { f with refs := f.refs - 1 }).frame j =
          if j = k then (p.frame j).map (fun f => { f with refs := f.refs - 1 }) else p.frame j :=
        lookup_map_update p.slots k j fun f => { f with refs := f.refs - 1 }
      rw [hframe]
      by_cases hj : j = k
      · subst hj
        rw [if_pos rfl, hf]
        refine ⟨fun h => (by cases h), fun g hg => ?_⟩
        cases hg
        simp only [if_true]
        omega
      · simp only [hj, if_false, Nat.sub_zero]
        exact hslots j

/-- Holders give their references up one after another (R155). -/
theorem Pool.Accounts.releases {p : Pool} {held : Nat → Nat} (h : p.Accounts held) {l : List Nat}
    (hl : ∀ k, l.count k ≤ held k) :
    (l.foldl Pool.release p).Accounts fun j => held j - l.count j := by
  induction l generalizing p held with
  | nil => simpa using h
  | cons k l ih =>
    have hk : 1 ≤ held k := Nat.le_trans (by simp) (hl k)
    have hrest := ih (h.release hk) fun j => by
      have := hl j
      rw [List.count_cons] at this
      by_cases hj : j = k
      · subst hj
        simp only [beq_self_eq_true, if_true] at this ⊢
        omega
      · simp only [beq_eq_false_iff_ne.2 (Ne.symm hj), Bool.false_eq_true, if_false] at this
        simp only [hj, if_false]
        omega
    rw [List.foldl_cons]
    convert hrest using 2 with j
    rw [List.count_cons]
    by_cases hj : j = k
    · subst hj
      simp only [beq_self_eq_true, if_true]
      omega
    · simp only [beq_eq_false_iff_ne.2 (Ne.symm hj), Bool.false_eq_true, if_false, hj]
      omega

end Sys2Proof.Machine
end

