-- ==== Sys2Proof/Proofs/CutDeliver.lean ====
section
/-! SUPPORT. The bytes of a DELIVER that a RESTART cuts off (R153). -/

namespace Sys2Proof.Machine

/-! ### A DELIVER cut (R153) -/

/-- The bytes of a cut envelope that its CRC covers: those that have left, then bytes of 0. -/
def cutCovered (e : List Byte) (n : Nat) : List Byte :=
  e.take (min (min (max n 4) (e.length - 1)) (e.length - 4)) ++
    List.replicate (e.length - 4 - min (max n 4) (e.length - 1)) 0

theorem cutEnvelope_eq (e : List Byte) (n : Nat) :
    cutEnvelope e n =
      e.take (min (max n 4) (e.length - 1)) ++
        (cutCovered e n ++ bytesOf 4 (~~~ crc32 (cutCovered e n)).toNat).drop (min (max n 4) (e.length - 1)) := rfl

section
variable {e : List Byte} (h : 8 ≤ e.length) (n : Nat)
include h

theorem length_cutCovered : (cutCovered e n).length = e.length - 4 := by
  simp only [cutCovered, List.length_append, List.length_take, List.length_replicate]
  omega

theorem length_cutEnvelope : (cutEnvelope e n).length = e.length := by
  rw [cutEnvelope_eq]
  simp only [List.length_append, List.length_take, List.length_drop, length_cutCovered h, length_bytesOf]
  omega

/-- Byte `i` of a cut envelope: one that has left, or one of the bytes that follow. -/
theorem getElem?_cutEnvelope (i : Nat) :
    (cutEnvelope e n)[i]? =
      if i < min (max n 4) (e.length - 1) then e[i]?
      else (cutCovered e n ++ bytesOf 4 (~~~ crc32 (cutCovered e n)).toNat)[i]? := by
  rw [cutEnvelope_eq, List.getElem?_append]
  simp only [List.length_take]
  split
  · rw [if_pos (by omega), List.getElem?_take_of_lt (by omega)]
  · rw [if_neg (by omega), List.getElem?_drop]
    congr 1
    omega

theorem getElem?_cutCovered_of_sent {i : Nat} (hi : i < min (max n 4) (e.length - 1)) (hbody : i < e.length - 4) :
    (cutCovered e n)[i]? = e[i]? := by
  rw [cutCovered, List.getElem?_append_left (by rw [List.length_take]; omega), List.getElem?_take_of_lt (by omega)]

theorem getElem?_cutCovered_of_left {i : Nat} (hi : min (max n 4) (e.length - 1) ≤ i) (hbody : i < e.length - 4) :
    (cutCovered e n)[i]? = some 0 := by
  rw [cutCovered, List.getElem?_append_right (by rw [List.length_take]; omega), List.getElem?_replicate, List.length_take,
    if_pos (by omega)]

/-- The bytes that the CRC of a cut envelope covers are those that leave. -/
theorem take_cutEnvelope : (cutEnvelope e n).take (e.length - 4) = cutCovered e n := by
  apply List.ext_getElem?
  intro i
  by_cases hbody : i < e.length - 4
  · rw [List.getElem?_take_of_lt hbody, getElem?_cutEnvelope h]
    split
    · exact (getElem?_cutCovered_of_sent h n ‹_› hbody).symm
    · rw [List.getElem?_append_left (by rw [length_cutCovered h]; exact hbody)]
  · rw [List.getElem?_eq_none (by rw [List.length_take]; omega), List.getElem?_eq_none (by rw [length_cutCovered h]; omega)]

/-- A byte of the CRC that has not left is the complement's. -/
theorem getElem?_cutEnvelope_crc {i : Nat} (hi : e.length - 4 ≤ i) (hsent : min (max n 4) (e.length - 1) ≤ i) :
    (cutEnvelope e n)[i]? = (bytesOf 4 (~~~ crc32 (cutCovered e n)).toNat)[i - (e.length - 4)]? := by
  rw [getElem?_cutEnvelope h, if_neg (by omega), List.getElem?_append_right (by rw [length_cutCovered h]; exact hi),
    length_cutCovered h]

end

/-- The last byte of a CRC is not that of its complement. -/
theorem last_byte_ne (c : BitVec 32) : (bytesOf 4 (~~~ c).toNat)[3]? ≠ (bytesOf 4 c.toNat)[3]? := by
  have hbyte (x : BitVec 32) : (bytesOf 4 x.toNat)[3]? = some (x.setWidth 8) := by
    simp [bytesOf]
  rw [hbyte, hbyte, ne_eq, Option.some.injEq]
  intro heq
  have hbit := congrArg (fun x : BitVec 8 => x.getLsbD 0) heq
  simp at hbit

theorem length_envelope (marker status : Byte) (body : List Byte) : (envelope marker status body).length = body.length + 8 := by
  simp [envelope, withCrc]
  omega

/-- The bytes of a cut DELIVER: those that have left stay, the rest of the body leaves as 0, and the CRC fails (R153). -/
theorem cutEnvelope_spec (status : Byte) (body : List Byte) {e : List Byte} (n : Nat) (he : e = envelope 0xA3 status body) :
    (cutEnvelope e n).length = e.length ∧
    (∀ i : Nat, i < e.length - 1 → (i < 4 ∨ i < n) → (cutEnvelope e n).getD i 0 = e.getD i 0) ∧
    (∀ i : Nat, 4 ≤ i → n ≤ i → i < e.length - 4 → (cutEnvelope e n).getD i 0 = 0) ∧
    ((n ≤ e.length - 4) →
      (cutEnvelope e n).drop (e.length - 4) = bytesOf 4 (~~~ crc32 ((cutEnvelope e n).take (e.length - 4))).toNat) ∧
    (cutEnvelope e n).drop (e.length - 4) ≠ bytesOf 4 (crc32 ((cutEnvelope e n).take (e.length - 4))).toNat := by
  have h : 8 ≤ e.length := by
    rw [he, length_envelope]
    omega
  rw [take_cutEnvelope h]
  refine ⟨length_cutEnvelope h n, fun i hi hsent => ?_, fun i hhead hleft hbody => ?_, fun hn => ?_, fun heq => ?_⟩
  · rw [List.getD_eq_getElem?_getD, List.getD_eq_getElem?_getD, getElem?_cutEnvelope h, if_pos (by omega)]
  · rw [List.getD_eq_getElem?_getD, getElem?_cutEnvelope h, if_neg (by omega),
      List.getElem?_append_left (by rw [length_cutCovered h]; exact hbody), getElem?_cutCovered_of_left h n (by omega) hbody]
    rfl
  · apply List.ext_getElem?
    intro i
    rw [List.getElem?_drop, getElem?_cutEnvelope_crc h n (by omega) (by omega), Nat.add_sub_cancel_left]
  · refine last_byte_ne (crc32 (cutCovered e n)) ?_
    rw [← heq, List.getElem?_drop, getElem?_cutEnvelope_crc h n (by omega) (by omega), Nat.add_sub_cancel_left]

end Sys2Proof.Machine
end

