-- ==== Sys2Proof/Proofs/RestartEmpties.lean ====
section
/-! SUPPORT. Steps 2 and 3 of R189: the routes, the lanes and the ports emptied, and the slots that are then given up. -/

namespace Sys2Proof.Machine

/-! ### The slots held (R155) -/

/-- The slots to which a route's current frame and waiting queue hold references. -/
def Tx.slots (t : Tx) : List Nat := ((t.current.bind Current.copy).toList ++ t.queue).map Copy.slot

/-- The slot to which the frame a lane is receiving holds a reference. -/
def Lane.slots (l : Lane) : List Nat :=
  match l.rx with
  | some { store := .slot k, .. } => [k]
  | _ => []

/-- The slots to which a delivery queue holds references. -/
def Port.slots (x : Port) : List Nat := x.delivery.map DeliveryEntry.slot

theorem Tx.count_slots (t : Tx) (k : Nat) : t.slots.count k = t.holds k := by
  have hqueue : (t.queue.map Copy.slot).count k = t.queue.countP fun c => c.slot == k := by
    rw [List.count, List.countP_map]
    rfl
  rw [Tx.slots, List.map_append, List.count_append, hqueue, Tx.holds, Nat.add_comm]
  congr 1
  rcases t.current with _ | ⟨kind, _ | c, bytes, untaken⟩
  · rfl
  · rfl
  · simp [List.count_singleton]

theorem Lane.count_slots (l : Lane) (k : Nat) : l.slots.count k = l.holds k := by
  unfold Lane.slots Lane.holds
  rcases l.rx with _ | ⟨stamp, et, first, _ | j | _⟩
  · rfl
  · rfl
  · simp [List.count_singleton]
  · rfl

theorem Port.count_slots (x : Port) (k : Nat) : x.slots.count k = x.delivery.countP fun e => e.slot == k := by
  rw [Port.slots, List.count, List.countP_map]
  rfl

/-- A fold whose steps each release the slots of their own part, and touch no other part, releases the slots of every part. -/
theorem foldl_releases {ι β : Type} (view : State → ι → β) (slots : β → List Nat) (f : State → ι → State)
    (hpool : ∀ s q, (f s q).pool = (slots (view s q)).foldl Pool.release s.pool)
    (hview : ∀ s r q, q ≠ r → view (f s r) q = view s q) {l : List ι} (hl : l.Nodup) (s : State) :
    (l.foldl f s).pool = (l.flatMap fun q => slots (view s q)).foldl Pool.release s.pool := by
  induction l generalizing s with
  | nil => rfl
  | cons r l ih =>
    rw [List.nodup_cons] at hl
    have hrest : (l.flatMap fun q => slots (view (f s r) q)) = l.flatMap fun q => slots (view s q) :=
      List.flatMap_congr fun q hq => by rw [hview s r q fun e => hl.1 (e ▸ hq)]
    rw [List.foldl_cons, ih hl.2, hpool, hrest, List.flatMap_cons, List.foldl_append]

theorem foldl_release_pool {α : Type} (l : List α) (slot : α → Nat) (s : State) :
    (l.foldl (fun (s : State) c => s.release (slot c)) s).pool = (l.map slot).foldl Pool.release s.pool := by
  induction l generalizing s with
  | nil => rfl
  | cons c l ih => rw [List.foldl_cons, ih]; rfl

/-! ### The routes -/

theorem State.endCurrent_spec (s : State) (r : RouteIx) :
    (s.endCurrent r).pool = (((s.tx[r].current.bind Current.copy).toList).map Copy.slot).foldl Pool.release s.pool ∧
    (s.endCurrent r).tx[r].queue = s.tx[r].queue ∧ ∀ q : RouteIx, q ≠ r → (s.endCurrent r).tx[q] = s.tx[q] := by
  unfold State.endCurrent
  rcases hcur : s.tx[r].current with _ | ⟨kind, _ | c, bytes, untaken⟩
  · exact ⟨rfl, rfl, fun _ _ => rfl⟩
  · exact ⟨rfl, by simp, fun q hq => State.modTx_get_other _ _ _ _ hq⟩
  · exact ⟨rfl, by simp [State.release],
      fun q hq => s.modTx_get_other r q (fun t => { t with current := none }) hq⟩

theorem State.emptyRoute_spec (s : State) (r : RouteIx) :
    (s.emptyRoute r).pool = s.tx[r].slots.foldl Pool.release s.pool ∧ (s.emptyRoute r).tx[r].queue = [] ∧
    ∀ q : RouteIx, q ≠ r → (s.emptyRoute r).tx[q] = s.tx[q] := by
  obtain ⟨hpool, hqueue, hother⟩ := s.endCurrent_spec r
  have hfold (u : State) (l : List Copy) : (l.foldl (fun s c => s.release c.slot) u).tx = u.tx :=
    foldl_leaves State.tx _ (by intros; rfl) _ _
  unfold State.emptyRoute
  refine ⟨?_, ?_, fun q hq => ?_⟩
  · rw [foldl_release_pool _ Copy.slot, Tx.slots, List.map_append, List.foldl_append, ← hpool, hqueue]
    rfl
  · rw [hfold, State.modTx_get_self]
  · rw [hfold, State.modTx_get_other _ _ _ _ hq, hother q hq]

/-! ### The lanes -/

theorem State.dropRx_spec (s : State) (r : RouteIx) :
    (s.dropRx r).pool = s.lanes[r].slots.foldl Pool.release s.pool ∧ (s.dropRx r).lanes[r].los = s.lanes[r].los ∧
    ∀ q : RouteIx, q ≠ r → (s.dropRx r).lanes[q] = s.lanes[q] := by
  unfold State.dropRx Lane.slots
  rcases hrx : s.lanes[r].rx with _ | ⟨stamp, et, first, _ | k | _⟩
  · exact ⟨rfl, rfl, fun _ _ => rfl⟩
  · exact ⟨rfl, by simp, fun q hq => State.modLane_get_other _ _ _ _ hq⟩
  · exact ⟨rfl, by simp [State.release],
      fun q hq => s.modLane_get_other r q (fun l => { l with rx := none }) hq⟩
  · exact ⟨rfl, by simp, fun q hq => State.modLane_get_other _ _ _ _ hq⟩

/-! ### The ports -/

/-- A port once step 3 of R189 has emptied it, `n` bytes of a DELIVER under way having left (R153). -/
def Port.emptied (x : Port) (n : Nat) : Port :=
  { x with delivery := [], outbound := x.outbound.map fun o => o.cutDeliver n, lastDelivery := none }

theorem State.emptyPort_spec (s : State) (p : PortIx) :
    (s.emptyPort p).pool = s.ports[p].slots.foldl Pool.release s.pool ∧
    ∀ q : PortIx, (s.emptyPort p).ports[q] =
      if q = p then s.ports[p].emptied (Config.cutPoint s.profile.restarts p) else s.ports[q] := by
  have hfold (u : State) (l : List DeliveryEntry) : (l.foldl (fun s e => s.release e.slot) u).ports = u.ports :=
    foldl_leaves State.ports _ (by intros; rfl) _ _
  unfold State.emptyPort State.emptyDelivery
  refine ⟨?_, fun q => ?_⟩
  · exact foldl_release_pool _ DeliveryEntry.slot _
  · rw [State.modPort_get, hfold]
    split
    · rw [State.modPort_get_self]
      rfl
    · rw [State.modPort_get_other _ _ _ _ ‹_›]

/-! ### Everything emptied -/

/-- The slots given up when every route, lane and delivery queue is emptied, in order. -/
def State.slotsEmptied (s : State) : List Nat :=
  ((List.finRange 16).flatMap fun r => s.tx[r].slots) ++ ((List.finRange 16).flatMap fun r => s.lanes[r].slots) ++
    (List.finRange 6).flatMap fun p => s.ports[p].slots

theorem count_flatMap_finRange (n : Nat) (f : Fin n → List Nat) (k : Nat) :
    ((List.finRange n).flatMap f).count k = ((List.finRange n).map fun i => (f i).count k).sum := by
  rw [List.count_flatMap]
  rfl

/-- Of all references, those of the SENDs being received alone are not given up (R155). -/
theorem State.count_slotsEmptied (s : State) (k : Nat) :
    s.slotsEmptied.count k + ((List.finRange 6).map fun p => s.ports[p].inbound.holds k).sum = s.holders k := by
  simp only [State.slotsEmptied, List.count_append, count_flatMap_finRange, Tx.count_slots, Lane.count_slots, Port.count_slots,
    State.holders, State.receiving]
  omega

theorem State.emptyRoutes_spec (s : State) :
    (s.forRoutes fun r s => s.emptyRoute r).pool =
      ((List.finRange 16).flatMap fun r => s.tx[r].slots).foldl Pool.release s.pool ∧
    ∀ r : RouteIx, (s.forRoutes fun r s => s.emptyRoute r).tx[r].queue = [] := by
  refine ⟨?_, fun r => ?_⟩
  · exact foldl_releases (fun s q => s.tx[q]) Tx.slots (fun s r => s.emptyRoute r) (fun s q => (s.emptyRoute_spec q).1)
      (fun s r q hq => (s.emptyRoute_spec r).2.2 q hq) (List.nodup_finRange 16) s
  · have h := foldl_each (fun (u : State) (q : RouteIx) => u.tx[q].queue) (fun (s : State) r => s.emptyRoute r) (fun _ _ => [])
      (fun w q => (w.emptyRoute_spec q).2.1) (fun w r q hq => by rw [(w.emptyRoute_spec r).2.2 q hq]) (List.nodup_finRange 16) s r
    rw [if_pos (List.mem_finRange r)] at h
    exact h

theorem State.dropRxs_spec (s : State) :
    (s.forRoutes fun r s => s.dropRx r).pool =
      ((List.finRange 16).flatMap fun r => s.lanes[r].slots).foldl Pool.release s.pool ∧
    ∀ r : RouteIx, (s.forRoutes fun r s => s.dropRx r).lanes[r].los = s.lanes[r].los := by
  refine ⟨?_, fun r => ?_⟩
  · exact foldl_releases (fun s q => s.lanes[q]) Lane.slots (fun s r => s.dropRx r) (fun s q => (s.dropRx_spec q).1)
      (fun s r q hq => (s.dropRx_spec r).2.2 q hq) (List.nodup_finRange 16) s
  · have h := foldl_each (fun (u : State) (q : RouteIx) => u.lanes[q].los) (fun (s : State) r => s.dropRx r) (fun _ x => x)
      (fun w q => (w.dropRx_spec q).2.1) (fun w r q hq => by rw [(w.dropRx_spec r).2.2 q hq]) (List.nodup_finRange 16) s r
    rw [ite_self] at h
    exact h

theorem State.emptyPorts_spec (s : State) :
    ((List.finRange 6).foldl (fun s p => s.emptyPort p) s).pool =
      ((List.finRange 6).flatMap fun p => s.ports[p].slots).foldl Pool.release s.pool ∧
    ∀ p : PortIx, ((List.finRange 6).foldl (fun s p => s.emptyPort p) s).ports[p] =
      s.ports[p].emptied (Config.cutPoint s.profile.restarts p) := by
  have hprofile (w : State) (q : PortIx) : (w.emptyPort q).profile = w.profile := by simp
  have hown (w : State) (q : PortIx) :
      (w.emptyPort q).ports[q] = w.ports[q].emptied (Config.cutPoint w.profile.restarts q) := by
    rw [(w.emptyPort_spec q).2, if_pos rfl]
  have hother (w : State) (r q : PortIx) (hq : q ≠ r) : (w.emptyPort r).ports[q] = w.ports[q] := by
    rw [(w.emptyPort_spec r).2, if_neg hq]
  refine ⟨?_, fun p => ?_⟩
  · exact foldl_releases (fun s q => s.ports[q]) Port.slots (fun s p => s.emptyPort p) (fun s q => (s.emptyPort_spec q).1)
      hother (List.nodup_finRange 6) s
  · have h := foldl_each (fun (u : State) p => (u.ports[p], u.profile.restarts)) (fun (s : State) p => s.emptyPort p)
      (fun p x => (x.1.emptied (Config.cutPoint x.2 p), x.2)) (fun w q => by rw [hown, hprofile])
      (fun w r q hq => by rw [hother w r q hq, hprofile]) (List.nodup_finRange 6) s p
    rw [if_pos (List.mem_finRange p)] at h
    exact (congrArg Prod.fst h :)

theorem State.emptyAll_spec (s : State) :
    s.emptyAll.pool = s.slotsEmptied.foldl Pool.release s.pool ∧ (∀ r : RouteIx, s.emptyAll.tx[r].queue = []) ∧
    (∀ r : RouteIx, s.emptyAll.lanes[r].los = s.lanes[r].los) ∧
    ∀ p : PortIx, s.emptyAll.ports[p] = s.ports[p].emptied (Config.cutPoint s.profile.restarts p) := by
  obtain ⟨u, hu⟩ : ∃ u, u = s.forRoutes fun r s => s.emptyRoute r := ⟨_, rfl⟩
  obtain ⟨v, hv⟩ : ∃ v, v = u.forRoutes fun r s => s.dropRx r := ⟨_, rfl⟩
  have hall : s.emptyAll = (List.finRange 6).foldl (fun s p => s.emptyPort p) v := by rw [hv, hu]; rfl
  obtain ⟨hupool, huqueue⟩ := s.emptyRoutes_spec
  obtain ⟨hvpool, hvlos⟩ := u.dropRxs_spec
  obtain ⟨hpool, hports⟩ := v.emptyPorts_spec
  rw [← hu] at hupool huqueue
  rw [← hv] at hvpool hvlos
  rw [← hall] at hpool hports
  have hulanes : u.lanes = s.lanes := by rw [hu, forRoutes_leaves State.lanes _ (by intros; simp)]
  have huports : u.ports = s.ports := by rw [hu, forRoutes_leaves State.ports _ (by intros; simp)]
  have huprofile : u.profile = s.profile := by rw [hu, forRoutes_leaves State.profile _ (by intros; simp)]
  have hvports : v.ports = s.ports := by rw [hv, forRoutes_leaves State.ports _ (by intros; simp), huports]
  have hvprofile : v.profile = s.profile := by rw [hv, forRoutes_leaves State.profile _ (by intros; simp), huprofile]
  have hvtx : v.tx = u.tx := by rw [hv, forRoutes_leaves State.tx _ (by intros; simp)]
  have htx : s.emptyAll.tx = v.tx := by rw [hall, foldl_leaves State.tx _ (by intros; simp)]
  have hlanes : s.emptyAll.lanes = v.lanes := by rw [hall, foldl_leaves State.lanes _ (by intros; simp)]
  refine ⟨?_, fun r => ?_, fun r => ?_, fun p => ?_⟩
  · rw [hpool, hvpool, hupool, hvports, hulanes, State.slotsEmptied, List.foldl_append, List.foldl_append]
  · rw [htx, hvtx, huqueue]
  · rw [hlanes, hvlos, hulanes]
  · rw [hports, hvports, hvprofile]

/-- The slot that the SEND a port is receiving holds. -/
def Inbound.slots : Inbound → List Nat
  | .slot k => [k]
  | _ => []

theorem Inbound.count_slots (i : Inbound) (k : Nat) : i.slots.count k = i.holds k := by
  cases i with
  | slot j => simp [Inbound.slots, Inbound.holds, List.count_singleton]
  | idle => rfl
  | ignored => rfl

/-- The slots that the SENDs being received hold, port after port. -/
def State.sendSlots (s : State) : List Nat := (List.finRange 6).flatMap fun p => s.ports[p].inbound.slots

theorem State.count_sendSlots (s : State) (k : Nat) :
    s.sendSlots.count k = ((List.finRange 6).map fun p => s.ports[p].inbound.holds k).sum := by
  simp only [State.sendSlots, count_flatMap_finRange, Inbound.count_slots]

theorem State.length_sendSlots (s : State) :
    s.sendSlots.length = (List.finRange 6).countP fun p =>
      match s.ports[p].inbound with
      | .slot _ => true
      | _ => false := by
  unfold State.sendSlots
  induction List.finRange 6 with
  | nil => rfl
  | cons p l ih =>
    rw [List.flatMap_cons, List.length_append, ih, List.countP_cons, Nat.add_comm]
    cases s.ports[p].inbound <;> rfl

section
variable {s : State} (h : s.SlotsSound)
include h

/-- A frame being received has no reference but its receiver's, so no two SENDs share a slot (R155). -/
theorem State.sendSlots_nodup : s.sendSlots.Nodup := by
  refine List.nodup_iff_count_le_one.2 fun k => ?_
  obtain ⟨hnone, hsome⟩ := h.2 k
  have hall := s.count_slotsEmptied k
  have hsend := s.count_sendSlots k
  rcases hframe : s.pool.frame k with _ | f
  · have := hnone hframe
    omega
  · obtain ⟨hrefs, -, hreceived⟩ := hsome f hframe
    by_cases hreceiving : 1 ≤ s.receiving k
    · have := hreceived hreceiving
      omega
    · rw [State.receiving] at hreceiving
      omega

theorem State.emptyAll_accounts : s.emptyAll.pool.Accounts fun k => s.sendSlots.count k := by
  have haccounts : s.pool.Accounts s.holders :=
    ⟨h.1, fun k => ⟨(h.2 k).1, fun f hf => ⟨((h.2 k).2 f hf).1, ((h.2 k).2 f hf).2.1⟩⟩⟩
  have hreleased := haccounts.releases (l := s.slotsEmptied) fun k => by
    have := s.count_slotsEmptied k
    omega
  have hleft : (fun k => s.holders k - s.slotsEmptied.count k) = fun k => s.sendSlots.count k := by
    funext k
    rw [s.count_sendSlots, ← s.count_slotsEmptied]
    omega
  rw [s.emptyAll_spec.1, ← hleft]
  exact hreleased

theorem State.length_emptyAll_slots : s.emptyAll.pool.slots.length = s.sendSlots.length := by
  obtain ⟨⟨hsorted, -⟩, hslots⟩ := State.emptyAll_accounts h
  have hnodup : (s.emptyAll.pool.slots.map Prod.fst).Nodup := hsorted.imp Nat.ne_of_lt
  have hmem (k : Nat) : k ∈ s.emptyAll.pool.slots.map Prod.fst ↔ k ∈ s.sendSlots := by
    rw [← not_iff_not, ← Pool.frame_eq_none_iff, ← List.count_eq_zero]
    refine ⟨(hslots k).1, fun hzero => ?_⟩
    rcases hframe : s.emptyAll.pool.frame k with _ | f
    · rfl
    · obtain ⟨hrefs, hone⟩ := (hslots k).2 f hframe
      have hcount : f.refs = s.sendSlots.count k := hrefs
      omega
  have hperm := (List.perm_ext_iff_of_nodup hnodup (State.sendSlots_nodup h)).2 hmem
  rw [← hperm.length_eq, List.length_map]

/-- With every slot accounted for, the SENDs being received alone hold slots once all is emptied, one each, and HOLD is
released (R155, R159, R189). -/
theorem State.emptyAll_pool :
    s.emptyAll.pool.hold = false ∧
    s.emptyAll.pool.free + ((List.finRange 6).countP fun p =>
      match s.ports[p].inbound with
      | .slot _ => true
      | _ => false) = 1024 := by
  obtain ⟨⟨-, -, -, -, hheld⟩, -⟩ := State.emptyAll_accounts h
  have hlength := State.length_emptyAll_slots h
  have hsends : s.sendSlots.length ≤ 6 := by
    rw [s.length_sendSlots]
    exact List.countP_le_length.trans (by simp)
  rw [← s.length_sendSlots]
  simp only [Pool.free, Config.slotCount, Config.holdUntil] at hheld ⊢
  refine ⟨Bool.eq_false_iff.2 fun hhold => ?_, by omega⟩
  have := hheld hhold
  omega

end

end Sys2Proof.Machine
end

