-- ==== Sys2Proof/Proofs/RestartEffect.lean ====
section
/-! CHECK. What an authorised RESTART leaves of the terminal (R189). -/

namespace Sys2Proof.Machine

/-! ### Notices of one kind at a port (R173) -/

theorem Port.foldl_record_recordless (l : List Notice) (x : Port) : (l.foldl Port.record x).recordless = x.recordless :=
  foldl_leaves Port.recordless _ Port.recordless_record _ _

theorem Port.foldl_record_other {l : List Notice} {k : Fin 8} (h : ∀ n ∈ l, n.kind ≠ k) (x : Port) :
    (l.foldl Port.record x).records[k] = x.records[k] := by
  induction l generalizing x with
  | nil => rfl
  | cons n l ih =>
    rw [List.foldl_cons, ih (fun m hm => h m (List.mem_cons_of_mem _ hm)),
      Port.record_records_other _ _ (h n (List.mem_cons_self ..))]

/-- A port that watches kind `k` counts each notice of it, saturating at 255; any other port counts none. -/
theorem Port.foldl_record_count {l : List Notice} {k : Fin 8} (h : ∀ n ∈ l, n.kind = k) {x : Port}
    (hx : x.records[k].count ≤ 255) :
    (l.foldl Port.record x).records[k].count =
      if x.up = true ∧ x.watch.getLsbD k.val = true then min 255 (x.records[k].count + l.length) else x.records[k].count := by
  induction l generalizing x with
  | nil =>
    simp only [List.foldl_nil, List.length_nil, Nat.add_zero]
    split <;> omega
  | cons n l ih =>
    obtain rfl := h n (List.mem_cons_self ..)
    have hup : (x.record n).up = x.up := (congrArg Port.up (x.recordless_record n) :)
    have hwatch : (x.record n).watch = x.watch := (congrArg Port.watch (x.recordless_record n) :)
    have hcount : (x.record n).records[n.kind].count =
        if x.up = true ∧ x.watch.getLsbD n.kind.val = true then min 255 (x.records[n.kind].count + 1)
        else x.records[n.kind].count := by
      unfold Port.record
      simp only [Bool.and_eq_true]
      split
      · simp
      · rfl
    rw [List.foldl_cons, ih (fun m hm => h m (List.mem_cons_of_mem _ hm)) (by rw [hcount]; split <;> omega), hup, hwatch,
      hcount,
      List.length_cons]
    split <;> omega

/-! ### The routes disabled (step 4 of R189) -/

section
variable {u : State} (hqueue : ∀ r : RouteIx, u.tx[r].queue = [])

theorem State.restartMoves_ordered (u : State) : Ordered u.restartMoves := ordered_filter _ _

/-- The notices of step 4: one ROUTE_STATE for each route not DISABLED. -/
def State.restartNotices (u : State) : List Notice :=
  ((List.finRange 16).filter fun r => u.health[r].state != .disabled).map fun r => .routeState r u.health[r].state .disabled

theorem State.restartNotices_length (u : State) :
    u.restartNotices.length = (List.finRange 16).countP fun r => decide (u.health[r].state ≠ .disabled) := by
  rw [State.restartNotices, List.length_map, ← List.countP_eq_length_filter]
  refine List.countP_congr fun r _ => ?_
  simp

theorem State.restartNotices_kind (u : State) : ∀ n ∈ u.restartNotices, n.kind = 1 := by
  intro n hn
  obtain ⟨r, -, rfl⟩ := List.mem_map.1 hn
  rfl

theorem State.restartMoves_core (u : State) (r : RouteIx) :
    (u.applyMoves u.restartMoves).health[r].state = .disabled ∧
    (u.applyMoves u.restartMoves).health[r].lastChange =
      if u.health[r].state = .disabled then u.health[r].lastChange else some u.time.et := by
  have hvia : viaOf u.restartMoves r = if (u.health[r].state != .disabled) = true then [.disabled] else [] := viaOf_filter _ _ r
  obtain ⟨hstate, -, hlast, -⟩ := (u.applyMoves_changesMade u.restartMoves_ordered).1 r
  rw [hstate, hlast, hvia]
  by_cases h : u.health[r].state = .disabled
  · have hstays : ¬ (u.health[r].state != .disabled) = true := by rw [h]; decide
    rw [if_neg hstays, if_pos rfl, if_pos h]
    exact ⟨h, rfl⟩
  · rw [if_pos (bne_iff_ne.2 h), if_neg h, if_neg (List.cons_ne_nil _ _)]
    exact ⟨rfl, rfl⟩

include hqueue

/-- With no copy waiting the routes' passing to DISABLED moves no copy and raises ROUTE_STATE alone. -/
theorem State.restartMoves_ports :
    (u.applyMoves u.restartMoves).pool = u.pool ∧
    ∀ p : PortIx, (u.applyMoves u.restartMoves).ports[p] = u.restartNotices.foldl Port.record u.ports[p] := by
  obtain ⟨-, hpool, -, hports⟩ := State.applyMoves_unsteered (s := u) (moves := u.restartMoves) fun m hm => by
    obtain ⟨r, -, rfl⟩ := List.mem_map.1 hm
    exact ⟨.disabled, rfl, .inr (hqueue r)⟩
  have hnotices : (u.restartMoves.flatMap fun m => changeNotices m.route u.health[m.route].state m.via) = u.restartNotices := by
    rw [State.restartMoves, List.flatMap_map, State.restartNotices, List.map_eq_flatMap]
    rfl
  rw [hnotices] at hports
  exact ⟨hpool, hports⟩

end

/-! ### The terminal after RESTART -/

/-- The terminal once steps 1 to 3 of R189 have been taken and the free values of the RESTART drawn (log entry 26). -/
def State.emptied (s : State) (p : PortIx) (request : Byte) : State :=
  (s.setProfile { s.profile with restartOwed := some (p, request) }).emptyAll.setProfile
    { s.profile with restartOwed := some (p, request), restarts := s.profile.restarts + 1 }

theorem State.restart_eq (s : State) (p : PortIx) (request : Byte) :
    s.restart p request =
      ((s.emptied p request).applyMoves (s.emptied p request).restartMoves).restartBlocks.beginLoad := by
  have hprofile : (s.setProfile { s.profile with restartOwed := some (p, request) }).emptyAll.profile.countRestart =
      { s.profile with restartOwed := some (p, request), restarts := s.profile.restarts + 1 } := by
    simp [Profile.countRestart]
  rw [State.emptied, ← hprofile]
  rfl

theorem State.emptied_spec (s : State) (p : PortIx) (request : Byte) :
    (s.emptied p request).cfg = s.cfg ∧ (s.emptied p request).time = s.time ∧ (s.emptied p request).health = s.health ∧
    (s.emptied p request).flash = s.flash ∧ (s.emptied p request).pending = s.pending ∧
    (s.emptied p request).arriving = s.arriving ∧
    (s.emptied p request).profile =
      { s.profile with restartOwed := some (p, request), restarts := s.profile.restarts + 1 } ∧
    (∀ r : RouteIx, (s.emptied p request).tx[r].queue = []) ∧
    (∀ r : RouteIx, (s.emptied p request).lanes[r].los = s.lanes[r].los) ∧
    ∀ q : PortIx, (s.emptied p request).ports[q] = s.ports[q].emptied (Config.cutPoint s.profile.restarts q) := by
  obtain ⟨-, hqueue, hlos, hports⟩ := (s.setProfile { s.profile with restartOwed := some (p, request) }).emptyAll_spec
  obtain ⟨hcfg, htime, -, hhealth, -, -, -, -, hflash, hpending, harriving⟩ :=
    (s.setProfile { s.profile with restartOwed := some (p, request) }).emptyAll_leaves
  rw [State.emptied]
  generalize (s.setProfile { s.profile with restartOwed := some (p, request) }).emptyAll = v at *
  exact ⟨hcfg, htime, hhealth, hflash, hpending, harriving, rfl, hqueue, hlos, hports⟩

theorem State.restart_time (s : State) (p : PortIx) (request : Byte) :
    (s.restart p request).time =
      { s.time with
        sl := 0, p := max (-500000) (min 500000 s.time.fc), inc := incOf (max (-500000) (min 500000 s.time.fc))
        timeRoute := none } := by
  obtain ⟨-, htime, -⟩ := s.emptied_spec p request
  have hless : ((s.emptied p request).applyMoves (s.emptied p request).restartMoves).time.routeless = s.time.routeless := by
    rw [State.applyMoves_routeless, htime]
  rw [s.restart_eq]
  generalize (s.emptied p request).applyMoves (s.emptied p request).restartMoves = w at hless
  have hend : w.restartBlocks.beginLoad.time = { w.time.retune w.time.fc 0 with timeRoute := none } := rfl
  have hretune : { w.time.retune w.time.fc 0 with timeRoute := none } =
      { w.time.routeless.retune w.time.routeless.fc 0 with timeRoute := none } := rfl
  rw [hend, hretune, hless]
  simp only [TimeBase.routeless, TimeBase.retune, totalTerm, Int.add_zero]

theorem State.restart_health (s : State) (p : PortIx) (request : Byte) (r : RouteIx) :
    (s.restart p request).health[r] =
      { state := .disabled, error := 0, good := 0, seed := 0, testDue := none, counts := {}
        lastChange := if s.health[r].state = .disabled then s.health[r].lastChange else some s.time.et } := by
  obtain ⟨-, htime, hhealth, -⟩ := s.emptied_spec p request
  obtain ⟨hstate, hlast⟩ := (s.emptied p request).restartMoves_core r
  have hrestarted : (s.restart p request).health[r] =
      ((s.emptied p request).applyMoves (s.emptied p request).restartMoves).health[r].restarted := by
    rw [s.restart_eq]
    simp [State.restartBlocks]
  rw [hrestarted, Health.restarted, hstate, hlast, htime, hhealth]

theorem State.restart_lane (s : State) (p : PortIx) (request : Byte) (r : RouteIx) :
    (s.restart p request).lanes[r] = Lane.coldReset s.lanes[r].los := by
  have hrestarted : (s.restart p request).lanes[r] = (s.emptied p request).lanes[r].restarted := by
    rw [s.restart_eq]
    simp [State.restartBlocks]
  rw [hrestarted, Lane.restarted, (s.emptied_spec p request).2.2.2.2.2.2.2.2.1 r]

theorem Outbound.cutDeliver_eq (o : Outbound) (n : Nat) :
    o.cutDeliver n =
      if o.kind = .deliver ∧ o.cut = false then { o with cut := true, bytes := cutEnvelope o.bytes n } else o := by
  unfold Outbound.cutDeliver
  cases o.kind <;> cases o.cut <;> rfl

theorem State.restart_port (s : State) (p : PortIx) (request : Byte) (q : PortIx) :
    (s.restart p request).ports[q] =
      { s.restartNotices.foldl Port.record (s.ports[q].emptied (Config.cutPoint s.profile.restarts q)) with counts := {} } := by
  obtain ⟨-, -, hhealth, -, -, -, -, hqueue, -, hports⟩ := s.emptied_spec p request
  have hnotices : (s.emptied p request).restartNotices = s.restartNotices := by
    rw [State.restartNotices, State.restartNotices, hhealth]
  have hcounted : (s.restart p request).ports[q] =
      { ((s.emptied p request).applyMoves (s.emptied p request).restartMoves).ports[q] with counts := {} } := by
    rw [s.restart_eq]
    simp [State.restartBlocks]
  rw [hcounted, (State.restartMoves_ports hqueue).2, hports, hnotices]

theorem State.restart_pool (s : State) (p : PortIx) (request : Byte) :
    (s.restart p request).pool =
      (s.setProfile { s.profile with restartOwed := some (p, request) }).emptyAll.pool.restarted := by
  obtain ⟨-, -, -, -, -, -, -, hqueue, -⟩ := s.emptied_spec p request
  rw [s.restart_eq, State.beginLoad_leaves .. |>.2.2.2.2.2.2.2.2.1, State.restartBlocks, (State.restartMoves_ports hqueue).1,
    State.emptied]
  generalize (s.setProfile { s.profile with restartOwed := some (p, request) }).emptyAll = v
  rfl

/-- A port after a RESTART from port `p`, its pending records apart, and what ROUTE_STATE then counts (R153, R173, R179). -/
theorem State.restart_port_spec (s : State) (p : PortIx) (request : Byte) (q : PortIx) :
    (s.restart p request).ports[q] =
      { s.ports[q] with
        delivery := [], lastDelivery := none, counts := {}
        outbound := s.ports[q].outbound.map fun o =>
          if o.kind = .deliver ∧ o.cut = false then
            { o with cut := true, bytes := cutEnvelope o.bytes (Config.cutPoint s.profile.restarts q) }
          else o
        records := (s.restart p request).ports[q].records } ∧
    (∀ k : Fin 8, k ≠ 1 → (s.restart p request).ports[q].records[k] = s.ports[q].records[k]) ∧
    (s.ports[q].records[(1 : Fin 8)].count ≤ 255 →
      (s.restart p request).ports[q].records[(1 : Fin 8)].count =
        if s.ports[q].up = true ∧ s.ports[q].watch.getLsbD 1 = true then
          min 255 (s.ports[q].records[(1 : Fin 8)].count +
            (List.finRange 16).countP fun r => decide (s.health[r].state ≠ .disabled))
        else s.ports[q].records[(1 : Fin 8)].count) := by
  obtain ⟨x, hx⟩ : ∃ x, x = s.ports[q].emptied (Config.cutPoint s.profile.restarts q) := ⟨_, rfl⟩
  have hport := s.restart_port p request q
  rw [← hx] at hport
  have hless := Port.eq_of_recordless (Port.foldl_record_recordless s.restartNotices x).symm
  rw [hport]
  refine ⟨?_, fun k hk => ?_, fun hcount => ?_⟩
  · rw [← hless, hx]
    simp only [Port.emptied, Outbound.cutDeliver_eq]
  · have hother := Port.foldl_record_other (k := k) (fun n hn => by rw [s.restartNotices_kind n hn]; exact Ne.symm hk) x
    rw [hx] at hother ⊢
    exact hother
  · have hcounted := Port.foldl_record_count (x := x) s.restartNotices_kind (by rw [hx]; exact hcount)
    rw [s.restartNotices_length, hx] at hcounted
    rw [hx]
    exact hcounted

theorem State.taken_spec (s : State) (d : Directive) :
    { s.taken d with ports := s.ports } = s ∧
    ∀ p : PortIx, (s.taken d).ports[p] = if p = d.port then s.ports[p].noted d.request else s.ports[p] := by
  rw [State.taken_eq]
  refine ⟨rfl, fun p => ?_⟩
  rw [State.modPort_get]
  split
  · rename_i e
    rw [e]
  · rfl

/-- The account of the slots rests on frame memory, the queues, the lanes, and at the ports on SENDs and delivery queues. -/
theorem State.SlotsSound.congr {s t : State} (h : s.SlotsSound) (hpool : t.pool = s.pool) (htx : t.tx = s.tx)
    (hlanes : t.lanes = s.lanes)
    (hports : ∀ p : PortIx, t.ports[p].inbound = s.ports[p].inbound ∧ t.ports[p].delivery = s.ports[p].delivery) :
    t.SlotsSound := by
  have hreceiving (k : Nat) : t.receiving k = s.receiving k := by
    simp only [State.receiving, hlanes, (hports _).1]
  have hholders (k : Nat) : t.holders k = s.holders k := by
    simp only [State.holders, htx, (hports _).2, hreceiving]
  obtain ⟨hsound, hslots⟩ := h
  refine ⟨hpool ▸ hsound, fun k => ?_⟩
  rw [State.SlotSound, hpool, hholders, hreceiving]
  exact hslots k

/-- With every slot accounted for, a RESTART leaves slots to SENDs being received alone (R155, R161). -/
theorem State.restart_pool_spec {s : State} (h : s.SlotsSound) (p : PortIx) (request : Byte) :
    (s.restart p request).pool.hold = false ∧
    (s.restart p request).pool.free + ((List.finRange 6).countP fun q =>
      match s.ports[q].inbound with
      | .slot _ => true
      | _ => false) = 1024 := by
  obtain ⟨u, hu⟩ : ∃ u, u = s.setProfile { s.profile with restartOwed := some (p, request) } := ⟨_, rfl⟩
  have hports : u.ports = s.ports := by rw [hu]; rfl
  have hsound : u.SlotsSound := h.congr (by rw [hu]; rfl) (by rw [hu]; rfl)
      (by rw [hu]; rfl) fun q => by rw [hports]; exact ⟨rfl, rfl⟩
  obtain ⟨hhold, hfree⟩ := State.emptyAll_pool hsound
  rw [State.restart_pool, ← hu, ← hports]
  generalize u.emptyAll.pool = pool at *
  exact ⟨hhold, hfree⟩

theorem State.restart_profile (s : State) (p : PortIx) (request : Byte) :
    (s.restart p request).profile =
      { s.profile with load := .loading, restartOwed := some (p, request), restarts := s.profile.restarts + 1 } := by
  have hprofile : (s.emptied p request).profile =
      { s.profile with restartOwed := some (p, request), restarts := s.profile.restarts + 1 } :=
    (s.emptied_spec p request).2.2.2.2.2.2.1
  rw [s.restart_eq]
  simp [State.beginLoad, hprofile]

/-- Settles O51: RESTART record by record, then the bytes of a cut DELIVER. -/
theorem restartStartsAfresh : Obligations.RestartStartsAfresh := by
  refine ⟨fun s d hauth => ?_, fun status body e n he => cutEnvelope_spec status body n he⟩
  have hexec : exec (.restart d) s = .next ((s.taken d).restart d.port d.request) := by
    show Host.Outcome.next (s.operatorDirective d 21 0 (State.ownRestart d)) = _
    rw [State.operatorDirective_of_authorised hauth]
    rfl
  obtain ⟨htaken, hports⟩ := s.taken_spec d
  obtain ⟨u, hu⟩ : ∃ u, u = s.taken d := ⟨_, rfl⟩
  rw [← hu] at hexec htaken hports
  have hsame {β : Type} (g : State → β) (hg : g { u with ports := s.ports } = g u) :
      g u = g s := hg.symm.trans (congrArg g htaken)
  have htime : u.time = s.time := hsame State.time rfl
  have hhealth : u.health = s.health := hsame State.health rfl
  have hlanes : u.lanes = s.lanes := hsame State.lanes rfl
  have hprofile : u.profile = s.profile := hsame State.profile rfl
  obtain ⟨hflash, hpending, harriving⟩ := u.restart_leaves d.port d.request
  have hblocks : (u.restart d.port d.request).cfg = Settings.safe ∧
      (u.restart d.port d.request).probes = Vector.replicate 16 Probe.blank ∧
      (u.restart d.port d.request).sel = Vector.replicate 16 {} ∧
      (u.restart d.port d.request).score = Vector.replicate 16 {} ∧
      (u.restart d.port d.request).tx = Vector.replicate 16 Tx.blank ∧
      (u.restart d.port d.request).circuits = Vector.replicate 64 Circuit.blank ∧
      (u.restart d.port d.request).peers = Vector.replicate 4 { forced := none, noRoute := 0 } := by
    rw [u.restart_eq]
    exact ⟨rfl, rfl, rfl, rfl, rfl, rfl, rfl⟩
  obtain ⟨hcfg, hprobes, hsel, hscore, htx, hcircuits, hpeers⟩ := hblocks
  refine ⟨_, hexec, hcfg, hflash.trans (hsame State.flash rfl), hpending.trans (hsame State.pending rfl),
    harriving.trans (hsame State.arriving rfl), by rw [u.restart_profile, hprofile], by rw [u.restart_time, htime],
    fun r => ⟨?_, ?_, ?_, ?_, ?_, ?_⟩, fun n => ?_, fun p => ?_, fun p => ?_, fun hslots => ?_⟩
  · rw [u.restart_lane, hlanes]
    rfl
  · rw [u.restart_health, hhealth, htime]
  · rw [hprobes]
    simp
  · rw [hsel]
    simp
  · rw [hscore]
    simp
  · rw [htx]
    simp [Tx.blank]
  · rw [hcircuits]
    simp
  · rw [hpeers]
    simp
  · obtain ⟨hport, hother, hcount⟩ := u.restart_port_spec d.port d.request p
    generalize (u.restart d.port d.request).ports[p] = x at *
    rw [hprofile] at hport
    rw [hhealth] at hcount
    have hat := hports p
    by_cases hp : p = d.port
    · rw [if_pos hp] at hat
      rw [if_pos hp, if_pos hp]
      rw [hat] at hport hother hcount
      exact ⟨hport, hother, hcount⟩
    · rw [if_neg hp] at hat
      rw [if_neg hp, if_neg hp]
      rw [hat] at hport hother hcount
      exact ⟨hport, hother, hcount⟩
  · have hports' (p : PortIx) : u.ports[p].inbound = s.ports[p].inbound ∧ u.ports[p].delivery = s.ports[p].delivery := by
      rw [hports p]
      split <;> exact ⟨rfl, rfl⟩
    obtain ⟨hhold, hfree⟩ := State.restart_pool_spec
      (hslots.congr (hsame State.pool rfl) (hsame State.tx rfl) hlanes hports') d.port d.request
    simp only [(hports' _).1] at hfree
    have hpool := u.restart_pool d.port d.request
    have hlow : (u.restart d.port d.request).pool.lowWater = (u.restart d.port d.request).pool.free ∧
        (u.restart d.port d.request).pool.holds = 0 ∧ (u.restart d.port d.request).pool.underHold = 0 ∧
        (u.restart d.port d.request).pool.sendNoBuffer = 0 ∧ (u.restart d.port d.request).pool.arrivalNoBuffer = 0 := by
      rw [hpool]
      generalize (State.emptyAll _).pool = pool
      exact ⟨rfl, rfl, rfl, rfl, rfl⟩
    obtain ⟨hlowWater, hholds, hunder, hsend, harrival⟩ := hlow
    exact ⟨hhold, hlowWater, hholds, hunder, hsend, harrival, hfree⟩

end Sys2Proof.Machine
end

