-- ==== Sys2Proof/Proofs/FrameStart.lean ====
section
/-! CHECK. The store a frame gets at its start, and frame memory as a slot is taken (R136, R155, R157, R159). -/

namespace Sys2Proof.Machine

/-! ### A slot taken (R155) -/

theorem le_freeSlotFrom (l : List (Nat × Frame)) : ∀ n : Nat, n ≤ freeSlotFrom n l := by
  induction l with
  | nil => exact fun n => le_rfl
  | cons e l ih =>
    intro n
    rw [freeSlotFrom]
    split
    · exact le_trans (Nat.le_succ n) (ih (n + 1))
    · exact le_rfl

/-- The least number that a rising list of taken slots skips is not in it, and no more slots come before it than are taken. -/
theorem freeSlotFrom_free (l : List (Nat × Frame)) :
    ∀ n : Nat, (l.map Prod.fst).Pairwise (· < ·) → (∀ e ∈ l, n ≤ e.1) →
      freeSlotFrom n l ∉ l.map Prod.fst ∧ freeSlotFrom n l ≤ n + l.length := by
  induction l with
  | nil => intro n _ _; simp [freeSlotFrom]
  | cons e l ih =>
    intro n hsorted hfrom
    obtain ⟨k, f⟩ := e
    rw [List.map_cons, List.pairwise_cons] at hsorted
    obtain ⟨hhead, htail⟩ := hsorted
    have hn : n ≤ k := hfrom _ List.mem_cons_self
    have habove : ∀ e ∈ l, k < e.1 := fun e he => hhead e.1 (List.mem_map_of_mem he)
    rw [freeSlotFrom]
    split
    · rename_i hk
      subst hk
      obtain ⟨hfree, hbound⟩ := ih (k + 1) htail fun e he => habove e he
      have hlow : k + 1 ≤ freeSlotFrom (k + 1) l := le_freeSlotFrom l (k + 1)
      rw [List.map_cons, List.mem_cons, not_or, List.length_cons]
      exact ⟨⟨by simp only; omega, hfree⟩, by omega⟩
    · rename_i hk
      refine ⟨fun hmem => ?_, by omega⟩
      rw [List.map_cons, List.mem_cons] at hmem
      rcases hmem with heq | hmem
      · exact hk heq.symm
      · obtain ⟨e, he, heq⟩ := List.mem_map.1 hmem
        have := habove e he
        omega

theorem lookup_insertSlot (k : Nat) (f : Frame) (l : List (Nat × Frame)) (hfree : k ∉ l.map Prod.fst) (j : Nat) :
    (insertSlot k f l).lookup j = if j = k then some f else l.lookup j := by
  induction l with
  | nil => exact lookup_cons_ite [] k j f
  | cons e l ih =>
    obtain ⟨i, g⟩ := e
    rw [List.map_cons, List.mem_cons, not_or] at hfree
    obtain ⟨hhead, htail⟩ := hfree
    rw [insertSlot]
    split
    · exact lookup_cons_ite _ k j f
    · rw [lookup_cons_ite, lookup_cons_ite, ih htail]
      by_cases hj : j = i
      · subst hj
        simp only [if_true, if_neg (Ne.symm hhead)]
      · simp only [if_neg hj]

theorem length_insertSlot (k : Nat) (f : Frame) (l : List (Nat × Frame)) : (insertSlot k f l).length = l.length + 1 := by
  induction l with
  | nil => rfl
  | cons e l ih =>
    rw [insertSlot]
    split
    · rfl
    · rw [List.length_cons, ih, List.length_cons]

/-- HOLD and the low-water mark after a change of the free count (R159). -/
theorem Pool.judge_eq (p : Pool) :
    p.judge =
      { p with
        lowWater := min p.lowWater p.free
        hold := if p.hold then decide (p.free < 96) else decide (p.free < 64)
        holds := p.holds + (if p.hold = false ∧ p.free < 64 then 1 else 0) } := by
  unfold Pool.judge
  have hfree : ({ p with lowWater := min p.lowWater p.free } : Pool).free = p.free := rfl
  dsimp only
  rw [hfree]
  rcases hhold : p.hold
  · by_cases hbelow : p.free < 64
    · simp [hbelow, Config.holdBelow]
    · simp [hbelow, Config.holdBelow]
  · by_cases huntil : p.free < 96
    · simp [huntil, Config.holdUntil, Nat.not_le.2 huntil]
    · simp [huntil, Config.holdUntil, Nat.not_lt.1 huntil]

/-- A slot taken in sound frame memory: its number, its record, and what stays (R155, R159). -/
theorem Pool.take_spec (p : Pool) (f : Frame) (hsound : p.Sound) (hroom : 1 ≤ p.free) :
    ∃ k q, p.take f = some (k, q) ∧ k < 1024 ∧ p.frame k = none ∧ q.frame k = some f ∧
      (∀ j : Nat, j ≠ k → q.frame j = p.frame j) ∧ q.free = p.free - 1 ∧
      q.hold = (p.hold || decide (q.free < 64)) ∧ q.lowWater = min p.lowWater q.free ∧
      q.holds = p.holds + (if p.hold = false ∧ q.free < 64 then 1 else 0) ∧ q.underHold = p.underHold ∧
      q.sendNoBuffer = p.sendNoBuffer ∧ q.arrivalNoBuffer = p.arrivalNoBuffer := by
  obtain ⟨hsorted, hrange, hlow, hreleased, hasserted⟩ := hsound
  have hlength : p.slots.length < 1024 := by
    simp only [Pool.free, Config.slotCount] at hroom
    omega
  obtain ⟨hfree, hbound⟩ := freeSlotFrom_free p.slots 0 hsorted fun _ _ => Nat.zero_le _
  have hframe : ∀ j, (Pool.judge { p with slots := insertSlot (freeSlotFrom 0 p.slots) f p.slots }).frame j =
      if j = freeSlotFrom 0 p.slots then some f else p.frame j := fun j => by
    rw [Pool.frame, Pool.judge_slots]
    exact lookup_insertSlot _ f p.slots hfree j
  have hcount : (Pool.judge { p with slots := insertSlot (freeSlotFrom 0 p.slots) f p.slots }).free = p.free - 1 := by
    rw [Pool.free, Pool.judge_slots, length_insertSlot, Pool.free]
    omega
  have hnew : ({ p with slots := insertSlot (freeSlotFrom 0 p.slots) f p.slots } : Pool).free = p.free - 1 := by
    rw [← hcount, Pool.free, Pool.free, Pool.judge_slots]
  refine ⟨_, _, if_pos hlength, by omega, (p.frame_eq_none_iff _).2 hfree, by rw [hframe, if_pos rfl],
    fun j hj => by rw [hframe, if_neg hj], hcount, ?_, ?_, ?_, ?_, ?_, ?_⟩
  · rw [hcount, Pool.judge_eq, hnew]
    rcases hhold : p.hold
    · simp
    · have := hasserted hhold
      simp only [Config.holdUntil] at this
      simp
      omega
  · rw [hcount, Pool.judge_eq, hnew]
  · rw [hcount, Pool.judge_eq, hnew]
  all_goals rw [Pool.judge_eq]

/-! ### FRAME_START (R136, R157) -/

theorem takesFrames_iff (s : State) (r : RouteIx) :
    s.takesFrames r = true ↔ s.cfg.lanes[r].type ≠ .unused ∧ s.lanes[r].los = false := by
  simp [State.takesFrames]

/-- A lane that takes frames and receives none begins one (R24, R136). -/
theorem exec_frameStart_of_takes {s : State} {r : RouteIx} (first : Byte) (htype : s.cfg.lanes[r].type ≠ .unused)
    (hlos : s.lanes[r].los = false) (hrx : s.lanes[r].rx = none) :
    exec (.frameStart r first) s = .next (s.frameStart r first) := by
  have htakes : (s.takesFrames r && s.lanes[r].rx.isNone) = true := by
    rw [(takesFrames_iff s r).2 ⟨htype, hlos⟩, hrx]
    rfl
  exact if_pos htakes

theorem exec_frameStart_of_not_takes {s : State} {r : RouteIx} (first : Byte)
    (h : s.cfg.lanes[r].type = .unused ∨ s.lanes[r].los = true ∨ s.lanes[r].rx ≠ none) :
    exec (.frameStart r first) s = .next s := by
  refine if_neg fun htakes => ?_
  rw [Bool.and_eq_true, takesFrames_iff, Option.isNone_iff_eq_none] at htakes
  obtain ⟨⟨htype, hlos⟩, hrx⟩ := htakes
  rcases h with h | h | h
  · exact htype h
  · rw [hlos] at h
    cases h
  · exact h hrx

/-- Settles O37: the store a frame gets, by the route's state, its first byte and the free slots. -/
theorem frameStartTakesStore : Obligations.FrameStartTakesStore := by
  unfold Obligations.FrameStartTakesStore
  rintro s r first stamp rfl
  refine ⟨exec_frameStart_of_not_takes first, fun htype hlos hrx => ?_⟩
  rw [exec_frameStart_of_takes first htype hlos hrx]
  refine ⟨fun hdisabled => ?_, fun hnot => ⟨fun hother => ?_, fun hcargo hfull => ?_, fun hcargo hsound hroom => ?_⟩⟩
  · rw [State.frameStart, if_pos hdisabled]
    rfl
  · rw [State.frameStart, if_neg hnot, if_neg (show ¬ first.toNat = TrunkKind.cargo.code from hother)]
    rfl
  · have htake : s.pool.take (s.arrivalFrame r) = none := if_neg (by
      simp only [Pool.free, Config.slotCount] at hfull ⊢
      omega)
    rw [State.frameStart, if_neg hnot, if_pos (show first.toNat = TrunkKind.cargo.code from hcargo), htake]
    rfl
  · obtain ⟨k, q, htake, hspec⟩ := Pool.take_spec s.pool (s.arrivalFrame r) hsound hroom
    obtain ⟨hk, hfree, hframe, hothers, hcount, hhold, hlow, hholds, hunder, hsend, harrival⟩ := hspec
    rw [State.frameStart, if_neg hnot, if_pos (show first.toNat = TrunkKind.cargo.code from hcargo), htake]
    exact ⟨_, k, rfl, hk, hfree, hframe, hothers, hcount, hhold, hlow, hholds, hunder, hsend, harrival, rfl, rfl⟩

end Sys2Proof.Machine
end

