-- ==== Sys2Proof/Proofs/OfferControl.lean ====
section
/-! CHECK. What an offer comes to, and the control frames it serves (R23, R40, R44, R68, R120, R121). -/

namespace Sys2Proof.Machine

/-! ### Two updates of one record, and the lengths of frames (R195) -/

theorem State.modTx_modTx (s : State) (r : RouteIx) (f g : Tx → Tx) :
    (s.modTx r f).modTx r g = s.modTx r fun t => g (f t) := by
  simp [State.modTx]

theorem modTx_of_same {s : State} {r : RouteIx} {f : Tx → Tx} (h : f s.tx[r] = s.tx[r]) : s.modTx r f = s := by
  rw [State.modTx, h]
  exact congrArg (fun tx => { s with tx := tx }) (Vector.set_getElem_self _)

theorem length_withCrc (bs : List Byte) : (withCrc bs).length = bs.length + 4 := by
  rw [withCrc, List.length_append, length_bytesOf]

theorem length_patternFrom (n : Nat) : ∀ x : BitVec 16, (patternFrom n x).length = n := by
  induction n with
  | zero => exact fun _ => rfl
  | succ n ih => exact fun x => congrArg (· + 1) (ih (patternStep x))

theorem length_pattern (seed : BitVec 16) : (pattern seed).length = 256 :=
  length_patternFrom Config.patternLen _

theorem length_echoBytes (s : State) (r : RouteIx) (e : EchoEntry) : (s.echoBytes r e).length = 33 := by
  simp [State.echoBytes, length_withCrc]

theorem length_probeBytes (s : State) (r : RouteIx) (n : Byte) : (s.probeBytes r n).length = 15 := by
  simp [State.probeBytes, length_withCrc]

theorem length_testBytes (s : State) (seed : BitVec 16) : (s.testBytes seed).length = 264 := by
  simp [State.testBytes, length_withCrc, length_pattern]

/-! ### What an offer comes to (R120) -/

theorem laneReady_iff (s : State) (r : RouteIx) :
    s.laneReady r = true ↔ s.cfg.lanes[r].type ≠ .unused ∧ s.lanes[r].los = false ∧ s.tx[r].current = none := by
  simp [State.laneReady, and_assoc]

theorem offer_of_not_ready {s : State} {r : RouteIx} (h : ¬ s.laneReady r = true) : s.offer r = s := if_neg h

theorem offer_of_echo {s : State} {r : RouteIx} {e : EchoEntry} {rest : List EchoEntry} (hready : s.laneReady r = true)
    (hecho : s.tx[r].echoes = e :: rest) : s.offer r = s.sendEcho r e rest := by
  rw [State.offer, if_pos hready, hecho]

theorem offer_of_no_echo {s : State} {r : RouteIx} (hready : s.laneReady r = true) (hecho : s.tx[r].echoes = []) :
    s.offer r = s.offerProbe r := by
  rw [State.offer, if_pos hready, hecho]

theorem offerProbe_of_room {s : State} {r : RouteIx} (hprobe : s.tx[r].probeEntry = true)
    (hroom : s.probes[r].outstanding.length < 8) : s.offerProbe r = s.sendProbe r := by
  rw [State.offerProbe, if_pos hprobe, if_pos hroom]

theorem offerProbe_of_no_probe {s : State} {r : RouteIx} (hprobe : s.tx[r].probeEntry = false) :
    s.offerProbe r = s.offerTest r := by
  rw [State.offerProbe, if_neg (by rw [hprobe]; decide)]

/-- A PROBE skipped leaves the offer what it is on the state so left (R40). -/
theorem offer_of_skip {s : State} {r : RouteIx} (hready : s.laneReady r = true) (hecho : s.tx[r].echoes = [])
    (hprobe : s.tx[r].probeEntry = true) (hfull : 8 ≤ s.probes[r].outstanding.length) :
    s.offer r = (s.skipProbe r).offer r := by
  have hready' : (s.skipProbe r).laneReady r = true := by
    rw [laneReady_iff] at hready ⊢
    simpa [State.skipProbe] using hready
  have hecho' : (s.skipProbe r).tx[r].echoes = [] := by simpa [State.skipProbe] using hecho
  have hprobe' : (s.skipProbe r).tx[r].probeEntry = false := by simp [State.skipProbe]
  rw [offer_of_no_echo hready hecho, offer_of_no_echo hready' hecho', offerProbe_of_no_probe hprobe', State.offerProbe,
    if_pos hprobe, if_neg (Nat.not_lt.2 hfull)]

/-- With no ECHO, PROBE or TEST to serve, an offer is the calendar's (R120). -/
theorem offer_of_no_control {s : State} {r : RouteIx} (hready : s.laneReady r = true) (hecho : s.tx[r].echoes = [])
    (hprobe : s.tx[r].probeEntry = false) (htest : s.tx[r].testEntry = false ∨ s.health[r].state ≠ .proving) :
    s.offer r = s.offerCargo r := by
  rw [offer_of_no_echo hready hecho, offerProbe_of_no_probe hprobe, State.offerTest, if_neg]
  rw [Bool.and_eq_true, beq_iff_eq]
  rintro ⟨hentry, hproving⟩
  rcases htest with h | h
  · rw [h] at hentry
    cases hentry
  · exact h hproving

theorem carries_iff (x : RouteState) : x.carries = true ↔ x = .up ∨ x = .fading := by cases x <;> simp [RouteState.carries]

/-- With nothing at all to serve, an offer changes nothing (R120). -/
theorem offer_of_nothing {s : State} {r : RouteIx} (hready : s.laneReady r = true) (hecho : s.tx[r].echoes = [])
    (hprobe : s.tx[r].probeEntry = false) (htest : s.tx[r].testEntry = false ∨ s.health[r].state ≠ .proving)
    (hcargo : s.tx[r].queue = [] ∨ (s.health[r].state ≠ .up ∧ s.health[r].state ≠ .fading)) : s.offer r = s := by
  rw [offer_of_no_control hready hecho hprobe htest, State.offerCargo]
  rcases hcargo with hempty | ⟨hup, hfading⟩
  · rw [hempty]
    exact ite_self s
  · rw [if_neg]
    rw [carries_iff]
    exact not_or.2 ⟨hup, hfading⟩

/-- Settles O33: an offer by the entry it serves. -/
theorem offerServesControl : Obligations.OfferServesControl := by
  unfold Obligations.OfferServesControl
  rintro s r stamp rfl
  refine ⟨fun hidle => congrArg Host.Outcome.next (offer_of_not_ready fun hready => ?_), fun htype hlos hcurrent => ?_⟩
  · obtain ⟨htype, hlos, hcurrent⟩ := (laneReady_iff s r).1 hready
    rcases hidle with h | h | h
    · exact htype h
    · rw [hlos] at h
      cases h
    · exact h hcurrent
  have hready := (laneReady_iff s r).2 ⟨htype, hlos, hcurrent⟩
  refine ⟨fun e rest hecho => congrArg Host.Outcome.next ?_, fun hecho => ⟨fun hprobe hroom => congrArg Host.Outcome.next ?_,
    fun hprobe htest hproving => congrArg Host.Outcome.next ?_, fun hprobe hfull => congrArg Host.Outcome.next ?_,
    fun htest hcargo => ⟨fun hprobe => congrArg Host.Outcome.next ?_, fun hprobe hfull => congrArg Host.Outcome.next ?_⟩⟩⟩
  · rw [offer_of_echo hready hecho, State.sendEcho, State.startControl, State.modTx_modTx, length_echoBytes]
    rfl
  · rw [offer_of_no_echo hready hecho, offerProbe_of_room hprobe hroom, State.sendProbe, State.startControl, State.modTx_modTx,
      length_probeBytes]
    rfl
  · rw [offer_of_no_echo hready hecho, offerProbe_of_no_probe hprobe, State.offerTest, if_pos (by rw [htest, hproving]; rfl),
      State.sendTest, State.startControl, State.modTx_modTx, length_testBytes]
    rfl
  · exact offer_of_skip hready hecho hprobe hfull
  · exact offer_of_nothing hready hecho hprobe htest hcargo
  · rw [offer_of_skip hready hecho hprobe hfull]
    have htx : (s.skipProbe r).tx[r] = { s.tx[r] with probeEntry := false } :=
      s.modTx_get_self r fun t => { t with probeEntry := false }
    refine offer_of_nothing ((laneReady_iff _ r).2 ⟨htype, hlos, ?_⟩) ?_ ?_ ?_ ?_ <;> rw [htx]
    exacts [hcurrent, hecho, htest, hcargo]

end Sys2Proof.Machine
end

