-- ==== Sys2Proof/Proofs/OfferCargo.lean ====
section
/-! CHECK. The copy the calendar grants at an offer (R122 to R125). -/

namespace Sys2Proof.Machine

/-! ### The holders of a frame (R91, R124) -/

theorem heldElsewhere_iff (s : State) (r : RouteIx) (k : Nat) : s.heldElsewhere r k = true ↔ s.HeldOnOther r k := by
  rw [State.heldElsewhere, List.any_eq_true]
  refine exists_congr fun q => ?_
  rw [Bool.and_eq_true, Bool.or_eq_true, decide_eq_true_iff, List.any_eq_true]
  rcases s.tx[q].current with _ | ⟨kind, _ | c, bytes, untaken⟩ <;> simp

/-- What a route's own record holds does not bear on whether another route holds the frame. -/
theorem heldElsewhere_modTx (s : State) (r : RouteIx) (f : Tx → Tx) (k : Nat) :
    (s.modTx r f).heldElsewhere r k = s.heldElsewhere r k := by
  rw [Bool.eq_iff_iff, heldElsewhere_iff, heldElsewhere_iff]
  refine exists_congr fun q => and_congr_right fun hq => ?_
  rw [State.modTx_get_other s r q f hq]

/-! ### What the calendar grants (R122) -/

theorem grant_mem {cal : Calendar} {pointer : Fin 16} {queue : List Copy} {c : Copy} {slot : Option (Fin 16)}
    (h : grant cal pointer queue = some (c, slot)) : c ∈ queue := by
  rw [grant] at h
  split at h
  · obtain ⟨c', hfind, heq⟩ := Option.map_eq_some_iff.1 h
    rw [← (Prod.mk.inj heq).1]
    exact List.mem_of_find?_eq_some hfind
  · obtain ⟨c', hhead, heq⟩ := Option.map_eq_some_iff.1 h
    rw [← (Prod.mk.inj heq).1]
    exact List.mem_of_mem_head? hhead

/-- A ready lane of a route that carries CARGO, with no control frame to serve (R120). -/
def State.ServesCargo (s : State) (r : RouteIx) : Prop :=
  s.laneReady r = true ∧ s.tx[r].echoes = [] ∧ s.tx[r].probeEntry = false ∧ s.health[r].state.carries = true

theorem State.ServesCargo.offer {s : State} {r : RouteIx} (h : s.ServesCargo r) :
    s.offer r = s.grantLoop r s.tx[r].queue.length := by
  obtain ⟨hready, hecho, hprobe, hcarries⟩ := h
  rw [offer_of_no_control hready hecho hprobe (Or.inr fun hproving => by rw [hproving] at hcarries; cases hcarries),
    State.offerCargo, if_pos hcarries]

/-- A grant counted when it is unslotted (R123). -/
def State.countGrant (s : State) (r : RouteIx) (slot : Option (Fin 16)) : State :=
  s.modTx r fun t => { t with counts := { t.counts with unslotted := t.counts.unslotted + (if slot.isNone then 1 else 0) } }

/-- The transmit record of a route whose granted copy is discarded (R124). -/
def State.grantedTx (s : State) (r : RouteIx) (c : Copy) (slot : Option (Fin 16)) : Tx :=
  { s.tx[r] with
    queue := s.tx[r].queue.erase c
    counts :=
      { s.tx[r].counts with
        expiredAtStart := s.tx[r].counts.expiredAtStart + 1
        unslotted := s.tx[r].counts.unslotted + (if slot.isNone then 1 else 0) } }

/-- The granted copy out of its queue, not yet released (R124). -/
def State.granted (s : State) (r : RouteIx) (c : Copy) (slot : Option (Fin 16)) : State :=
  s.modTx r fun _ => s.grantedTx r c slot

theorem expireAtStart_countGrant (s : State) (r : RouteIx) (c : Copy) (slot : Option (Fin 16)) :
    (s.countGrant r slot).expireAtStart r c = ((s.granted r c slot).countDiscard r c .expired).release c.slot := by
  rw [State.expireAtStart, State.countGrant, State.modTx_modTx]
  rfl

/-- The first grant of an offer: the copy starts, or is discarded and the search begins again (R122, R124). -/
theorem State.ServesCargo.offer_of_grant {s : State} {r : RouteIx} {c : Copy} {slot : Option (Fin 16)} (h : s.ServesCargo r)
    (hgrant : grant s.cfg.calendars[r] s.tx[r].pointer s.tx[r].queue = some (c, slot)) :
    s.offer r =
      if s.expired c then ((s.countGrant r slot).expireAtStart r c).grantLoop r (s.tx[r].queue.erase c).length
      else (s.countGrant r slot).startCargo r c slot := by
  have hlength := List.length_erase_of_mem (grant_mem hgrant)
  obtain ⟨n, hn⟩ : ∃ n, s.tx[r].queue.length = n + 1 :=
    Nat.exists_eq_succ_of_ne_zero (Nat.ne_of_gt (List.length_pos_of_mem (grant_mem hgrant)))
  rw [h.offer, hn, State.grantLoop, hgrant, hlength, hn]
  cases slot with
  | none => rfl
  | some i =>
    have hslotted : s.countGrant r (some i) = s := modTx_of_same (by simp)
    rw [hslotted]
    rfl

/-- A granted copy that has expired is discarded, and the search begins again (R124). -/
theorem State.ServesCargo.offer_of_discard {s : State} {r : RouteIx} {c : Copy} {slot : Option (Fin 16)} (h : s.ServesCargo r)
    (hgrant : grant s.cfg.calendars[r] s.tx[r].pointer s.tx[r].queue = some (c, slot)) (hexpired : s.expired c = true) :
    s.offer r = (((s.granted r c slot).countDiscard r c .expired).release c.slot).offer r := by
  have htx : (((s.granted r c slot).countDiscard r c .expired).release c.slot).tx[r] = s.grantedTx r c slot := by
    simp [State.granted]
  have hserves : (((s.granted r c slot).countDiscard r c .expired).release c.slot).ServesCargo r := by
    obtain ⟨hready, hecho, hprobe, hcarries⟩ := h
    obtain ⟨htype, hlos, hcurrent⟩ := (laneReady_iff s r).1 hready
    refine ⟨(laneReady_iff _ r).2 ⟨?_, ?_, ?_⟩, ?_, ?_, ?_⟩ <;> simpa [State.granted]
  rw [h.offer_of_grant hgrant, if_pos hexpired, expireAtStart_countGrant, hserves.offer, htx]
  rfl

theorem notStarted_eq {s : State} {k : Nat} {f : Frame} (h : s.pool.frame k = some f) : s.notStarted k = !f.started := by
  rw [State.notStarted, h]

/-- The last copy of a held frame is told of and counted (R91, R92). -/
theorem countDiscard_of_last {s : State} {r : RouteIx} {c : Copy} {f : Frame} (reason : DiscardReason)
    (hframe : s.pool.frame c.slot = some f) (hstarted : f.started = false) (hlast : ¬ s.HeldOnOther r c.slot) :
    s.countDiscard r c reason =
      (s.modCircuit c.circuit fun x =>
        { x with out := { x.out.discard reason with held := x.out.held - 1 } }).raiseAt c.port
        (.circuitDiscard c.circuit reason c.seq) := by
  rw [State.countDiscard, if_pos]
  rw [notStarted_eq hframe, hstarted, Bool.eq_false_iff.2 (mt (heldElsewhere_iff s r c.slot).1 hlast)]
  rfl

/-- A copy of a frame that has started, or has another holder, is told of by nobody (R91). -/
theorem countDiscard_of_not_last {s : State} {r : RouteIx} {c : Copy} {f : Frame} (reason : DiscardReason)
    (hframe : s.pool.frame c.slot = some f) (h : f.started = true ∨ s.HeldOnOther r c.slot) :
    s.countDiscard r c reason = s := by
  rw [State.countDiscard, if_neg]
  rw [notStarted_eq hframe, Bool.and_eq_true, Bool.not_eq_true', Bool.not_eq_true', ← Bool.not_eq_true, ← Bool.not_eq_true,
    heldElsewhere_iff]
  exact fun ⟨hstarted, hlast⟩ => h.elim hstarted hlast

/-- Settles O34: the copy granted starts, or is discarded and the search begins again. -/
theorem offerStartsCargo : Obligations.OfferStartsCargo := by
  unfold Obligations.OfferStartsCargo
  intro s r c slot f port peer far cls maxAge htype hlos hcurrent hecho hprobe hcarries hgrant hframe hdefn
  have hserves : s.ServesCargo r := ⟨(laneReady_iff s r).2 ⟨htype, hlos, hcurrent⟩, hecho, hprobe, (carries_iff _).2 hcarries⟩
  have hmax : s.maxAge c = maxAge := by
    rw [State.maxAge, hdefn]
  refine ⟨fun hyoung => congrArg Host.Outcome.next ?_, fun hold left hleft => ?_⟩
  · have hexpired : ¬ s.expired c = true := by
      rw [State.expired, decide_eq_true_iff, hmax]
      exact Nat.not_le.2 hyoung
    rw [hserves.offer_of_grant hgrant, if_neg hexpired, State.startCargo, State.countGrant, State.modTx_modTx, State.countStart]
    have hbytes : ∀ g : Tx → Tx, (s.modTx r g).cargoBytes r c =
        withCrc ([1, s.cfg.termId] ++ bytesOf 2 far.val ++ bytesOf 2 c.seq.toNat ++ bytesOf 2 c.len ++
          bytesOf 4 f.tag ++ bytesOf 8 f.ingress ++
          bytesOf 8 (s.time.tt + BitVec.ofNat 64 s.cfg.lanes[r].txc).toNat ++ f.payload c.len) := fun g => by
      have hfar : (s.modTx r g).farCircuit c.circuit = far.val := by
        rw [State.farCircuit, State.modTx_circuits, hdefn]
      rw [State.cargoBytes, State.modTx_pool, hframe, hfar]
      rfl
    rw [notStarted_eq (s := s.modTx r _) hframe, hbytes]
    rcases f.started <;> rfl
  · have hexpired : s.expired c = true := by
      rw [State.expired, decide_eq_true_iff, hmax]
      exact hold
    have hother : (s.granted r c slot).HeldOnOther r c.slot ↔ s.HeldOnOther r c.slot := by
      rw [← heldElsewhere_iff, ← heldElsewhere_iff]
      exact Bool.eq_iff_iff.1 (heldElsewhere_modTx s r _ c.slot)
    subst hleft
    refine ⟨fun hnot => congrArg Host.Outcome.next ?_, fun hstarted hlast => congrArg Host.Outcome.next ?_⟩
    · rw [hserves.offer_of_discard hgrant hexpired,
        countDiscard_of_not_last (s := s.granted r c slot) _ hframe (by rw [hother]; exact hnot)]
      rfl
    · rw [hserves.offer_of_discard hgrant hexpired,
        countDiscard_of_last (s := s.granted r c slot) _ hframe hstarted (by rw [hother]; exact hlast)]
      rfl

end Sys2Proof.Machine
end

