-- ==== Sys2Proof/Proofs/Figures.lean ====
section
/-! SUPPORT. What the laws of a route's figures look at, and what a move and an evaluation of a route need to meet them (R53, R60, R63, R64, R100). -/

namespace Sys2Proof.Machine

/-! ### The laws of a route's figures and what they look at -/

/-- Every route that R60 holds is DISABLED, the thresholds pass the checks of R77, and every route has its figures (R100). -/
def State.Figured (s : State) : Prop :=
  s.HeldDisabled ∧ s.cfg.health.ok = true ∧ ∀ r : RouteIx, s.FiguredRoute r

/-- What these laws look at: the thresholds, and of each route whether it is permitted, its lane's type and latest report, its
state and good-window count, and its sample ring. -/
def State.figures (s : State) :
    HealthSettings × (RouteIx → (Bool × LaneType) × Option Report × (RouteState × Nat) × List Sample) :=
  (s.cfg.health, fun r =>
    ((s.permitted r, s.cfg.lanes[r].type), s.lanes[r].latest, (s.health[r].state, s.health[r].good), s.probes[r].ring))

theorem byteTime_congr {l l' : Lane} (ty : LaneType) (h : l.latest = l'.latest) : byteTime ty l = byteTime ty l' := by
  unfold byteTime Lane.effectiveStep
  rw [h]

theorem State.figured_congr {s t : State} (h : t.figures = s.figures) (hs : s.Figured) : t.Figured := by
  simp only [State.figures, Prod.mk.injEq] at h
  obtain ⟨hhealth, hroutes⟩ := h
  obtain ⟨hheld, hok, hfigured⟩ := hs
  have hview (r : RouteIx) := congrFun hroutes r
  simp only [Prod.mk.injEq] at hview
  refine ⟨fun r => ?_, by rw [hhealth]; exact hok, fun r => ?_⟩ <;>
    obtain ⟨⟨hpermitted, htype⟩, hlatest, ⟨hstate, hgood⟩, hring⟩ := hview r
  · rw [hpermitted, hstate]
    exact hheld r
  · rw [State.FiguredRoute, hstate, hgood, hring, htype, hlatest, byteTime_congr _ hlatest]
    exact hfigured r

theorem State.permitted_congr {s t : State} (hcfg : t.cfg = s.cfg) (hload : t.profile.load = s.profile.load) (r : RouteIx) :
    t.permitted r = s.permitted r := by
  simp only [State.permitted, hcfg, hload]

/-- A change of a lane that leaves its latest report is none that these laws look at. -/
theorem State.figures_modLane (s : State) (r : RouteIx) {f : Lane → Lane} (h : ∀ x, (f x).latest = x.latest) :
    (s.modLane r f).figures = s.figures := by
  have hs (q : RouteIx) : (s.modLane r f).lanes[q].latest = s.lanes[q].latest := by
    rw [State.modLane_get]
    split
    · rename_i e; rw [h, e]
    · rfl
  simp only [State.figures, hs]
  rfl

/-- A change of a route's health that leaves its state and its good-window count is none that these laws look at. -/
theorem State.figures_modHealth (s : State) (r : RouteIx) {f : Health → Health}
    (h : ∀ x, (f x).state = x.state ∧ (f x).good = x.good) : (s.modHealth r f).figures = s.figures := by
  have hs (q : RouteIx) : (s.modHealth r f).health[q].state = s.health[q].state ∧
      (s.modHealth r f).health[q].good = s.health[q].good := by
    rw [State.modHealth_get]
    split
    · rename_i e; rw [e]; exact h _
    · exact ⟨rfl, rfl⟩
  simp only [State.figures, (hs _).1, (hs _).2]
  rfl

/-- A change of a route's probe state that leaves its ring is none that these laws look at. -/
theorem State.figures_modProbe (s : State) (r : RouteIx) {f : Probe → Probe} (h : ∀ x, (f x).ring = x.ring) :
    (s.modProbe r f).figures = s.figures := by
  have hs (q : RouteIx) : (s.modProbe r f).probes[q].ring = s.probes[q].ring := by
    rw [State.modProbe_get]
    split
    · rename_i e; rw [h, e]
    · rfl
  simp only [State.figures, hs]
  rfl

/-- What changes neither the settings, the load state, the lanes, the routes' health nor their probe state. -/
theorem State.figures_of_frame {s t : State} (hcfg : t.cfg = s.cfg) (hload : t.profile.load = s.profile.load)
    (hlanes : t.lanes = s.lanes) (hhealth : t.health = s.health) (hprobes : t.probes = s.probes) : t.figures = s.figures := by
  simp only [State.figures, State.permitted, hcfg, hload, hlanes, hhealth, hprobes]

theorem State.figures_dropRx (s : State) (r : RouteIx) : (s.dropRx r).figures = s.figures := by
  unfold State.dropRx
  split
  · rfl
  · have hlane : (s.modLane r fun l => { l with rx := none }).figures = s.figures := s.figures_modLane r (by simp)
    dsimp only
    split
    · exact (State.figures_of_frame rfl rfl rfl rfl rfl).trans hlane
    · exact hlane

theorem State.figures_abandonRx (s : State) (r : RouteIx) : (s.abandonRx r).figures = s.figures := by
  unfold State.abandonRx
  split
  · rfl
  · exact (State.figures_modLane _ r (by simp)).trans (s.figures_dropRx r)

/-! ### A route as its own move leaves it -/

/-- What the laws ask of a route before a move through `via`: to end in UP or FADING it needs a byte time, a sample, and no flush
on the way; where it makes no move a proving route with a good reply has a sample; and its latest report is in range. -/
def State.MoveFigures (s : State) (r : RouteIx) (via : List RouteState) : Prop :=
  ((via.getLastD s.health[r].state).carries = true →
    (byteTime s.cfg.lanes[r].type s.lanes[r]).isSome = true ∧ s.probes[r].ring ≠ [] ∧ .down ∉ via ∧ .disabled ∉ via) ∧
  (via = [] → s.health[r].state = .proving → s.health[r].good ≠ 0 → s.probes[r].ring ≠ []) ∧
  s.lanes[r].latest.all (fun x => decide (x.step ≤ 7)) = true

theorem State.FiguredRoute.moveFigures_nil {s : State} {r : RouteIx} (h : s.FiguredRoute r) : s.MoveFigures r [] := by
  obtain ⟨hcarries, hproving, hlatest⟩ := h
  exact ⟨fun hc => ⟨(hcarries hc).1, (hcarries hc).2, List.not_mem_nil, List.not_mem_nil⟩, fun _ => hproving, hlatest⟩

/-- A move that ends out of UP and FADING asks for nothing but a latest report in range. -/
theorem State.moveFigures_of_ends {s : State} {r : RouteIx} {via : List RouteState} (hne : via ≠ [])
    (hends : (via.getLastD s.health[r].state).carries = false)
    (hlatest : s.lanes[r].latest.all (fun x => decide (x.step ≤ 7)) = true) : s.MoveFigures r via :=
  ⟨fun hc => by (rw [hends] at hc; cases hc), fun hnil => absurd hnil hne, hlatest⟩

/-- A series through neither DOWN nor DISABLED leaves the samples and the outstanding records (R53). -/
theorem State.probeRecords_of_unflushed (s : State) (r : RouteIx) (old : RouteState) {via : List RouteState}
    (h : .down ∉ via ∧ .disabled ∉ via) : (s.moveConsequences r old via).probeRecords r = s.probeRecords r := by
  induction via generalizing s old with
  | nil => rfl
  | cons new via ih =>
    simp only [List.mem_cons, not_or] at h
    obtain ⟨⟨hdown, hdown'⟩, hdisabled, hdisabled'⟩ := h
    rw [State.moveConsequences, ih _ _ ⟨hdown', hdisabled'⟩, State.probeRecords_consequences,
      if_neg (not_or.2 ⟨Ne.symm hdown, Ne.symm hdisabled⟩)]

theorem State.applyMoves_ring {moves : List Move} (h : Ordered moves) (s : State) {q : RouteIx}
    (hvia : .down ∉ viaOf moves q ∧ .disabled ∉ viaOf moves q) : (s.applyMoves moves).probes[q].ring = s.probes[q].ring := by
  obtain ⟨u, hu, -, -, hsame, -⟩ := State.applyMoves_route h s q
  have hend : (s.applyMoves moves).probes[q] = (u.moveConsequences q s.health[q].state (viaOf moves q)).probes[q] :=
    congrArg (fun x : Health × Probe × Tx => x.2.1) hsame
  have hstart : u.probes[q] = s.probes[q] := congrArg (fun x : Health × Probe × Tx => x.2.1) hu
  have hkept := congrArg (fun x : (List Sample × List Outstanding) × Option PeerView => x.1.1)
    (u.probeRecords_of_unflushed q s.health[q].state hvia)
  rw [hend, ← hstart]
  exact hkept

/-- A route that the moves of one event take through no state keeps its records, and its transmit record but for the waiting
queue. -/
theorem State.applyMoves_unmoved {moves : List Move} (h : Ordered moves) (s : State) {q : RouteIx}
    (hvia : viaOf moves q = []) : (s.applyMoves moves).routeRecords q = s.routeRecords q := by
  obtain ⟨u, hu, -, -, hsame, -⟩ := State.applyMoves_route h s q
  rw [hvia] at hu hsame
  exact hsame.trans hu

/-- The moves of one event leave the laws true of routes that meet what the laws ask before it. -/
theorem State.figured_applyMoves {moves : List Move} (h : Ordered moves) {s : State}
    (hheld : ∀ r : RouteIx, s.permitted r = false → (viaOf moves r).getLastD s.health[r].state = .disabled)
    (hok : s.cfg.health.ok = true) (hroutes : ∀ r : RouteIx, s.MoveFigures r (viaOf moves r)) :
    (s.applyMoves moves).Figured := by
  obtain ⟨hcfg, hlanes, -, -, hprofile, -⟩ := s.applyMoves_leaves moves
  obtain ⟨hmade, -⟩ := s.applyMoves_changesMade h
  refine ⟨fun r hnot => ?_, by rw [hcfg]; exact hok, fun r => ?_⟩
  · rw [State.permitted_congr hcfg (by rw [hprofile])] at hnot
    rw [(hmade r).1]
    exact hheld r hnot
  · obtain ⟨hcarries, hproving, hlatest⟩ := hroutes r
    obtain ⟨hstate, -, -, hends, -⟩ := hmade r
    rw [State.FiguredRoute, hcfg, hlanes]
    refine ⟨fun hc => ?_, fun hp hgood => ?_, hlatest⟩
    · rw [hstate] at hc
      obtain ⟨hbyte, hring, hunflushed⟩ := hcarries hc
      rw [State.applyMoves_ring h s hunflushed]
      exact ⟨hbyte, hring⟩
    · by_cases hvia : viaOf moves r = []
      · have hhealth : (s.applyMoves moves).health[r] = s.health[r] := congrArg Prod.fst (State.applyMoves_unmoved h s hvia)
        rw [hhealth] at hgood
        rw [State.applyMoves_ring h s (by rw [hvia]; exact ⟨List.not_mem_nil, List.not_mem_nil⟩)]
        rw [hstate, hvia] at hp
        exact hproving hvia hp hgood
      · rw [hstate, List.getLastD_eq_getLast?, List.getLast?_eq_some_getLast hvia, Option.getD_some] at hp
        refine absurd (hends ?_).2.1 hgood
        rw [List.getLast?_eq_some_getLast hvia, hp]

/-! ### Evaluation (R63, R64) -/

/-- What an evaluation asks of a route: a sample in UP and FADING, and in PROVING once it has a good reply; and a latest report in
range. -/
def State.FigurableRoute (s : State) (r : RouteIx) : Prop :=
  (s.health[r].state.carries = true → s.probes[r].ring ≠ []) ∧
  (s.health[r].state = .proving → s.health[r].good ≠ 0 → s.probes[r].ring ≠ []) ∧
  s.lanes[r].latest.all (fun x => decide (x.step ≤ 7)) = true

theorem State.FiguredRoute.figurable {s : State} {r : RouteIx} (h : s.FiguredRoute r) : s.FigurableRoute r := by
  obtain ⟨hcarries, hproving, hlatest⟩ := h
  exact ⟨fun hc => (hcarries hc).2, hproving, hlatest⟩

theorem effectiveStep_le {l : Lane} (h : l.latest.all (fun x => decide (x.step ≤ 7)) = true) : l.effectiveStep ≤ 7 := by
  unfold Lane.effectiveStep
  split
  · omega
  · rename_i rep hrep
    rw [hrep, Option.all_some, decide_eq_true_iff] at h
    split <;> omega

/-- A lane in use that CUT does not hold back has a byte time (R27, R63). -/
theorem byteTime_of_uncut {h : HealthSettings} {ty : LaneType} {l : Lane} (huncut : cutLane h ty l = false) (htype : ty ≠ .unused)
    (hlatest : l.latest.all (fun x => decide (x.step ≤ 7)) = true) : (byteTime ty l).isSome = true := by
  cases ty with
  | unused => exact absurd rfl htype
  | fiber => rfl
  | radio =>
    have hstep : l.effectiveStep ≠ 0 := by
      simp only [cutLane, Bool.or_eq_false_iff, beq_eq_false_iff_ne] at huncut
      exact huncut.1.1.2
    have hle := effectiveStep_le hlatest
    rw [byteTime]
    generalize l.effectiveStep = n at hstep hle
    interval_cases n
    · exact absurd rfl hstep
    all_goals rfl

/-- A route that an evaluation leaves in UP or FADING is not CUT (R64). -/
theorem uncut_of_evalTarget_none {h : HealthSettings} {ty : LaneType} {l : Lane} {rec : Health}
    (hnone : evalTarget h ty l rec = none) (hcarries : rec.state.carries = true) : cutLane h ty l = false := by
  have hcut : cutHolds h ty l rec.error = false := by
    by_contra hcut
    rw [Bool.not_eq_false] at hcut
    rcases (carries_iff _).1 hcarries with hstate | hstate <;> simp [evalTarget, hstate, hcut] at hnone
  exact (Bool.or_eq_false_iff.1 hcut).2

/-- A route that an evaluation takes to UP or FADING is not CUT, and it carried frames before or has proved its windows (R64). -/
theorem uncut_of_evalTarget_some {h : HealthSettings} {ty : LaneType} {l : Lane} {rec : Health} {new : RouteState}
    (hnew : evalTarget h ty l rec = some new) (hcarries : new.carries = true) :
    cutLane h ty l = false ∧ (rec.state.carries = true ∨ (rec.state = .proving ∧ h.proveWindows ≤ rec.good)) := by
  have hdown : new ≠ .down := fun he => by (rw [he] at hcarries; cases hcarries)
  have hproving : new ≠ .proving := fun he => by (rw [he] at hcarries; cases hcarries)
  unfold evalTarget at hnew
  cases hstate : rec.state <;> simp only [hstate] at hnew
  case disabled => cases hnew
  case down =>
    simp only [Option.ite_none_right_eq_some, Option.some.injEq] at hnew
    exact absurd hnew.2.symm hproving
  case proving =>
    split at hnew
    · cases hnew
      exact absurd rfl hdown
    · rename_i hcut
      simp only [Option.ite_none_right_eq_some] at hnew
      exact ⟨Bool.not_eq_true _ ▸ hcut, .inr ⟨rfl, hnew.1⟩⟩
  all_goals
    split at hnew
    · cases hnew
      exact absurd rfl hdown
    · rename_i hcut
      exact ⟨(Bool.or_eq_false_iff.1 (Bool.not_eq_true _ ▸ hcut)).2, .inl rfl⟩

theorem HealthSettings.proveWindows_pos {h : HealthSettings} (hok : h.ok = true) : 8 ≤ h.proveWindows := by
  simp only [HealthSettings.ok, Bool.and_eq_true, decide_eq_true_iff] at hok
  omega

/-- The transition an evaluation takes meets what the laws ask of it. -/
theorem State.FigurableRoute.evaluation {s : State} {r : RouteIx} (h : s.FigurableRoute r) (hok : s.cfg.health.ok = true)
    (hheld : s.permitted r = false → s.health[r].state = .disabled) : s.MoveFigures r (s.evaluation r).toList := by
  obtain ⟨hcarries, hproving, hlatest⟩ := h
  have htype : s.health[r].state ≠ .disabled → s.cfg.lanes[r].type ≠ .unused := fun hnot hunused =>
    hnot (hheld (by rw [State.permitted, hunused]; simp))
  cases hnew : s.evaluation r with
  | none =>
    refine ⟨fun hc => ?_, fun _ => hproving, hlatest⟩
    have hnot : s.health[r].state ≠ .disabled := fun he => by (rw [Option.toList, List.getLastD, he] at hc; cases hc)
    exact ⟨byteTime_of_uncut (uncut_of_evalTarget_none hnew hc) (htype hnot) hlatest, hcarries hc, List.not_mem_nil,
      List.not_mem_nil⟩
  | some new =>
    refine ⟨fun hc => ?_, fun hnil => (by cases hnil), hlatest⟩
    obtain ⟨-, hnew', hnot⟩ := evalTarget_some hnew
    obtain ⟨huncut, hfrom⟩ := uncut_of_evalTarget_some hnew hc
    have hring : s.probes[r].ring ≠ [] := by
      rcases hfrom with hfrom | ⟨hstate, hwindows⟩
      · exact hcarries hfrom
      · have := HealthSettings.proveWindows_pos hok
        exact hproving hstate (by omega)
    refine ⟨byteTime_of_uncut huncut (htype hnot) hlatest, hring, ?_, ?_⟩
    · rw [Option.toList, List.mem_singleton]
      exact fun he => by (rw [Option.toList, List.getLastD, ← he] at hc; cases hc)
    · rw [Option.toList, List.mem_singleton]
      exact hnew'.symm

/-- One route's move, the others having their figures. -/
theorem State.figured_moveRoute {s : State} {r : RouteIx} {via : List RouteState} (hok : s.cfg.health.ok = true)
    (hothers : ∀ q : RouteIx, q ≠ r → (s.permitted q = false → s.health[q].state = .disabled) ∧ s.FiguredRoute q)
    (hheld : s.permitted r = false → via.getLastD s.health[r].state = .disabled) (hroute : s.MoveFigures r via) :
    (s.moveRoute r via).Figured := by
  refine State.figured_applyMoves (ordered_one r via) (fun q => ?_) hok fun q => ?_ <;> rw [viaOf_one] <;>
    by_cases hq : r = q
  · subst hq
    rw [if_pos rfl]
    exact hheld
  · rw [if_neg hq]
    exact (hothers q (Ne.symm hq)).1
  · subst hq
    rw [if_pos rfl]
    exact hroute
  · rw [if_neg hq]
    exact (hothers q (Ne.symm hq)).2.moveFigures_nil

/-- An evaluation gives its route its figures (R63, R64). -/
theorem State.figured_evaluate {s : State} {r : RouteIx} (hheld : s.HeldDisabled) (hok : s.cfg.health.ok = true)
    (hothers : ∀ q : RouteIx, q ≠ r → s.FiguredRoute q) (hroute : s.FigurableRoute r) : (s.evaluate r).Figured := by
  have hmove := hroute.evaluation hok (hheld r)
  obtain ⟨hnone, e⟩ | ⟨new, hnew, e, -, -, hnot⟩ := s.evaluate_cases r
  · rw [hnone] at hmove
    obtain ⟨hcarries, hproving, hlatest⟩ := hmove
    rw [e]
    refine ⟨hheld, hok, fun q => ?_⟩
    by_cases hq : q = r
    · subst hq
      exact ⟨fun hc => ⟨(hcarries hc).1, (hcarries hc).2.1⟩, hproving rfl, hlatest⟩
    · exact hothers q hq
  · rw [hnew] at hmove
    rw [e]
    exact State.figured_moveRoute hok (fun q hq => ⟨hheld q, hothers q hq⟩) (fun hp => absurd (hheld r hp) hnot) hmove

end Sys2Proof.Machine
end

