-- ==== Sys2Proof/Proofs/FiguresOfRoutes.lean ====
section
/-! SUPPORT. Resolutions, schedules, offers and arrivals leave every route its figures (R47, R53, R61, R70, R100). -/

namespace Sys2Proof.Machine

/-! ### Steps that keep every route its figures -/

/-- `t` keeps of `s` that every route has its figures. -/
def State.KeepsFigures (s t : State) : Prop := s.Figured → t.Figured

theorem State.KeepsFigures.refl (s : State) : s.KeepsFigures s := id

theorem State.KeepsFigures.trans {s t u : State} (h : s.KeepsFigures t) (h' : t.KeepsFigures u) : s.KeepsFigures u := h' ∘ h

theorem State.KeepsFigures.of_view {s t : State} (h : t.figures = s.figures) : s.KeepsFigures t := State.figured_congr h

/-- What changes neither the settings, the load state, the lanes, the routes' health nor their probe state. -/
theorem State.KeepsFigures.of_frame {s t : State} (hcfg : t.cfg = s.cfg) (hload : t.profile.load = s.profile.load)
    (hlanes : t.lanes = s.lanes) (hhealth : t.health = s.health) (hprobes : t.probes = s.probes) : s.KeepsFigures t :=
  .of_view (State.figures_of_frame hcfg hload hlanes hhealth hprobes)

theorem State.keepsFigures_withPorts (s : State) (v : Vector Port 6) : s.KeepsFigures (s.withPorts v) :=
  .of_frame rfl rfl rfl rfl rfl

theorem State.keepsFigures_modLane (s : State) (r : RouteIx) {f : Lane → Lane} (h : ∀ x, (f x).latest = x.latest) :
    s.KeepsFigures (s.modLane r f) := .of_view (s.figures_modLane r h)

theorem State.keepsFigures_modHealth (s : State) (r : RouteIx) {f : Health → Health}
    (h : ∀ x, (f x).state = x.state ∧ (f x).good = x.good) : s.KeepsFigures (s.modHealth r f) :=
  .of_view (s.figures_modHealth r h)

theorem State.keepsFigures_modProbe (s : State) (r : RouteIx) {f : Probe → Probe} (h : ∀ x, (f x).ring = x.ring) :
    s.KeepsFigures (s.modProbe r f) := .of_view (s.figures_modProbe r h)

theorem State.keepsFigures_modScore (s : State) (r : RouteIx) (f : Score → Score) : s.KeepsFigures (s.modScore r f) :=
  .of_frame rfl rfl rfl rfl rfl

theorem State.keepsFigures_dropRx (s : State) (r : RouteIx) : s.KeepsFigures (s.dropRx r) := .of_view (s.figures_dropRx r)

/-- An effect taken for each route that keeps the figures at each keeps them. -/
theorem State.keepsFigures_forRoutes (s : State) {f : RouteIx → State → State} (h : ∀ r s, State.KeepsFigures s (f r s)) :
    s.KeepsFigures (s.forRoutes f) :=
  State.forRoutes_induct (motive := s.KeepsFigures) s f (.refl s) fun r t ht => ht.trans (h r t)

theorem State.keepsFigures_evaluate (s : State) (r : RouteIx) : s.KeepsFigures (s.evaluate r) := by
  rintro ⟨hheld, hok, hroutes⟩
  exact State.figured_evaluate hheld hok (fun q _ => hroutes q) (hroutes r).figurable

/-! ### The routes: resolutions, schedules, changes of state -/

/-- A good reply of a proving route leaves it a sample (R53, R70). -/
theorem State.keepsFigures_resolve {s : State} {r : RouteIx} {res : Resolution}
    (hring : ∀ errors, res = .good errors → s.probes[r].ring ≠ []) : s.KeepsFigures (s.resolve r res) := by
  rintro ⟨hheld, hok, hroutes⟩
  unfold State.resolve
  refine State.figured_evaluate (fun q hq => ?_) hok (fun q hq => ?_) ?_
  · rw [State.modHealth_get]
    split
    · rename_i e
      rw [← e]
      exact hheld q hq
    · exact hheld q hq
  · rw [State.FiguredRoute, State.modHealth_get_other _ _ _ _ hq]
    exact hroutes q
  · obtain ⟨hcarries, -, hlatest⟩ := (hroutes r).figurable
    rw [State.FigurableRoute, State.modHealth_get_self]
    refine ⟨hcarries, fun hproving hgood => ?_, hlatest⟩
    dsimp only at hproving hgood
    rw [if_pos hproving] at hgood
    cases res with
    | good errors => exact hring errors rfl
    | badSample errors => exact absurd rfl hgood
    | lost => exact absurd rfl hgood

theorem State.keepsFigures_crcFailure (s : State) (r : RouteIx) : s.KeepsFigures (s.crcFailure r) :=
  (s.keepsFigures_modHealth r (by simp)).trans (State.keepsFigures_evaluate _ r)

theorem State.keepsFigures_loseProbe (s : State) (r : RouteIx) (o : Outstanding) : s.KeepsFigures (s.loseProbe r o) :=
  (s.keepsFigures_modProbe r (by simp)).trans (State.keepsFigures_resolve fun _ h => by cases h)

theorem State.keepsFigures_loseDue (s : State) (r : RouteIx) (fuel : Nat) : s.KeepsFigures (s.loseDue r fuel) := by
  induction fuel generalizing s with
  | zero => exact .refl s
  | succ fuel ih =>
    unfold State.loseDue
    split
    · exact .refl s
    · exact (s.keepsFigures_loseProbe r _).trans (ih _)

theorem State.keepsFigures_judgeSilence (s : State) (r : RouteIx) : s.KeepsFigures (s.judgeSilence r) := by
  unfold State.judgeSilence
  split
  · exact (s.keepsFigures_modLane r (by simp)).trans (State.keepsFigures_evaluate _ r)
  · exact .refl s

theorem State.keepsFigures_requestProbe (s : State) (r : RouteIx) : s.KeepsFigures (s.requestProbe r) := by
  unfold State.requestProbe
  split
  · exact s.keepsFigures_modProbe r (by simp)
  · exact .of_frame rfl rfl rfl rfl rfl

theorem State.keepsFigures_requestTest (s : State) (r : RouteIx) : s.KeepsFigures (s.requestTest r) := by
  unfold State.requestTest
  split
  · exact s.keepsFigures_modHealth r (by simp)
  · exact .of_frame rfl rfl rfl rfl rfl

/-- TEST_ROUTE comes on a route not DISABLED alone (R71). -/
theorem State.keepsFigures_testRoute {s : State} {r : RouteIx} (hnot : s.health[r].state ≠ .disabled) :
    s.KeepsFigures (s.testRoute r) := by
  rintro ⟨hheld, hok, hroutes⟩
  unfold State.testRoute
  split
  · rename_i hproving
    refine ⟨fun q hq => ?_, hok, fun q => ?_⟩ <;> by_cases hr : q = r
    · subst hr
      exact absurd (hheld q hq) hnot
    · rw [State.modHealth_get_other _ _ _ _ hr]
      exact hheld q hq
    · subst hr
      obtain ⟨-, -, hlatest⟩ := hroutes q
      rw [State.FiguredRoute, State.modHealth_get_self]
      dsimp only
      rw [hproving]
      exact ⟨fun hc => (by cases hc), fun _ hgood => absurd rfl hgood, hlatest⟩
    · rw [State.FiguredRoute, State.modHealth_get_other _ _ _ _ hr]
      exact hroutes q
  · exact State.figured_moveRoute hok (fun q _ => ⟨hheld q, hroutes q⟩) (fun hp => absurd (hheld r hp) hnot)
      (State.moveFigures_of_ends (by simp) rfl (hroutes r).2.2)

/-- A route passes to DISABLED: what holds it then need not have held it before. -/
theorem State.figured_disableRoute {s : State} {r : RouteIx} (hok : s.cfg.health.ok = true)
    (hothers : ∀ q : RouteIx, q ≠ r → (s.permitted q = false → s.health[q].state = .disabled) ∧ s.FiguredRoute q)
    (hlatest : s.lanes[r].latest.all (fun x => decide (x.step ≤ 7)) = true) : (s.disableRoute r).Figured := by
  unfold State.disableRoute
  split
  · rename_i hdisabled
    refine ⟨fun q hq => ?_, hok, fun q => ?_⟩ <;> by_cases hr : q = r
    · rw [hr]
      exact hdisabled
    · exact (hothers q hr).1 hq
    · subst hr
      rw [State.FiguredRoute, hdisabled]
      exact ⟨fun hc => (by cases hc), fun hc => (by cases hc), hlatest⟩
    · exact (hothers q hr).2
  · exact State.figured_moveRoute hok hothers (fun _ => rfl) (State.moveFigures_of_ends (by simp) rfl hlatest)

theorem State.keepsFigures_disableRoute (s : State) (r : RouteIx) : s.KeepsFigures (s.disableRoute r) := by
  rintro ⟨hheld, hok, hroutes⟩
  exact State.figured_disableRoute hok (fun q _ => ⟨hheld q, hroutes q⟩) (hroutes r).2.2

theorem State.state_disableRoute (s : State) (r : RouteIx) : (s.disableRoute r).health[r].state = .disabled := by
  unfold State.disableRoute
  split
  · assumption
  · exact s.state_moveRoute r .disabled

theorem State.keepsFigures_returnRoute (s : State) (r : RouteIx) : s.KeepsFigures (s.returnRoute r) := by
  rintro ⟨hheld, hok, hroutes⟩
  unfold State.returnRoute
  split
  · rename_i hreturns
    rw [Bool.and_eq_true] at hreturns
    refine State.figured_moveRoute hok (fun q _ => ⟨hheld q, hroutes q⟩) (fun hp => ?_)
      (State.moveFigures_of_ends (by simp) rfl (hroutes r).2.2)
    rw [hp] at hreturns
    cases hreturns.1
  · exact ⟨hheld, hok, hroutes⟩

/-! ### Offers and arrivals -/

theorem State.keepsFigures_sendEcho (s : State) (r : RouteIx) (e : EchoEntry) (rest : List EchoEntry) :
    s.KeepsFigures (s.sendEcho r e rest) := by
  unfold State.sendEcho
  exact (KeepsFigures.of_frame (by simp) (by simp) (by simp) (by simp) (by simp)).trans
    (State.keepsFigures_modProbe _ r (by simp))

theorem State.keepsFigures_sendProbe (s : State) (r : RouteIx) : s.KeepsFigures (s.sendProbe r) := by
  unfold State.sendProbe
  exact (KeepsFigures.of_frame (by simp) (by simp) (by simp) (by simp) (by simp)).trans
    (State.keepsFigures_modProbe _ r (by simp))

theorem State.keepsFigures_sendTest (s : State) (r : RouteIx) : s.KeepsFigures (s.sendTest r) := by
  unfold State.sendTest
  exact (KeepsFigures.of_frame (by simp) (by simp) (by simp) (by simp) (by simp)).trans
    (State.keepsFigures_modHealth _ r (by simp))

theorem State.keepsFigures_offerTest (s : State) (r : RouteIx) : s.KeepsFigures (s.offerTest r) := by
  unfold State.offerTest
  split
  · exact s.keepsFigures_sendTest r
  · exact .of_frame (by simp) (by simp) (by simp) (by simp) (by simp)

theorem State.keepsFigures_offer (s : State) (r : RouteIx) : s.KeepsFigures (s.offer r) := by
  have hskip : s.KeepsFigures (s.skipProbe r) :=
    (KeepsFigures.of_frame (by simp) (by simp) (by simp) (by simp) (by simp)).trans
      (State.keepsFigures_modProbe _ r (by simp))
  unfold State.offer State.offerProbe
  split
  · split
    · exact s.keepsFigures_sendEcho r _ _
    · split
      · split
        · exact s.keepsFigures_sendProbe r
        · exact hskip.trans (State.keepsFigures_offerTest _ r)
      · exact s.keepsFigures_offerTest r
  · exact .refl s

theorem State.keepsFigures_answerProbe (s : State) (r : RouteIx) (n : Byte) (t1 t2 : Stamp) :
    s.KeepsFigures (s.answerProbe r n t1 t2) := by
  unfold State.answerProbe
  split
  · refine KeepsFigures.trans ?_ (State.keepsFigures_modProbe _ r (by simp))
    exact .of_frame rfl rfl rfl rfl rfl
  · exact s.keepsFigures_modProbe r (by simp)

theorem State.keepsFigures_checkTest (s : State) (r : RouteIx) (seed : BitVec 16) (bs : List Byte) :
    s.KeepsFigures (s.checkTest r seed bs) := by
  unfold State.checkTest
  dsimp only
  split
  · exact s.keepsFigures_modHealth r (by simp)
  · exact ((s.keepsFigures_modHealth r (by simp)).trans (State.keepsFigures_modHealth _ r (by simp))).trans
      (State.keepsFigures_modProbe _ r (by simp))

/-- What comes between a GOOD sample and its resolution is none that the laws look at. -/
theorem State.figures_gateOffset (s : State) (r : RouteIx) (x : Sample) : (s.gateOffset r x).figures = s.figures := by
  unfold State.gateOffset
  split
  · exact (State.figures_of_frame (by simp) (by simp) (by simp) (by simp) (by simp)).trans
      (s.figures_modProbe r (f := fun p => { p with counts := { p.counts with offsetsHanded := p.counts.offsetsHanded + 1 } })
        (by simp))
  · rfl

theorem State.figures_viewPeer (s : State) (r : RouteIx) (state errors : Byte) :
    (s.viewPeer r state errors).figures = s.figures := s.figures_modProbe r (by simp)

theorem enterSample_ne_nil (ring : List Sample) (x : Sample) : enterSample ring x ≠ [] := by simp [enterSample]

/-- A sample more leaves a route its figures. -/
theorem State.keepsFigures_modProbe_of_sample (s : State) (r : RouteIx) {f : Probe → Probe} (h : ∀ x, (f x).ring ≠ []) :
    s.KeepsFigures (s.modProbe r f) := by
  rintro ⟨hheld, hok, hroutes⟩
  refine ⟨hheld, hok, fun q => ?_⟩
  by_cases hr : q = r
  · subst hr
    obtain ⟨hcarries, -, hlatest⟩ := hroutes q
    rw [State.FiguredRoute, State.modProbe_get_self]
    exact ⟨fun hc => ⟨(hcarries hc).1, h _⟩, fun _ _ => h _, hlatest⟩
  · rw [State.FiguredRoute, State.modProbe_get_other _ _ _ _ hr]
    exact hroutes q

/-- A GOOD sample is in the ring before route health is given the resolution (R46, R47). -/
theorem State.keepsFigures_goodSample (s : State) (r : RouteIx) (o : Outstanding) (x : Sample) (state errors : Byte) :
    s.KeepsFigures (s.goodSample r o x state errors) := by
  unfold State.goodSample
  refine KeepsFigures.trans (s.keepsFigures_modProbe_of_sample r (f := fun p =>
    { p with
      outstanding := p.outstanding.erase o
      ring := enterSample p.ring x
      counts := { p.counts with good := p.counts.good + 1 } }) fun p => enterSample_ne_nil p.ring x) ?_
  dsimp only
  generalize hu : s.modProbe r (fun p =>
    { p with
      outstanding := p.outstanding.erase o
      ring := enterSample p.ring x
      counts := { p.counts with good := p.counts.good + 1 } }) = u
  have hring : u.probes[r].ring ≠ [] := by
    rw [← hu, State.modProbe_get_self]
    exact enterSample_ne_nil _ x
  have hview : ((u.rechoose.gateOffset r x).viewPeer r state errors).figures = u.figures :=
    (State.figures_viewPeer ..).trans ((State.figures_gateOffset ..).trans (State.figures_of_frame rfl rfl rfl rfl rfl))
  refine (KeepsFigures.of_view hview).trans (State.keepsFigures_resolve fun _ _ => ?_)
  have hsame := congrArg (fun v => (v.2 r).2.2.2) hview
  simp only [State.figures] at hsame
  rw [hsame]
  exact hring

theorem State.keepsFigures_resolveEcho (s : State) (r : RouteIx) (n : Byte) (t1 t2 t3 t4 : Stamp) (errors state : Byte) :
    s.KeepsFigures (s.resolveEcho r n t1 t2 t3 t4 errors state) := by
  unfold State.resolveEcho
  split
  · exact s.keepsFigures_modProbe r (by simp)
  · split
    · unfold State.badSample
      exact ((s.keepsFigures_modProbe r (by simp)).trans (.of_view (State.figures_viewPeer _ r state errors))).trans
        (State.keepsFigures_resolve fun _ h => by cases h)
    · exact s.keepsFigures_goodSample r _ _ _ _

theorem State.keepsFigures_dispatch (s : State) (r : RouteIx) (rx : Rx) (kind : TrunkKind) (bs : List Byte) :
    s.KeepsFigures (s.dispatch r rx kind bs) := by
  have hrx (f : Score → Score) : s.KeepsFigures ((s.dropRx r).modScore r f) :=
    (s.keepsFigures_dropRx r).trans (State.keepsFigures_modScore _ r f)
  cases kind with
  | probe => exact (hrx _).trans (State.keepsFigures_answerProbe _ r _ _ _)
  | echo => exact (hrx _).trans (State.keepsFigures_resolveEcho _ r _ _ _ _ _ _ _)
  | test => exact (hrx _).trans (State.keepsFigures_checkTest _ r _ _)
  | cargo =>
    unfold State.dispatch
    dsimp only
    split
    · exact (s.keepsFigures_modLane r (f := fun l => { l with rx := none }) (by simp)).trans
        (.of_frame (by simp) (by simp) (by simp) (by simp) (by simp))
    · exact s.keepsFigures_dropRx r

theorem State.keepsFigures_frameJudged (s : State) (r : RouteIx) (rx : Rx) (bs : List Byte) :
    s.KeepsFigures (s.frameJudged r rx bs) := by
  unfold State.frameJudged
  split
  · exact s.keepsFigures_dropRx r
  · split
    · exact (s.keepsFigures_dropRx r).trans (State.keepsFigures_crcFailure _ r)
    · split
      · exact (s.keepsFigures_dropRx r).trans (State.keepsFigures_modScore _ r _)
      · split
        · exact (s.keepsFigures_dropRx r).trans (State.keepsFigures_modScore _ r _)
        · exact s.keepsFigures_dispatch r rx _ bs

theorem State.keepsFigures_lengthLimit (s : State) (r : RouteIx) (rx : Rx) : s.KeepsFigures (s.lengthLimit r rx) := by
  unfold State.lengthLimit
  dsimp only
  have h : s.KeepsFigures
      ((s.dropRx r).modLane r fun l => { l with counts := { l.counts with oversize := l.counts.oversize + 1 } }) :=
    (s.keepsFigures_dropRx r).trans (State.keepsFigures_modLane _ r (by simp))
  split
  · exact h
  · exact h.trans (State.keepsFigures_crcFailure _ r)

theorem State.keepsFigures_frameStart (s : State) (r : RouteIx) (first : Byte) : s.KeepsFigures (s.frameStart r first) := by
  have hbegin (u : State) (store : RxStore) : u.KeepsFigures (u.beginRx r first store) := u.keepsFigures_modLane r (by simp)
  unfold State.frameStart
  split
  · exact hbegin s _
  · split
    · split
      · exact KeepsFigures.trans (.of_frame rfl rfl rfl rfl rfl) (hbegin _ _)
      · exact KeepsFigures.trans (.of_frame rfl rfl rfl rfl rfl) (hbegin _ _)
    · exact hbegin s _

end Sys2Proof.Machine
end

