-- ==== Sys2Proof/Proofs/FiguresOfSettings.lean ====
section
/-! SUPPORT. The lane unit and the settings of lanes, routes, peers, thresholds and probes leave every route its figures (R25 to R34, R57, R60, R72 to R77). -/

namespace Sys2Proof.Machine

/-! ### Lanes (R25 to R34) -/

/-- A state that an evaluation of route `r` gives its figures. -/
def State.FigurableAt (s : State) (r : RouteIx) : Prop :=
  s.HeldDisabled ∧ s.cfg.health.ok = true ∧ (∀ q : RouteIx, q ≠ r → s.FiguredRoute q) ∧ s.FigurableRoute r

theorem State.figurableAt_congr {s t : State} {r : RouteIx} (h : t.figures = s.figures) (hs : s.FigurableAt r) :
    t.FigurableAt r := by
  simp only [State.figures, Prod.mk.injEq] at h
  obtain ⟨hhealth, hroutes⟩ := h
  obtain ⟨hheld, hok, hfigured, hroute⟩ := hs
  have hview (q : RouteIx) := congrFun hroutes q
  simp only [Prod.mk.injEq] at hview
  refine ⟨fun q => ?_, by rw [hhealth]; exact hok, fun q hq => ?_, ?_⟩
  · obtain ⟨⟨hpermitted, -⟩, -, ⟨hstate, -⟩, -⟩ := hview q
    rw [hpermitted, hstate]
    exact hheld q
  · obtain ⟨⟨-, htype⟩, hlatest, ⟨hstate, hgood⟩, hring⟩ := hview q
    rw [State.FiguredRoute, hstate, hgood, hring, htype, hlatest, byteTime_congr _ hlatest]
    exact hfigured q hq
  · obtain ⟨-, hlatest, ⟨hstate, hgood⟩, hring⟩ := hview r
    rw [State.FigurableRoute, hstate, hgood, hring, hlatest]
    exact hroute

theorem State.keepsFigures_losAssert (s : State) (r : RouteIx) : s.KeepsFigures (s.losAssert r) := by
  unfold State.losAssert State.losEffects
  dsimp only
  split
  · exact .refl s
  · have hlos : s.KeepsFigures
        (s.modLane r fun l => { l with los := true, counts := { l.counts with los := l.counts.los + 1 } }) :=
      s.keepsFigures_modLane r (by simp)
    split
    · exact hlos
    · refine hlos.trans (KeepsFigures.trans ?_ (State.keepsFigures_evaluate _ r))
      refine KeepsFigures.trans ?_ (State.keepsFigures_modLane _ r (by simp))
      exact (KeepsFigures.of_view (State.figures_abandonRx _ r)).trans
        (.of_frame (by simp) (by simp) (by simp) (by simp) (by simp))

theorem State.keepsFigures_losRelease (s : State) (r : RouteIx) : s.KeepsFigures (s.losRelease r) := by
  unfold State.losRelease
  dsimp only
  split
  · have hlos : s.KeepsFigures (s.modLane r fun l => { l with los := false }) := s.keepsFigures_modLane r (by simp)
    split
    · exact hlos
    · exact hlos.trans (State.keepsFigures_evaluate _ r)
  · exact .refl s

theorem State.figures_pushReport (s : State) (r : RouteIx) (rsl : Int) : (s.pushReport r rsl).figures = s.figures := by
  unfold State.pushReport
  split
  · rfl
  · exact (State.figures_of_frame (by simp) (by simp) (by simp) (by simp) (by simp)).trans
      (s.figures_modLane r (f := fun l => { l with
        ring := pushRsl s.lanes[r].ring rsl, trend := trendOf s.cfg.health.slope (pushRsl s.lanes[r].ring rsl) }) (by simp))

/-- A clamped report has a rate step of at most 7 (R28); the evaluation that follows looks at it. -/
theorem State.keepsFigures_laneReport (s : State) (r : RouteIx) (bs : List Byte) : s.KeepsFigures (s.laneReport r bs) := by
  unfold State.laneReport
  split
  · exact s.keepsFigures_modLane r (by simp)
  · split
    · exact s.keepsFigures_modLane r (by simp)
    · rintro ⟨hheld, hok, hroutes⟩
      have htaken : (s.modLane r fun l => l.takeReport s.time.et bs).FigurableAt r := by
        refine ⟨hheld, hok, fun q hq => ?_, ?_⟩
        · rw [State.FiguredRoute, State.modLane_get_other _ _ _ _ hq]
          exact hroutes q
        · obtain ⟨hcarries, hproving, -⟩ := hroutes r
          rw [State.FigurableRoute, State.modLane_get_self]
          exact ⟨fun hc => (hcarries hc).2, hproving, decide_eq_true (Nat.min_le_left 7 _)⟩
      obtain ⟨hheld', hok', hothers, hroute⟩ := State.figurableAt_congr (State.figures_pushReport _ r _) htaken
      exact State.figured_evaluate hheld' hok' hothers hroute

theorem Settings.withLane_lanes (c : Settings) (r q : RouteIx) (x : LaneSettings) :
    (c.withLane r x).lanes[q] = if q = r then x else c.lanes[q] := by
  simp [Settings.withLane, Vector.getElem_set, Fin.ext_iff, eq_comm]

theorem Settings.withRoute_routes (c : Settings) (r q : RouteIx) (x : RouteSettings) :
    (c.withRoute r x).routes[q] = if q = r then x else c.routes[q] := by
  simp [Settings.withRoute, Vector.getElem_set, Fin.ext_iff, eq_comm]

/-- The lane settings of a route bear on no other route. -/
theorem State.figuredRoute_withLane {s : State} {r q : RouteIx} (x : LaneSettings) (hq : q ≠ r) :
    (s.setCfg (s.cfg.withLane r x)).permitted q = s.permitted q ∧
    ((s.setCfg (s.cfg.withLane r x)).FiguredRoute q ↔ s.FiguredRoute q) := by
  have hlane : (s.setCfg (s.cfg.withLane r x)).cfg.lanes[q] = s.cfg.lanes[q] :=
    (s.cfg.withLane_lanes r q x).trans (if_neg hq)
  refine ⟨?_, ?_⟩
  · simp only [State.permitted, hlane]
    rfl
  · rw [State.FiguredRoute, State.FiguredRoute, hlane]
    rfl

/-- A route that is DISABLED needs no figures but a latest report in range. -/
theorem State.figuredRoute_of_disabled {s : State} {r : RouteIx} (h : s.health[r].state = .disabled)
    (hlatest : s.lanes[r].latest.all (fun x => decide (x.step ≤ 7)) = true) : s.FiguredRoute r := by
  rw [State.FiguredRoute, h]
  exact ⟨fun hc => (by cases hc), fun hc => (by cases hc), hlatest⟩

theorem State.keepsFigures_applyLane (s : State) (r : RouteIx) (x : LaneSettings) : s.KeepsFigures (s.applyLane r x) := by
  unfold State.applyLane
  dsimp only
  split
  · rename_i hsame
    refine KeepsFigures.trans (.of_view ?_) (State.keepsFigures_judgeSilence _ r)
    have htype (q : RouteIx) : (s.setCfg (s.cfg.withLane r x)).cfg.lanes[q].type = s.cfg.lanes[q].type := by
      rw [State.setCfg_cfg, Settings.withLane_lanes]
      split
      · rename_i e
        rw [hsame, e]
      · rfl
    simp only [State.figures, State.permitted, htype]
    rfl
  · rintro ⟨hheld, hok, hroutes⟩
    have hdisabled : ((s.setCfg (s.cfg.withLane r x)).disableRoute r).Figured := by
      refine State.figured_disableRoute hok (fun q hq => ?_) (hroutes r).2.2
      obtain ⟨hpermitted, hfigured⟩ := s.figuredRoute_withLane x hq
      rw [hpermitted]
      exact ⟨hheld q, hfigured.2 (hroutes q)⟩
    refine State.keepsFigures_returnRoute _ r ?_
    have hstate := (s.setCfg (s.cfg.withLane r x)).state_disableRoute r
    generalize (s.setCfg (s.cfg.withLane r x)).disableRoute r = u at hdisabled hstate
    have hended : ((u.abandonRx r).abandonCurrent r).Figured :=
      ((KeepsFigures.of_view (u.figures_abandonRx r)).trans
        (.of_frame (by simp) (by simp) (by simp) (by simp) (by simp))) hdisabled
    have hstate' : ((u.abandonRx r).abandonCurrent r).health[r].state = .disabled := by simpa using hstate
    generalize (u.abandonRx r).abandonCurrent r = v at hended hstate'
    obtain ⟨hheld', hok', hroutes'⟩ := hended
    refine ⟨hheld', hok', fun q => ?_⟩
    by_cases hq : q = r
    · subst hq
      refine State.figuredRoute_of_disabled hstate' ?_
      rw [State.modLane_get_self]
      rfl
    · rw [State.FiguredRoute, State.modLane_get_other _ _ _ _ hq]
      exact hroutes' q

/-! ### Settings of routes, peers, thresholds and probes -/

/-- The settings of a route bear on whether it is permitted, and on nothing of another route. -/
theorem State.permitted_withRoute {s : State} {r q : RouteIx} (x : RouteSettings) (hq : q ≠ r) :
    (s.setCfg (s.cfg.withRoute r x)).permitted q = s.permitted q := by
  have hroute : (s.setCfg (s.cfg.withRoute r x)).cfg.routes[q] = s.cfg.routes[q] :=
    (s.cfg.withRoute_routes r q x).trans (if_neg hq)
  simp only [State.permitted, hroute]
  rfl

theorem State.permitted_withRoute_self (s : State) (r : RouteIx) (x : RouteSettings) :
    (s.setCfg (s.cfg.withRoute r x)).permitted r =
      (x.enable && s.cfg.peers[x.peer].enabled && s.cfg.lanes[r].type != .unused && s.profile.load == .running) := by
  have hroute : (s.setCfg (s.cfg.withRoute r x)).cfg.routes[r] = x := (s.cfg.withRoute_routes r r x).trans (if_pos rfl)
  simp only [State.permitted, hroute]
  rfl

theorem State.figured_withRoute {s : State} {r : RouteIx} {x : RouteSettings} (h : s.Figured)
    (hheld : (s.setCfg (s.cfg.withRoute r x)).permitted r = false → s.health[r].state = .disabled) :
    (s.setCfg (s.cfg.withRoute r x)).Figured := by
  obtain ⟨hheld', hok, hroutes⟩ := h
  refine ⟨fun q hp => ?_, hok, hroutes⟩
  by_cases hq : q = r
  · subst hq
    exact hheld hp
  · rw [State.permitted_withRoute x hq] at hp
    exact hheld' q hp

theorem State.keepsFigures_changePeer (s : State) (r : RouteIx) (peer : PeerIx) : s.KeepsFigures (s.changePeer r peer) := by
  unfold State.changePeer
  split
  · exact .refl s
  · intro h
    have hdisabled := s.keepsFigures_disableRoute r h
    have hchanged := State.figured_withRoute (x := { (s.disableRoute r).cfg.routes[r] with peer := peer }) hdisabled
      fun _ => s.state_disableRoute r
    exact KeepsFigures.of_frame rfl rfl rfl rfl rfl hchanged

theorem State.keepsFigures_applyRoute (s : State) (r : RouteIx) (x : RouteSettings) : s.KeepsFigures (s.applyRoute r x) := by
  unfold State.applyRoute
  dsimp only
  intro h
  have hasym : (s.setCfg (s.cfg.withRoute r { s.cfg.routes[r] with a := x.a })).Figured := by
    refine State.figured_withRoute h fun hp => h.1 r ?_
    rw [State.permitted_withRoute_self] at hp
    exact hp
  have hpeer := State.keepsFigures_changePeer _ r x.peer hasym
  generalize (s.setCfg (s.cfg.withRoute r { s.cfg.routes[r] with a := x.a })).changePeer r x.peer = u at hpeer
  split
  · rename_i henable
    refine State.keepsFigures_returnRoute _ r (State.figured_withRoute hpeer fun hp => hpeer.1 r ?_)
    rw [State.permitted_withRoute_self, henable] at hp
    rw [State.permitted]
    cases u.cfg.routes[r].enable with
    | false => rfl
    | true => exact hp
  · obtain ⟨hheld, hok, hroutes⟩ := hpeer
    refine State.figured_disableRoute hok (fun q hq => ?_) (hroutes r).2.2
    rw [State.permitted_withRoute _ hq]
    exact ⟨hheld q, hroutes q⟩

theorem State.keepsFigures_applyProbe (s : State) (p : ProbeSettings) : s.KeepsFigures (s.applyProbe p) := by
  unfold State.applyProbe
  have hrestart (tests : Bool) (r : RouteIx) (t : State) : t.KeepsFigures (t.restartSchedules tests r) := by
    unfold State.restartSchedules
    exact (t.keepsFigures_modProbe r (by simp)).trans (State.keepsFigures_modHealth _ r (by simp))
  refine KeepsFigures.trans (KeepsFigures.trans ?_ (State.keepsFigures_forRoutes _ fun r t => hrestart _ r t))
    (State.keepsFigures_forRoutes _ fun r t => t.keepsFigures_loseDue r _)
  exact .of_view rfl

/-- The moves of one event name a route with its own series, or leave it out. -/
theorem viaOf_cases (moves : List Move) (r : RouteIx) :
    (∃ m ∈ moves, m.route = r ∧ viaOf moves r = m.via) ∨ (r ∉ moves.map Move.route ∧ viaOf moves r = []) := by
  induction moves with
  | nil => exact .inr ⟨List.not_mem_nil, rfl⟩
  | cons m moves ih =>
    rw [viaOf_cons]
    by_cases hm : m.route = r
    · exact .inl ⟨m, List.mem_cons_self, hm, if_pos hm⟩
    · rw [if_neg hm]
      refine ih.imp (fun ⟨m', hmem, hroute, hvia⟩ => ⟨m', List.mem_cons_of_mem m hmem, hroute, hvia⟩) fun ⟨hnot, hvia⟩ =>
        ⟨?_, hvia⟩
      rw [List.map_cons, List.mem_cons, not_or]
      exact ⟨Ne.symm hm, hnot⟩

theorem State.peerMoves_ordered (s : State) (p : PeerIx) (old new : PeerSettings) : Ordered (s.peerMoves p old new) :=
  ordered_filter _ fun r => peerVia old new s.health[r].state (s.cfg.routes[r].enable && s.cfg.lanes[r].type != .unused)

/-- SET_PEER moves the routes of its peer, as the table of R75 has them. -/
theorem State.viaOf_peerMoves (s : State) (p : PeerIx) (old new : PeerSettings) (r : RouteIx) :
    viaOf (s.peerMoves p old new) r =
      if s.cfg.routes[r].peer = p then
        peerVia old new s.health[r].state (s.cfg.routes[r].enable && s.cfg.lanes[r].type != .unused)
      else [] := by
  rcases viaOf_cases (s.peerMoves p old new) r with ⟨m, hm, hroute, hvia⟩ | ⟨hnot, hvia⟩ <;> rw [hvia]
  · obtain ⟨q, hq, rfl⟩ := List.mem_map.1 hm
    obtain rfl : q = r := hroute
    rw [if_pos (of_decide_eq_true (List.mem_filter.1 hq).2)]
  · rw [if_neg fun hpeer => hnot ?_]
    rw [State.peerMoves, List.map_map]
    exact List.mem_map.2 ⟨r, List.mem_filter.2 ⟨List.mem_finRange r, decide_eq_true hpeer⟩, rfl⟩

theorem Settings.withPeer_peers (c : Settings) (p q : PeerIx) (x : PeerSettings) :
    (c.withPeer p x).peers[q] = if q = p then x else c.peers[q] := by
  simp [Settings.withPeer, Vector.getElem_set, Fin.ext_iff, eq_comm]

/-- The states of the table of R75: the last is DISABLED where the new settings hold the route; and a route it moves ends out of UP
and FADING. -/
theorem peerVia_ends {old new : PeerSettings} {state : RouteState} {canProve : Bool}
    (hheld : (canProve && old.enabled) = false → state = .disabled) :
    ((canProve && new.enabled) = false → (peerVia old new state canProve).getLastD state = .disabled) ∧
    (peerVia old new state canProve ≠ [] → ((peerVia old new state canProve).getLastD state).carries = false) := by
  unfold peerVia
  cases hold : old.enabled <;> cases hnew : new.enabled <;> dsimp only
  case false.false =>
    exact ⟨fun _ => hheld (by rw [hold, Bool.and_false]), fun hne => absurd rfl hne⟩
  case false.true =>
    have hdisabled := hheld (by rw [hold, Bool.and_false])
    split
    · rename_i hmoves
      exact ⟨fun hp => (by rw [hmoves.2] at hp; cases hp), fun _ => rfl⟩
    · exact ⟨fun _ => hdisabled, fun hne => absurd rfl hne⟩
  case true.false =>
    split
    · rename_i hdisabled
      exact ⟨fun _ => hdisabled, fun hne => absurd rfl hne⟩
    · exact ⟨fun _ => rfl, fun _ => rfl⟩
  case true.true =>
    rw [hold] at hheld
    split
    · rename_i hmoves
      exact ⟨fun hp => absurd (hheld hp) hmoves.2, fun _ => rfl⟩
    · exact ⟨hheld, fun hne => absurd rfl hne⟩

/-- With the terminal RUNNING, a route is permitted by its enable, its lane and its peer (R60). -/
theorem State.permitted_of_running {s : State} (hrun : s.profile.load = .running) (r : RouteIx) :
    s.permitted r =
      (s.cfg.routes[r].enable && s.cfg.lanes[r].type != .unused && s.cfg.peers[s.cfg.routes[r].peer].enabled) := by
  rw [State.permitted, hrun, Bool.and_assoc _ (_ != _), Bool.and_right_comm]
  simp

theorem State.permitted_withPeer {s : State} (hrun : s.profile.load = .running) (p : PeerIx) (x : PeerSettings) (r : RouteIx) :
    (s.setCfg (s.cfg.withPeer p x)).permitted r =
      (s.cfg.routes[r].enable && s.cfg.lanes[r].type != .unused &&
        (if s.cfg.routes[r].peer = p then x else s.cfg.peers[s.cfg.routes[r].peer]).enabled) := by
  have hpeers (q : PeerIx) : (s.setCfg (s.cfg.withPeer p x)).cfg.peers[q] = if q = p then x else s.cfg.peers[q] :=
    s.cfg.withPeer_peers p q x
  rw [State.permitted_of_running (s := s.setCfg (s.cfg.withPeer p x)) hrun, hpeers]
  rfl

/-- SET_PEER comes on a terminal that is RUNNING alone (R167). -/
theorem State.keepsFigures_applyPeer {s : State} (hrun : s.profile.load = .running) (p : PeerIx) (x : PeerSettings) :
    s.KeepsFigures (s.applyPeer p x) := by
  rintro ⟨hheld, hok, hroutes⟩
  unfold State.applyPeer
  have hends (r : RouteIx) (hpeer : s.cfg.routes[r].peer = p) :=
    peerVia_ends (old := s.cfg.peers[p]) (new := x) (state := s.health[r].state)
      (canProve := s.cfg.routes[r].enable && s.cfg.lanes[r].type != .unused) fun hp => hheld r (by
        rw [State.permitted_of_running hrun]
        simp only [hpeer]
        exact hp)
  refine State.figured_applyMoves (s.peerMoves_ordered p _ x) (fun r hp => ?_) hok fun r => ?_ <;>
    rw [State.viaOf_peerMoves]
  · rw [State.permitted_withPeer hrun] at hp
    split
    · rename_i hpeer
      rw [if_pos hpeer] at hp
      exact (hends r hpeer).1 hp
    · rename_i hpeer
      rw [if_neg hpeer, ← State.permitted_of_running hrun] at hp
      exact hheld r hp
  · have hunmoved : (s.setCfg (s.cfg.withPeer p x)).MoveFigures r [] := State.FiguredRoute.moveFigures_nil (hroutes r)
    split
    · rename_i hpeer
      by_cases hnil : peerVia s.cfg.peers[p] x s.health[r].state (s.cfg.routes[r].enable && s.cfg.lanes[r].type != .unused) = []
      · rw [hnil]
        exact hunmoved
      · exact State.moveFigures_of_ends hnil ((hends r hpeer).2 hnil) (hroutes r).2.2
    · exact hunmoved

theorem filterMap_route_sublist (f : RouteIx → Option RouteState) (l : List RouteIx) :
    ((l.filterMap fun r => (f r).map fun new => ({ route := r, via := [new] } : Move)).map Move.route).Sublist l := by
  induction l with
  | nil => exact List.Sublist.slnil
  | cons r l ih =>
    rw [List.filterMap_cons]
    cases f r with
    | none => exact ih.cons r
    | some new => exact ih.cons_cons r

theorem State.healthMoves_ordered (s : State) : Ordered s.healthMoves := filterMap_route_sublist s.evaluation _

theorem State.viaOf_healthMoves (s : State) (r : RouteIx) : viaOf s.healthMoves r = (s.evaluation r).toList := by
  rcases viaOf_cases s.healthMoves r with ⟨m, hm, hroute, hvia⟩ | ⟨hnot, hvia⟩ <;> rw [hvia]
  · obtain ⟨q, -, hq⟩ := List.mem_filterMap.1 hm
    obtain ⟨new, hnew, rfl⟩ := Option.map_eq_some_iff.1 hq
    obtain rfl : q = r := hroute
    rw [hnew]
    rfl
  · cases hnew : s.evaluation r with
    | none => rfl
    | some new =>
      refine absurd ?_ hnot
      rw [State.healthMoves]
      refine List.mem_map.2 ⟨{ route := r, via := [new] }, List.mem_filterMap.2 ⟨r, List.mem_finRange r, ?_⟩, rfl⟩
      rw [hnew]
      rfl

theorem State.figured_applyHealth {s : State} {h : HealthSettings} (hs : s.Figured) (hok : h.ok = true) :
    (s.applyHealth h).Figured := by
  obtain ⟨hheld, -, hroutes⟩ := hs
  unfold State.applyHealth
  dsimp only
  refine State.figured_applyMoves (State.healthMoves_ordered _) (fun r hp => ?_) hok fun r => ?_ <;>
    rw [State.viaOf_healthMoves]
  · have hdisabled := hheld r hp
    cases hnew : (s.setCfg { s.cfg with health := h }).evaluation r with
    | none => exact hdisabled
    | some new => exact absurd hdisabled (evalTarget_some hnew).2.2
  · exact State.FigurableRoute.evaluation (s := s.setCfg { s.cfg with health := h }) (hroutes r).figurable hok (hheld r)

end Sys2Proof.Machine
end

