-- ==== Sys2Proof/Proofs/FiguresKept.lean ====
section
/-! CHECK. Start-up and every command leave every route its figures (R100, R183 to R189). -/

namespace Sys2Proof.Machine

/-! ### Start-up (R183, R185, R189) -/

/-- A terminal whose routes are all DISABLED needs sound thresholds and latest reports in range alone. -/
theorem State.figured_of_disabled {s : State} (hdisabled : ∀ r : RouteIx, s.health[r].state = .disabled)
    (hok : s.cfg.health.ok = true)
    (hlatest : ∀ r : RouteIx, s.lanes[r].latest.all (fun x => decide (x.step ≤ 7)) = true) : s.Figured :=
  ⟨fun r _ => hdisabled r, hok, fun r => State.figuredRoute_of_disabled (hdisabled r) (hlatest r)⟩

/-- During LOADING every route is DISABLED (R60). -/
theorem State.Figured.disabled_of_loading {s : State} (h : s.Figured) (hload : s.profile.load = .loading) (r : RouteIx) :
    s.health[r].state = .disabled := by
  refine h.1 r ?_
  rw [State.permitted, hload]
  exact Bool.and_false _

theorem State.answerRestart_load (s : State) : s.answerRestart.profile.load = s.profile.load := by
  unfold State.answerRestart
  split <;> rfl

/-- The effects that come last of a load. -/
theorem State.keepsFigures_loadTail (u : State) : u.KeepsFigures u.rechoose.judgeHoldover.answerRestart := by
  refine .of_frame (by simp) ?_ (by simp) (by simp) (by simp)
  rw [State.answerRestart_load]
  simp

theorem State.keepsFigures_startTimers (u : State) : u.KeepsFigures u.startTimers :=
  u.keepsFigures_forRoutes fun r t => t.keepsFigures_modLane r (f := fun l =>
    { l with timer := if t.cfg.lanes[r].type = .radio then some t.time.et else l.timer }) fun _ => rfl

/-- The routes that an image permits pass to PROVING together; all are DISABLED before (R185). -/
theorem State.figured_applyImage {u : State} {i : Image} (hdisabled : ∀ r : RouteIx, u.health[r].state = .disabled)
    (hok : i.settings.health.ok = true)
    (hlatest : ∀ r : RouteIx, u.lanes[r].latest.all (fun x => decide (x.step ≤ 7)) = true) : (u.applyImage i).Figured := by
  unfold State.applyImage
  have hmoved : ((u.setCfg i.settings).applyMoves (u.setCfg i.settings).loadMoves).Figured := by
    refine State.figured_applyMoves (State.loadMoves_ordered _) (fun r hp => ?_) hok fun r => ?_ <;>
      rw [State.viaOf_loadMoves]
    · rw [hp, if_neg (by simp)]
      exact hdisabled r
    · split
      · exact State.moveFigures_of_ends (by simp) rfl (hlatest r)
      · exact State.FiguredRoute.moveFigures_nil (State.figuredRoute_of_disabled (hdisabled r) (hlatest r))
  exact (State.keepsFigures_startTimers _).trans (.of_frame (by simp) (by simp) (by simp) (by simp) (by simp)) hmoved

theorem State.figured_endLoad {s : State} (hload : s.profile.load = .loading) (m : List Host.Cell) (h : s.Figured) :
    (s.endLoad m).Figured := by
  have hdisabled := h.disabled_of_loading hload
  obtain ⟨-, hok, hroutes⟩ := h
  have hlatest (r : RouteIx) := (hroutes r).2.2
  unfold State.endLoad
  split
  · rename_i i himage
    obtain ⟨⟨-, -, -, hhealth, -⟩, -⟩ := judgeFlash_inRange himage
    exact State.keepsFigures_loadTail _ (State.figured_applyImage hdisabled hhealth hlatest)
  · exact State.keepsFigures_loadTail _ (State.figured_of_disabled hdisabled hok hlatest)

theorem State.figured_restart (s : State) (p : PortIx) (request : Byte) : (s.restart p request).Figured := by
  refine State.figured_of_disabled (fun r => ?_) ?_ fun r => ?_
  · rw [State.restart_health]
  · have hcfg : (s.restart p request).cfg = Settings.safe := rfl
    rw [hcfg]
    decide
  · rw [State.restart_lane]
    rfl

theorem State.figured_coldReset (s : State) (m : List Host.Cell) : (s.coldReset m).Figured := by
  refine State.figured_of_disabled (fun r => ?_) ?_ fun r => ?_
  · have hhealth : (s.coldReset m).health = State.reset.health := rfl
    rw [hhealth, State.reset_health]
    rfl
  · have hcfg : (s.coldReset m).cfg = Settings.safe := rfl
    rw [hcfg]
    decide
  · have hlanes : (s.coldReset m).lanes = Vector.ofFn fun r => Lane.coldReset s.lanes[r].los := rfl
    rw [hlanes, Fin.getElem_fin, Vector.getElem_ofFn]
    rfl

/-! ### Every command -/

theorem State.keepsFigures_operatorDirective (s : State) (d : Directive) (name argLen : Nat) {owner : State → Judged}
    (h : ∀ u : State, u.profile.load = .running → u.KeepsFigures (owner u).1) :
    s.KeepsFigures (s.operatorDirective d name argLen owner) :=
  State.operatorDirective_keeps (P := s.KeepsFigures) (fun u v hu => hu.trans (u.keepsFigures_withPorts v))
    (fun u hrun _ hu => hu.trans (h u hrun)) d name argLen (.refl s)

theorem State.keepsFigures_openDirective (s : State) (d : Directive) (name argLen : Nat) {owner : State → Judged}
    (h : ∀ u : State, u.KeepsFigures (owner u).1) : s.KeepsFigures (s.openDirective d name argLen owner) :=
  State.openDirective_keeps (P := s.KeepsFigures) (fun u v hu => hu.trans (u.keepsFigures_withPorts v))
    (fun u _ hu => hu.trans (h u)) d name argLen (.refl s)

theorem State.keepsFigures_ownedDirective (s : State) (d : Directive) (name : Nat) (outOnly : Bool)
    (effect : Circuit → Circuit) : s.KeepsFigures (s.ownedDirective d name outOnly effect) :=
  State.ownedDirective_keeps (P := s.KeepsFigures) (fun u v hu => hu.trans (u.keepsFigures_withPorts v))
    (fun _ _ _ _ _ _ _ hu => hu.trans (.of_frame rfl rfl rfl rfl rfl)) d name (.refl s)

theorem State.keepsFigures_ppsEdge (s : State) : s.KeepsFigures s.ppsEdge := by
  unfold State.ppsEdge
  split
  · exact .of_frame rfl rfl rfl rfl rfl
  · dsimp only
    split
    · exact .of_frame (by simp) (by simp) (by simp) (by simp) (by simp)
    · exact .of_frame rfl rfl rfl rfl rfl

theorem State.keepsFigures_ownCloseCircuit (s : State) (d : Directive) : s.KeepsFigures (s.ownCloseCircuit d).1 := by
  unfold State.ownCloseCircuit
  split
  · exact .refl s
  · split
    · exact .refl s
    · split
      · exact .refl s
      · exact .refl s
      · exact .of_frame (by simp) (by simp) (by simp) (by simp) (by simp)
      · exact .of_frame (by simp) (by simp) (by simp) (by simp) (by simp)

theorem State.keepsFigures_ownSetTime (u : State) (d : Directive) : u.KeepsFigures (u.ownSetTime d).1 := by
  unfold State.ownSetTime
  split
  · exact .refl u
  · rename_i x _
    have hset : u.KeepsFigures (u.setCfg { u.cfg with time := x }) := .of_view rfl
    rw [State.reply_fst]
    exact hset.trans (.of_frame (by simp [State.applyTime]) (by simp [State.applyTime]) (by simp [State.applyTime])
      (by simp [State.applyTime]) (by simp [State.applyTime]))

theorem State.keepsFigures_ownWatch (u : State) (d : Directive) : u.KeepsFigures (u.ownWatch d).1 := by
  unfold State.ownWatch
  split
  · exact .refl u
  · exact .of_frame rfl rfl rfl rfl rfl

theorem State.keepsFigures_ownSetIdentity (u : State) (d : Directive) : u.KeepsFigures (u.ownSetIdentity d).1 := by
  simp only [State.ownSetIdentity]
  split
  · exact .refl u
  · exact .of_view rfl

theorem State.keepsFigures_ownSetPeer {u : State} (hrun : u.profile.load = .running) (d : Directive) :
    u.KeepsFigures (u.ownSetPeer d).1 := by
  unfold State.ownSetPeer
  split
  · split
    · exact .refl u
    · rw [State.reply_fst]
      exact State.keepsFigures_applyPeer hrun _ _
  · exact .refl u

theorem State.keepsFigures_ownSetRoute (u : State) (d : Directive) : u.KeepsFigures (u.ownSetRoute d).1 := by
  unfold State.ownSetRoute
  split
  · rw [State.reply_fst]
    exact u.keepsFigures_applyRoute _ _
  · exact .refl u

theorem State.keepsFigures_ownSetLane (u : State) (d : Directive) : u.KeepsFigures (u.ownSetLane d).1 := by
  unfold State.ownSetLane
  split
  · rw [State.reply_fst]
    exact u.keepsFigures_applyLane _ _
  · exact .refl u

theorem State.keepsFigures_ownSetHealth (u : State) (d : Directive) : u.KeepsFigures (u.ownSetHealth d).1 := by
  unfold State.ownSetHealth
  split
  · exact .refl u
  · rename_i hargs
    rw [State.reply_fst]
    exact fun h => State.figured_applyHealth h (healthArgs_ok hargs)

theorem State.keepsFigures_ownSetProbe (u : State) (d : Directive) : u.KeepsFigures (u.ownSetProbe d).1 := by
  unfold State.ownSetProbe
  split
  · exact .refl u
  · rw [State.reply_fst]
    exact u.keepsFigures_applyProbe _

theorem State.keepsFigures_ownSetCalendar (u : State) (d : Directive) : u.KeepsFigures (u.ownSetCalendar d).1 := by
  unfold State.ownSetCalendar
  split
  · exact .of_view rfl
  · exact .refl u

theorem State.keepsFigures_ownOpenCircuit (u : State) (d : Directive) : u.KeepsFigures (u.ownOpenCircuit d).1 := by
  unfold State.ownOpenCircuit
  split
  · exact .refl u
  · split
    · exact .refl u
    · split
      · exact .refl u
      · split
        · exact .refl u
        · exact .of_frame rfl rfl rfl rfl rfl

theorem State.keepsFigures_ownForceRoute (u : State) (d : Directive) : u.KeepsFigures (u.ownForceRoute d).1 := by
  unfold State.ownForceRoute
  split
  · split
    · exact .of_frame rfl rfl rfl rfl rfl
    · exact .refl u
  · exact .refl u

theorem State.keepsFigures_ownReleaseRoute (u : State) (d : Directive) : u.KeepsFigures (u.ownReleaseRoute d).1 := by
  unfold State.ownReleaseRoute
  split
  · exact .refl u
  · exact .of_frame rfl rfl rfl rfl rfl

theorem State.keepsFigures_ownTestRoute (u : State) (d : Directive) : u.KeepsFigures (u.ownTestRoute d).1 := by
  unfold State.ownTestRoute
  split
  · exact .refl u
  · split
    · exact .refl u
    · exact State.keepsFigures_testRoute ‹_›

theorem State.linkDown_load (s : State) (p : PortIx) : (s.linkDown p).profile.load = s.profile.load := by
  have hprofile : (s.linkDown p).profile = s.profile.disown p := by simp [State.linkDown]
  rw [hprofile, (s.profile.disown_leaves p).1]

theorem State.keepsFigures_linkDown (s : State) (p : PortIx) : s.KeepsFigures (s.linkDown p) :=
  .of_frame (by simp) (s.linkDown_load p) (by simp) (by simp) (by simp)

theorem State.keepsFigures_miss (s : State) (p : PortIx) (first : Bool) : s.KeepsFigures (s.miss p first) := by
  unfold State.miss
  dsimp only
  generalize (if first then 1 else s.ports[p].misses + 1) = n
  split
  · exact s.keepsFigures_linkDown p
  · exact .of_frame rfl rfl rfl rfl rfl

theorem State.keepsFigures_setTime (s : State) (x : TimeBase) : s.KeepsFigures (s.setTime x) := .of_frame rfl rfl rfl rfl rfl

theorem execColdReset_keepsFigures {s t : State} {left : FlashLeft} (h : execColdReset left s = .next t) :
    s.KeepsFigures t := by
  unfold execColdReset at h
  split at h
  · cases h
    exact fun _ => s.figured_coldReset _
  · split at h <;> cases h
    exact fun _ => s.figured_coldReset _

theorem execLoadEnd_keepsFigures {s t : State} {answers : Bool} (h : execLoadEnd answers s = .next t) :
    s.KeepsFigures t := by
  unfold execLoadEnd at h
  split at h <;> cases h
  · exact State.figured_endLoad ‹_› _
  · exact .refl s

theorem execTransmitEnd_keepsFigures {s t : State} {r : RouteIx} (h : execTransmitEnd r s = .next t) :
    s.KeepsFigures t := by
  unfold execTransmitEnd at h
  split at h
  · cases h
    exact .refl s
  · split at h <;> cases h
    · exact .of_frame (by simp) (by simp) (by simp) (by simp) (by simp)
    · exact .refl s

theorem execFrameStart_keepsFigures {s t : State} {r : RouteIx} {first : Byte} (h : execFrameStart r first s = .next t) :
    s.KeepsFigures t := by
  unfold execFrameStart at h
  split at h <;> cases h
  · exact s.keepsFigures_frameStart r first
  · exact .refl s

theorem execLengthLimitEnd_keepsFigures {s t : State} {r : RouteIx} (h : execLengthLimitEnd r s = .next t) :
    s.KeepsFigures t := by
  unfold execLengthLimitEnd at h
  split at h <;> cases h
  · exact .refl s
  · exact s.keepsFigures_lengthLimit r _

theorem execFrameEnd_keepsFigures {s t : State} {r : RouteIx} {rest : List Byte} (h : execFrameEnd r rest s = .next t) :
    s.KeepsFigures t := by
  unfold execFrameEnd at h
  split at h
  · cases h
    exact .refl s
  · split at h <;> cases h
    · exact s.keepsFigures_lengthLimit r _
    · exact s.keepsFigures_frameJudged r _ _

theorem execProbeRequest_keepsFigures {s t : State} {r : RouteIx} (h : execProbeRequest r s = .next t) :
    s.KeepsFigures t := by
  unfold execProbeRequest at h
  split at h
  · cases h
    exact .refl s
  · split at h <;> cases h
    · exact (s.keepsFigures_requestProbe r).trans (State.keepsFigures_modProbe _ r (by simp))
    · exact .refl s

theorem execProbeTimeout_keepsFigures {s t : State} {r : RouteIx} (h : execProbeTimeout r s = .next t) :
    s.KeepsFigures t := by
  unfold execProbeTimeout at h
  split at h <;> cases h
  · exact .refl s
  · exact s.keepsFigures_loseProbe r _

theorem execTestRequest_keepsFigures {s t : State} {r : RouteIx} (h : execTestRequest r s = .next t) :
    s.KeepsFigures t := by
  unfold execTestRequest at h
  split at h
  · cases h
    exact .refl s
  · split at h <;> cases h
    · exact ((s.keepsFigures_requestTest r).trans (State.keepsFigures_modHealth _ r (by simp))).trans
        (State.keepsFigures_evaluate _ r)
    · exact .refl s

theorem execSendStart_keepsFigures {s t : State} {p : PortIx} (h : execSendStart p s = .next t) : s.KeepsFigures t := by
  unfold execSendStart at h
  split at h <;> cases h
  · exact .of_frame (by simp) (by simp) (by simp) (by simp) (by simp)
  · exact .refl s

theorem execSendEnd_keepsFigures {s t : State} {p : PortIx} {status : Byte} {body : List Byte} {crc : BitVec 32}
    (h : execSendEnd p status body crc s = .next t) : s.KeepsFigures t := by
  unfold execSendEnd at h
  split at h <;> cases h
  · exact .refl s
  · exact .of_frame rfl rfl rfl rfl rfl
  · exact .of_frame (by simp) (by simp) (by simp) (by simp) (by simp)

theorem execOutboundTurn_keepsFigures {s t : State} {p : PortIx} (h : execOutboundTurn p s = .next t) :
    s.KeepsFigures t := by
  unfold execOutboundTurn at h
  split at h <;> cases h
  · exact .of_frame (by simp) (by simp) (by simp) (by simp) (by simp)
  · exact .refl s

theorem execOutboundFrameEnd_keepsFigures {s t : State} {p : PortIx} (h : execOutboundFrameEnd p s = .next t) :
    s.KeepsFigures t := by
  unfold execOutboundFrameEnd at h
  split at h <;> cases h
  · exact .refl s
  · exact .of_frame (by simp) (by simp) (by simp) (by simp) (by simp)

theorem execLinkDown_keepsFigures {s t : State} {p : PortIx} (h : execLinkDown p s = .next t) : s.KeepsFigures t := by
  unfold execLinkDown at h
  split at h <;> cases h
  · exact s.keepsFigures_linkDown p
  · exact .refl s

theorem execLinkUp_keepsFigures {s t : State} {p : PortIx} (h : execLinkUp p s = .next t) : s.KeepsFigures t := by
  unfold execLinkUp at h
  split at h <;> cases h
  · exact .of_frame rfl rfl rfl rfl rfl
  · exact .refl s

theorem execBadInboundEnvelope_keepsFigures {s t : State} {p : PortIx} (h : execBadInboundEnvelope p s = .next t) :
    s.KeepsFigures t := by
  unfold execBadInboundEnvelope at h
  split at h <;> cases h
  · exact .of_frame (by simp) (by simp) (by simp) (by simp) (by simp)
  · exact .refl s

theorem execUnknownDirective_keepsFigures {s t : State} {p : PortIx} {status : Byte} {body : List Byte} {crc : BitVec 32}
    (h : execUnknownDirective p status body crc s = .next t) : s.KeepsFigures t := by
  unfold execUnknownDirective at h
  split at h <;> cases h
  obtain ⟨v, e⟩ := s.unknownDirective_withPorts p (body.getD 1 0) (crc == crc32 (covered 0xA2 status body))
  rw [e]
  exact s.keepsFigures_withPorts v

theorem execSaveProfile_keepsFigures {s t : State} {d : Directive} (h : execSaveProfile d s = .next t) :
    s.KeepsFigures t := by
  cases h
  exact s.keepsFigures_operatorDirective d 20 0 fun u _ => .of_frame rfl rfl rfl rfl rfl

theorem execSaveComplete_keepsFigures {s t : State} {result : SaveResult} (h : execSaveComplete result s = .next t) :
    s.KeepsFigures t := by
  unfold execSaveComplete at h
  split at h
  · cases h
    exact .refl s
  · rename_i job _
    split at h <;> cases h
    refine .of_frame (by simp) ?_ (by simp) (by simp) (by simp)
    have hprofile : (s.completeSave job (s.saveFailure job result)).profile =
        s.profile.endSave (s.saveFailure job result) := by simp [State.completeSave]
    rw [hprofile]
    cases s.saveFailure job result <;> rfl

theorem execMiss_keepsFigures {s t : State} {p : PortIx} {first : Bool} (h : execMiss p first s = .next t) :
    s.KeepsFigures t := by
  unfold execMiss at h
  split at h <;> cases h
  · exact s.keepsFigures_miss p first
  · exact .refl s

/-- A command leaves every route its figures. -/
theorem exec_keepsFigures {c : Instr} {s t : State} (h : exec c s = .next t) : s.KeepsFigures t := by
  cases c with
  | coldReset left => exact execColdReset_keepsFigures h
  | loadEnd answers => exact execLoadEnd_keepsFigures h
  | advance => cases h; exact s.keepsFigures_setTime _
  | ppsOutFire => cases h; exact s.keepsFigures_setTime _
  | holdoverExpiry => cases h; exact .of_frame (by simp) (by simp) (by simp) (by simp) (by simp)
  | ppsEdge => cases h; exact s.keepsFigures_ppsEdge
  | setTime d => cases h; exact s.keepsFigures_operatorDirective d 13 15 fun u _ => u.keepsFigures_ownSetTime d
  | readTime d => cases h; exact s.keepsFigures_openDirective d 1 0 State.KeepsFigures.refl
  | laneByteTaken r => cases h; exact .of_frame rfl rfl rfl rfl rfl
  | transmitEnd r => exact execTransmitEnd_keepsFigures h
  | frameStart r first => exact execFrameStart_keepsFigures h
  | lengthLimitEnd r => exact execLengthLimitEnd_keepsFigures h
  | frameEnd r rest => exact execFrameEnd_keepsFigures h
  | losAssert r => cases h; exact s.keepsFigures_losAssert r
  | losRelease r => cases h; exact s.keepsFigures_losRelease r
  | laneReport r record => cases h; exact s.keepsFigures_laneReport r record
  | silenceExpiry r => cases h; exact s.keepsFigures_judgeSilence r
  | probeRequest r => exact execProbeRequest_keepsFigures h
  | probeTimeout r => exact execProbeTimeout_keepsFigures h
  | testRequest r => exact execTestRequest_keepsFigures h
  | offer r => cases h; exact s.keepsFigures_offer r
  | sendStart p => exact execSendStart_keepsFigures h
  | sendEnd p status body crc => exact execSendEnd_keepsFigures h
  | outboundTurn p => exact execOutboundTurn_keepsFigures h
  | outboundFrameEnd p => exact execOutboundFrameEnd_keepsFigures h
  | linkDown p => exact execLinkDown_keepsFigures h
  | linkUp p => exact execLinkUp_keepsFigures h
  | badInboundEnvelope p => exact execBadInboundEnvelope_keepsFigures h
  | unknownDirective p status body crc => exact execUnknownDirective_keepsFigures h
  | readTable d =>
    cases h
    refine s.keepsFigures_openDirective d 2 2 fun u => ?_
    rw [State.ownReadTable_fst]
    exact .refl u
  | watch d => cases h; exact s.keepsFigures_openDirective d 3 2 fun u => u.keepsFigures_ownWatch d
  | pause d => cases h; exact s.keepsFigures_ownedDirective d 4 true _
  | resume d => cases h; exact s.keepsFigures_ownedDirective d 5 true _
  | clearCounts d => cases h; exact s.keepsFigures_ownedDirective d 6 false _
  | setIdentity d => cases h; exact s.keepsFigures_operatorDirective d 7 3 fun u _ => u.keepsFigures_ownSetIdentity d
  | setPeer d => cases h; exact s.keepsFigures_operatorDirective d 8 3 fun u hrun => State.keepsFigures_ownSetPeer hrun d
  | setRoute d => cases h; exact s.keepsFigures_operatorDirective d 9 7 fun u _ => u.keepsFigures_ownSetRoute d
  | setLane d => cases h; exact s.keepsFigures_operatorDirective d 10 7 fun u _ => u.keepsFigures_ownSetLane d
  | setHealth d => cases h; exact s.keepsFigures_operatorDirective d 11 9 fun u _ => u.keepsFigures_ownSetHealth d
  | setProbe d => cases h; exact s.keepsFigures_operatorDirective d 12 4 fun u _ => u.keepsFigures_ownSetProbe d
  | setCalendar d => cases h; exact s.keepsFigures_operatorDirective d 14 17 fun u _ => u.keepsFigures_ownSetCalendar d
  | openCircuit d => cases h; exact s.keepsFigures_operatorDirective d 15 10 fun u _ => u.keepsFigures_ownOpenCircuit d
  | closeCircuit d => cases h; exact s.keepsFigures_operatorDirective d 16 1 fun u _ => u.keepsFigures_ownCloseCircuit d
  | forceRoute d => cases h; exact s.keepsFigures_operatorDirective d 17 2 fun u _ => u.keepsFigures_ownForceRoute d
  | releaseRoute d => cases h; exact s.keepsFigures_operatorDirective d 18 1 fun u _ => u.keepsFigures_ownReleaseRoute d
  | testRoute d => cases h; exact s.keepsFigures_operatorDirective d 19 1 fun u _ => u.keepsFigures_ownTestRoute d
  | saveProfile d => exact execSaveProfile_keepsFigures h
  | saveComplete result => exact execSaveComplete_keepsFigures h
  | restart d => cases h; exact s.keepsFigures_operatorDirective d 21 0 fun u _ _ => u.figured_restart d.port d.request
  | miss p first => exact execMiss_keepsFigures h

/-- Settles O57: an evaluation takes a route to UP or FADING, or leaves it there, with a lane that CUT does not hold back, and a
route reaches UP with good replies whose samples no flush has taken; each command keeps this. -/
theorem eligibleRoutesHaveFigures : Obligations.EligibleRoutesHaveFigures := by
  intro s t h hheld hok hroutes
  have hfigured : s.Figured := ⟨hheld, hok, hroutes⟩
  rcases step_cases h with ⟨-, rfl⟩ | ⟨c, rest, -, hc⟩
  · exact State.KeepsFigures.of_frame (by simp) (by simp) (by simp) (by simp) (by simp) hfigured
  · exact exec_keepsFigures hc (State.KeepsFigures.of_frame rfl rfl rfl rfl rfl hfigured)

end Sys2Proof.Machine
end

