-- ==== Sys2Proof/Proofs/Readied.lean ====
section
/-! SUPPORT. A state that an event has set before its route moves, and a route whose lane is cut (R63 to R66). -/

namespace Sys2Proof.Machine

/-! ### A state that an event has set before its route moves -/

/-- A port apart from what a directive and a notice may change of it: its pending records, its answer queue, its run of misses, the
latest request and its counts. -/
def Port.lasting (x : Port) : Port :=
  { x with records := Vector.replicate 8 PendingRecord.clear, answers := [], misses := 0, lastRequest := none, counts := {} }

theorem Port.eq_of_lasting {x y : Port} (h : x.lasting = y.lasting) :
    { x with
      records := y.records, answers := y.answers, misses := y.misses, lastRequest := y.lastRequest, counts := y.counts } = y := by
  have e : { x.lasting with
      records := y.records, answers := y.answers, misses := y.misses, lastRequest := y.lastRequest, counts := y.counts } =
      { y.lasting with
      records := y.records, answers := y.answers, misses := y.misses, lastRequest := y.lastRequest, counts := y.counts } := by
    rw [h]
  exact e

theorem Port.lasting_of_recordless {x y : Port} (h : x.recordless = y.recordless) : x.lasting = y.lasting :=
  (congrArg Port.lasting h :)

/-- `v` is `s` but for what an event of route `r` has set before the route moves: the settings, the forced routes, the route's own
records but for its state, the waiting queues, the OUT tallies, frame memory, the time route, and of the ports what
`Port.lasting` leaves out, ROUTE_STATE's records apart. -/
structure State.Readies (s v : State) (r : RouteIx) : Prop where
  time : v.time.routeless = s.time.routeless
  lanes : ∀ q, q ≠ r → v.lanes[q] = s.lanes[q]
  probes : ∀ q, q ≠ r → v.probes[q] = s.probes[q]
  health : ∀ q, q ≠ r → v.health[q] = s.health[q]
  core : v.health[r].core = s.health[r].core
  tx : ∀ q, q ≠ r → v.tx[q].queueless = s.tx[q].queueless
  circuits : ∀ n : CircIx, v.circuits[n].outless = s.circuits[n].outless
  score : v.score = s.score
  profile : v.profile = s.profile
  flash : v.flash = s.flash
  pending : v.pending = s.pending
  arriving : v.arriving = s.arriving
  port : ∀ p : PortIx, v.ports[p].lasting = s.ports[p].lasting
  record : ∀ p : PortIx, v.ports[p].records[(1 : Fin 8)] = s.ports[p].records[(1 : Fin 8)]

theorem State.Readies.refl (s : State) (r : RouteIx) : s.Readies s r where
  time := rfl
  lanes _ _ := rfl
  probes _ _ := rfl
  health _ _ := rfl
  core := rfl
  tx _ _ := rfl
  circuits _ := rfl
  score := rfl
  profile := rfl
  flash := rfl
  pending := rfl
  arriving := rfl
  port _ := rfl
  record _ := rfl

theorem State.Readies.trans {s u v : State} {r : RouteIx} (h : s.Readies u r) (h' : u.Readies v r) : s.Readies v r where
  time := h'.time.trans h.time
  lanes q hq := (h'.lanes q hq).trans (h.lanes q hq)
  probes q hq := (h'.probes q hq).trans (h.probes q hq)
  health q hq := (h'.health q hq).trans (h.health q hq)
  core := h'.core.trans h.core
  tx q hq := (h'.tx q hq).trans (h.tx q hq)
  circuits n := (h'.circuits n).trans (h.circuits n)
  score := h'.score.trans h.score
  profile := h'.profile.trans h.profile
  flash := h'.flash.trans h.flash
  pending := h'.pending.trans h.pending
  arriving := h'.arriving.trans h.arriving
  port p := (h'.port p).trans (h.port p)
  record p := (h'.record p).trans (h.record p)

/-- What a route's move leaves of the state it starts from, the event leaves of the state before it. -/
theorem State.Readies.routesFrame {s v t : State} {r : RouteIx} (h : s.Readies v r)
    (hframe : v.RoutesFrame t (fun q => q = r)) : s.RoutesFrame t (fun q => q = r) := by
  obtain ⟨hother, hcircuits, hports, htime, hscore, hprofile, hflash, hpending, harriving⟩ := hframe
  refine ⟨fun q hq => ?_, fun n => Circuit.eq_of_outless ?_, fun p => Port.eq_of_lasting ?_, TimeBase.eq_of_routeless ?_,
    hscore.trans h.score, hprofile.trans h.profile, hflash.trans h.flash, hpending.trans h.pending, harriving.trans h.arriving⟩
  · obtain ⟨hlane, hprobe, hhealth, htx⟩ := hother q hq
    have htx' : t.tx[q].queueless = v.tx[q].queueless := (congrArg Tx.queueless htx :)
    exact ⟨hlane.trans (h.lanes q hq), hprobe.trans (h.probes q hq), hhealth.trans (h.health q hq),
      Tx.eq_of_queueless (htx'.trans (h.tx q hq))⟩
  · rw [← h.circuits n]
    exact (congrArg Circuit.outless (hcircuits n) :)
  · rw [← h.port p]
    exact (congrArg Port.lasting (hports p) :)
  · rw [← h.time]
    exact (congrArg TimeBase.routeless htime :)

theorem State.Readies.core_eq {s v : State} {r : RouteIx} (h : s.Readies v r) (q : RouteIx) :
    v.health[q].core = s.health[q].core := by
  by_cases hq : q = r
  · subst hq
    exact h.core
  · rw [h.health q hq]

theorem State.Readies.state_eq {s v : State} {r : RouteIx} (h : s.Readies v r) (q : RouteIx) :
    v.health[q].state = s.health[q].state := congrArg Prod.fst (h.core_eq q)

/-- The changes of state made from the state that an event has set are made from the state before it. -/
theorem State.Readies.changesMade {s v t : State} {r : RouteIx} {via : RouteIx → List RouteState} (h : s.Readies v r)
    (hmade : v.ChangesMade t via) : s.ChangesMade t via := by
  obtain ⟨hroutes, hnotices⟩ := hmade
  have het : v.time.et = s.time.et := (congrArg TimeBase.et h.time :)
  refine ⟨fun q => ?_, fun p => ?_⟩
  · have hcore := h.core_eq q
    simp only [Health.core, Prod.mk.injEq] at hcore
    obtain ⟨hstate, hchanges, hlast⟩ := hcore
    rw [← hstate, ← hchanges, ← hlast, ← het]
    exact hroutes q
  · have hsame : v.ports[p].SameAt 1 s.ports[p] :=
      ⟨(congrArg Port.up (h.port p) :), (congrArg Port.watch (h.port p) :), h.record p⟩
    simp only [← h.state_eq]
    exact (hnotices p).trans (hsame.foldl_record _).2.2

theorem State.Readies.oneChange {s v : State} {r : RouteIx} (h : s.Readies v r) (t : State) : s.oneChange t = v.oneChange t := by
  funext q
  rw [State.oneChange, State.oneChange, h.state_eq]

/-- An event that sets neither the settings nor the forced routes, and of the ports the records alone, before its route is
evaluated. -/
theorem State.Readies.evaluate {s v : State} {r : RouteIx} (h : s.Readies v r) (hcfg : v.cfg = s.cfg) (hpeers : v.peers = s.peers)
    (hports : ∀ p : PortIx, v.ports[p].recordless = s.ports[p].recordless) : s.RouteFrame (v.evaluate r) r := by
  obtain ⟨hframe, hmade, hcfg', hpeers', hports'⟩ := v.evaluate_routeFrame r
  refine ⟨h.routesFrame hframe, ?_, hcfg'.trans hcfg, hpeers'.trans hpeers, fun p => Port.eq_of_recordless ?_⟩
  · rw [h.oneChange]
    exact h.changesMade hmade
  · rw [← hports p]
    exact (congrArg Port.recordless (hports' p) :)

theorem State.readies_modLane (s : State) (r : RouteIx) (f : Lane → Lane) : s.Readies (s.modLane r f) r :=
  { State.Readies.refl s r with lanes := fun q hq => s.modLane_get_other r q f hq }

theorem State.readies_modHealth (s : State) (r : RouteIx) {f : Health → Health} (h : (f s.health[r]).core = s.health[r].core) :
    s.Readies (s.modHealth r f) r :=
  { State.Readies.refl s r with
    health := fun q hq => s.modHealth_get_other r q f hq
    core := by rw [State.modHealth_get_self]; exact h }

theorem State.readies_setPool (s : State) (r : RouteIx) (x : Pool) : s.Readies (s.setPool x) r :=
  { State.Readies.refl s r with }

/-! ### A route that is CUT -/

/-- A lane that is cut does not recover (R63). -/
theorem recoverHolds_of_cut {h : HealthSettings} {ty : LaneType} {l : Lane} (hoff : l.silent = true ∨ l.los = true)
    (hcut : cutLane h ty l = true) : recoverHolds h ty l = false := by
  cases ty with
  | unused => cases hcut
  | fiber =>
    have hlos : l.los = true := hcut
    simp [recoverHolds, hlos]
  | radio => rcases hoff with h | h <;> simp [recoverHolds, h]

/-- A route not DISABLED whose lane is cut by silence or LOS stands in DOWN once evaluated (R64). -/
theorem evalTarget_of_cut {h : HealthSettings} {ty : LaneType} {l : Lane} (rec : Health) (hoff : l.silent = true ∨ l.los = true)
    (hcut : cutLane h ty l = true) :
    (evalTarget h ty l rec).getD rec.state = if rec.state = .disabled then .disabled else .down := by
  have hcuts : cutHolds h ty l rec.error = true := by rw [cutHolds, hcut, Bool.or_true]
  cases hstate : rec.state <;> simp [evalTarget, hstate, hcuts, hcut, recoverHolds_of_cut hoff hcut]

end Sys2Proof.Machine
end

