-- ==== Sys2Proof/Proofs/Silence.lean ====
section
/-! CHECK. The silence timer of a RADIO lane (R31). -/

namespace Sys2Proof.Machine

/-! ### The silence timer (R31) -/

theorem silenceDue_iff (now : Ticks) (ls : LaneSettings) (l : Lane) :
    silenceDue now ls l = true ↔
      ls.type = .radio ∧ l.silent = false ∧ ∃ since, l.timer = some since ∧ 3 * ls.interval * 125000 ≤ (now - since).toNat := by
  unfold silenceDue
  split
  · rename_i since htype htimer
    rw [Bool.and_eq_true, Bool.not_eq_true', decide_eq_true_iff, htype, htimer]
    exact ⟨fun ⟨hsilent, hrun⟩ => ⟨rfl, hsilent, since, rfl, hrun⟩, fun ⟨_, hsilent, since', hsince, hrun⟩ =>
      ⟨hsilent, by cases hsince; exact hrun⟩⟩
  · rename_i hnot
    exact ⟨fun h => (by cases h), fun ⟨htype, _, since, htimer, _⟩ => absurd htimer (hnot since htype)⟩

/-- The lane as silence leaves it (R31). -/
def Lane.silenced (l : Lane) : Lane :=
  { l with
    silent := true, timer := none, ring := [], trend := .steady
    counts := { l.counts with silences := l.counts.silences + 1 } }

theorem judgeSilence_of_due {s : State} {r : RouteIx} (h : silenceDue s.time.et s.cfg.lanes[r] s.lanes[r] = true) :
    s.judgeSilence r = (s.modLane r Lane.silenced).evaluate r := if_pos h

theorem judgeSilence_of_not_due {s : State} {r : RouteIx} (h : silenceDue s.time.et s.cfg.lanes[r] s.lanes[r] = false) :
    s.judgeSilence r = s := if_neg (by rw [h]; decide)

/-- Silence falls on a RADIO lane: its lane, its route's state, and what it leaves (R31, R63 to R66). -/
theorem silence_falls {s : State} {r : RouteIx} (htype : s.cfg.lanes[r].type = .radio) {t : State}
    (ht : t = (s.modLane r Lane.silenced).evaluate r) :
    t.lanes[r] = s.lanes[r].silenced ∧
    t.health[r].state = (if s.health[r].state = .disabled then .disabled else .down) ∧ s.RouteFrame t r ∧
    ((s.health[r].state = .disabled ∨ s.health[r].state = .down) → t = { s with lanes := s.lanes.set r t.lanes[r] }) := by
  have hlane : t.lanes[r] = s.lanes[r].silenced := by
    rw [ht, State.evaluate_leaves .. |>.2.1, State.modLane_get_self]
  have hstate : t.health[r].state = (if s.health[r].state = .disabled then .disabled else .down) := by
    rw [ht, State.evaluate_state, State.evaluation, State.modLane_get_self]
    refine evalTarget_of_cut _ (.inl rfl) ?_
    have hcfg : (s.modLane r Lane.silenced).cfg.lanes[r].type = .radio := htype
    rw [hcfg]
    simp [cutLane, Lane.silenced]
  refine ⟨hlane, hstate, ?_, fun hoff => ?_⟩
  · rw [ht]
    exact (s.readies_modLane r _).evaluate rfl rfl fun _ => rfl
  · rw [hlane, ht]
    refine (State.evaluate_of_stays ?_).trans rfl
    rw [← ht, hstate]
    rcases hoff with h | h
    · exact (if_pos h).trans h.symm
    · exact (if_neg (by rw [h]; decide)).trans h.symm

/-- Settles O12: silence is judged by the timer, and a silent RADIO lane is CUT. -/
theorem silenceFalls : Obligations.SilenceFalls := by
  unfold Obligations.SilenceFalls
  refine fun s r => ⟨fun since htype htimer hsilent hrun => ?_, fun hnot => congrArg Host.Outcome.next ?_⟩
  · have hdue : silenceDue s.time.et s.cfg.lanes[r] s.lanes[r] = true :=
      (silenceDue_iff ..).2 ⟨htype, hsilent, since, htimer, hrun⟩
    exact ⟨_, congrArg Host.Outcome.next (judgeSilence_of_due hdue), silence_falls htype rfl⟩
  · refine judgeSilence_of_not_due (Bool.eq_false_iff.2 fun hdue => ?_)
    obtain ⟨htype, hsilent, since, htimer, hrun⟩ := (silenceDue_iff ..).1 hdue
    rcases hnot with h | h | h | ⟨since', htimer', hshort⟩
    · exact h htype
    · rw [htimer] at h
      cases h
    · rw [hsilent] at h
      cases h
    · rw [htimer] at htimer'
      cases htimer'
      omega

end Sys2Proof.Machine
end

