-- ==== Sys2Proof/Proofs/LineOfSight.lean ====
section
/-! CHECK. The frames on a lane abandoned, and LOS asserted and released (R25, R26, R86, R127, R138). -/

namespace Sys2Proof.Machine

/-! ### The frames on a lane as they are abandoned (R127, R138) -/

/-- Frame memory once the frame that a lane is receiving, if there is one, has given its slot up. -/
def State.poolAfterRx (s : State) (r : RouteIx) : Pool :=
  match s.lanes[r].rx with
  | some rx => s.poolWithout rx
  | none => s.pool

/-- Frame memory `p` once the copy that is current on lane `r`, if there is one, has released its frame. -/
def State.poolAfterCurrent (s : State) (r : RouteIx) (p : Pool) : Pool :=
  match s.tx[r].current.bind Current.copy with
  | some c => p.release c.slot
  | none => p

/-- A lane whose frame being received, if there is one, is abandoned. -/
def Lane.rxAbandoned (l : Lane) : Lane :=
  { l with rx := none, counts := { l.counts with abandoned := l.counts.abandoned + (if l.rx.isSome then 1 else 0) } }

/-- A transmit record whose current frame, if there is one, is abandoned. -/
def Tx.currentAbandoned (t : Tx) : Tx :=
  { t with current := none, counts := { t.counts with abandoned := t.counts.abandoned + (if t.current.isSome then 1 else 0) } }

theorem dropRx_eq {s : State} {r : RouteIx} {rx : Rx} (h : s.lanes[r].rx = some rx) :
    s.dropRx r = { s with lanes := s.lanes.set r { s.lanes[r] with rx := none }, pool := s.poolWithout rx } := by
  unfold State.dropRx State.poolWithout
  rw [h]
  rcases rx with ⟨stamp, et, first, _ | k | _⟩ <;> rfl

theorem modLane_congr {s : State} {r : RouteIx} {f g : Lane → Lane} (h : f s.lanes[r] = g s.lanes[r]) :
    s.modLane r f = s.modLane r g := by
  rw [State.modLane, State.modLane, h]

theorem modTx_congr {s : State} {r : RouteIx} {f g : Tx → Tx} (h : f s.tx[r] = g s.tx[r]) : s.modTx r f = s.modTx r g := by
  rw [State.modTx, State.modTx, h]

theorem modLane_of_same {s : State} {r : RouteIx} {f : Lane → Lane} (h : f s.lanes[r] = s.lanes[r]) : s.modLane r f = s := by
  rw [State.modLane, h]
  exact congrArg (fun lanes => { s with lanes := lanes }) (Vector.set_getElem_self _)

theorem modLane_modLane (s : State) (r : RouteIx) (f g : Lane → Lane) :
    (s.modLane r f).modLane r g = s.modLane r fun l => g (f l) := by
  simp [State.modLane]

theorem Lane.rxAbandoned_of_none {l : Lane} (h : l.rx = none) : l.rxAbandoned = l := by
  cases l
  cases h
  simp [Lane.rxAbandoned]

theorem Lane.rxAbandoned_of_some {l : Lane} {rx : Rx} (h : l.rx = some rx) :
    l.rxAbandoned = { l with rx := none, counts := { l.counts with abandoned := l.counts.abandoned + 1 } } := by
  rw [Lane.rxAbandoned, h]
  rfl

theorem Tx.currentAbandoned_of_none {t : Tx} (h : t.current = none) : t.currentAbandoned = t := by
  cases t
  cases h
  simp [Tx.currentAbandoned]

theorem Tx.currentAbandoned_of_some {t : Tx} {cur : Current} (h : t.current = some cur) :
    t.currentAbandoned = { t with current := none, counts := { t.counts with abandoned := t.counts.abandoned + 1 } } := by
  rw [Tx.currentAbandoned, h]
  rfl

theorem abandonRx_eq (s : State) (r : RouteIx) :
    s.abandonRx r = (s.modLane r Lane.rxAbandoned).setPool (s.poolAfterRx r) := by
  unfold State.abandonRx State.poolAfterRx
  rcases hrx : s.lanes[r].rx with _ | rx
  · exact (modLane_of_same (Lane.rxAbandoned_of_none hrx)).symm
  · have hdrop : s.dropRx r = (s.modLane r fun l => { l with rx := none }).setPool (s.poolWithout rx) := dropRx_eq hrx
    have hlane : ((s.modLane r fun l => { l with rx := none }).modLane r fun l =>
        { l with counts := { l.counts with abandoned := l.counts.abandoned + 1 } }) = s.modLane r Lane.rxAbandoned := by
      rw [modLane_modLane]
      exact modLane_congr (Lane.rxAbandoned_of_some hrx).symm
    rw [← hlane]
    dsimp only
    rw [hdrop]
    rfl

theorem copyEnds_of_none {s : State} {r : RouteIx} (h : s.tx[r].current.bind Current.copy = none) : s.copyEnds r = s := by
  rw [State.copyEnds, h]

theorem copyEnds_of_some {s : State} {r : RouteIx} {c : Copy} (h : s.tx[r].current.bind Current.copy = some c) :
    s.copyEnds r = s.modCircuit c.circuit Circuit.copyCeased := by
  unfold State.copyEnds State.modCircuit Circuit.copyCeased
  rewrite [h]
  rfl

/-- A copy that ends changes circuits alone. -/
theorem copyEnds_leaves (s : State) (r : RouteIx) : { s.copyEnds r with circuits := s.circuits } = s := by
  rcases h : s.tx[r].current.bind Current.copy with _ | c
  · rw [copyEnds_of_none h]
  · rw [copyEnds_of_some h]
    rfl

/-- The current frame of a lane abandoned: the copy ends, and its slot and its lane are released (R86, R127). -/
theorem abandonCurrent_eq (s : State) (r : RouteIx) :
    s.abandonCurrent r = ((s.copyEnds r).modTx r Tx.currentAbandoned).setPool (s.poolAfterCurrent r s.pool) := by
  unfold State.abandonCurrent State.poolAfterCurrent State.endCurrent
  rcases hcur : s.tx[r].current with _ | ⟨kind, copy, bytes, untaken⟩
  · rw [copyEnds_of_none (by rw [hcur]; rfl)]
    exact (modTx_of_same (Tx.currentAbandoned_of_none hcur)).symm
  · have htx : ((s.modTx r fun t => { t with current := none }).modTx r fun t =>
        { t with counts := { t.counts with abandoned := t.counts.abandoned + 1 } }) = s.modTx r Tx.currentAbandoned := by
      rw [State.modTx_modTx]
      exact modTx_congr (Tx.currentAbandoned_of_some hcur).symm
    rcases copy with _ | c
    · rw [copyEnds_of_none (by rw [hcur]; rfl)]
      exact htx
    · rw [copyEnds_of_some (c := c) (by rw [hcur]; rfl)]
      exact congrArg (fun u : State => (u.modCircuit c.circuit Circuit.copyCeased).setPool (s.pool.release c.slot)) htx

/-! ### What no change of state does to the frame on a lane -/

/-- The current frame of a lane and the count of those abandoned. -/
def Tx.onAir (t : Tx) : Option Current × Count := (t.current, t.counts.abandoned)

theorem State.onAir_resteerCopy (s : State) (r q : RouteIx) (c : Copy) : (s.resteerCopy r c).tx[q].onAir = s.tx[q].onAir := by
  unfold State.resteerCopy
  split
  · exact State.modTx_proj _ r q Tx.onAir (by intro; rfl)
  · split
    · refine (State.modTx_proj _ r q Tx.onAir (by intro; rfl)).trans ?_
      simp [State.release]
    · split
      · rename_i r' _
        refine (State.modTx_proj _ r q Tx.onAir (by intro; rfl)).trans ?_
        show (s.enqueue r' c).tx[q].onAir = _
        exact s.modTx_proj r' q Tx.onAir (by intro; rfl)
      · refine (State.modTx_proj _ r q Tx.onAir (by intro; rfl)).trans ?_
        simp [State.release]

theorem State.onAir_resteer (s : State) (r q : RouteIx) : (s.resteer r).tx[q].onAir = s.tx[q].onAir := by
  unfold State.resteer
  rw [foldl_leaves (fun t : State => t.tx[q].onAir) _ (fun t c => t.onAir_resteerCopy r q c)]
  exact s.modTx_proj r q Tx.onAir (by intro; rfl)

theorem State.onAir_settle (s : State) (r q : RouteIx) (old new : RouteState) :
    (s.settle r old new).tx[q].onAir = s.tx[q].onAir := by
  have hleave (u : State) : (u.leaveProving r).tx[q].onAir = u.tx[q].onAir :=
    State.modTx_proj _ r q Tx.onAir (f := fun t => { t with testEntry := false }) (by intro; rfl)
  have henter (u : State) : (u.enterProving r).tx[q].onAir = u.tx[q].onAir := by
    rw [State.enterProving, State.requestTest]
    split
    · rfl
    · exact u.modTx_proj r q Tx.onAir (f := fun t => { t with testEntry := true }) (by intro; rfl)
  have hdisable (u : State) : (u.disableEffects r).tx[q].onAir = u.tx[q].onAir :=
    State.modTx_proj _ r q Tx.onAir (by intro; rfl)
  have hstart (u : State) : (u.startProbes r).tx[q].onAir = u.tx[q].onAir := by
    rw [State.startProbes, State.requestProbe]
    split
    · rfl
    · exact u.modTx_proj r q Tx.onAir (f := fun t => { t with probeEntry := true }) (by intro; rfl)
  have hflush (u : State) : (u.flush r).tx[q].onAir = u.tx[q].onAir := rfl
  simp only [State.settle, apply_ite (fun u : State => u.tx[q].onAir), hleave, henter, hdisable, hstart, hflush, ite_self]

theorem State.onAir_applyMoves (s : State) (moves : List Move) (q : RouteIx) :
    (s.applyMoves moves).tx[q].onAir = s.tx[q].onAir := by
  have hmove (u : State) (r : RouteIx) (old : RouteState) (via : List RouteState) :
      (u.moveConsequences r old via).tx[q].onAir = u.tx[q].onAir :=
    State.moveConsequences_proj (fun v => v.tx[q].onAir) (fun v old new =>
      (State.consequences_proj (fun w => w.tx[q].onAir) (by intros; rfl) (fun w p => w.onAir_resteer p q) (by intros; rfl)
        ..).trans (v.onAir_settle r q old new)) u old via
  rw [s.applyMoves_eq, State.follow, foldl_leaves (fun u : State => u.tx[q].onAir) _ (fun u m => hmove u _ _ _),
    (s.recorded_leaves moves).2.2.2.2.1]

theorem State.onAir_evaluate (s : State) (r q : RouteIx) : (s.evaluate r).tx[q].onAir = s.tx[q].onAir := by
  obtain ⟨-, e⟩ | ⟨new, -, e, -⟩ := s.evaluate_cases r
  · rw [e]
  · rw [e]
    exact s.onAir_applyMoves _ q

/-! ### LOS (R25, R26) -/

/-- The lane as LOS leaves it, its frame being received abandoned (R25). -/
def Lane.cutOff (l : Lane) : Lane :=
  { l.rxAbandoned with
    los := true, ring := [], trend := .steady, counts := { l.rxAbandoned.counts with los := l.counts.los + 1 } }

/-- The state in which LOS has the route evaluated (step 5 of R25). -/
def State.cutOff (s : State) (r : RouteIx) : State :=
  (((s.copyEnds r).modLane r Lane.cutOff).modTx r Tx.currentAbandoned).setPool (s.poolAfterCurrent r (s.poolAfterRx r))

theorem copyEnds_modLane (s : State) (r q : RouteIx) (f : Lane → Lane) :
    (s.modLane q f).copyEnds r = (s.copyEnds r).modLane q f := by
  rcases h : s.tx[r].current.bind Current.copy with _ | c
  · rw [copyEnds_of_none h, copyEnds_of_none (s := s.modLane q f) h]
  · rw [copyEnds_of_some h, copyEnds_of_some (s := s.modLane q f) h]
    rfl

theorem copyEnds_setPool (s : State) (r : RouteIx) (p : Pool) : (s.setPool p).copyEnds r = (s.copyEnds r).setPool p := by
  rcases h : s.tx[r].current.bind Current.copy with _ | c
  · rw [copyEnds_of_none h, copyEnds_of_none (s := s.setPool p) h]
  · rw [copyEnds_of_some h, copyEnds_of_some (s := s.setPool p) h]
    rfl

theorem poolAfterRx_modLane (s : State) (r : RouteIx) {f : Lane → Lane} (h : (f s.lanes[r]).rx = s.lanes[r].rx) :
    (s.modLane r f).poolAfterRx r = s.poolAfterRx r := by
  unfold State.poolAfterRx
  rw [State.modLane_get_self, h]
  rfl

theorem losAssert_eq {s : State} {r : RouteIx} (hlos : s.lanes[r].los = false) (htype : s.cfg.lanes[r].type ≠ .unused) :
    s.losAssert r = (s.cutOff r).evaluate r := by
  rw [State.losAssert, if_neg (by rw [hlos]; decide)]
  refine (if_neg htype).trans ?_
  rw [State.losEffects, abandonRx_eq, abandonCurrent_eq]
  rw [copyEnds_setPool, copyEnds_modLane, copyEnds_modLane, poolAfterRx_modLane s r (by exact rfl)]
  have hlane : (((s.copyEnds r).modLane r fun l => { l with los := true, counts := { l.counts with los := l.counts.los + 1 } }).modLane
      r Lane.rxAbandoned).modLane r (fun l => { l with ring := [], trend := .steady }) = (s.copyEnds r).modLane r Lane.cutOff := by
    rw [modLane_modLane, modLane_modLane]
    rfl
  exact congrArg (fun u : State => ((u.modTx r Tx.currentAbandoned).setPool
    (s.poolAfterCurrent r (s.poolAfterRx r))).evaluate r) hlane

theorem State.readies_modTx (s : State) (r : RouteIx) (f : Tx → Tx) : s.Readies (s.modTx r f) r :=
  { State.Readies.refl s r with tx := fun q hq => by rw [s.modTx_get_other r q f hq] }

/-- What LOS leaves of a lane in use, and of its route (R25, R63 to R66, R86, R127, R138). -/
theorem los_cuts_off {s t : State} {r : RouteIx} (htype : s.cfg.lanes[r].type ≠ .unused) (ht : t = (s.cutOff r).evaluate r) :
    t.lanes[r] = s.lanes[r].cutOff ∧ t.tx[r].onAir = s.tx[r].currentAbandoned.onAir ∧
    t.health[r].state = (if s.health[r].state = .disabled then .disabled else .down) ∧ (s.copyEnds r).RouteFrame t r ∧
    ((s.health[r].state = .disabled ∨ s.health[r].state = .down) →
      t = { s.copyEnds r with
            lanes := s.lanes.set r t.lanes[r]
            tx := s.tx.set r s.tx[r].currentAbandoned
            pool := s.poolAfterCurrent r (s.poolAfterRx r) }) := by
  have hends := copyEnds_leaves s r
  have hlanes : (s.copyEnds r).lanes = s.lanes := (congrArg State.lanes hends :)
  have htxs : (s.copyEnds r).tx = s.tx := (congrArg State.tx hends :)
  have hhealth : (s.copyEnds r).health = s.health := (congrArg State.health hends :)
  have hcfg : (s.copyEnds r).cfg = s.cfg := (congrArg State.cfg hends :)
  have hcutLane : (s.cutOff r).lanes = s.lanes.set r s.lanes[r].cutOff := by
    show ((s.copyEnds r).modLane r Lane.cutOff).lanes = _
    rw [State.modLane_lanes, hlanes]
  have hcutTx : (s.cutOff r).tx = s.tx.set r s.tx[r].currentAbandoned := by
    show ((s.copyEnds r).modTx r Tx.currentAbandoned).tx = _
    rw [State.modTx_tx, htxs]
  have hlane : t.lanes[r] = s.lanes[r].cutOff := by
    rw [ht, State.evaluate_leaves .. |>.2.1, hcutLane]
    exact Vector.getElem_set_self ..
  have hair : t.tx[r].onAir = s.tx[r].currentAbandoned.onAir := by
    rw [ht, State.onAir_evaluate, hcutTx]
    exact congrArg Tx.onAir (Vector.getElem_set_self ..)
  have hstate : t.health[r].state = (if s.health[r].state = .disabled then .disabled else .down) := by
    have hcut : cutLane s.cfg.health s.cfg.lanes[r].type s.lanes[r].cutOff = true := by
      cases hty : s.cfg.lanes[r].type with
      | unused => exact absurd hty htype
      | fiber => rfl
      | radio => simp [cutLane, Lane.cutOff]
    have hnow : (s.cutOff r).lanes[r] = s.lanes[r].cutOff := by
      rw [hcutLane]
      exact Vector.getElem_set_self ..
    have heval : (s.cutOff r).evaluation r =
        evalTarget (s.copyEnds r).cfg.health (s.copyEnds r).cfg.lanes[r].type s.lanes[r].cutOff (s.copyEnds r).health[r] := by
      rw [State.evaluation, hnow]
      rfl
    have hwas : (s.cutOff r).health = s.health := hhealth
    rw [ht, State.evaluate_state, heval, hcfg, hhealth, hwas]
    exact evalTarget_of_cut _ (.inr rfl) hcut
  refine ⟨hlane, hair, hstate, ?_, fun hoff => ?_⟩
  · rw [ht]
    have hready : (s.copyEnds r).Readies (s.cutOff r) r :=
      (((s.copyEnds r).readies_modLane r _).trans (State.readies_modTx _ r _)).trans (State.readies_setPool _ r _)
    exact hready.evaluate rfl rfl fun _ => rfl
  · have hstays : (s.cutOff r).evaluate r = s.cutOff r := by
      refine State.evaluate_of_stays ?_
      have hwas : (s.cutOff r).health = s.health := hhealth
      rw [← ht, hstate, hwas]
      rcases hoff with h | h
      · exact (if_pos h).trans h.symm
      · exact (if_neg (by rw [h]; decide)).trans h.symm
    rw [hlane, ht, hstays]
    have hwhole : s.cutOff r =
        { s.copyEnds r with
          lanes := (s.cutOff r).lanes, tx := (s.cutOff r).tx, pool := s.poolAfterCurrent r (s.poolAfterRx r) } := rfl
    rw [hwhole, hcutLane, hcutTx]

/-- Settles O10: a lane that LOS cuts off is CUT, and one that it frees is judged by what R64 allows. -/
theorem losLevels : Obligations.LosLevels := by
  unfold Obligations.LosLevels
  intro s r
  refine ⟨fun hlos => congrArg Host.Outcome.next (if_pos hlos), fun hlos htype => congrArg Host.Outcome.next ?_,
    fun hlos htype => ?_, fun hlos => congrArg Host.Outcome.next (if_neg (by rw [hlos]; decide)),
    fun hlos htype => congrArg Host.Outcome.next ?_, fun hlos htype => ?_⟩
  · rw [State.losAssert, if_neg (by rw [hlos]; decide)]
    exact if_pos htype
  · obtain ⟨hlane, hair, hstate, hframe, hstays⟩ := los_cuts_off htype rfl
    refine ⟨_, congrArg Host.Outcome.next (losAssert_eq hlos htype), hlane, (congrArg Prod.fst hair :),
      (congrArg Prod.snd hair :), hstate, hframe, fun pool hpool hoff => ?_⟩
    rw [hpool]
    exact hstays hoff
  · rw [State.losRelease, if_pos hlos]
    exact if_pos htype
  · have hnext : s.losRelease r = (s.modLane r fun l => { l with los := false }).evaluate r := by
      rw [State.losRelease, if_pos hlos]
      exact if_neg htype
    have hstate : (s.losRelease r).health[r].state =
        (evalTarget s.cfg.health s.cfg.lanes[r].type { s.lanes[r] with los := false } s.health[r]).getD
          s.health[r].state := by
      rw [hnext, State.evaluate_state, State.evaluation, State.modLane_get_self]
      rfl
    refine ⟨_, rfl, ?_, hstate, ?_, ?_, fun hstays => ?_⟩
    · rw [hnext, State.evaluate_leaves .. |>.2.1, State.modLane_get_self]
    · rw [hnext]
      exact (congrArg Prod.fst (State.onAir_evaluate _ r r) :)
    · rw [hnext]
      exact (s.readies_modLane r _).evaluate rfl rfl fun _ => rfl
    · rw [hnext] at hstays ⊢
      exact State.evaluate_of_stays hstays

end Sys2Proof.Machine
end

