-- ==== Sys2Proof/Proofs/FramesFail.lean ====
section
/-! CHECK. A received frame that fails its CRC, meets the length limit or is not received (R24, R61, R62, R137, R158). -/

namespace Sys2Proof.Machine

/-! ### A received frame that fails (R61, R62, R137) -/

/-- The health of a route whose received frame has failed its CRC (R61, R62). -/
def Health.crcFailed (h : Health) : Health :=
  { h with error := min 255 (h.error + 1), counts := { h.counts with crcFailures := h.counts.crcFailures + 1 } }

theorem moveError_one (error : Nat) : moveError error 1 = min 255 (error + 1) := by
  rw [moveError]
  omega

theorem crcFailure_eq (s : State) (r : RouteIx) : s.crcFailure r = (s.modHealth r Health.crcFailed).evaluate r := by
  rw [State.crcFailure]
  simp only [moveError_one]
  rfl

/-- What an evaluation looks at of a lane: its latest report, its trend, SILENT and LOS (R63). -/
theorem evalTarget_congr (h : HealthSettings) (ty : LaneType) {l l' : Lane} (rec : Health) (hlatest : l.latest = l'.latest)
    (htrend : l.trend = l'.trend) (hsilent : l.silent = l'.silent) (hlos : l.los = l'.los) :
    evalTarget h ty l rec = evalTarget h ty l' rec := by
  cases l
  cases l'
  cases hlatest
  cases htrend
  cases hsilent
  cases hlos
  rfl

/-- A lane whose frame being received has ended is judged as before. -/
theorem State.RouteFrame.lanes_apart {s t : State} {r : RouteIx} (h : s.RouteFrame t r) :
    s.RouteFrame { t with lanes := s.lanes } r := by
  obtain ⟨⟨hother, hrest⟩, hmade, htail⟩ := h
  refine ⟨⟨fun q hq => ?_, hrest⟩, hmade, htail⟩
  obtain ⟨-, hkept⟩ := hother q hq
  exact ⟨rfl, hkept⟩

/-- The frame that lane `r` was receiving taken for a CRC failure, in a state `u` that has given its slot up and counted it on the
lane (R61, R62, R64). -/
theorem crcFailure_spec {s u : State} {r : RouteIx} {l : Lane} {p : Pool} (hu : u = (s.modLane r fun _ => l).setPool p)
    (hlatest : l.latest = s.lanes[r].latest) (htrend : l.trend = s.lanes[r].trend) (hsilent : l.silent = s.lanes[r].silent)
    (hlos : l.los = s.lanes[r].los) :
    (u.crcFailure r).health[r].state =
      (evalTarget s.cfg.health s.cfg.lanes[r].type s.lanes[r] s.health[r].crcFailed).getD s.health[r].state ∧
    (u.crcFailure r).lanes = s.lanes.set r l ∧ s.RouteFrame (u.crcFailure r) r ∧
    (evalTarget s.cfg.health s.cfg.lanes[r].type s.lanes[r] s.health[r].crcFailed = none →
      u.crcFailure r = { s with lanes := s.lanes.set r l, pool := p, health := s.health.set r s.health[r].crcFailed }) := by
  subst hu
  have hcounted : (((s.modLane r fun _ => l).setPool p).modHealth r Health.crcFailed).evaluation r =
      evalTarget s.cfg.health s.cfg.lanes[r].type s.lanes[r] s.health[r].crcFailed := by
    rw [State.evaluation, State.modHealth_get_self]
    have hlane : (((s.modLane r fun _ => l).setPool p).modHealth r Health.crcFailed).lanes[r] = l := s.modLane_get_self r fun _ => l
    rw [hlane]
    exact evalTarget_congr _ _ _ hlatest htrend hsilent hlos
  rw [crcFailure_eq]
  refine ⟨?_, ?_, ?_, fun hnone => ?_⟩
  · rw [State.evaluate_state, hcounted, State.modHealth_get_self]
    rfl
  · rw [State.evaluate_leaves .. |>.2.1]
    rfl
  · have hready : s.Readies (((s.modLane r fun _ => l).setPool p).modHealth r Health.crcFailed) r :=
      ((s.readies_modLane r _).trans (State.readies_setPool _ r p)).trans (State.readies_modHealth _ r rfl)
    exact hready.evaluate rfl rfl fun _ => rfl
  · rw [State.evaluate, hcounted, hnone]
    rfl

/-- A frame of at most 1,532 bytes reaches its end (R24). -/
theorem exec_frameEnd_of_short {s : State} {r : RouteIx} {rx : Rx} {rest : List Byte} (hrx : s.lanes[r].rx = some rx)
    (hshort : rest.length < 1532) : exec (.frameEnd r rest) s = .next (s.frameJudged r rx (rx.first :: rest)) := by
  show execFrameEnd r rest s = _
  rw [execFrameEnd, hrx]
  exact if_neg (Nat.not_lt.2 hshort)

theorem exec_lengthLimitEnd_of_some {s : State} {r : RouteIx} {rx : Rx} (hrx : s.lanes[r].rx = some rx) :
    exec (.lengthLimitEnd r) s = .next (s.lengthLimit r rx) := by
  show execLengthLimitEnd r s = _
  rw [execLengthLimitEnd, hrx]

theorem health_dropRx (s : State) (r : RouteIx) : (s.dropRx r).health = s.health := by simp

/-- Settles O19: a frame that fails, one that meets the length limit, and one that is not received. -/
theorem framesFailAndEnd : Obligations.FramesFailAndEnd := by
  unfold Obligations.FramesFailAndEnd
  intro s r rest
  refine ⟨fun hnone => ⟨?_, ?_⟩, fun rx hrx => ⟨fun hshort hoff => ?_, fun hoff => ?_, fun h hh hstore hstate =>
    ⟨fun hshort hbad => ?_, ?_⟩⟩⟩
  · show execFrameEnd r rest s = _
    rw [execFrameEnd, hnone]
  · show execLengthLimitEnd r s = _
    rw [execLengthLimitEnd, hnone]
  · rw [exec_frameEnd_of_short hrx hshort, State.frameJudged, if_pos hoff, dropRx_eq hrx]
  · have hoff' : rx.store = .unreceived ∨ ((s.dropRx r).modLane r fun l =>
        { l with counts := { l.counts with oversize := l.counts.oversize + 1 } }).health[r].state = .disabled := by
      rw [State.modLane_health, health_dropRx]
      exact hoff
    rw [exec_lengthLimitEnd_of_some hrx, State.lengthLimit]
    refine congrArg Host.Outcome.next ((if_pos hoff').trans ?_)
    rw [dropRx_eq hrx, State.modLane]
    simp
  · subst hh
    have hon : ¬ (rx.store = .unreceived ∨ s.health[r].state = .disabled) := not_or.2 ⟨hstore, hstate⟩
    obtain ⟨hnext, hlanes, hframe, hstays⟩ :=
      crcFailure_spec (s := s) (r := r) (l := { s.lanes[r] with rx := none }) (p := s.poolWithout rx) (dropRx_eq hrx) rfl rfl rfl
        rfl
    refine ⟨(s.dropRx r).crcFailure r, ?_, hnext, hlanes, hframe.lanes_apart, hstays⟩
    rw [exec_frameEnd_of_short hrx hshort, State.frameJudged, if_neg hon, if_pos (by rw [hbad]; rfl)]
  · subst hh
    have hon : ¬ (rx.store = .unreceived ∨ ((s.dropRx r).modLane r fun l =>
        { l with counts := { l.counts with oversize := l.counts.oversize + 1 } }).health[r].state = .disabled) := by
      rw [State.modLane_health, health_dropRx]
      exact not_or.2 ⟨hstore, hstate⟩
    have hcounted : ((s.dropRx r).modLane r fun l => { l with counts := { l.counts with oversize := l.counts.oversize + 1 } }) =
        (s.modLane r fun _ =>
          { s.lanes[r] with
            rx := none
            counts := { s.lanes[r].counts with oversize := s.lanes[r].counts.oversize + 1 } }).setPool (s.poolWithout rx) := by
      rw [dropRx_eq hrx, State.modLane]
      simp [State.modLane, State.setPool]
    obtain ⟨hnext, hlanes, hframe, hstays⟩ := crcFailure_spec hcounted rfl rfl rfl rfl
    refine ⟨_, (exec_lengthLimitEnd_of_some hrx).trans (congrArg Host.Outcome.next (if_neg hon)), hnext, ?_, hframe, hstays⟩
    rw [hlanes]
    exact Vector.getElem_set_self ..

end Sys2Proof.Machine
end

