-- ==== Sys2Proof/Proofs/LaneReports.lean ====
section
/-! CHECK. Lane reports taken: the record, the ring, the trend and its notice (R28 to R30, R197). -/

namespace Sys2Proof.Machine

/-! ### The record of a lane report (R28, R193, R197) -/

theorem signedField_of_take {bs : List Byte} {off : Nat} {v : Int} (h : (bs.drop off).take 2 = bytesOfInt 2 v)
    (hlow : -32768 ≤ v) (hhigh : v ≤ 32767) : signedField bs off 2 = v := by
  have hfield : field bs off 2 = (v % 65536).toNat := field_of_take h (by norm_num; omega)
  rw [signedField, hfield]
  norm_num
  split <;> omega

/-- The first seven bytes of a lane report record. -/
def reportBody (rsl : Int) (step quality : Nat) (alarms : Byte) : List Byte :=
  1 :: bytesOfInt 2 rsl ++ bytesOf 1 step ++ bytesOf 2 quality ++ [alarms]

theorem length_reportBody (rsl : Int) (step quality : Nat) (alarms : Byte) : (reportBody rsl step quality alarms).length = 7 := by
  simp [reportBody]

/-- The fields of a sound record read back (R28, R197). -/
theorem report_fields (rsl : Int) (step quality : Nat) (alarms : Byte) (hlow : -32768 ≤ rsl) (hhigh : rsl ≤ 32767)
    (hstep : step < 256) (hquality : quality < 65536) :
    recordSound (withCrc (reportBody rsl step quality alarms)) = true ∧
    signedField (withCrc (reportBody rsl step quality alarms)) 1 2 = rsl ∧
    field (withCrc (reportBody rsl step quality alarms)) 3 1 = step ∧
    field (withCrc (reportBody rsl step quality alarms)) 4 2 = quality ∧
    (withCrc (reportBody rsl step quality alarms)).getD 6 0 = alarms := by
  have hlength := length_reportBody rsl step quality alarms
  have htake : (withCrc (reportBody rsl step quality alarms)).take 7 = reportBody rsl step quality alarms := by
    rw [withCrc, ← hlength, List.take_left]
  have hcrc : field (withCrc (reportBody rsl step quality alarms)) 7 4 = (crc32 (reportBody rsl step quality alarms)).toNat := by
    refine field_of_take ?_ (crc32 _).isLt
    rw [withCrc, List.drop_append_of_le_length (by omega), ← hlength, List.drop_length, List.nil_append,
      List.take_of_length_le (by simp)]
  have hkind : field (withCrc (reportBody rsl step quality alarms)) 0 1 = 1 := by
    rw [field_one]
    rfl
  refine ⟨?_, signedField_of_take rfl hlow hhigh, field_of_take rfl hstep, field_of_take rfl hquality, rfl⟩
  rw [recordSound, hcrc, htake, hkind, length_withCrc, hlength]
  simp

/-! ### The ring and the trend (R28, R30) -/

theorem pushRsl_of_room {ring : List Int} (h : ring.length < 8) (rsl : Int) : pushRsl ring rsl = ring ++ [rsl] := by
  rw [pushRsl, if_pos h]

theorem pushRsl_of_full {oldest : Int} {mid : List Int} (h : mid.length = 7) (rsl : Int) :
    pushRsl (oldest :: mid) rsl = mid ++ [rsl] := by
  rw [pushRsl, if_neg (by rw [List.length_cons, h]; decide)]
  rfl

theorem trendOf_of_short {ring : List Int} (h : ring.length < 8) (slope : Nat) : trendOf slope ring = .steady := if_pos h

theorem trendOf_of_full {oldest newest : Int} {mid : List Int} (h : mid.length = 6) (slope : Nat) :
    trendOf slope (oldest :: mid ++ [newest]) =
      if (slope : Int) ≤ oldest - newest then .falling else if (slope : Int) ≤ newest - oldest then .rising else .steady := by
  have hlast : (oldest :: mid ++ [newest]).getLastD 0 = newest := by
    rw [List.getLastD_eq_getLast?, List.getLast?_concat]
    rfl
  rw [trendOf, if_neg (by simp [h, Config.rslMax])]
  dsimp only
  rw [hlast]
  rfl

/-- A lane with a value pushed into its ring, unless LOS holds it back (R28, R30). -/
def Lane.pushed (l : Lane) (slope : Nat) (rsl : Int) : Lane :=
  if l.los then l else { l with ring := pushRsl l.ring rsl, trend := trendOf slope (pushRsl l.ring rsl) }

/-- The trend has moved into FALLING or RISING from another (R30). -/
def Lane.trendMoves (old new : Lane) : Bool := new.trend != old.trend && new.trend != .steady

theorem Lane.trendMoves_pushed (l : Lane) (slope : Nat) (rsl : Int) :
    Lane.trendMoves l (l.pushed slope rsl) = true ↔
      l.los = false ∧ (l.pushed slope rsl).trend ≠ l.trend ∧ (l.pushed slope rsl).trend ≠ .steady := by
  rw [Lane.trendMoves, Bool.and_eq_true, bne_iff_ne, bne_iff_ne]
  refine ⟨fun ⟨hmoved, hsteady⟩ => ⟨?_, hmoved, hsteady⟩, And.right⟩
  cases hlos : l.los with
  | false => rfl
  | true =>
    rw [Lane.pushed, if_pos hlos] at hmoved
    exact absurd rfl hmoved

/-- A state in which lane `r` has become `l`, its trend told of when it has moved into FALLING or RISING (R30). -/
def State.withTrend (s : State) (r : RouteIx) (l : Lane) : State :=
  if s.lanes[r].trendMoves l then (s.modLane r fun _ => l).raiseAll (.rslTrend r l.trend) else s.modLane r fun _ => l

theorem pushReport_eq (s : State) (r : RouteIx) (rsl : Int) :
    s.pushReport r rsl = s.withTrend r (s.lanes[r].pushed s.cfg.health.slope rsl) := by
  rw [State.pushReport, State.withTrend]
  cases hlos : s.lanes[r].los with
  | true =>
    rw [if_pos rfl, Lane.pushed, if_pos hlos, if_neg (by simp [Lane.trendMoves])]
    exact (modLane_of_same rfl).symm
  | false =>
    have hpushed : s.lanes[r].pushed s.cfg.health.slope rsl =
        { s.lanes[r] with
          ring := pushRsl s.lanes[r].ring rsl, trend := trendOf s.cfg.health.slope (pushRsl s.lanes[r].ring rsl) } :=
      if_neg (by rw [hlos]; decide)
    rw [if_neg Bool.false_ne_true, hpushed, State.enterTrend, Lane.trendMoves]
    have hlane : (s.modLane r fun l =>
        { l with ring := pushRsl s.lanes[r].ring rsl, trend := trendOf s.cfg.health.slope (pushRsl s.lanes[r].ring rsl) }) =
        s.modLane r fun _ =>
          { s.lanes[r] with
            ring := pushRsl s.lanes[r].ring rsl, trend := trendOf s.cfg.health.slope (pushRsl s.lanes[r].ring rsl) } :=
      modLane_congr rfl
    dsimp only
    rw [hlane]
    generalize trendOf s.cfg.health.slope (pushRsl s.lanes[r].ring rsl) = new
    by_cases hstays : new = s.lanes[r].trend ∨ new = .steady
    · rw [if_pos hstays, if_neg]
      rcases hstays with h | h <;> simp [h]
    · rw [if_neg hstays, if_pos]
      rw [Bool.and_eq_true, bne_iff_ne, bne_iff_ne]
      exact not_or.1 hstays

/-- A lane that has taken a report (R28, R30). -/
def State.reportedLane (s : State) (r : RouteIx) (bs : List Byte) : Lane :=
  (s.lanes[r].takeReport s.time.et bs).pushed s.cfg.health.slope (clampReport bs).rsl

theorem reportedLane_eq (s : State) (r : RouteIx) (bs : List Byte) :
    s.reportedLane r bs =
      { s.lanes[r] with
        latest := some (clampReport bs)
        timer := some s.time.et
        silent := false
        ring := if s.lanes[r].los then s.lanes[r].ring else pushRsl s.lanes[r].ring (clampReport bs).rsl
        trend :=
          if s.lanes[r].los then s.lanes[r].trend
          else trendOf s.cfg.health.slope (pushRsl s.lanes[r].ring (clampReport bs).rsl)
        counts :=
          { s.lanes[r].counts with
            reports := s.lanes[r].counts.reports + 1
            clamped := s.lanes[r].counts.clamped + (if wasClamped bs then 1 else 0) } } := by
  have hcount : (s.lanes[r].takeReport s.time.et bs).counts =
      { s.lanes[r].counts with
        reports := s.lanes[r].counts.reports + 1
        clamped := s.lanes[r].counts.clamped + (if wasClamped bs then 1 else 0) } := by
    rw [Lane.takeReport]
    cases wasClamped bs <;> simp
  have htaken : s.lanes[r].takeReport s.time.et bs =
      { s.lanes[r] with
        latest := some (clampReport bs), timer := some s.time.et, silent := false
        counts := (s.lanes[r].takeReport s.time.et bs).counts } := rfl
  rw [State.reportedLane, htaken, hcount, Lane.pushed]
  generalize s.lanes[r] = l
  obtain ⟨los, _, _, _, _, _, _, _⟩ := l
  cases los <;> rfl

theorem laneReport_of_radio {s : State} {r : RouteIx} {bs : List Byte} (hsound : recordSound bs = true)
    (htype : s.cfg.lanes[r].type = .radio) :
    s.laneReport r bs = (s.withTrend r (s.reportedLane r bs)).evaluate r := by
  rw [State.laneReport, if_neg (by rw [hsound]; decide), if_neg (by rw [htype]; exact fun h => h rfl), pushReport_eq,
    State.modLane_get_self]
  refine congrArg (fun u : State => u.evaluate r) ?_
  rw [State.withTrend, State.withTrend, State.modLane_get_self, modLane_modLane]
  rfl

/-- What the trend's notice changes of a state: the records of RSL_TREND alone. -/
theorem withTrend_spec (s : State) (r : RouteIx) (l : Lane) :
    s.withTrend r l =
      { s with
        lanes := s.lanes.set r l
        ports := if s.lanes[r].trendMoves l then s.ports.map fun p => p.record (.rslTrend r l.trend) else s.ports } := by
  have hports : (Vector.ofFn fun p : Fin 6 => s.ports[p].record (.rslTrend r l.trend)) =
      s.ports.map fun p => p.record (.rslTrend r l.trend) := by
    ext i hi
    simp
  rw [State.withTrend]
  split
  · rw [← hports]
    rfl
  · rfl

theorem readies_withTrend (s : State) (r : RouteIx) (l : Lane) :
    s.Readies (s.withTrend r l) r ∧ ∀ p : PortIx, (s.withTrend r l).ports[p].recordless = s.ports[p].recordless := by
  have hlane := s.readies_modLane r fun _ => l
  rw [State.withTrend]
  split
  · have hport (p : PortIx) : ((s.modLane r fun _ => l).raiseAll (.rslTrend r l.trend)).ports[p] =
        s.ports[p].record (.rslTrend r l.trend) := State.mapPorts_get ..
    refine ⟨{ hlane with port := fun p => ?_, record := fun p => ?_ }, fun p => ?_⟩ <;> rw [hport]
    · exact Port.lasting_of_recordless (Port.recordless_record _ _)
    · exact Port.record_records_other _ _ (show (3 : Fin 8) ≠ 1 by decide)
    · exact Port.recordless_record _ _
  · exact ⟨hlane, fun _ => rfl⟩

/-- A report taken on a RADIO lane: the lane, its route's state, the notices, and what it leaves (R28 to R30, R63 to R66). -/
theorem report_taken {s t : State} {r : RouteIx} {l : Lane} (htype : s.cfg.lanes[r].type = .radio)
    (ht : t = (s.withTrend r l).evaluate r) :
    t.lanes[r] = l ∧ t.health[r].state = (evalTarget s.cfg.health .radio l s.health[r]).getD s.health[r].state ∧
    s.RouteFrame t r ∧
    (∀ p : PortIx, t.ports[p].records[(3 : Fin 8)] =
      if s.lanes[r].trendMoves l then (s.ports[p].record (.rslTrend r l.trend)).records[(3 : Fin 8)]
      else s.ports[p].records[(3 : Fin 8)]) ∧
    (t.health[r].state = s.health[r].state →
      t = { s with
            lanes := s.lanes.set r l
            ports := if s.lanes[r].trendMoves l then s.ports.map fun p => p.record (.rslTrend r l.trend) else s.ports }) := by
  obtain ⟨hready, hports⟩ := readies_withTrend s r l
  have hspec := withTrend_spec s r l
  generalize s.withTrend r l = v at *
  have hcfg : v.cfg = s.cfg := (congrArg State.cfg hspec :)
  have hhealth : v.health = s.health := (congrArg State.health hspec :)
  have hlane : v.lanes[r] = l := by
    have hlanes : v.lanes = s.lanes.set r l := (congrArg State.lanes hspec :)
    rw [hlanes]
    exact Vector.getElem_set_self ..
  refine ⟨?_, ?_, ?_, fun p => ?_, fun hstays => ?_⟩
  · rw [ht, State.evaluate_leaves .. |>.2.1, hlane]
  · rw [ht, State.evaluate_state, State.evaluation, hlane, hcfg, hhealth, htype]
  · rw [ht]
    exact hready.evaluate hcfg (congrArg State.peers hspec :) hports
  · have hvports : v.ports[p] = if s.lanes[r].trendMoves l then s.ports[p].record (.rslTrend r l.trend) else s.ports[p] := by
      have hall : v.ports = if s.lanes[r].trendMoves l then s.ports.map fun p => p.record (.rslTrend r l.trend) else s.ports :=
        (congrArg State.ports hspec :)
      rw [hall]
      split <;> simp
    rw [ht, State.evaluate_records _ _ _ (by decide) (by decide), hvports]
    split <;> rfl
  · rw [ht] at hstays ⊢
    rw [State.evaluate_of_stays (by rw [hstays, hhealth])]
    exact hspec

theorem wasClamped_iff {bs : List Byte} {rsl : Int} {step quality : Nat} (hrsl : signedField bs 1 2 = rsl)
    (hstep : field bs 3 1 = step) (hquality : field bs 4 2 = quality) :
    wasClamped bs = true ↔ rsl < -1000 ∨ 0 < rsl ∨ 7 < step ∨ 500 < quality := by
  rw [wasClamped, clampReport, hrsl, hstep, hquality, Bool.or_eq_true, Bool.or_eq_true, decide_eq_true_iff, decide_eq_true_iff,
    decide_eq_true_iff]
  dsimp only
  omega

/-- Settles O11: a report by the soundness of its record and the type of its lane, and the ring and the trend. -/
theorem laneReportTaken : Obligations.LaneReportTaken := by
  unfold Obligations.LaneReportTaken
  refine ⟨fun s r => ⟨fun bs hbad => congrArg Host.Outcome.next ?_, fun rsl step quality alarms hlow hhigh hstep hquality => ?_⟩,
    fun slope ring mid oldest newest => ⟨fun h => ⟨pushRsl_of_room h newest, trendOf_of_short h slope⟩, fun hring h => ?_,
      fun hring h => ?_⟩⟩
  · refine if_pos ?_
    rw [Bool.not_eq_true', Bool.eq_false_iff]
    intro hsound
    rw [recordSound, Bool.and_eq_true, Bool.and_eq_true, decide_eq_true_iff, decide_eq_true_iff, decide_eq_true_iff] at hsound
    obtain ⟨⟨hlength, hcrc⟩, hkind⟩ := hsound
    rcases hbad with h | h | h
    · exact h hlength
    · exact h hcrc
    · exact h hkind
  · obtain ⟨hsound, hrsl, hstepField, hqualityField, halarms⟩ := report_fields rsl step quality alarms hlow hhigh hstep hquality
    have hclamped := wasClamped_iff hrsl hstepField hqualityField
    generalize hbs : withCrc (reportBody rsl step quality alarms) = bs at *
    have hbytes : withCrc (1 :: bytesOfInt 2 rsl ++ bytesOf 1 step ++ bytesOf 2 quality ++ [alarms]) = bs := hbs
    rw [hbytes]
    refine ⟨fun htype => congrArg Host.Outcome.next ?_, fun htype => ?_⟩
    · rw [State.laneReport, if_neg (by rw [hsound]; decide), if_pos htype]
      rfl
    · obtain ⟨hlane, hstate, hframe, hrecords, hstays⟩ :=
        report_taken (l := s.reportedLane r bs) htype (laneReport_of_radio hsound htype)
      have hmoves : s.lanes[r].trendMoves (s.reportedLane r bs) = true ↔
          s.lanes[r].los = false ∧ (s.reportedLane r bs).trend ≠ s.lanes[r].trend ∧ (s.reportedLane r bs).trend ≠ .steady :=
        Lane.trendMoves_pushed (s.lanes[r].takeReport s.time.et bs) s.cfg.health.slope (clampReport bs).rsl
      simp only [hmoves] at hrecords hstays
      refine ⟨_, rfl, ?_, ?_, hframe, ?_, ?_⟩
      · have hreport : clampReport bs =
            { rsl := max (-1000) (min 0 rsl), step := min 7 step, quality := min 500 quality
              fault := alarms.getLsbD 0, temp := alarms.getLsbD 1, mute := alarms.getLsbD 2 } := by
          rw [clampReport, hrsl, hstepField, hqualityField, halarms]
        rw [hlane, reportedLane_eq, hreport]
        simp only [hclamped]
      · rw [hlane]
        exact hstate
      · rw [hlane]
        exact hrecords
      · rw [hlane]
        exact hstays
  · rw [hring]
    exact pushRsl_of_full h newest
  · rw [hring]
    exact trendOf_of_full h slope

end Sys2Proof.Machine
end

