-- ==== Sys2Proof/Proofs/LaneSettings.lean ====
section
/-! SUPPORT. SET_LANE's arguments, and what a directive's effects on routes leave once its answer has joined (R33, R166, R193). -/

namespace Sys2Proof.Machine

/-! ### The arguments of SET_LANE (R33, R193) -/

@[simp] theorem laneType_code (x : LaneType) : laneType? x.code = some x := by cases x <;> rfl

theorem LaneType.code_lt (x : LaneType) : x.code < 256 := by cases x <;> decide

/-- Lane settings written in their widths are read back, when they are in range (R33). -/
theorem laneArgs_laneRecord {x : LaneSettings} (h : x.InRange) : laneArgs? (laneRecord x) = some x := by
  obtain ⟨htxc, hrxc, hmin, hmax⟩ := h
  have h0 : field (laneRecord x) 0 1 = x.type.code := field_of_take rfl x.type.code_lt
  have h1 : field (laneRecord x) 1 2 = x.txc := field_of_take rfl (by omega)
  have h3 : field (laneRecord x) 3 2 = x.rxc := field_of_take rfl (by omega)
  have h5 : field (laneRecord x) 5 1 = x.interval := field_of_take rfl (by omega)
  simp only [laneArgs?, h0, h1, h3, h5, laneType_code]
  exact if_pos ⟨hmin, hmax⟩

theorem le_two_of_laneType {v : Nat} {x : LaneType} (h : laneType? v = some x) : v ≤ 2 := by
  unfold laneType? at h
  split at h
  · omega
  · omega
  · omega
  · cases h

/-- A lane, a type or a report interval out of range is BAD_ARG (R33). -/
theorem ownSetLane_of_wild {d : Directive} (s : State)
    (h : 15 < (d.args.getD 0 0).toNat ∨ 2 < (d.args.getD 1 0).toNat ∨ (d.args.getD 6 0).toNat = 0 ∨
      100 < (d.args.getD 6 0).toNat) : s.ownSetLane d = s.reply .badArg := by
  have hshift (i : Nat) : (d.args.drop 1).getD i 0 = d.args.getD (i + 1) 0 := by
    simp [List.getD]
  unfold State.ownSetLane
  split
  · rename_i r x hr hx
    have hlane := lt_of_index hr
    rw [field_one] at hlane
    unfold laneArgs? at hx
    dsimp only at hx
    split at hx
    · rename_i ty hty
      have htype := le_two_of_laneType hty
      rw [field_one, hshift] at htype
      split at hx
      · rename_i hinterval
        rw [field_one, hshift] at hinterval
        simp only [Nat.zero_add, Nat.reduceAdd] at htype hinterval
        omega
      · cases hx
    · cases hx
  · rfl

/-- An authorised SET_LANE in range is its effects, and the answer DONE. -/
theorem setLane_of_inRange {s : State} {d : Directive} {r : RouteIx} {x : LaneSettings} (hauth : s.Authorised d 10 7)
    (hrange : x.InRange) (hargs : d.args = bytesOf 1 r.val ++ laneRecord x) :
    exec (.setLane d) s = .next (((s.taken d).applyLane r x).answer d.port
      { request := d.request, status := .done, results := [] }) := by
  have hindex : index? 16 (field d.args 0 1) = some r := by
    have hfield : field d.args 0 1 = r.val := field_of_take (by rw [hargs]; rfl) (by have := r.isLt; omega)
    rw [hfield, index_val]
  have hlane : laneArgs? (d.args.drop 1) = some x := by
    rw [hargs]
    exact laneArgs_laneRecord hrange
  show Host.Outcome.next (s.operatorDirective d 10 7 (State.ownSetLane d)) = _
  rw [State.operatorDirective_of_authorised hauth, State.ownSetLane, hindex, hlane]
  rfl

/-! ### What a directive's effects leave, its answer joined -/

theorem readies_taken (s : State) (d : Directive) (r : RouteIx) : s.Readies (s.taken d) r := by
  obtain ⟨hsame, hports⟩ := s.taken_spec d
  exact { State.Readies.refl s r with
    port := fun p => by
      rw [hports p]
      split <;> rfl
    record := fun p => by
      rw [hports p]
      split <;> rfl }

/-- The answer to a directive whose effects have left the ports but for pending records. -/
theorem answers_of_recordless {s t : State} {d : Directive} {status : Status} {results : List Byte}
    (h : ∀ p : PortIx, t.ports[p].recordless = (s.taken d).ports[p].recordless) :
    s.Answers (t.answer d.port { request := d.request, status := status, results := results }) d status results := by
  have hnoted := (s.taken_spec d).2
  have hanswers (p : PortIx) : t.ports[p].answers = s.ports[p].answers := by
    refine (congrArg Port.answers (h p) :).trans ?_
    show (s.taken d).ports[p].answers = _
    rw [hnoted]
    split <;> rfl
  have hself : (s.taken d).ports[d.port] = s.ports[d.port].noted d.request := (hnoted d.port).trans (if_pos rfl)
  have hport := h d.port
  rw [hself] at hport
  refine ⟨?_, ?_, ?_, fun p hp => ?_⟩
  · rw [State.answer, State.modPort_get_self, hanswers]
  · rw [State.answer, State.modPort_get_self]
    exact (congrArg Port.lastRequest hport :)
  · rw [State.answer, State.modPort_get_self]
    exact (congrArg (fun x : Port => x.counts.taken) hport :)
  · rw [State.answer, State.modPort_get_other _ _ _ _ hp]
    exact hanswers p

/-- An answer that joins is nothing to the routes. -/
theorem routesFrame_answer {s t : State} {moved : RouteIx → Prop} (h : s.RoutesFrame t moved) (p : PortIx) (a : Answer) :
    s.RoutesFrame (t.answer p a) moved := by
  obtain ⟨hother, hcircuits, hports, hrest⟩ := h
  refine ⟨hother, hcircuits, fun q => ?_, hrest⟩
  rw [State.answer, State.modPort_get]
  split
  · rename_i hq
    subst hq
    exact hports q
  · exact hports q

/-- What shows the changes of the routes: their health and probe records, their TEST entries and queues, the probe interval, and
the record of ROUTE_STATE at each port. -/
theorem State.ChangesMade.congr_right {s t u : State} {via : RouteIx → List RouteState} (h : s.ChangesMade t via)
    (hhealth : u.health = t.health) (hprobes : u.probes = t.probes)
    (htx : ∀ q : RouteIx, u.tx[q].testEntry = t.tx[q].testEntry ∧ u.tx[q].queue = t.tx[q].queue)
    (hcfg : u.cfg.probe = t.cfg.probe)
    (hrecords : ∀ p : PortIx, u.ports[p].records[(1 : Fin 8)] = t.ports[p].records[(1 : Fin 8)]) : s.ChangesMade u via := by
  obtain ⟨hroutes, hnotices⟩ := h
  refine ⟨fun q => ?_, fun p => (hrecords p).trans (hnotices p)⟩
  obtain ⟨htest, hqueue⟩ := htx q
  rw [hhealth, hprobes, htest, hqueue, hcfg]
  exact hroutes q

theorem changesMade_answer {s t : State} {via : RouteIx → List RouteState} (h : s.ChangesMade t via) (p : PortIx) (a : Answer) :
    s.ChangesMade (t.answer p a) via := by
  refine h.congr_right rfl rfl (fun _ => ⟨rfl, rfl⟩) rfl fun q => ?_
  rw [State.answer, State.modPort_get]
  split
  · rename_i hq
    subst hq
    rfl
  · rfl

theorem routesFrame_trans {s u t : State} {moved : RouteIx → Prop} (h : s.RoutesFrame u moved) (h' : u.RoutesFrame t moved) :
    s.RoutesFrame t moved := by
  obtain ⟨hother, hcircuits, hports, htime, hscore, hprofile, hflash, hpending, harriving⟩ := h
  obtain ⟨hother', hcircuits', hports', htime', hscore', hprofile', hflash', hpending', harriving'⟩ := h'
  refine ⟨fun q hq => ?_, fun n => Circuit.eq_of_outless ?_, fun p => Port.eq_of_lasting ?_, TimeBase.eq_of_routeless ?_,
    hscore'.trans hscore, hprofile'.trans hprofile, hflash'.trans hflash, hpending'.trans hpending, harriving'.trans harriving⟩
  · obtain ⟨hlane, hprobe, hhealth, htx⟩ := hother q hq
    obtain ⟨hlane', hprobe', hhealth', htx'⟩ := hother' q hq
    have hqueueless : t.tx[q].queueless = u.tx[q].queueless := (congrArg Tx.queueless htx' :)
    have hqueueless' : u.tx[q].queueless = s.tx[q].queueless := (congrArg Tx.queueless htx :)
    exact ⟨hlane'.trans hlane, hprobe'.trans hprobe, hhealth'.trans hhealth, Tx.eq_of_queueless (hqueueless.trans hqueueless')⟩
  · have h1 : u.circuits[n].outless = s.circuits[n].outless := (congrArg Circuit.outless (hcircuits n) :)
    exact (congrArg Circuit.outless (hcircuits' n) :).trans h1
  · have h1 : u.ports[p].lasting = s.ports[p].lasting := (congrArg Port.lasting (hports p) :)
    exact (congrArg Port.lasting (hports' p) :).trans h1
  · have h1 : u.time.routeless = s.time.routeless := (congrArg TimeBase.routeless htime :)
    exact (congrArg TimeBase.routeless htime' :).trans h1

end Sys2Proof.Machine
end

