-- ==== Sys2Proof/Proofs/ReturnedRoute.lean ====
section
/-! SUPPORT. A route that an event takes through DISABLED to PROVING (R60, R65, R66). -/

namespace Sys2Proof.Machine

/-! ### A route returned to PROVING (R60, R65, R66) -/

theorem changeNotices_append (r : RouteIx) (old : RouteState) (via : List RouteState) (new : RouteState) :
    changeNotices r old (via ++ [new]) = changeNotices r old via ++ [.routeState r (via.getLastD old) new] := by
  induction via generalizing old with
  | nil => rfl
  | cons mid via ih =>
    rw [List.cons_append, changeNotices, ih, changeNotices, List.cons_append, List.getLastD_cons]

/-- The notices of the changes of one route. -/
theorem flatMap_one (was : RouteIx → RouteState) (r : RouteIx) (via : List RouteState) :
    ((List.finRange 16).flatMap fun q => changeNotices q (was q) (viaOf [{ route := r, via := via }] q)) =
      changeNotices r (was r) via := by
  rw [flatMap_viaOf was (ordered_one r via) (List.nodup_finRange 16)]
  exact List.append_nil _

/-- A DISABLED route that goes to PROVING keeps the samples and records it has none of, and moves no copy. -/
theorem moveRoute_proving {v : State} {r : RouteIx} (hdisabled : v.health[r].state = .disabled) :
    (∀ q : RouteIx, (v.moveRoute r [.proving]).tx[q].queue = v.tx[q].queue) ∧
    (v.moveRoute r [.proving]).probes[r].ring = v.probes[r].ring ∧
    (v.moveRoute r [.proving]).probes[r].outstanding = v.probes[r].outstanding := by
  have hrecords : (v.moveRoute r [.proving]).probeRecords r = v.probeRecords r := by
    refine (State.probeRecords_of_unflushed (v.recordChange r .proving) r v.health[r].state (via := [.proving]) ?_).trans rfl
    simp
  simp only [State.probeRecords, Prod.mk.injEq] at hrecords
  refine ⟨(State.applyMoves_unsteered fun m hm => ?_).1, hrecords.1.1, hrecords.1.2⟩
  rw [List.mem_singleton] at hm
  subst hm
  refine ⟨_, rfl, .inl ?_⟩
  dsimp only
  rw [hdisabled]
  rfl

/-- The changes of one route that ends DISABLED, followed by its change to PROVING. -/
theorem changesMade_then_proving {s v : State} {r : RouteIx} {via : List RouteState}
    (hmade : s.ChangesMade v (viaOf [{ route := r, via := via }])) (hdisabled : v.health[r].state = .disabled)
    (het : v.time.et = s.time.et) (hports : ∀ p : PortIx, v.ports[p].recordless = s.ports[p].recordless) :
    s.ChangesMade (v.moveRoute r [.proving]) (viaOf [{ route := r, via := via ++ [.proving] }]) := by
  obtain ⟨hroutes, hnotices⟩ := hmade
  obtain ⟨hroutes', hnotices'⟩ := v.applyMoves_changesMade (ordered_one r [.proving])
  obtain ⟨hqueue, hring, houtstanding⟩ := moveRoute_proving hdisabled
  refine ⟨fun q => ?_, fun p => ?_⟩
  · have hfirst := hroutes q
    have hsecond := hroutes' q
    rw [viaOf_one] at hfirst hsecond ⊢
    by_cases hq : r = q
    · subst hq
      rw [if_pos rfl] at hfirst hsecond ⊢
      obtain ⟨hstate, hchanges, hlast, -, -, hflushed, hleft⟩ := hfirst
      obtain ⟨hstate', hchanges', hlast', hproving', -, -, -⟩ := hsecond
      refine ⟨?_, ?_, ?_, fun _ => het ▸ hproving' rfl, fun _ _ hnot => absurd (List.getLast?_concat ..) hnot, fun hmem => ?_,
        fun hcarries _ => ?_⟩
      · rw [List.getLastD_concat]
        exact hstate'
      · refine hchanges'.trans ?_
        rw [hchanges, List.length_append, BitVec.ofNat_add, BitVec.add_assoc]
      · rw [if_neg (List.append_ne_nil_of_right_ne_nil _ (List.cons_ne_nil _ _)), ← het]
        exact hlast'
      · have hbefore : .down ∈ via ∨ .disabled ∈ via := by simpa using hmem
        obtain ⟨hnone, hnone'⟩ := hflushed hbefore
        exact ⟨hring.trans hnone, houtstanding.trans hnone'⟩
      · rw [hqueue]
        exact hleft hcarries (by rw [hdisabled]; rfl)
    · rw [if_neg hq] at hfirst hsecond ⊢
      obtain ⟨hstate, hchanges, hlast, -⟩ := hfirst
      obtain ⟨hstate', hchanges', hlast', -⟩ := hsecond
      have hsame : (v.moveRoute r [.proving]).health[q].state = s.health[q].state := hstate'.trans hstate
      refine ⟨hsame, ?_, hlast'.trans hlast, fun h => (by cases h), fun _ h => absurd rfl h, fun h => (by simp at h),
        fun hcarries hnot => ?_⟩
      · refine hchanges'.trans ?_
        rw [hchanges]
        simp
      · rw [hsame, hcarries] at hnot
        cases hnot
  · have hfirst := hnotices p
    have hsecond := hnotices' p
    rw [flatMap_one fun q => s.health[q].state] at hfirst ⊢
    rw [flatMap_one fun q => v.health[q].state] at hsecond
    have hself := (hroutes r).1
    rw [viaOf_one, if_pos rfl] at hself
    rw [changeNotices_append, List.foldl_append, ← hself]
    have hsame : v.ports[p].SameAt 1 ((changeNotices r s.health[r].state via).foldl Port.record s.ports[p]) :=
      Port.sameAt_of_recordless ((hports p).trans (Port.foldl_record_recordless _ _).symm) hfirst
    exact hsecond.trans (hsame.foldl_record _).2.2

end Sys2Proof.Machine
end

