-- ==== Sys2Proof/Proofs/LaneRetyped.lean ====
section
/-! CHECK. SET_LANE: the settings replaced, silence brought on, and a lane that changes type (R31, R33, R34). -/

namespace Sys2Proof.Machine

/-! ### A lane that changes type (R34) -/

theorem Circuit.outless_copyCeased (x : Circuit) : x.copyCeased.outless = x.outless.copyCeased.outless := by
  unfold Circuit.copyCeased
  rcases hclosing : x.closing with _ | k
  · simp only [Circuit.outless, hclosing]
  · simp only [Circuit.outless, hclosing]
    split <;> rfl

/-- The end of a current copy, whatever the routes have moved before it (R86). -/
theorem routesFrame_copyEnds {s u : State} {r : RouteIx} (h : s.RoutesFrame u (fun q => q = r))
    (hcurrent : u.tx[r].current = s.tx[r].current) : (s.copyEnds r).RoutesFrame (u.copyEnds r) (fun q => q = r) := by
  rcases hcopy : s.tx[r].current.bind Current.copy with _ | c
  · rw [copyEnds_of_none hcopy, copyEnds_of_none (by rw [hcurrent, hcopy])]
    exact h
  · rw [copyEnds_of_some hcopy, copyEnds_of_some (by rw [hcurrent, hcopy])]
    obtain ⟨hother, hcircuits, hrest⟩ := h
    refine ⟨hother, fun n => Circuit.eq_of_outless ?_, hrest⟩
    have hsame : u.circuits[n].outless = s.circuits[n].outless := (congrArg Circuit.outless (hcircuits n) :)
    rw [State.modCircuit_get, State.modCircuit_get]
    split
    · rename_i hn
      rw [← hn, Circuit.outless_copyCeased u.circuits[n], hsame, ← Circuit.outless_copyCeased]
    · exact hsame

/-- The lane of a changed type, its frame being received abandoned (R34). -/
def Lane.retyped (ty : LaneType) (now : Ticks) (l : Lane) : Lane := l.rxAbandoned.clearReport ty now

theorem Lane.retyped_eq (ty : LaneType) (now : Ticks) (l : Lane) :
    Lane.retyped ty now l =
      { l with
        latest := none, ring := [], trend := .steady, silent := false, rx := none
        timer := if ty = .radio then some now else none
        counts := { l.counts with abandoned := l.counts.abandoned + (if l.rx.isSome then 1 else 0) } } := by
  cases ty <;> rfl

/-- The state once the frames on a lane have ended and its reports are cleared (steps 2 to 4 of R34). -/
def State.retyped (u : State) (r : RouteIx) (ty : LaneType) : State :=
  (((u.copyEnds r).modLane r (Lane.retyped ty u.time.et)).modTx r Tx.currentAbandoned).setPool
    (u.poolAfterCurrent r (u.poolAfterRx r))

theorem retyped_eq (u : State) (r : RouteIx) (ty : LaneType) :
    ((u.abandonRx r).abandonCurrent r).modLane r (fun l => l.clearReport ty ((u.abandonRx r).abandonCurrent r).time.et) =
      u.retyped r ty := by
  have het : ((u.abandonRx r).abandonCurrent r).time.et = u.time.et := by simp
  rw [het, abandonRx_eq, abandonCurrent_eq, copyEnds_setPool, copyEnds_modLane]
  have hlane : ((u.copyEnds r).modLane r Lane.rxAbandoned).modLane r (fun l => l.clearReport ty u.time.et) =
      (u.copyEnds r).modLane r (Lane.retyped ty u.time.et) := modLane_modLane ..
  exact congrArg (fun v : State => (v.modTx r Tx.currentAbandoned).setPool (u.poolAfterCurrent r (u.poolAfterRx r))) hlane

/-- What the end of a lane's frames leaves: the routes' records of health and probes, the ports, the settings and the time. -/
theorem retyped_leaves (u : State) (r : RouteIx) (ty : LaneType) :
    (u.retyped r ty).cfg = u.cfg ∧ (u.retyped r ty).health = u.health ∧ (u.retyped r ty).probes = u.probes ∧
    (u.retyped r ty).ports = u.ports ∧ (u.retyped r ty).time = u.time ∧ (u.retyped r ty).peers = u.peers ∧
    (u.retyped r ty).profile = u.profile ∧ (u.retyped r ty).lanes = u.lanes.set r (Lane.retyped ty u.time.et u.lanes[r]) ∧
    (u.retyped r ty).tx = u.tx.set r u.tx[r].currentAbandoned := by
  have hends := copyEnds_leaves u r
  have hlanes : (u.copyEnds r).lanes = u.lanes := (congrArg State.lanes hends :)
  have htx : (u.copyEnds r).tx = u.tx := (congrArg State.tx hends :)
  refine ⟨(congrArg State.cfg hends :), (congrArg State.health hends :), (congrArg State.probes hends :),
    (congrArg State.ports hends :), (congrArg State.time hends :), (congrArg State.peers hends :),
    (congrArg State.profile hends :), ?_, ?_⟩
  · show ((u.copyEnds r).modLane r _).lanes = _
    rw [State.modLane_lanes, hlanes]
  · show ((u.copyEnds r).modTx r _).tx = _
    rw [State.modTx_tx, htx]

/-- A route passes to DISABLED by one move, which is none if it stands there. -/
theorem disableRoute_eq (s : State) (r : RouteIx) :
    s.disableRoute r =
      s.applyMoves [{ route := r, via := if s.health[r].state = .disabled then [] else [.disabled] }] := by
  unfold State.disableRoute
  split <;> rfl

/-- The condition of R60 on a lane's type, on its route and on its peer. -/
theorem permitted_withLane {s v : State} {r : RouteIx} {x : LaneSettings} (hcfg : v.cfg = s.cfg.withLane r x)
    (hrun : v.profile.load = .running) :
    v.permitted r = true ↔
      s.cfg.routes[r].enable = true ∧ s.cfg.peers[s.cfg.routes[r].peer].enabled = true ∧ x.type ≠ .unused := by
  have hlane : (s.cfg.withLane r x).lanes[r] = x := (s.cfg.withLane_lanes r r x).trans (if_pos rfl)
  have hsame : v.permitted r = State.permitted { s with cfg := s.cfg.withLane r x, profile := v.profile } r :=
    State.permitted_congr (s := { s with cfg := s.cfg.withLane r x, profile := v.profile }) hcfg rfl r
  rw [hsame, State.permitted]
  dsimp only
  rw [hlane, hrun]
  simp only [Bool.and_eq_true, bne_iff_ne, ne_eq, beq_self_eq_true, and_true, and_assoc]
  rfl

/-- The move that returns a route to PROVING, where nothing holds it in DISABLED. -/
def returnVia : (permitted : Bool) → List RouteState
  | true => [.proving]
  | false => []

theorem returnVia_eq (permitted : Bool) : returnVia permitted = if permitted = true then [.proving] else [] := by
  cases permitted <;> rfl

/-- A route that passes to DISABLED, and then to PROVING where that is permitted, stands there. -/
theorem getLastD_returned (old : RouteState) (permitted : Prop) [Decidable permitted] :
    ((if old = RouteState.disabled then [] else [RouteState.disabled]) ++
        (if permitted then [RouteState.proving] else [])).getLastD old =
      if permitted then .proving else .disabled := by
  by_cases hpermitted : permitted
  · rw [if_pos hpermitted, if_pos hpermitted]
    exact List.getLastD_concat
  · rw [if_neg hpermitted, if_neg hpermitted, List.append_nil]
    split
    · assumption
    · rfl

/-- A route DISABLED for the end of its lane's frames and then returned, where nothing holds it there (R34, R60, R65, R66). -/
theorem retyped_returns {u t : State} {r : RouteIx} {ty : LaneType} (ht : t = ((u.disableRoute r).retyped r ty).returnRoute r)
    {permitted : Bool} (hpermitted : ((u.disableRoute r).retyped r ty).permitted r = permitted) :
    u.ChangesMade t (viaOf [{
      route := r, via := (if u.health[r].state = .disabled then [] else [.disabled]) ++ returnVia permitted }]) ∧
    (u.copyEnds r).RoutesFrame t (fun q => q = r) ∧
    (∀ p : PortIx, t.ports[p].recordless = u.ports[p].recordless) ∧
    t.lanes[r] = Lane.retyped ty u.time.et u.lanes[r] ∧ t.tx[r].current = none ∧ t.cfg = u.cfg ∧ t.peers = u.peers := by
  have hordered := ordered_one r (if u.health[r].state = .disabled then [] else [.disabled])
  have hmade := u.applyMoves_changesMade hordered
  have hframe := u.applyMoves_routesFrame hordered
  have hless (p : PortIx) := (u.ports_applyMoves hordered p).1
  have hair (q : RouteIx) := u.onAir_applyMoves
    [{ route := r, via := if u.health[r].state = .disabled then [] else [.disabled] }] q
  have hleaves := u.applyMoves_leaves [{ route := r, via := if u.health[r].state = .disabled then [] else [.disabled] }]
  have htime : (u.disableRoute r).time.et = u.time.et := by
    rw [disableRoute_eq]
    exact (congrArg TimeBase.et (u.applyMoves_routeless _) :)
  have hdisabled := u.state_disableRoute r
  rw [← disableRoute_eq] at hmade hframe hless hair hleaves
  obtain ⟨hcfg, hlanes, hpeers, -⟩ := hleaves
  generalize u.disableRoute r = w at *
  simp only [List.map_cons, List.map_nil, List.mem_singleton] at hframe
  obtain ⟨hcfg', hhealth', hprobes', hports', htime', hpeers', hprofile', hlanes', htx'⟩ := retyped_leaves w r ty
  have hmade' : u.ChangesMade (w.retyped r ty)
      (viaOf [{ route := r, via := if u.health[r].state = .disabled then [] else [.disabled] }]) := by
    refine hmade.congr_right hhealth' hprobes' (fun q => ?_) (by rw [hcfg']) (fun p => by rw [hports'])
    have hother : (w.modTx r Tx.currentAbandoned).tx[q].testEntry = w.tx[q].testEntry ∧
        (w.modTx r Tx.currentAbandoned).tx[q].queue = w.tx[q].queue :=
      ⟨w.modTx_proj r q Tx.testEntry fun _ => rfl, w.modTx_proj r q Tx.queue fun _ => rfl⟩
    rw [htx']
    exact hother
  have hready : (w.copyEnds r).Readies (w.retyped r ty) r :=
    (((w.copyEnds r).readies_modLane r _).trans (State.readies_modTx _ r _)).trans (State.readies_setPool _ r _)
  have hframe' : (u.copyEnds r).RoutesFrame (w.retyped r ty) (fun q => q = r) :=
    routesFrame_trans (routesFrame_copyEnds hframe (congrArg Prod.fst (hair r) :))
      (hready.routesFrame ((w.retyped r ty).routeFrame_refl r).1)
  have hless' (p : PortIx) : (w.retyped r ty).ports[p].recordless = u.ports[p].recordless := by
    rw [hports']
    exact hless p
  have hstate : (w.retyped r ty).health[r].state = .disabled := by
    rw [hhealth']
    exact hdisabled
  have het : (w.retyped r ty).time.et = u.time.et := (congrArg TimeBase.et htime' :).trans htime
  have hlane : (w.retyped r ty).lanes[r] = Lane.retyped ty u.time.et u.lanes[r] := by
    rw [hlanes', ← hlanes, ← htime]
    exact Vector.getElem_set_self ..
  have hcurrent : (w.retyped r ty).tx[r].current = none := by
    rw [htx']
    exact congrArg Tx.current (Vector.getElem_set_self ..)
  generalize w.retyped r ty = v at *
  cases hperm : permitted with
  | false =>
    have hstays : t = v := by
      rw [ht]
      exact if_neg (by rw [hpermitted, hperm, Bool.false_and]; decide)
    have hvia (l : List RouteState) : l ++ returnVia false = l := List.append_nil l
    rw [hstays, hvia]
    exact ⟨hmade', hframe', hless', hlane, hcurrent, hcfg'.trans hcfg, hpeers'.trans hpeers⟩
  | true =>
    have hmoves : t = v.moveRoute r [.proving] := by
      rw [ht]
      exact if_pos (by rw [hpermitted, hperm, hstate]; decide)
    obtain ⟨hcfg'', hlanes'', hpeers'', -⟩ := v.applyMoves_leaves [{ route := r, via := [.proving] }]
    have hframe'' := v.applyMoves_routesFrame (ordered_one r [.proving])
    simp only [List.map_cons, List.map_nil, List.mem_singleton] at hframe''
    rw [hmoves]
    refine ⟨changesMade_then_proving hmade' hstate het hless', routesFrame_trans hframe' hframe'',
      fun p => (v.ports_applyMoves (ordered_one r [.proving]) p).1.trans (hless' p), ?_, ?_,
      hcfg''.trans (hcfg'.trans hcfg), hpeers''.trans (hpeers'.trans hpeers)⟩
    · exact (congrArg (fun l : Vector Lane 16 => l[r]) hlanes'').trans hlane
    · exact (congrArg Prod.fst (v.onAir_applyMoves [{ route := r, via := [.proving] }] r) :).trans hcurrent

/-- The state in which a directive's new lane settings take effect. -/
def State.relaned (s : State) (d : Directive) (r : RouteIx) (x : LaneSettings) : State :=
  (s.taken d).setCfg ((s.taken d).cfg.withLane r x)

theorem relaned_eq (s : State) (d : Directive) (r : RouteIx) (x : LaneSettings) :
    s.relaned d r x = State.taken { s with cfg := s.cfg.withLane r x } d := rfl

theorem readies_relaned (s : State) (d : Directive) (r : RouteIx) (x : LaneSettings) (q : RouteIx) :
    s.Readies (s.relaned d r x) q := { readies_taken s d q with }

theorem relaned_lane (s : State) (d : Directive) (r : RouteIx) (x : LaneSettings) : (s.relaned d r x).cfg.lanes[r] = x :=
  ((s.taken d).cfg.withLane_lanes r r x).trans (if_pos rfl)

theorem applyLane_of_same {s : State} {d : Directive} {r : RouteIx} {x : LaneSettings} (h : x.type = s.cfg.lanes[r].type) :
    (s.taken d).applyLane r x = (s.relaned d r x).judgeSilence r := if_pos h

theorem applyLane_of_changed {s : State} {d : Directive} {r : RouteIx} {x : LaneSettings} (h : x.type ≠ s.cfg.lanes[r].type) :
    (s.taken d).applyLane r x = (((s.relaned d r x).disableRoute r).retyped r x.type).returnRoute r := by
  rw [← retyped_eq]
  exact if_neg h

theorem relaned_silenceDue (s : State) (d : Directive) (r : RouteIx) (x : LaneSettings) :
    silenceDue (s.relaned d r x).time.et (s.relaned d r x).cfg.lanes[r] (s.relaned d r x).lanes[r] =
      silenceDue s.time.et x s.lanes[r] := by
  rw [relaned_lane]
  rfl

/-- A change of settings that brings silence on (R31, R33). -/
theorem relaned_falls_silent {s t : State} {d : Directive} {r : RouteIx} {x : LaneSettings} (htype : x.type = .radio)
    (ht : t = ((s.relaned d r x).modLane r Lane.silenced).evaluate r) :
    t.cfg = s.cfg.withLane r x ∧ t.lanes[r] = s.lanes[r].silenced ∧
    t.health[r].state = (if s.health[r].state = .disabled then .disabled else .down) ∧ t.peers = s.peers ∧
    s.RoutesFrame t (fun q => q = r) ∧ s.ChangesMade t (s.oneChange t) ∧
    (∀ p : PortIx, t.ports[p].recordless = (s.taken d).ports[p].recordless) ∧
    ((s.health[r].state = .disabled ∨ s.health[r].state = .down) →
      t = State.taken { s with cfg := t.cfg, lanes := s.lanes.set r t.lanes[r] } d) := by
  have hready := readies_relaned s d r x r
  obtain ⟨hlane, hstate, ⟨hframe, hmade, hcfg, hpeers, hports⟩, hstays⟩ :=
    silence_falls (by rw [relaned_lane]; exact htype) ht
  refine ⟨hcfg, hlane, hstate, hpeers, hready.routesFrame hframe, ?_, fun p => (congrArg Port.recordless (hports p) :),
    fun hoff => ?_⟩
  · rw [hready.oneChange]
    exact hready.changesMade hmade
  · rw [hcfg]
    exact hstays hoff

/-- A change of settings that changes the lane's type (R34). -/
theorem relaned_retyped {s t : State} {d : Directive} {r : RouteIx} {x : LaneSettings} (hrun : s.profile.load = .running)
    (ht : t = (((s.relaned d r x).disableRoute r).retyped r x.type).returnRoute r) :
    t.cfg = s.cfg.withLane r x ∧ t.lanes[r] = Lane.retyped x.type s.time.et s.lanes[r] ∧ t.tx[r].current = none ∧
    t.peers = s.peers ∧ (s.copyEnds r).RoutesFrame t (fun q => q = r) ∧
    s.ChangesMade t (fun q =>
      if q = r then
        (if s.health[r].state = .disabled then [] else [.disabled]) ++
          (if s.cfg.routes[r].enable = true ∧ s.cfg.peers[s.cfg.routes[r].peer].enabled = true ∧ x.type ≠ .unused then
            [.proving]
          else [])
      else []) ∧
    ∀ p : PortIx, t.ports[p].recordless = (s.taken d).ports[p].recordless := by
  have hready := readies_relaned s d r x r
  have hleaves := retyped_leaves ((s.relaned d r x).disableRoute r) r x.type
  have hdisabled := (s.relaned d r x).disableRoute_leaves r
  have hpermitted := permitted_withLane (s := s) (v := ((s.relaned d r x).disableRoute r).retyped r x.type) (r := r) (x := x)
    (hleaves.1.trans hdisabled.1) (by rw [hleaves.2.2.2.2.2.2.1, hdisabled.2.2.2.2.1]; exact hrun)
  obtain ⟨hmade, hframe, hports, hlane, hcurrent, hcfg, hpeers⟩ := retyped_returns ht rfl
  refine ⟨hcfg, hlane, hcurrent, hpeers, ?_, ?_, hports⟩
  · have hends : ((s.relaned d r x).copyEnds r).RoutesFrame t (fun q => q = r) := hframe
    exact routesFrame_trans (routesFrame_copyEnds (hready.routesFrame ((s.relaned d r x).routeFrame_refl r).1) rfl) hends
  · refine hready.changesMade ?_
    have hvia : (fun q =>
        if q = r then
          (if s.health[r].state = .disabled then [] else [.disabled]) ++
            (if s.cfg.routes[r].enable = true ∧ s.cfg.peers[s.cfg.routes[r].peer].enabled = true ∧ x.type ≠ .unused then
              [.proving]
            else [])
        else []) = viaOf [{
          route := r
          via := (if (s.relaned d r x).health[r].state = .disabled then [] else [.disabled]) ++
            returnVia ((((s.relaned d r x).disableRoute r).retyped r x.type).permitted r) }] := by
      funext q
      simp only [viaOf_one, returnVia_eq, hpermitted, eq_comm (a := r)]
      rfl
    rw [hvia]
    exact hmade

/-- Settles O13: SET_LANE by whether the type changes and silence falls, and out of range. -/
theorem setLaneTakesEffect : Obligations.SetLaneTakesEffect := by
  unfold Obligations.SetLaneTakesEffect
  refine ⟨fun s d r x hauth hrange hargs => ?_, fun s d hauth hwild => ?_⟩
  · rw [setLane_of_inRange hauth hrange hargs]
    refine ⟨fun htype hnot => ?_, fun since hradio hwas htimer hsilent hrun => ?_, fun hchanged => ?_⟩
    · rw [applyLane_of_same htype, judgeSilence_of_not_due (by rw [relaned_silenceDue, hnot])]
      rfl
    · rw [applyLane_of_same (hradio.trans hwas.symm), judgeSilence_of_due (by
        rw [relaned_silenceDue]
        exact (silenceDue_iff ..).2 ⟨hradio, hsilent, since, htimer, hrun⟩)]
      obtain ⟨hcfg, hlane, hstate, hpeers, hframe, hmade, hports, hstays⟩ := relaned_falls_silent (s := s) (d := d) hradio rfl
      generalize ((s.relaned d r x).modLane r Lane.silenced).evaluate r = t at *
      refine ⟨_, rfl, hcfg, hlane, hstate, hpeers, routesFrame_answer hframe _ _, changesMade_answer hmade _ _,
        answers_of_recordless hports, fun hoff => ?_⟩
      exact congrArg (fun u : State => u.answer d.port { request := d.request, status := .done, results := [] }) (hstays hoff)
    · rw [applyLane_of_changed hchanged]
      obtain ⟨hcfg, hlane, hcurrent, hpeers, hframe, hmade, hports⟩ := relaned_retyped hauth.1.2.1 rfl
      generalize (((s.relaned d r x).disableRoute r).retyped r x.type).returnRoute r = t at *
      refine ⟨_, rfl, hcfg, ?_, hcurrent, ?_, fun hnot => ?_, hpeers, routesFrame_answer hframe _ _,
        changesMade_answer hmade _ _, answers_of_recordless hports⟩
      · exact hlane.trans (Lane.retyped_eq ..)
      · refine (hmade.1 r).1.trans ?_
        dsimp only
        rw [if_pos rfl]
        exact getLastD_returned _ _
      · refine (hmade.1 r).2.2.2.2.2.1 (.inr ?_)
        dsimp only
        rw [if_pos rfl, if_neg hnot]
        exact List.mem_cons_self ..
  · show Host.Outcome.next (s.operatorDirective d 10 7 (State.ownSetLane d)) = _
    rw [State.operatorDirective_of_authorised hauth, ownSetLane_of_wild _ hwild]
    rfl

end Sys2Proof.Machine
end

