-- ==== Sys2Proof/Proofs/Limits.lean ====
section
/-! SUPPORT. The ranges of each record, and operations that keep them and are nothing to the answers (R28, R39, R47, R61, R70, R100, R118, R145, R149, R173). -/

namespace Sys2Proof.Machine

/-! ### The ranges of one record -/

/-- The RSL ring of a lane is within its capacity (R28). -/
def Lane.Bounded (l : Lane) : Prop := l.ring.length ≤ 8

/-- A probe record's table, its sample ring and its pattern-error count are within their ranges (R39, R47, R69). -/
def Probe.Bounded (x : Probe) : Prop := x.outstanding.length ≤ 8 ∧ x.ring.length ≤ 8 ∧ x.errorsToTell ≤ 255

/-- The counts of a health record are within their ranges (R61, R70). -/
def Health.Bounded (h : Health) : Prop := h.error ≤ 255 ∧ h.good ≤ 255

/-- The queues of a transmit record are within their capacities (R42, R100, R118). -/
def Tx.Bounded (t : Tx) : Prop := t.queue.length ≤ 48 ∧ t.echoes.length ≤ 4

/-- A lateness sum is within its range (R145). -/
def Score.Bounded (x : Score) : Prop := x.lateness ≤ Config.latenessMax

/-- The delivery queue and the pending records of a port are within their ranges (R149, R173). -/
def Port.Bounded (x : Port) : Prop := x.delivery.length ≤ 64 ∧ ∀ k : Fin 8, x.records[k].count ≤ 255

/-- Every record of the state is within its ranges. -/
def State.RecordsBounded (s : State) : Prop :=
  (∀ r : RouteIx, s.lanes[r].Bounded) ∧ (∀ r : RouteIx, s.probes[r].Bounded) ∧ (∀ r : RouteIx, s.health[r].Bounded) ∧
  (∀ r : RouteIx, s.tx[r].Bounded) ∧ (∀ r : RouteIx, s.score[r].Bounded) ∧ ∀ p : PortIx, s.ports[p].Bounded

theorem State.recordsBounded_iff (s : State) : s.RecordsBounded ↔ s.Bounded := by
  constructor
  · rintro ⟨hlanes, hprobes, hhealth, htx, hscore, hports⟩
    refine ⟨fun r => ?_, hports⟩
    obtain ⟨houtstanding, hring, herrors⟩ := hprobes r
    obtain ⟨herror, hgood⟩ := hhealth r
    obtain ⟨hqueue, hechoes⟩ := htx r
    exact ⟨hlanes r, houtstanding, hring, herrors, herror, hgood, hqueue, hechoes, hscore r⟩
  · rintro ⟨hroutes, hports⟩
    refine ⟨fun r => ?_, fun r => ?_, fun r => ?_, fun r => ?_, fun r => ?_, hports⟩ <;>
      obtain ⟨hlane, houtstanding, hring, herrors, herror, hgood, hqueue, hechoes, hscore⟩ := hroutes r
    · exact hlane
    · exact ⟨houtstanding, hring, herrors⟩
    · exact ⟨herror, hgood⟩
    · exact ⟨hqueue, hechoes⟩
    · exact hscore

/-! ### Operations that keep every record in its ranges and are nothing to the answers -/

/-- `t` keeps of `s` that every record is within its ranges, and leaves the answers that wait, those owed, and what of the profile
unit says when one may be owed (R166, R176, R190). -/
structure State.Calm (s t : State) : Prop where
  bounds : s.RecordsBounded → t.RecordsBounded
  answers : ∀ p : PortIx, t.ports[p].answers = s.ports[p].answers ∧ t.ports[p].saveOwed = s.ports[p].saveOwed
  load : t.profile.load = s.profile.load
  save : t.profile.save = s.profile.save
  restartOwed : t.profile.restartOwed = s.profile.restartOwed

theorem State.Calm.refl (s : State) : s.Calm s where
  bounds := id
  answers _ := ⟨rfl, rfl⟩
  load := rfl
  save := rfl
  restartOwed := rfl

theorem State.Calm.trans {s t u : State} (h : s.Calm t) (h' : t.Calm u) : s.Calm u where
  bounds := h'.bounds ∘ h.bounds
  answers p := ⟨(h'.answers p).1.trans (h.answers p).1, (h'.answers p).2.trans (h.answers p).2⟩
  load := h'.load.trans h.load
  save := h'.save.trans h.save
  restartOwed := h'.restartOwed.trans h.restartOwed

/-- What touches no lane, probe, health, transmit or score record, no port and nothing of the profile unit. -/
theorem State.Calm.of_frame {s t : State} (hlanes : t.lanes = s.lanes) (hprobes : t.probes = s.probes)
    (hhealth : t.health = s.health) (htx : t.tx = s.tx) (hscore : t.score = s.score) (hports : t.ports = s.ports)
    (hprofile : t.profile = s.profile) : s.Calm t where
  bounds h := by
    rw [State.RecordsBounded, hlanes, hprobes, hhealth, htx, hscore, hports]
    exact h
  answers p := by rw [hports]; exact ⟨rfl, rfl⟩
  load := by rw [hprofile]
  save := by rw [hprofile]
  restartOwed := by rw [hprofile]

theorem State.Calm.foldl {α : Type} {f : State → α → State} (h : ∀ (s : State) (a : α), s.Calm (f s a)) (l : List α)
    (s : State) : s.Calm (l.foldl f s) := by
  induction l generalizing s with
  | nil => exact .refl s
  | cons a l ih => exact (h s a).trans (ih _)

theorem State.calm_forRoutes (s : State) {f : RouteIx → State → State} (h : ∀ r s, State.Calm s (f r s)) :
    s.Calm (s.forRoutes f) := State.Calm.foldl (fun s r => h r s) _ s

/-- A property of every element of a vector, once one element has been set. -/
theorem forall_set {α : Type} {n : Nat} {P : α → Prop} {v : Vector α n} (i : Fin n) {x : α} (h : ∀ j : Fin n, P v[j])
    (hx : P v[i] → P x) (j : Fin n) : P (v.set i x)[j] := by
  by_cases hj : i = j
  · subst hj
    have hself : (v.set i x)[i] = x := Vector.getElem_set_self ..
    rw [hself]
    exact hx (h i)
  · have hother : (v.set i x)[j] = v[j] := Vector.getElem_set_ne _ _ fun e => hj (Fin.ext e)
    rw [hother]
    exact h j

theorem State.calm_modLane (s : State) (r : RouteIx) {f : Lane → Lane} (h : s.lanes[r].Bounded → (f s.lanes[r]).Bounded) :
    s.Calm (s.modLane r f) :=
  { State.Calm.refl s with
    bounds := fun ⟨hlanes, hrest⟩ => ⟨forall_set r hlanes h, hrest⟩ }

theorem State.calm_modProbe (s : State) (r : RouteIx) {f : Probe → Probe} (h : s.probes[r].Bounded → (f s.probes[r]).Bounded) :
    s.Calm (s.modProbe r f) :=
  { State.Calm.refl s with
    bounds := fun ⟨hlanes, hprobes, hrest⟩ => ⟨hlanes, forall_set r hprobes h, hrest⟩ }

theorem State.calm_modHealth (s : State) (r : RouteIx) {f : Health → Health}
    (h : s.health[r].Bounded → (f s.health[r]).Bounded) : s.Calm (s.modHealth r f) :=
  { State.Calm.refl s with
    bounds := fun ⟨hlanes, hprobes, hhealth, hrest⟩ => ⟨hlanes, hprobes, forall_set r hhealth h, hrest⟩ }

theorem State.calm_modTx (s : State) (r : RouteIx) {f : Tx → Tx} (h : s.tx[r].Bounded → (f s.tx[r]).Bounded) :
    s.Calm (s.modTx r f) :=
  { State.Calm.refl s with
    bounds := fun ⟨hlanes, hprobes, hhealth, htx, hrest⟩ => ⟨hlanes, hprobes, hhealth, forall_set r htx h, hrest⟩ }

theorem State.calm_modScore (s : State) (r : RouteIx) {f : Score → Score} (h : s.score[r].Bounded → (f s.score[r]).Bounded) :
    s.Calm (s.modScore r f) :=
  { State.Calm.refl s with
    bounds := fun ⟨hlanes, hprobes, hhealth, htx, hscore, hports⟩ =>
      ⟨hlanes, hprobes, hhealth, htx, forall_set r hscore h, hports⟩ }

theorem State.calm_modPort (s : State) (p : PortIx) {f : Port → Port} (h : s.ports[p].Bounded → (f s.ports[p]).Bounded)
    (hanswers : (f s.ports[p]).answers = s.ports[p].answers) (howed : (f s.ports[p]).saveOwed = s.ports[p].saveOwed) :
    s.Calm (s.modPort p f) :=
  { State.Calm.refl s with
    bounds := fun ⟨hlanes, hprobes, hhealth, htx, hscore, hports⟩ =>
      ⟨hlanes, hprobes, hhealth, htx, hscore, forall_set p hports h⟩
    answers := fun q => by
      rw [State.modPort_get]
      split
      · rename_i hq
        rw [hq]
        exact ⟨hanswers, howed⟩
      · exact ⟨rfl, rfl⟩ }

theorem State.calm_mapPorts (s : State) {f : Port → Port}
    (h : ∀ x : Port, (x.Bounded → (f x).Bounded) ∧ (f x).answers = x.answers ∧ (f x).saveOwed = x.saveOwed) :
    s.Calm (s.mapPorts f) :=
  { State.Calm.refl s with
    bounds := fun ⟨hlanes, hprobes, hhealth, htx, hscore, hports⟩ =>
      ⟨hlanes, hprobes, hhealth, htx, hscore, fun p => by
        rw [State.mapPorts_get]
        exact (h _).1 (hports p)⟩
    answers := fun p => by
      rw [State.mapPorts_get]
      exact (h _).2 }

theorem State.calm_setCfg (s : State) (c : Settings) : s.Calm (s.setCfg c) := .of_frame rfl rfl rfl rfl rfl rfl rfl

theorem State.calm_setTime (s : State) (t : TimeBase) : s.Calm (s.setTime t) := .of_frame rfl rfl rfl rfl rfl rfl rfl

theorem State.calm_setPool (s : State) (p : Pool) : s.Calm (s.setPool p) := .of_frame rfl rfl rfl rfl rfl rfl rfl

theorem State.calm_modCircuit (s : State) (n : CircIx) (f : Circuit → Circuit) : s.Calm (s.modCircuit n f) :=
  .of_frame rfl rfl rfl rfl rfl rfl rfl

theorem State.calm_modPeer (s : State) (p : PeerIx) (f : PeerSel → PeerSel) : s.Calm (s.modPeer p f) :=
  .of_frame rfl rfl rfl rfl rfl rfl rfl

theorem State.calm_modSel (s : State) (r : RouteIx) (f : RouteSel → RouteSel) : s.Calm (s.modSel r f) :=
  .of_frame rfl rfl rfl rfl rfl rfl rfl

theorem State.calm_release (s : State) (k : Nat) : s.Calm (s.release k) := s.calm_setPool _

theorem State.calm_updateFrame (s : State) (k : Nat) (g : Frame → Frame) : s.Calm (s.updateFrame k g) := s.calm_setPool _

theorem State.calm_rechoose (s : State) : s.Calm s.rechoose := s.calm_setTime _

/-! ### Notices (R173) -/

/-- A port keeps its pending records in range as it records a notice, and nothing else of it changes (R173). -/
theorem Port.bounded_record (x : Port) (n : Notice) :
    (x.Bounded → (x.record n).Bounded) ∧ (x.record n).answers = x.answers ∧ (x.record n).saveOwed = x.saveOwed := by
  have hless := x.recordless_record n
  refine ⟨fun ⟨hdelivery, hrecords⟩ => ⟨?_, fun k => ?_⟩, (congrArg Port.answers hless :), (congrArg Port.saveOwed hless :)⟩
  · have hsame : (x.record n).delivery = x.delivery := (congrArg Port.delivery hless :)
    rw [hsame]
    exact hdelivery
  · by_cases hk : n.kind = k
    · subst hk
      unfold Port.record
      split
      · have hself : (x.records.set n.kind { count := min 255 (x.records[n.kind].count + 1), latest := some n })[n.kind] =
            { count := min 255 (x.records[n.kind].count + 1), latest := some n } := Vector.getElem_set_self ..
        dsimp only
        rw [hself]
        exact Nat.min_le_left ..
      · exact hrecords _
    · rw [x.record_records_other n hk]
      exact hrecords k

theorem State.calm_raiseAt (s : State) (p : PortIx) (n : Notice) : s.Calm (s.raiseAt p n) := by
  obtain ⟨hbounded, hanswers, howed⟩ := s.ports[p].bounded_record n
  exact s.calm_modPort p hbounded hanswers howed

theorem State.calm_raiseAll (s : State) (n : Notice) : s.Calm (s.raiseAll n) := s.calm_mapPorts fun x => x.bounded_record n

/-! ### The time base -/

theorem State.calm_enterTimeState (s : State) (new : TimeState) : s.Calm (s.enterTimeState new) := by
  unfold State.enterTimeState
  split
  · exact .refl s
  · exact (s.calm_setTime _).trans (State.calm_raiseAll _ _)

theorem State.calm_acceptOffset (s : State) (θ : Int) (interval : Nat) : s.Calm (s.acceptOffset θ interval) := by
  unfold State.acceptOffset State.stepTime
  dsimp only
  split
  · exact (((s.calm_setTime _).trans (State.calm_setTime _ _)).trans (State.calm_raiseAll _ _)).trans
      (State.calm_enterTimeState _ _)
  · exact ((s.calm_setTime _).trans (State.calm_setTime _ _)).trans (State.calm_enterTimeState _ _)

theorem State.calm_judgeHoldover (s : State) : s.Calm s.judgeHoldover := by
  unfold State.judgeHoldover
  split
  · exact (s.calm_setTime _).trans (State.calm_enterTimeState _ _)
  · exact .refl s

theorem State.calm_ppsEdge (s : State) : s.Calm s.ppsEdge := by
  unfold State.ppsEdge
  dsimp only
  split
  · exact s.calm_setTime _
  · split
    · exact (s.calm_setTime _).trans (State.calm_acceptOffset _ _ _)
    · exact s.calm_setTime _

end Sys2Proof.Machine
end

