-- ==== Sys2Proof/Proofs/LimitsOfRoutes.lean ====
section
/-! SUPPORT. Copies placed and re-steered, routes that move, resolutions and frames that end keep every record in its ranges (R53, R61, R65, R66, R105). -/

namespace Sys2Proof.Machine

/-! ### The route selector and the waiting queues (R100 to R110, R128) -/

theorem State.calm_countDiscard (s : State) (r : RouteIx) (c : Copy) (reason : DiscardReason) :
    s.Calm (s.countDiscard r c reason) := by
  unfold State.countDiscard
  split
  · exact (s.calm_modCircuit _ _).trans (State.calm_raiseAt _ _ _)
  · exact .refl s

/-- A copy joins a queue that has room (R100). -/
theorem State.calm_enqueue {s : State} {r : RouteIx} (hroom : s.tx[r].queue.length < Config.queueMax) (c : Copy) :
    s.Calm (s.enqueue r c) :=
  s.calm_modTx r fun ⟨_, hechoes⟩ => ⟨by rw [List.length_append]; exact hroom, hechoes⟩

/-- An eligible route has room (R100). -/
theorem State.eligible_room {s : State} {peer : PeerIx} {r : RouteIx} (h : r ∈ s.eligible peer) :
    s.tx[r].queue.length < Config.queueMax := by
  rw [State.eligible, List.mem_filter, State.open_, Bool.and_eq_true, Bool.and_eq_true] at h
  exact of_decide_eq_true h.2.2.2

/-- The route a re-steer finds has room (R110). -/
theorem State.resteerTarget_room {s : State} {r r' : RouteIx} {c : Copy} (h : s.resteerTarget r c = some r') :
    s.tx[r'].queue.length < Config.queueMax := by
  unfold State.resteerTarget at h
  split at h
  · cases h
  · exact State.eligible_room (List.mem_filter.1 (State.primary_mem h)).1

/-- The copies of a placement join the queues of two routes with room (R103, R104). -/
theorem State.calm_place {s s' : State} {n : CircIx} {port : PortIx} {peer : PeerIx} {cls : TrafficClass} {k len : Nat}
    {origin : Ticks} (h : s.place n port peer cls k len origin = some s') : s.Calm s' := by
  unfold State.place at h
  dsimp only at h
  split at h
  · cases h
  · rename_i r hprimary
    cases h
    refine Calm.trans ?_ (State.calm_modCircuit _ _ _)
    refine Calm.trans ?_ (State.calm_updateFrame _ _ _)
    have hroom := State.eligible_room (State.primary_mem hprimary)
    split
    · exact (State.calm_enqueue hroom _).trans (State.calm_modSel _ _ _)
    · rename_i r' hshadow
      have hother : r' ∈ s.eligible peer ∧ r' ≠ r := by
        split at hshadow
        · have hmem := List.mem_filter.1 (leastBy_mem hshadow)
          exact ⟨hmem.1, of_decide_eq_true hmem.2⟩
        · cases hshadow
      refine Calm.trans (Calm.trans ?_ (State.calm_enqueue ?_ _)) (State.calm_modSel _ _ _)
      · exact (State.calm_enqueue hroom _).trans (State.calm_modSel _ _ _)
      · have hsame (c : Copy) : (s.enqueue r c).tx[r'] = s.tx[r'] := s.modTx_get_other r r' _ hother.2
        rw [State.modSel_tx, hsame]
        exact State.eligible_room hother.1

theorem State.calm_resteerCopy (s : State) (r : RouteIx) (c : Copy) : s.Calm (s.resteerCopy r c) := by
  unfold State.resteerCopy
  split
  · exact (s.calm_release _).trans (State.calm_modTx _ r id)
  · split
    · exact ((s.calm_countDiscard r c _).trans (State.calm_release _ _)).trans (State.calm_modTx _ r id)
    · split
      · rename_i r' htarget
        exact ((State.calm_enqueue (State.resteerTarget_room htarget) c).trans (State.calm_modSel _ _ _)).trans
          (State.calm_modTx _ r id)
      · exact ((s.calm_countDiscard r c _).trans (State.calm_release _ _)).trans (State.calm_modTx _ r id)

theorem State.calm_resteer (s : State) (r : RouteIx) : s.Calm (s.resteer r) :=
  (s.calm_modTx r fun ⟨_, hechoes⟩ => ⟨Nat.zero_le _, hechoes⟩).trans
    (Calm.foldl (fun t c => t.calm_resteerCopy r c) _ _)

/-! ### Changes of route state (R65, R76) -/

theorem State.calm_requestProbe (s : State) (r : RouteIx) : s.Calm (s.requestProbe r) := by
  unfold State.requestProbe
  split
  · exact s.calm_modProbe r id
  · exact s.calm_modTx r id

theorem State.calm_requestTest (s : State) (r : RouteIx) : s.Calm (s.requestTest r) := by
  unfold State.requestTest
  split
  · exact s.calm_modHealth r id
  · exact s.calm_modTx r id

theorem State.calm_settle (s : State) (r : RouteIx) (old new : RouteState) : s.Calm (s.settle r old new) := by
  have hite {c : Prop} [Decidable c] {u v : State} (hu : s.Calm u) (hv : s.Calm v) : s.Calm (if c then u else v) := by
    split
    · exact hu
    · exact hv
  have hleave (u : State) (h : s.Calm u) : s.Calm (u.leaveProving r) :=
    (h.trans (u.calm_modHealth r id)).trans (State.calm_modTx _ r id)
  have henter (u : State) (h : s.Calm u) : s.Calm (u.enterProving r) :=
    (h.trans (u.calm_requestTest r)).trans (State.calm_modHealth _ r fun _ => ⟨Nat.zero_le _, Nat.zero_le _⟩)
  have hflush (u : State) (h : s.Calm u) : s.Calm (u.flush r) :=
    h.trans (u.calm_modProbe r fun ⟨_, _, herrors⟩ => ⟨Nat.zero_le _, Nat.zero_le _, herrors⟩)
  have hdisable (u : State) (h : s.Calm u) : s.Calm (u.disableEffects r) :=
    (h.trans (u.calm_modProbe r fun ⟨houtstanding, hring, _⟩ => ⟨houtstanding, hring, Nat.zero_le _⟩)).trans
      (State.calm_modTx _ r fun ⟨hqueue, _⟩ => ⟨hqueue, Nat.zero_le _⟩)
  have hstart (u : State) (h : s.Calm u) : s.Calm (u.startProbes r) :=
    (h.trans (u.calm_requestProbe r)).trans (State.calm_modProbe _ r id)
  have h1 := hite (c := old = .proving) (hleave s (.refl s)) (.refl s)
  have h2 := hite (c := new = .proving) (henter _ h1) h1
  have h3 := hite (c := new = .down ∨ new = .disabled) (hflush _ h2) h2
  have h4 := hite (c := new = .disabled) (hdisable _ h3) h3
  exact hite (hstart _ h4) h4

theorem State.calm_consequences (s : State) (r : RouteIx) (old new : RouteState) : s.Calm (s.consequences r old new) := by
  rw [State.consequences_eq]
  refine Calm.trans ?_ (State.calm_raiseAll _ _)
  have hsettled := (s.calm_settle r old new).trans (State.calm_rechoose _)
  split
  · exact hsettled.trans (State.calm_resteer _ r)
  · exact hsettled

theorem State.calm_moveConsequences (s : State) (r : RouteIx) (old : RouteState) (via : List RouteState) :
    s.Calm (s.moveConsequences r old via) := by
  induction via generalizing s old with
  | nil => exact .refl s
  | cons new via ih => exact (s.calm_consequences r old new).trans (ih _ _)

theorem State.calm_applyMoves (s : State) (moves : List Move) : s.Calm (s.applyMoves moves) := by
  have hrecord (u : State) (m : Move) : u.Calm (u.recordMove m) :=
    Calm.foldl (fun v _ => v.calm_modHealth m.route id) _ _
  exact (Calm.foldl hrecord moves s).trans (Calm.foldl (fun u _ => u.calm_moveConsequences _ _ _) _ _)

theorem State.calm_disableRoute (s : State) (r : RouteIx) : s.Calm (s.disableRoute r) := by
  unfold State.disableRoute
  split
  · exact .refl s
  · exact s.calm_applyMoves _

theorem State.calm_returnRoute (s : State) (r : RouteIx) : s.Calm (s.returnRoute r) := by
  unfold State.returnRoute
  split
  · exact s.calm_applyMoves _
  · exact .refl s

theorem State.calm_evaluate (s : State) (r : RouteIx) : s.Calm (s.evaluate r) := by
  unfold State.evaluate
  split
  · exact .refl s
  · exact s.calm_applyMoves _

/-! ### Resolutions (R48, R61, R70) -/

theorem moveError_le (error : Nat) (change : Int) : moveError error change ≤ 255 := by
  unfold moveError
  omega

theorem Resolution.window_le (good : Nat) (res : Resolution) : res.window good ≤ 255 := by
  cases res with
  | good errors =>
    show (if errors = 0 then min 255 (good + 1) else 0) ≤ 255
    split
    · exact Nat.min_le_left ..
    · exact Nat.zero_le _
  | badSample errors => exact Nat.zero_le _
  | lost => exact Nat.zero_le _

theorem State.calm_resolve (s : State) (r : RouteIx) (res : Resolution) : s.Calm (s.resolve r res) := by
  refine Calm.trans (s.calm_modHealth r fun ⟨_, hgood⟩ => ⟨moveError_le .., ?_⟩) (State.calm_evaluate _ r)
  dsimp only
  split
  · exact Resolution.window_le ..
  · exact hgood

theorem State.calm_crcFailure (s : State) (r : RouteIx) : s.Calm (s.crcFailure r) :=
  (s.calm_modHealth r fun ⟨_, hgood⟩ => ⟨moveError_le .., hgood⟩).trans (State.calm_evaluate _ r)

/-- A record that leaves the outstanding table (R39, R48). -/
theorem Probe.Bounded.erase {x : Probe} (h : x.Bounded) (o : Outstanding) {y : Probe}
    (hy : y.outstanding = x.outstanding.erase o ∧ y.ring = x.ring ∧ y.errorsToTell = x.errorsToTell) : y.Bounded := by
  obtain ⟨houtstanding, hring, herrors⟩ := h
  obtain ⟨h1, h2, h3⟩ := hy
  rw [Probe.Bounded, h1, h2, h3]
  exact ⟨List.length_erase_le.trans houtstanding, hring, herrors⟩

theorem State.calm_loseProbe (s : State) (r : RouteIx) (o : Outstanding) : s.Calm (s.loseProbe r o) :=
  (s.calm_modProbe r fun h => h.erase o ⟨rfl, rfl, rfl⟩).trans (State.calm_resolve _ r _)

theorem State.calm_loseDue (s : State) (r : RouteIx) (fuel : Nat) : s.Calm (s.loseDue r fuel) := by
  induction fuel generalizing s with
  | zero => exact .refl s
  | succ fuel ih =>
    unfold State.loseDue
    split
    · exact .refl s
    · exact (s.calm_loseProbe r _).trans (ih _)

theorem State.calm_judgeSilence (s : State) (r : RouteIx) : s.Calm (s.judgeSilence r) := by
  unfold State.judgeSilence
  split
  · exact (s.calm_modLane r fun _ => Nat.zero_le _).trans (State.calm_evaluate _ r)
  · exact .refl s

/-! ### Frames that end (R126, R127, R138) -/

theorem State.calm_endCurrent (s : State) (r : RouteIx) : s.Calm (s.endCurrent r) := by
  unfold State.endCurrent
  split
  · exact .refl s
  · dsimp only
    split
    · exact s.calm_modTx r id
    · exact ((s.calm_modTx r id).trans (State.calm_release _ _)).trans (State.calm_modCircuit _ _ _)

theorem State.calm_abandonCurrent (s : State) (r : RouteIx) : s.Calm (s.abandonCurrent r) := by
  unfold State.abandonCurrent
  split
  · exact .refl s
  · exact (s.calm_endCurrent r).trans (State.calm_modTx _ r id)

theorem State.calm_dropRx (s : State) (r : RouteIx) : s.Calm (s.dropRx r) := by
  unfold State.dropRx
  split
  · exact .refl s
  · dsimp only
    split
    · exact (s.calm_modLane r id).trans (State.calm_release _ _)
    · exact s.calm_modLane r id

theorem State.calm_abandonRx (s : State) (r : RouteIx) : s.Calm (s.abandonRx r) := by
  unfold State.abandonRx
  split
  · exact .refl s
  · exact (s.calm_dropRx r).trans (State.calm_modLane _ r id)

end Sys2Proof.Machine
end

