-- ==== Sys2Proof/Proofs/LimitsOfFrames.lean ====
section
/-! SUPPORT. Offers, frames that arrive and the lane unit keep every record in its ranges (R23 to R34, R42, R47, R70, R145, R149). -/

namespace Sys2Proof.Machine

/-! ### Offers (R40, R44, R68, R120 to R125) -/

theorem State.calm_sendEcho {s : State} {r : RouteIx} {e : EchoEntry} {rest : List EchoEntry}
    (h : s.tx[r].echoes = e :: rest) : s.Calm (s.sendEcho r e rest) := by
  refine Calm.trans (Calm.trans (s.calm_modTx r id) (State.calm_modTx _ r fun ⟨hqueue, hechoes⟩ => ⟨hqueue, ?_⟩))
    (State.calm_modProbe _ r id)
  rw [State.modTx_get_self] at hechoes
  dsimp only at hechoes ⊢
  rw [h, List.length_cons] at hechoes
  omega

theorem State.calm_sendProbe {s : State} {r : RouteIx} (hroom : s.probes[r].outstanding.length < Config.outstandingMax) :
    s.Calm (s.sendProbe r) := by
  unfold State.sendProbe
  dsimp only
  refine Calm.trans (Calm.trans (s.calm_modTx r id) (State.calm_modTx _ r id)) (State.calm_modProbe _ r ?_)
  rintro ⟨_, hring, herrors⟩
  refine ⟨?_, hring, herrors⟩
  rw [List.length_append]
  exact hroom

theorem State.calm_skipProbe (s : State) (r : RouteIx) : s.Calm (s.skipProbe r) :=
  (s.calm_modTx r id).trans (State.calm_modProbe _ r id)

theorem State.calm_sendTest (s : State) (r : RouteIx) : s.Calm (s.sendTest r) :=
  ((s.calm_modTx r id).trans (State.calm_modTx _ r id)).trans (State.calm_modHealth _ r id)

/-- A copy that leaves a waiting queue (R124, R125). -/
theorem Tx.Bounded.erase {x y : Tx} (h : x.Bounded) (c : Copy) (hy : y.queue = x.queue.erase c ∧ y.echoes = x.echoes) :
    y.Bounded := by
  obtain ⟨hqueue, hechoes⟩ := h
  rw [Tx.Bounded, hy.1, hy.2]
  exact ⟨List.length_erase_le.trans hqueue, hechoes⟩

theorem State.calm_expireAtStart (s : State) (r : RouteIx) (c : Copy) : s.Calm (s.expireAtStart r c) :=
  ((s.calm_modTx r fun h => h.erase c ⟨rfl, rfl⟩).trans (State.calm_countDiscard _ r c _)).trans (State.calm_release _ _)

theorem State.calm_startCargo (s : State) (r : RouteIx) (c : Copy) (slot : Option (Fin 16)) :
    s.Calm (s.startCargo r c slot) := by
  have hcounted (u : State) : u.Calm (u.countStart c) := by
    unfold State.countStart
    split
    · exact (u.calm_updateFrame _ _).trans (State.calm_modCircuit _ _ _)
    · exact .refl u
  refine Calm.trans (s.calm_modTx r ?_) (hcounted _)
  exact fun h => h.erase c ⟨rfl, rfl⟩

theorem State.calm_grantLoop (s : State) (r : RouteIx) (fuel : Nat) : s.Calm (s.grantLoop r fuel) := by
  induction fuel generalizing s with
  | zero => exact .refl s
  | succ fuel ih =>
    unfold State.grantLoop
    split
    · exact .refl s
    · rename_i c slot _
      have hgranted (u : State) (hu : s.Calm u) :
          s.Calm (if u.expired c then (u.expireAtStart r c).grantLoop r fuel else u.startCargo r c slot) := by
        split
        · exact (hu.trans (u.calm_expireAtStart r c)).trans (ih _)
        · exact hu.trans (u.calm_startCargo r c slot)
      cases slot with
      | none => exact hgranted _ (s.calm_modTx r id)
      | some i => exact hgranted s (.refl s)

theorem State.calm_offerTest (s : State) (r : RouteIx) : s.Calm (s.offerTest r) := by
  unfold State.offerTest State.offerCargo
  split
  · exact s.calm_sendTest r
  · split
    · exact s.calm_grantLoop r _
    · exact .refl s

theorem State.calm_offer (s : State) (r : RouteIx) : s.Calm (s.offer r) := by
  unfold State.offer State.offerProbe
  split
  · split
    · exact State.calm_sendEcho ‹_›
    · split
      · split
        · exact State.calm_sendProbe ‹_›
        · exact (s.calm_skipProbe r).trans (State.calm_offerTest _ r)
      · exact s.calm_offerTest r
  · exact .refl s

/-! ### Arrival (R42, R45 to R52, R69, R136 to R152) -/

theorem State.calm_frameStart (s : State) (r : RouteIx) (first : Byte) : s.Calm (s.frameStart r first) := by
  have hbegin (u : State) (store : RxStore) : u.Calm (u.beginRx r first store) := u.calm_modLane r id
  unfold State.frameStart
  split
  · exact hbegin s _
  · split
    · split
      · exact (s.calm_setPool _).trans (hbegin _ _)
      · exact ((s.calm_setPool _).trans (State.calm_modScore _ r id)).trans (hbegin _ _)
    · exact hbegin s _

theorem State.calm_answerProbe (s : State) (r : RouteIx) (n : Byte) (t1 t2 : Stamp) : s.Calm (s.answerProbe r n t1 t2) := by
  unfold State.answerProbe
  split
  · rename_i hroom
    refine Calm.trans (s.calm_modTx r fun ⟨hqueue, _⟩ => ⟨hqueue, ?_⟩)
      (State.calm_modProbe _ r fun ⟨houtstanding, hring, _⟩ => ⟨houtstanding, hring, Nat.zero_le _⟩)
    rw [List.length_append]
    exact hroom
  · exact s.calm_modProbe r id

theorem State.calm_gateOffset (s : State) (r : RouteIx) (x : Sample) : s.Calm (s.gateOffset r x) := by
  unfold State.gateOffset
  split
  · exact (s.calm_modProbe r id).trans (State.calm_acceptOffset _ _ _)
  · exact .refl s

theorem length_enterSample (ring : List Sample) (x : Sample) (h : ring.length ≤ 8) : (enterSample ring x).length ≤ 8 := by
  unfold enterSample
  rw [List.length_append, List.length_singleton]
  split
  · assumption
  · rw [List.length_drop]
    omega

theorem State.calm_goodSample (s : State) (r : RouteIx) (o : Outstanding) (x : Sample) (state errors : Byte) :
    s.Calm (s.goodSample r o x state errors) :=
  ((((s.calm_modProbe r fun ⟨houtstanding, hring, herrors⟩ =>
    ⟨List.length_erase_le.trans houtstanding, length_enterSample _ x hring, herrors⟩).trans (State.calm_rechoose _)).trans
    (State.calm_gateOffset _ r x)).trans (State.calm_modProbe _ r id)).trans (State.calm_resolve _ r _)

theorem State.calm_badSample (s : State) (r : RouteIx) (o : Outstanding) (state errors : Byte) :
    s.Calm (s.badSample r o state errors) :=
  ((s.calm_modProbe r fun h => h.erase o ⟨rfl, rfl, rfl⟩).trans (State.calm_modProbe _ r id)).trans (State.calm_resolve _ r _)

theorem State.calm_resolveEcho (s : State) (r : RouteIx) (n : Byte) (t1 t2 t3 t4 : Stamp) (errors state : Byte) :
    s.Calm (s.resolveEcho r n t1 t2 t3 t4 errors state) := by
  unfold State.resolveEcho
  split
  · exact s.calm_modProbe r id
  · split
    · exact s.calm_badSample r _ _ _
    · exact s.calm_goodSample r _ _ _ _

theorem State.calm_checkTest (s : State) (r : RouteIx) (seed : BitVec 16) (bs : List Byte) :
    s.Calm (s.checkTest r seed bs) := by
  unfold State.checkTest
  dsimp only
  split
  · exact s.calm_modHealth r id
  · exact ((s.calm_modHealth r id).trans (State.calm_modHealth _ r id)).trans
      (State.calm_modProbe _ r fun ⟨houtstanding, hring, _⟩ => ⟨houtstanding, hring, Nat.min_le_left ..⟩)

theorem State.calm_deliver (s : State) (n : CircIx) (port : PortIx) (k : Nat) (seq : BitVec 16) :
    s.Calm (s.deliver n port k seq) := by
  have hoverrun := (s.calm_release k).trans
    (State.calm_modCircuit _ n fun x => { x with inn := { x.inn with overrun := x.inn.overrun + 1 } })
  unfold State.deliver
  split
  · exact hoverrun
  · split
    · exact hoverrun.trans (State.calm_raiseAt _ _ _)
    · rename_i hroom
      refine s.calm_modPort port (fun ⟨_, hrecords⟩ => ⟨?_, hrecords⟩) rfl rfl
      rw [List.length_append]
      exact Nat.lt_of_not_le hroom

theorem State.calm_relayFails (s : State) (n : CircIx) (port : PortIx) (k : Nat) (seq : BitVec 16) :
    s.Calm (s.relayFails n port k seq) :=
  ((s.calm_release k).trans (State.calm_modCircuit _ n _)).trans (State.calm_raiseAt _ _ _)

theorem State.calm_relay (s : State) (n target : CircIx) (port : PortIx) (k len : Nat) (seq : BitVec 16) (origin : Ticks) :
    s.Calm (s.relay n target port k len seq origin) := by
  unfold State.relay
  split
  · exact s.calm_relayFails n port k seq
  · split
    · exact (State.calm_place ‹_›).trans (State.calm_modCircuit _ n _)
    · exact (s.calm_modPeer _ _).trans (State.calm_relayFails _ n port k seq)

theorem State.calm_acceptCargo (s : State) (r : RouteIx) (n : CircIx) (port : PortIx) (relay : Option CircIx) (rx : Rx)
    (k len : Nat) (seq : BitVec 16) (verdict : Verdict) : s.Calm (s.acceptCargo r n port relay rx k len seq verdict) := by
  unfold State.acceptCargo
  cases relay with
  | none =>
    refine Calm.trans ?_ (State.calm_deliver _ n port k seq)
    exact (s.calm_modCircuit n _).trans (State.calm_modScore _ r id)
  | some target =>
    refine Calm.trans ?_ (State.calm_relay _ n target port k len seq _)
    exact (s.calm_modCircuit n _).trans (State.calm_modScore _ r id)

theorem State.calm_judgeCargo (s : State) (r : RouteIx) (n : CircIx) (port : PortIx) (relay : Option CircIx) (rx : Rx)
    (k len : Nat) (seq : BitVec 16) : s.Calm (s.judgeCargo r n port relay rx k len seq) := by
  unfold State.judgeCargo
  split
  · exact ((s.calm_release k).trans (State.calm_modScore _ r fun _ => Nat.min_le_left ..)).trans (State.calm_modCircuit _ n _)
  · exact (s.calm_release k).trans (State.calm_modCircuit _ n _)
  · exact s.calm_acceptCargo r n port relay rx k len seq _

theorem State.calm_cargoArrived (s : State) (r : RouteIx) (rx : Rx) (k : Nat) (bs : List Byte) :
    s.Calm (s.cargoArrived r rx k bs) := by
  unfold State.cargoArrived
  split
  · exact (s.calm_release k).trans (State.calm_modScore _ r id)
  · split
    · exact (s.calm_release k).trans (State.calm_modScore _ r id)
    · exact (s.calm_updateFrame k _).trans (State.calm_judgeCargo _ r _ _ _ rx k _ _)

theorem State.calm_dispatch (s : State) (r : RouteIx) (rx : Rx) (kind : TrunkKind) (bs : List Byte) :
    s.Calm (s.dispatch r rx kind bs) := by
  have hdropped := s.calm_dropRx r
  cases kind with
  | probe => exact (hdropped.trans (State.calm_modScore _ r id)).trans (State.calm_answerProbe _ r _ _ _)
  | echo => exact (hdropped.trans (State.calm_modScore _ r id)).trans (State.calm_resolveEcho _ r _ _ _ _ _ _ _)
  | test => exact (hdropped.trans (State.calm_modScore _ r id)).trans (State.calm_checkTest _ r _ _)
  | cargo =>
    unfold State.dispatch
    dsimp only
    split
    · exact (s.calm_modLane r id).trans (State.calm_cargoArrived _ r rx _ bs)
    · exact hdropped

theorem State.calm_frameJudged (s : State) (r : RouteIx) (rx : Rx) (bs : List Byte) : s.Calm (s.frameJudged r rx bs) := by
  have hdropped := s.calm_dropRx r
  unfold State.frameJudged
  split
  · exact hdropped
  · split
    · exact hdropped.trans (State.calm_crcFailure _ r)
    · split
      · exact hdropped.trans (State.calm_modScore _ r id)
      · split
        · exact hdropped.trans (State.calm_modScore _ r id)
        · exact s.calm_dispatch r rx _ bs

theorem State.calm_lengthLimit (s : State) (r : RouteIx) (rx : Rx) : s.Calm (s.lengthLimit r rx) := by
  have hended := (s.calm_dropRx r).trans (State.calm_modLane (s.dropRx r) r
    (f := fun l => { l with counts := { l.counts with oversize := l.counts.oversize + 1 } }) id)
  unfold State.lengthLimit
  dsimp only
  split
  · exact hended
  · exact hended.trans (State.calm_crcFailure _ r)

/-! ### Lanes (R25 to R34) -/

theorem State.calm_losAssert (s : State) (r : RouteIx) : s.Calm (s.losAssert r) := by
  unfold State.losAssert State.losEffects
  dsimp only
  split
  · exact .refl s
  · have hlos := s.calm_modLane r (f := fun l => { l with los := true, counts := { l.counts with los := l.counts.los + 1 } }) id
    split
    · exact hlos
    · exact (((hlos.trans (State.calm_abandonRx _ r)).trans (State.calm_abandonCurrent _ r)).trans
        (State.calm_modLane _ r fun _ => Nat.zero_le _)).trans (State.calm_evaluate _ r)

theorem State.calm_losRelease (s : State) (r : RouteIx) : s.Calm (s.losRelease r) := by
  unfold State.losRelease
  dsimp only
  split
  · split
    · exact s.calm_modLane r id
    · exact (s.calm_modLane r id).trans (State.calm_evaluate _ r)
  · exact .refl s

theorem length_pushRsl (ring : List Int) (rsl : Int) (h : ring.length ≤ 8) : (pushRsl ring rsl).length ≤ 8 := by
  unfold pushRsl
  rw [List.length_append, List.length_singleton]
  split
  · assumption
  · rw [List.length_drop]
    omega

theorem State.calm_pushReport (s : State) (r : RouteIx) (rsl : Int) : s.Calm (s.pushReport r rsl) := by
  unfold State.pushReport State.enterTrend
  dsimp only
  split
  · exact .refl s
  · have hpushed := s.calm_modLane r (f := fun l =>
      { l with ring := pushRsl s.lanes[r].ring rsl, trend := trendOf s.cfg.health.slope (pushRsl s.lanes[r].ring rsl) })
      fun h => length_pushRsl _ rsl h
    split
    · exact hpushed
    · exact hpushed.trans (State.calm_raiseAll _ _)

theorem State.calm_laneReport (s : State) (r : RouteIx) (bs : List Byte) : s.Calm (s.laneReport r bs) := by
  unfold State.laneReport
  split
  · exact s.calm_modLane r id
  · split
    · exact s.calm_modLane r id
    · exact ((s.calm_modLane r id).trans (State.calm_pushReport _ r _)).trans (State.calm_evaluate _ r)

theorem State.calm_applyLane (s : State) (r : RouteIx) (x : LaneSettings) : s.Calm (s.applyLane r x) := by
  unfold State.applyLane
  dsimp only
  split
  · exact (s.calm_setCfg _).trans (State.calm_judgeSilence _ r)
  · exact (((((s.calm_setCfg _).trans (State.calm_disableRoute _ r)).trans (State.calm_abandonRx _ r)).trans
      (State.calm_abandonCurrent _ r)).trans (State.calm_modLane _ r fun _ => Nat.zero_le _)).trans
      (State.calm_returnRoute _ r)

end Sys2Proof.Machine
end

