-- ==== Sys2Proof/Proofs/LimitsOfSettings.lean ====
section
/-! SUPPORT. SENDs, notices, deliveries and the settings of the operator keep every record in its ranges (R86, R149, R172, R173). -/

namespace Sys2Proof.Machine

/-! ### Circuits (R84 to R87) -/

theorem State.calm_flushRoute (s : State) (n : CircIx) (r : RouteIx) : s.Calm (s.flushRoute n r) := by
  unfold State.flushRoute
  refine Calm.trans (s.calm_modTx r ?_)
    (Calm.foldl (fun t c => (t.calm_countDiscard r c _).trans (State.calm_release _ _)) _ _)
  exact fun ⟨hqueue, hechoes⟩ => ⟨(List.length_filter_le ..).trans hqueue, hechoes⟩

theorem State.calm_closeOut (s : State) (n : CircIx) : s.Calm (s.closeOut n) := by
  unfold State.closeOut
  exact Calm.trans (s.calm_forRoutes fun r t => t.calm_flushRoute n r) (State.calm_modCircuit _ n _)

/-- The two parts of a delivery queue are the queue (R87). -/
theorem Port.length_splitDelivery (x : Port) :
    x.splitDelivery.1.length + x.splitDelivery.2.length = x.delivery.length := by
  unfold Port.splitDelivery
  split
  · rw [← List.length_append, List.take_append_drop]
  · exact Nat.zero_add _

theorem State.calm_closeIn (s : State) (n : CircIx) (port : PortIx) : s.Calm (s.closeIn n port) := by
  unfold State.closeIn
  dsimp only
  refine Calm.trans (Calm.trans (s.calm_modPort port (fun ⟨hdelivery, hrecords⟩ => ⟨?_, hrecords⟩) rfl rfl)
    (Calm.foldl (fun t e => ?_) _ _)) (State.calm_modCircuit _ n _)
  · have hparts := s.ports[port].length_splitDelivery
    have hkept := List.length_filter_le (fun e : DeliveryEntry => decide (e.circuit ≠ n)) s.ports[port].splitDelivery.2
    dsimp only
    rw [List.length_append]
    omega
  · exact ((t.calm_release _).trans (State.calm_modCircuit _ n _)).trans (State.calm_raiseAt _ _ _)

/-! ### SENDs, the outbound turn and the link (R150, R156, R164, R172 to R175) -/

theorem State.calm_countPort (s : State) (p : PortIx) (f : PortCounts → PortCounts) : s.Calm (s.countPort p f) :=
  s.calm_modPort p id rfl rfl

theorem State.calm_sendStart (s : State) (p : PortIx) : s.Calm (s.sendStart p) := by
  have hnone : s.Calm (s.sendNoBuffer p) :=
    ((s.calm_modPort p id rfl rfl).trans (State.calm_setPool _ _)).trans (State.calm_raiseAt _ _ _)
  unfold State.sendStart
  split
  · exact hnone
  · split
    · exact hnone
    · exact (s.calm_setPool _).trans (State.calm_modPort _ p id rfl rfl)

theorem State.calm_refuseSend (s : State) (p : PortIx) (k : Nat) (body : List Byte) (reason : RefusalReason) :
    s.Calm (s.refuseSend p k body reason) :=
  ((s.calm_release k).trans (State.calm_countPort _ p _)).trans (State.calm_raiseAt _ _ _)

theorem State.calm_judgeSend (s : State) (p : PortIx) (k : Nat) (body : List Byte) : s.Calm (s.judgeSend p k body) := by
  unfold State.judgeSend
  split
  · exact s.calm_refuseSend p k body _
  · split
    · exact s.calm_refuseSend p k body _
    · split
      · exact s.calm_refuseSend p k body _
      · split
        · exact (State.calm_place ‹_›).trans (State.calm_countPort _ p _)
        · exact (s.calm_modPeer _ _).trans (State.calm_refuseSend _ p k body _)

theorem State.calm_sendEnd (s : State) (p : PortIx) (k : Nat) (status : Byte) (body : List Byte) (crc : BitVec 32) :
    s.Calm (s.sendEnd p k status body crc) := by
  have hidle := s.calm_modPort p (f := fun x => { x with inbound := .idle }) id rfl rfl
  unfold State.sendEnd
  dsimp only
  split
  · exact (hidle.trans (State.calm_release _ k)).trans (State.calm_countPort _ p _)
  · exact (hidle.trans (State.calm_updateFrame _ k _)).trans (State.calm_judgeSend _ p k body)

theorem State.calm_sendNotice (s : State) (p : PortIx) (k : Fin 8) : s.Calm (s.sendNotice p k) := by
  unfold State.sendNotice
  refine s.calm_modPort p ?_ rfl rfl
  exact fun ⟨hdelivery, hrecords⟩ => ⟨hdelivery, forall_set (P := fun x : PendingRecord => x.count ≤ 255) k hrecords
    fun _ => Nat.zero_le _⟩

theorem State.calm_sendDeliver (s : State) (p : PortIx) (e : DeliveryEntry) : s.Calm (s.sendDeliver p e) := by
  unfold State.sendDeliver
  exact s.calm_modPort p id rfl rfl

theorem State.calm_turnRest (s : State) (p : PortIx) : s.Calm (s.turnRest p) := by
  unfold State.turnRest
  split
  · exact s.calm_sendDeliver p _
  · split
    · exact s.calm_sendNotice p _
    · exact .refl s

theorem State.calm_outboundEnd (s : State) (p : PortIx) (o : Outbound) : s.Calm (s.outboundEnd p o) := by
  have hidle := s.calm_modPort p (f := fun x => { x with outbound := none }) id rfl rfl
  unfold State.outboundEnd
  dsimp only
  split
  · refine hidle.trans ?_
    unfold State.deliverEnd
    split
    · exact .refl _
    · rename_i e rest hdelivery
      refine Calm.trans (State.calm_modPort _ p (fun ⟨hroom, hrecords⟩ => ⟨?_, hrecords⟩) rfl rfl) (State.calm_release _ _)
      rw [hdelivery, List.length_cons] at hroom
      exact Nat.le_of_succ_le hroom
  · exact hidle

theorem Port.bounded_rewatch {x : Port} (h : x.Bounded) (new : BitVec 8) : (x.rewatch new).Bounded := by
  obtain ⟨hdelivery, hrecords⟩ := h
  refine ⟨hdelivery, fun k => ?_⟩
  have hrecord : (x.rewatch new).records[k] =
      if x.watch.getLsbD k.val && new.getLsbD k.val then x.records[k] else PendingRecord.clear := by
    simp [Port.rewatch]
  rw [hrecord]
  split
  · exact hrecords k
  · exact Nat.zero_le _

/-! ### Settings of routes, peers, thresholds and probes (R57, R71 to R77, R132) -/

theorem State.calm_applyRoute (s : State) (r : RouteIx) (x : RouteSettings) : s.Calm (s.applyRoute r x) := by
  have hpeer (u : State) : u.Calm (u.changePeer r x.peer) := by
    unfold State.changePeer
    split
    · exact .refl u
    · exact (((u.calm_disableRoute r).trans (State.calm_setCfg _ _)).trans (State.calm_modPeer _ _ _)).trans
        (State.calm_rechoose _)
  unfold State.applyRoute
  dsimp only
  have hset := (s.calm_setCfg (s.cfg.withRoute r { s.cfg.routes[r] with a := x.a })).trans (hpeer _)
  split
  · exact (hset.trans (State.calm_setCfg _ _)).trans (State.calm_returnRoute _ r)
  · exact (hset.trans (State.calm_setCfg _ _)).trans (State.calm_disableRoute _ r)

theorem State.calm_applyProbe (s : State) (x : ProbeSettings) : s.Calm (s.applyProbe x) := by
  have hrestart (tests : Bool) (r : RouteIx) (u : State) : u.Calm (u.restartSchedules tests r) := by
    unfold State.restartSchedules
    exact (u.calm_modProbe r id).trans (State.calm_modHealth _ r id)
  exact ((s.calm_setCfg _).trans (State.calm_forRoutes _ fun r u => hrestart _ r u)).trans
    (State.calm_forRoutes _ fun r u => u.calm_loseDue r _)

theorem State.calm_testRoute (s : State) (r : RouteIx) : s.Calm (s.testRoute r) := by
  unfold State.testRoute
  split
  · exact s.calm_modHealth r fun _ => ⟨Nat.zero_le _, Nat.zero_le _⟩
  · exact s.calm_applyMoves _

/-! ### What the owners of directives do, RESTART and SAVE_PROFILE apart -/

theorem State.calm_ownSetTime (s : State) (d : Directive) : s.Calm (s.ownSetTime d).1 := by
  unfold State.ownSetTime
  split
  · exact .refl s
  · rw [State.reply_fst]
    exact ((s.calm_setCfg _).trans (State.calm_rechoose _)).trans (State.calm_judgeHoldover _)

theorem State.calm_ownWatch (s : State) (d : Directive) : s.Calm (s.ownWatch d).1 := by
  unfold State.ownWatch
  split
  · exact .refl s
  · rename_i new _
    show s.Calm (s.modPort d.port fun x => x.rewatch new)
    exact s.calm_modPort d.port (fun h => Port.bounded_rewatch h _) rfl rfl

theorem State.calm_ownSetIdentity (s : State) (d : Directive) : s.Calm (s.ownSetIdentity d).1 := by
  simp only [State.ownSetIdentity]
  split
  · exact .refl s
  · rw [State.reply_fst]
    exact s.calm_setCfg _

theorem State.calm_ownSetPeer (s : State) (d : Directive) : s.Calm (s.ownSetPeer d).1 := by
  unfold State.ownSetPeer
  split
  · split
    · exact .refl s
    · rw [State.reply_fst]
      exact (s.calm_setCfg _).trans (State.calm_applyMoves _ _)
  · exact .refl s

theorem State.calm_ownSetRoute (s : State) (d : Directive) : s.Calm (s.ownSetRoute d).1 := by
  unfold State.ownSetRoute
  split
  · rw [State.reply_fst]
    exact s.calm_applyRoute _ _
  · exact .refl s

theorem State.calm_ownSetLane (s : State) (d : Directive) : s.Calm (s.ownSetLane d).1 := by
  unfold State.ownSetLane
  split
  · rw [State.reply_fst]
    exact s.calm_applyLane _ _
  · exact .refl s

theorem State.calm_ownSetHealth (s : State) (d : Directive) : s.Calm (s.ownSetHealth d).1 := by
  unfold State.ownSetHealth
  split
  · exact .refl s
  · rw [State.reply_fst]
    exact (s.calm_setCfg _).trans (State.calm_applyMoves _ _)

theorem State.calm_ownSetProbe (s : State) (d : Directive) : s.Calm (s.ownSetProbe d).1 := by
  unfold State.ownSetProbe
  split
  · exact .refl s
  · rw [State.reply_fst]
    exact s.calm_applyProbe _

theorem State.calm_ownSetCalendar (s : State) (d : Directive) : s.Calm (s.ownSetCalendar d).1 := by
  unfold State.ownSetCalendar
  split
  · rw [State.reply_fst]
    exact (s.calm_setCfg _).trans (State.calm_modTx _ _ id)
  · exact .refl s

theorem State.calm_ownOpenCircuit (s : State) (d : Directive) : s.Calm (s.ownOpenCircuit d).1 := by
  unfold State.ownOpenCircuit
  split
  · exact .refl s
  · split
    · exact .refl s
    · split
      · exact .refl s
      · split
        · exact .refl s
        · rw [State.reply_fst]
          exact s.calm_modCircuit _ _

theorem State.calm_ownCloseCircuit (s : State) (d : Directive) : s.Calm (s.ownCloseCircuit d).1 := by
  unfold State.ownCloseCircuit
  split
  · exact .refl s
  · split
    · exact .refl s
    · split
      · exact .refl s
      · exact .refl s
      · rw [State.reply_fst]
        exact s.calm_closeOut _
      · rw [State.reply_fst]
        exact s.calm_closeIn _ _

theorem State.calm_ownForceRoute (s : State) (d : Directive) : s.Calm (s.ownForceRoute d).1 := by
  unfold State.ownForceRoute
  split
  · split
    · rw [State.reply_fst]
      exact s.calm_modPeer _ _
    · exact .refl s
  · exact .refl s

theorem State.calm_ownReleaseRoute (s : State) (d : Directive) : s.Calm (s.ownReleaseRoute d).1 := by
  unfold State.ownReleaseRoute
  split
  · exact .refl s
  · rw [State.reply_fst]
    exact s.calm_modPeer _ _

theorem State.calm_ownTestRoute (s : State) (d : Directive) : s.Calm (s.ownTestRoute d).1 := by
  unfold State.ownTestRoute
  split
  · exact .refl s
  · split
    · exact .refl s
    · rw [State.reply_fst]
      exact s.calm_testRoute _

end Sys2Proof.Machine
end

