-- ==== Sys2Proof/Proofs/LimitsOfDirectives.lean ====
section
/-! SUPPORT. An answer joins where fewer than 16 wait, and a SAVE answers the ports that it owes (R166, R168, R176, R187). -/

namespace Sys2Proof.Machine

/-! ### Commands that keep the ranges and the answers -/

/-- `t` keeps of `s` that every record is within its ranges, and that the answers that wait and those owed are in order. -/
def State.KeepsLimits (s t : State) : Prop := (s.RecordsBounded → t.RecordsBounded) ∧ (s.AnswersSound → t.AnswersSound)

theorem State.KeepsLimits.refl (s : State) : s.KeepsLimits s := ⟨id, id⟩

theorem State.KeepsLimits.trans {s t u : State} (h : s.KeepsLimits t) (h' : t.KeepsLimits u) : s.KeepsLimits u :=
  ⟨h'.1 ∘ h.1, h'.2 ∘ h.2⟩

theorem State.AnswersSound.congr {s t : State} (h : s.AnswersSound)
    (hanswers : ∀ p : PortIx, t.ports[p].answers = s.ports[p].answers ∧ t.ports[p].saveOwed = s.ports[p].saveOwed)
    (hload : t.profile.load = s.profile.load) (hsave : t.profile.save = s.profile.save)
    (howed : t.profile.restartOwed = s.profile.restartOwed) : t.AnswersSound := by
  obtain ⟨hwait, hsaveOwed, hrestartOwed, hloading⟩ := h
  refine ⟨fun p => ?_, fun p => ?_, ?_, ?_⟩
  · rw [State.owes, (hanswers p).1, (hanswers p).2, howed]
    exact hwait p
  · rw [(hanswers p).2, hsave]
    exact hsaveOwed p
  · rw [howed, hload]
    exact hrestartOwed
  · rw [hload, hsave]
    exact hloading

theorem State.Calm.keeps {s t : State} (h : s.Calm t) : s.KeepsLimits t :=
  ⟨h.bounds, fun hs => hs.congr h.answers h.load h.save h.restartOwed⟩

/-- An answer joins a queue that has room for it (R166). -/
theorem State.keepsLimits_answer {s : State} {p : PortIx} (hroom : s.ports[p].answers.length < 16) (a : Answer) :
    s.KeepsLimits (s.answer p a) := by
  refine ⟨fun ⟨hlanes, hprobes, hhealth, htx, hscore, hports⟩ => ⟨hlanes, hprobes, hhealth, htx, hscore,
    forall_set p hports id⟩, fun ⟨hwait, hsaveOwed, hrest⟩ => ⟨fun q => ?_, fun q => ?_, hrest⟩⟩
  · rw [State.owes, State.answer, State.modPort_get]
    split
    · rw [List.length_append, List.length_singleton]
      exact ⟨by omega, fun _ => hroom⟩
    · exact hwait q
  · rw [State.answer, State.modPort_get]
    split
    · exact hsaveOwed p
    · exact hsaveOwed q

/-! ### Directives (R166 to R168) -/

/-- The judgement of a directive on port `p` in state `u`: with an answer to give it has effects that keep the limits and are
nothing to the answers; with none it keeps the limits where the queue has room for one. -/
structure Judged.Sound (u : State) (p : PortIx) (j : Judged) : Prop where
  answered : j.2.isSome = true → u.Calm j.1
  owed : j.2 = none → u.ports[p].answers.length < 16 → u.KeepsLimits j.1

theorem Judged.Sound.of_calm {u : State} {p : PortIx} {j : Judged} (h : u.Calm j.1) : Judged.Sound u p j :=
  ⟨fun _ => h, fun _ _ => h.keeps⟩

theorem State.calm_deny (s : State) (p : PortIx) : s.Calm (s.deny p).1 := by
  unfold State.deny
  rw [State.reply_fst]
  exact s.calm_modPort p id rfl rfl

theorem State.sound_reply (s : State) (p : PortIx) (st : Status) : Judged.Sound s p (s.reply st) := .of_calm (.refl s)

theorem State.keepsLimits_answerJudged {u : State} {p : PortIx} (request : Byte) {j : Judged} (h : Judged.Sound u p j)
    (hroom : u.ports[p].answers.length < 16) : u.KeepsLimits (State.answerJudged p request j) := by
  obtain ⟨v, _ | ⟨st, results⟩⟩ := j
  · exact h.owed rfl hroom
  · have hcalm : u.Calm v := h.answered rfl
    refine hcalm.keeps.trans (State.keepsLimits_answer ?_ _)
    rw [(hcalm.answers p).1]
    exact hroom

theorem State.calm_markerSeen (s : State) (p : PortIx) : s.Calm (s.markerSeen p) := s.calm_modPort p id rfl rfl

theorem State.keepsLimits_takeDirective (s : State) (p : PortIx) (request : Byte) (good : Bool) {judge : State → Judged}
    (h : ∀ u : State, Judged.Sound u p (judge u)) : s.KeepsLimits (s.takeDirective p request good judge) := by
  have hmarker := s.calm_markerSeen p
  unfold State.takeDirective
  dsimp only
  split
  · exact .refl s
  · split
    · exact (hmarker.trans (State.calm_modPort _ p id rfl rfl)).keeps
    · split
      · exact (hmarker.trans (State.calm_modPort _ p id rfl rfl)).keeps
      · rename_i hroom
        have hnoted : (s.markerSeen p).Calm ((s.markerSeen p).noteTaken p request) := State.calm_modPort _ p id rfl rfl
        refine (hmarker.trans hnoted).keeps.trans (State.keepsLimits_answerJudged request (h _) ?_)
        rw [(hnoted.answers p).1]
        exact Nat.lt_of_not_le hroom

theorem State.sound_judgeDirective {u : State} (d : Directive) (argLen : Nat) {busy operator : Bool} {owner : State → Judged}
    (h : u.profile.load = .running → (busy = true → u.profile.save = none) → Judged.Sound u d.port (owner u)) :
    Judged.Sound u d.port (u.judgeDirective d argLen busy operator owner) := by
  unfold State.judgeDirective
  split
  · exact u.sound_reply _ _
  · rename_i hload
    split
    · exact u.sound_reply _ _
    · split
      · exact u.sound_reply _ _
      · rename_i hbusy
        split
        · exact .of_calm (u.calm_deny _)
        · refine h ?_ fun hb => ?_
          · cases hrun : u.profile.load with
            | loading => exact absurd hrun hload
            | running => rfl
          · rw [hb, Bool.true_and, Option.not_isSome_iff_eq_none] at hbusy
            exact hbusy

theorem State.keepsLimits_operatorDirective (s : State) (d : Directive) (name argLen : Nat) {owner : State → Judged}
    (h : ∀ u : State, u.profile.load = .running → u.profile.save = none → Judged.Sound u d.port (owner u)) :
    s.KeepsLimits (s.operatorDirective d name argLen owner) :=
  s.keepsLimits_takeDirective d.port d.request _ fun u =>
    State.sound_judgeDirective d argLen fun hrun hsave => h u hrun (hsave rfl)

theorem State.keepsLimits_openDirective (s : State) (d : Directive) (name argLen : Nat) {owner : State → Judged}
    (h : ∀ u : State, u.Calm (owner u).1) : s.KeepsLimits (s.openDirective d name argLen owner) :=
  s.keepsLimits_takeDirective d.port d.request _ fun u => State.sound_judgeDirective d argLen fun _ _ => .of_calm (h u)

theorem State.keepsLimits_calmDirective (s : State) (d : Directive) (name argLen : Nat) {owner : State → Judged}
    (h : ∀ u : State, u.Calm (owner u).1) : s.KeepsLimits (s.operatorDirective d name argLen owner) :=
  s.keepsLimits_operatorDirective d name argLen fun u _ _ => .of_calm (h u)

theorem State.calm_judgeOwned (s : State) (d : Directive) (outOnly : Bool) (effect : Circuit → Circuit) :
    s.Calm (s.judgeOwned d outOnly effect).1 := by
  unfold State.judgeOwned
  split
  · exact s.calm_deny d.port
  · split
    · exact .refl s
    · split
      · exact .refl s
      · exact .refl s
      · exact .refl s
      · split
        · exact .refl s
        · split
          · exact .refl s
          · rw [State.reply_fst]
            exact s.calm_modCircuit _ effect

theorem State.keepsLimits_ownedDirective (s : State) (d : Directive) (name : Nat) (outOnly : Bool)
    (effect : Circuit → Circuit) : s.KeepsLimits (s.ownedDirective d name outOnly effect) :=
  s.keepsLimits_takeDirective d.port d.request _ fun u =>
    State.sound_judgeDirective d 1 fun _ _ => .of_calm (u.calm_judgeOwned d outOnly effect)

theorem State.sound_judgeUnknown (s : State) (p : PortIx) : Judged.Sound s p s.judgeUnknown := by
  unfold State.judgeUnknown
  split
  · exact s.sound_reply p _
  · exact s.sound_reply p _

/-! ### SAVE_PROFILE (R176, R186, R187) -/

/-- A SAVE accepted owes an answer to its port, and is in flight (R186). -/
theorem State.sound_ownSaveProfile {u : State} (d : Directive) (hrun : u.profile.load = .running) :
    Judged.Sound u d.port (u.ownSaveProfile d) := by
  refine ⟨fun h => (by cases h), fun _ hroom => ⟨fun ⟨hlanes, hprobes, hhealth, htx, hscore, hports⟩ =>
    ⟨hlanes, hprobes, hhealth, htx, hscore, forall_set d.port hports id⟩, fun ⟨hwait, _, hrestartOwed, _⟩ => ?_⟩⟩
  generalize hsave : u.snapshot = snapshot
  refine ⟨fun p => ?_, fun _ _ => rfl, hrestartOwed, fun hload => ?_⟩
  · have hport : (u.ownSaveProfile d).1.ports[p] =
        if p = d.port then { u.ports[d.port] with saveOwed := some d.request } else u.ports[p] := State.modPort_get ..
    rw [State.owes, hport]
    split
    · exact ⟨Nat.le_of_lt (Nat.lt_of_lt_of_le hroom (by decide)), fun _ => Nat.le_of_lt hroom⟩
    · exact hwait p
  · have hloading : u.profile.load = .loading := hload
    rw [hrun] at hloading
    cases hloading

theorem Profile.endSave_leaves (x : Profile) (failure : Option FlashLeft) :
    (x.endSave failure).load = x.load ∧ (x.endSave failure).save = none ∧ (x.endSave failure).restartOwed = x.restartOwed := by
  cases failure <;> exact ⟨rfl, rfl, rfl⟩

/-- A SAVE that completes answers every port it owes; with a SAVE in flight no load runs, so no RESTART owes one (R176). -/
theorem State.keepsLimits_completeSave {s : State} {job : SaveJob} (hsave : s.profile.save = some job)
    (failure : Option FlashLeft) : s.KeepsLimits (s.completeSave job failure) := by
  obtain ⟨hload', hsave', howed'⟩ := s.profile.endSave_leaves failure
  have hprofile : (s.completeSave job failure).profile = s.profile.endSave failure := rfl
  have hport (p : PortIx) : (s.completeSave job failure).ports[p] =
      match s.ports[p].saveOwed with
      | none => s.ports[p]
      | some request => { s.ports[p] with saveOwed := none, answers := s.ports[p].answers ++ [saveAnswer request failure] } :=
    State.mapPorts_get ..
  refine ⟨fun ⟨hlanes, hprobes, hhealth, htx, hscore, hports⟩ => ⟨hlanes, hprobes, hhealth, htx, hscore, fun p => ?_⟩,
    fun ⟨hwait, _, hrestartOwed, hloading⟩ => ?_⟩
  · rw [hport]
    split
    · exact hports p
    · exact hports p
  · have hnone : s.profile.restartOwed = none := by
      cases howed : s.profile.restartOwed with
      | none => rfl
      | some x =>
        have hnosave := hloading (hrestartOwed (by rw [howed]; rfl))
        rw [hsave] at hnosave
        cases hnosave
    have hquiet (p : PortIx) : (s.completeSave job failure).ports[p].saveOwed = none := by
      rw [hport]
      split
      · assumption
      · rfl
    rw [State.AnswersSound, hprofile, howed', hload', hsave', hnone]
    refine ⟨fun p => ⟨?_, fun howes => ?_⟩, fun p hp => ?_, fun h => (by cases h), fun _ => rfl⟩
    · obtain ⟨hall, hfew⟩ := hwait p
      rw [hport]
      split
      · exact hall
      · rename_i request howed
        rw [List.length_append, List.length_singleton]
        exact Nat.succ_le_succ (hfew (.inl (by rw [howed]; rfl)))
    · rw [State.owes, hquiet, hprofile, howed', hnone] at howes
      rcases howes with h | h <;> cases h
    · rw [hquiet] at hp
      cases hp

end Sys2Proof.Machine
end

