-- ==== Sys2Proof/Proofs/LimitsOfStartUp.lean ====
section
/-! SUPPORT. The outbound turn, a link's fall, the end of a load, RESTART and cold reset keep the answers in order (R162, R174, R185, R189, R191). -/

namespace Sys2Proof.Machine

/-! ### The outbound turn and the link (R162, R174) -/

/-- An answer that starts leaves its queue (R176). -/
theorem State.keepsLimits_sendAnswer {s : State} {p : PortIx} {a : Answer} {rest : List Answer}
    (hanswers : s.ports[p].answers = a :: rest) : s.KeepsLimits (s.sendAnswer p a rest) := by
  refine ⟨fun ⟨hlanes, hprobes, hhealth, htx, hscore, hports⟩ => ⟨hlanes, hprobes, hhealth, htx, hscore,
    forall_set p hports id⟩, fun ⟨hwait, hsaveOwed, hrest⟩ => ⟨fun q => ?_, fun q => ?_, hrest⟩⟩
  · have hfewer : rest.length ≤ s.ports[p].answers.length := by rw [hanswers]; exact Nat.le_succ _
    rw [State.owes, State.sendAnswer, State.modPort_get]
    split
    · rename_i hq
      subst hq
      exact ⟨hfewer.trans (hwait q).1, fun howes => hfewer.trans ((hwait q).2 howes)⟩
    · exact hwait q
  · rw [State.sendAnswer, State.modPort_get]
    split
    · exact hsaveOwed p
    · exact hsaveOwed q

theorem State.keepsLimits_turn (s : State) (p : PortIx) : s.KeepsLimits (s.turn p) := by
  unfold State.turn
  split
  · exact (s.calm_sendNotice p _).keeps
  · split
    · exact State.keepsLimits_sendAnswer ‹_›
    · exact (s.calm_turnRest p).keeps

theorem State.calm_dropInbound (s : State) (p : PortIx) : s.Calm (s.dropInbound p) := by
  unfold State.dropInbound
  split
  · exact s.calm_release _
  · exact .refl s

theorem State.calm_emptyDelivery (s : State) (p : PortIx) : s.Calm (s.emptyDelivery p) :=
  Calm.trans (s.calm_modPort p (fun ⟨_, hrecords⟩ => ⟨Nat.zero_le _, hrecords⟩) rfl rfl)
    (State.Calm.foldl (fun (s : State) (e : DeliveryEntry) => s.calm_release e.slot) _ _)

theorem Profile.disown_restartOwed (x : Profile) (p : PortIx) :
    (x.disown p).restartOwed = x.restartOwed ∨ (x.disown p).restartOwed = none := by
  unfold Profile.disown
  split
  · split
    · exact .inr rfl
    · exact .inl rfl
  · exact .inl rfl

/-- A port whose link falls has no answer waiting and none owed (R162). -/
theorem State.keepsLimits_fall (s : State) (p : PortIx) (flushed : Nat) :
    s.KeepsLimits ((s.modPort p fun x => x.fallen flushed).setProfile (s.profile.disown p)) := by
  obtain ⟨hload, hsave⟩ := s.profile.disown_leaves p
  have hclear (k : Fin 8) : (Vector.replicate 8 PendingRecord.clear)[k].count ≤ 255 := by simp [PendingRecord.clear]
  obtain ⟨t, ht⟩ : ∃ t, t = (s.modPort p fun x => x.fallen flushed).setProfile (s.profile.disown p) := ⟨_, rfl⟩
  have hport (q : PortIx) : t.ports[q] = if q = p then s.ports[p].fallen flushed else s.ports[q] := by
    rw [ht]
    exact State.modPort_get s p q fun x => x.fallen flushed
  have hprofile : t.profile = s.profile.disown p := by rw [ht]; rfl
  have howed : t.profile.restartOwed = s.profile.restartOwed ∨ t.profile.restartOwed = none := by
    rw [hprofile]
    exact s.profile.disown_restartOwed p
  rw [← ht]
  refine ⟨fun ⟨hlanes, hprobes, hhealth, htx, hscore, hports⟩ => ?_, fun ⟨hwait, hsaveOwed, hrestartOwed, hloading⟩ => ?_⟩
  · rw [ht]
    exact ⟨hlanes, hprobes, hhealth, htx, hscore, forall_set p hports fun ⟨hdelivery, _⟩ => ⟨hdelivery, hclear⟩⟩
  · rw [State.AnswersSound, hprofile, hload, hsave, ← hprofile]
    refine ⟨fun q => ?_, fun q hq => ?_, fun h => ?_, hloading⟩
    · rw [State.owes, hport]
      split
      · exact ⟨Nat.zero_le _, fun _ => Nat.zero_le _⟩
      · obtain ⟨hall, hfew⟩ := hwait q
        refine ⟨hall, fun howes => hfew ?_⟩
        rcases howed with h | h <;> rw [h] at howes
        · exact howes
        · exact howes.imp_right fun hnone => (by cases hnone)
    · rw [hport] at hq
      split at hq
      · cases hq
      · exact hsaveOwed q hq
    · rcases howed with h' | h' <;> rw [h'] at h
      · exact hrestartOwed h
      · cases h

theorem State.keepsLimits_linkDown (s : State) (p : PortIx) : s.KeepsLimits (s.linkDown p) :=
  ((s.calm_dropInbound p).trans (State.calm_emptyDelivery _ p)).keeps.trans (State.keepsLimits_fall _ p _)

theorem State.keepsLimits_miss (s : State) (p : PortIx) (first : Bool) : s.KeepsLimits (s.miss p first) := by
  unfold State.miss
  dsimp only
  generalize (if first then 1 else s.ports[p].misses + 1) = n
  split
  · exact s.keepsLimits_linkDown p
  · exact (s.calm_modPort p id rfl rfl).keeps

/-! ### The end of a load (R185, R190) -/

theorem State.calm_startTimers (s : State) : s.Calm s.startTimers := s.calm_forRoutes fun r s => s.calm_modLane r id

theorem State.calm_restoreCircuits (s : State) (cs : List SavedCircuit) : s.Calm (s.restoreCircuits cs) :=
  State.Calm.foldl (fun (s : State) (c : SavedCircuit) => s.calm_modCircuit c.number fun _ => c.restored) cs s

theorem State.calm_applyImage (s : State) (i : Image) : s.Calm (s.applyImage i) :=
  (((s.calm_setCfg i.settings).trans (State.calm_applyMoves _ _)).trans (State.calm_startTimers _)).trans
    (State.calm_restoreCircuits _ _)

theorem Profile.length_restartAnswers (x : Profile) (p : PortIx) :
    (x.restartAnswers p).length = if x.restartOwed.map Prod.fst = some p then 1 else 0 := by
  unfold Profile.restartAnswers
  split
  · rename_i q request h
    simp only [h, Option.map_some, Option.some.injEq]
    split
    · rfl
    · rfl
  · rename_i h
    rw [h]
    rfl

theorem State.bounded_answerRestart {s : State} (h : s.RecordsBounded) : s.answerRestart.RecordsBounded := by
  obtain ⟨ports, hanswered, hport⟩ := s.answerRestart_cases
  obtain ⟨hlanes, hprobes, hhealth, htx, hscore, hports⟩ := h
  rw [hanswered]
  refine ⟨hlanes, hprobes, hhealth, htx, hscore, fun p => ?_⟩
  rw [State.withPorts, hport]
  exact hports p

/-- The answer that a RESTART owes joins where its load has ended and no SAVE owes one (R176, R190). -/
theorem State.answersSound_answerRestart {s : State}
    (hwait : ∀ p : PortIx, s.ports[p].answers.length ≤ 17 ∧ (s.owes p → s.ports[p].answers.length ≤ 16))
    (hquiet : ∀ p : PortIx, s.ports[p].saveOwed = none) (hrun : s.profile.load = .running) :
    s.answerRestart.AnswersSound := by
  obtain ⟨ports, hanswered, hport⟩ := s.answerRestart_cases
  have hnone (p : PortIx) : ports[p].saveOwed = none := by
    rw [hport]
    exact hquiet p
  have hprofile : ((s.setProfile { s.profile with restartOwed := none }).withPorts ports).profile =
      { s.profile with restartOwed := none } := rfl
  have hports : ((s.setProfile { s.profile with restartOwed := none }).withPorts ports).ports = ports := rfl
  rw [hanswered, State.AnswersSound, hprofile, hports, hrun]
  refine ⟨fun p => ⟨?_, fun howes => ?_⟩, fun p hp => ?_, fun h => (by cases h), fun h => (by cases h)⟩
  · obtain ⟨hall, hfew⟩ := hwait p
    rw [hport, List.length_append, Profile.length_restartAnswers]
    split
    · exact Nat.succ_le_succ (hfew (.inr ‹_›))
    · exact hall
  · rw [State.owes, hprofile, hports, hnone] at howes
    rcases howes with h | h <;> cases h
  · rw [hnone] at hp
    cases hp

/-- With no SAVE in flight none owes an answer. -/
theorem State.AnswersSound.quiet {s : State} (h : s.AnswersSound) (hnosave : s.profile.save = none) (p : PortIx) :
    s.ports[p].saveOwed = none := by
  have howed := h.2.1 p
  rw [hnosave] at howed
  cases hport : s.ports[p].saveOwed with
  | none => rfl
  | some request =>
    rw [hport] at howed
    cases howed rfl

/-- The last steps of a load's end: `w` is the terminal once the load has ended and its image has been taken up. -/
theorem State.keepsLimits_loadTail {s w : State} {outcome : LoadOutcome} {failing : Option ImagePart}
    (hload : s.profile.load = .loading) (hcalm : (s.setProfile (s.profile.endLoad outcome failing)).Calm w) :
    s.KeepsLimits w.rechoose.judgeHoldover.answerRestart := by
  have hended := (hcalm.trans w.calm_rechoose).trans (State.calm_judgeHoldover _)
  generalize w.rechoose.judgeHoldover = v at hended
  refine ⟨fun h => State.bounded_answerRestart (hended.bounds h), fun h => ?_⟩
  have hnosave : s.profile.save = none := h.2.2.2 hload
  refine State.answersSound_answerRestart (fun p => ?_) (fun p => ?_) hended.load
  · obtain ⟨hanswers, howed⟩ := hended.answers p
    rw [State.owes, hanswers, howed, hended.restartOwed]
    exact h.1 p
  · rw [(hended.answers p).2]
    exact h.quiet hnosave p

theorem State.keepsLimits_endLoad {s : State} (hload : s.profile.load = .loading) (m : List Host.Cell) :
    s.KeepsLimits (s.endLoad m) := by
  unfold State.endLoad
  split
  · exact State.keepsLimits_loadTail hload (State.calm_applyImage _ _)
  · exact State.keepsLimits_loadTail hload (.refl _)

/-! ### RESTART (R189) -/

theorem Port.bounded_foldl_record (l : List Notice) {x : Port} (h : x.Bounded) : (l.foldl Port.record x).Bounded := by
  induction l generalizing x with
  | nil => exact h
  | cons n l ih => exact ih ((x.bounded_record n).1 h)

theorem State.bounded_restart {s : State} (h : s.RecordsBounded) (p : PortIx) (request : Byte) :
    (s.restart p request).RecordsBounded := by
  obtain ⟨-, -, -, -, -, hports⟩ := h
  have hblank {α : Type} {n : Nat} (x : α) (i : Fin n) : (Vector.replicate n x)[i] = x := by simp
  have hprobes : (s.restart p request).probes = Vector.replicate 16 Probe.blank := by rw [s.restart_eq]; rfl
  have htx : (s.restart p request).tx = Vector.replicate 16 Tx.blank := by rw [s.restart_eq]; rfl
  have hscore : (s.restart p request).score = Vector.replicate 16 {} := by rw [s.restart_eq]; rfl
  refine ⟨fun r => ?_, fun r => ?_, fun r => ?_, fun r => ?_, fun r => ?_, fun q => ?_⟩
  · rw [State.restart_lane]
    exact Nat.zero_le _
  · rw [hprobes, hblank]
    exact ⟨Nat.zero_le _, Nat.zero_le _, Nat.zero_le _⟩
  · rw [State.restart_health]
    exact ⟨Nat.zero_le _, Nat.zero_le _⟩
  · rw [htx, hblank]
    exact ⟨Nat.zero_le _, Nat.zero_le _⟩
  · rw [hscore, hblank]
    exact Nat.zero_le _
  · rw [State.restart_port]
    obtain ⟨-, hrecords⟩ := hports q
    have hemptied : (s.ports[q].emptied (Config.cutPoint s.profile.restarts q)).Bounded := ⟨Nat.zero_le _, hrecords⟩
    exact Port.bounded_foldl_record _ hemptied

theorem State.restart_answers (s : State) (p : PortIx) (request : Byte) (q : PortIx) :
    (s.restart p request).ports[q].answers = s.ports[q].answers ∧
    (s.restart p request).ports[q].saveOwed = s.ports[q].saveOwed := by
  have hless := (s.restart_port_spec p request q).1
  exact ⟨(congrArg Port.answers hless :), (congrArg Port.saveOwed hless :)⟩

/-- A RESTART accepted owes its answer to its port, where fewer than 16 wait; no SAVE is in flight (R189, R190). -/
theorem State.sound_ownRestart {u : State} (d : Directive) (hsave : u.profile.save = none) :
    Judged.Sound u d.port (u.ownRestart d) := by
  refine ⟨fun h => (by cases h), fun _ hroom => ⟨fun h => State.bounded_restart h _ _, fun h => ?_⟩⟩
  show (u.restart d.port d.request).AnswersSound
  have hanswers := u.restart_answers d.port d.request
  rw [State.AnswersSound, State.restart_profile]
  dsimp only
  refine ⟨fun p => ?_, fun p hp => ?_, fun _ => rfl, fun _ => hsave⟩
  · rw [State.owes, (hanswers p).1, (hanswers p).2, h.quiet hsave, State.restart_profile]
    refine ⟨(h.1 p).1, fun howes => ?_⟩
    rcases howes with hnone | howed
    · cases hnone
    · cases howed
      exact Nat.le_of_lt hroom
  · rw [(hanswers p).2, h.quiet hsave] at hp
    cases hp

/-! ### Start-up (R188, R191) -/

theorem State.limits_coldReset (s : State) (m : List Host.Cell) :
    (s.coldReset m).RecordsBounded ∧ (s.coldReset m).AnswersSound := by
  obtain ⟨hlanes, hprobes, hhealth, htx, hscore, hports⟩ := State.reset.recordsBounded_iff.2 State.reset_bounded
  have hlane (r : RouteIx) : (s.coldReset m).lanes[r].ring = State.reset.lanes[r].ring := by
    rw [State.coldReset_eq]
    simp
  have hport (p : PortIx) : (s.coldReset m).ports[p] =
      { State.reset.ports[p] with
        up := s.ports[p].up
        receiver := (s.coldReset m).ports[p].receiver } := by
    rw [State.coldReset_eq]
    simp
  refine ⟨⟨fun r => ?_, hprobes, hhealth, htx, hscore, fun p => ?_⟩, State.reset_answersSound.congr (fun p => ?_) rfl rfl rfl⟩
  · rw [Lane.Bounded, hlane]
    exact hlanes r
  · rw [hport]
    exact hports p
  · rw [hport]
    exact ⟨rfl, rfl⟩

end Sys2Proof.Machine
end

