-- ==== Sys2Proof/Proofs/LimitsKept.lean ====
section
/-! CHECK. Every command keeps each record in its ranges and the answers in order (R39, R61, R100, R118, R149, R166, R176). -/

namespace Sys2Proof.Machine

/-! ### Every command -/

theorem execColdReset_keepsLimits {s t : State} {left : FlashLeft} (h : execColdReset left s = .next t) :
    s.KeepsLimits t := by
  have hreset (m : List Host.Cell) : s.KeepsLimits (s.coldReset m) :=
    ⟨fun _ => (s.limits_coldReset m).1, fun _ => (s.limits_coldReset m).2⟩
  unfold execColdReset at h
  split at h
  · cases h
    exact hreset _
  · split at h <;> cases h
    exact hreset _

theorem execLoadEnd_keepsLimits {s t : State} {answers : Bool} (h : execLoadEnd answers s = .next t) : s.KeepsLimits t := by
  unfold execLoadEnd at h
  split at h <;> cases h
  · exact State.keepsLimits_endLoad ‹_› _
  · exact .refl s

theorem execTransmitEnd_calm {s t : State} {r : RouteIx} (h : execTransmitEnd r s = .next t) : s.Calm t := by
  unfold execTransmitEnd at h
  split at h
  · cases h
    exact .refl s
  · split at h <;> cases h
    · exact s.calm_endCurrent r
    · exact .refl s

theorem execFrameStart_calm {s t : State} {r : RouteIx} {first : Byte} (h : execFrameStart r first s = .next t) :
    s.Calm t := by
  unfold execFrameStart at h
  split at h <;> cases h
  · exact s.calm_frameStart r first
  · exact .refl s

theorem execLengthLimitEnd_calm {s t : State} {r : RouteIx} (h : execLengthLimitEnd r s = .next t) : s.Calm t := by
  unfold execLengthLimitEnd at h
  split at h <;> cases h
  · exact .refl s
  · exact s.calm_lengthLimit r _

theorem execFrameEnd_calm {s t : State} {r : RouteIx} {rest : List Byte} (h : execFrameEnd r rest s = .next t) :
    s.Calm t := by
  unfold execFrameEnd at h
  split at h
  · cases h
    exact .refl s
  · split at h <;> cases h
    · exact s.calm_lengthLimit r _
    · exact s.calm_frameJudged r _ _

theorem execProbeRequest_calm {s t : State} {r : RouteIx} (h : execProbeRequest r s = .next t) : s.Calm t := by
  unfold execProbeRequest at h
  split at h
  · cases h
    exact .refl s
  · split at h <;> cases h
    · exact (s.calm_requestProbe r).trans (State.calm_modProbe _ r id)
    · exact .refl s

theorem execProbeTimeout_calm {s t : State} {r : RouteIx} (h : execProbeTimeout r s = .next t) : s.Calm t := by
  unfold execProbeTimeout at h
  split at h <;> cases h
  · exact .refl s
  · exact s.calm_loseProbe r _

theorem execTestRequest_calm {s t : State} {r : RouteIx} (h : execTestRequest r s = .next t) : s.Calm t := by
  unfold execTestRequest at h
  split at h
  · cases h
    exact .refl s
  · split at h <;> cases h
    · exact ((s.calm_requestTest r).trans (State.calm_modHealth _ r id)).trans (State.calm_evaluate _ r)
    · exact .refl s

theorem execSendStart_calm {s t : State} {p : PortIx} (h : execSendStart p s = .next t) : s.Calm t := by
  unfold execSendStart at h
  split at h <;> cases h
  · exact (s.calm_markerSeen p).trans (State.calm_sendStart _ p)
  · exact .refl s

theorem execSendEnd_calm {s t : State} {p : PortIx} {status : Byte} {body : List Byte} {crc : BitVec 32}
    (h : execSendEnd p status body crc s = .next t) : s.Calm t := by
  unfold execSendEnd at h
  split at h <;> cases h
  · exact .refl s
  · exact s.calm_modPort p id rfl rfl
  · exact s.calm_sendEnd p _ status body crc

theorem execOutboundTurn_keepsLimits {s t : State} {p : PortIx} (h : execOutboundTurn p s = .next t) : s.KeepsLimits t := by
  unfold execOutboundTurn at h
  split at h <;> cases h
  · exact s.keepsLimits_turn p
  · exact .refl s

theorem execOutboundFrameEnd_keepsLimits {s t : State} {p : PortIx} (h : execOutboundFrameEnd p s = .next t) :
    s.KeepsLimits t := by
  unfold execOutboundFrameEnd at h
  split at h <;> cases h
  · exact .refl s
  · exact (s.calm_outboundEnd p _).keeps.trans (State.keepsLimits_turn _ p)

theorem execLinkDown_keepsLimits {s t : State} {p : PortIx} (h : execLinkDown p s = .next t) : s.KeepsLimits t := by
  unfold execLinkDown at h
  split at h <;> cases h
  · exact s.keepsLimits_linkDown p
  · exact .refl s

theorem execLinkUp_calm {s t : State} {p : PortIx} (h : execLinkUp p s = .next t) : s.Calm t := by
  unfold execLinkUp at h
  split at h <;> cases h
  · exact s.calm_modPort p id rfl rfl
  · exact .refl s

theorem execBadInboundEnvelope_calm {s t : State} {p : PortIx} (h : execBadInboundEnvelope p s = .next t) : s.Calm t := by
  unfold execBadInboundEnvelope at h
  split at h <;> cases h
  · exact (s.calm_markerSeen p).trans (State.calm_countPort _ p _)
  · exact .refl s

theorem execUnknownDirective_keepsLimits {s t : State} {p : PortIx} {status : Byte} {body : List Byte} {crc : BitVec 32}
    (h : execUnknownDirective p status body crc s = .next t) : s.KeepsLimits t := by
  unfold execUnknownDirective at h
  split at h <;> cases h
  exact s.keepsLimits_takeDirective p _ _ fun u => u.sound_judgeUnknown p

theorem execSaveComplete_keepsLimits {s t : State} {result : SaveResult} (h : execSaveComplete result s = .next t) :
    s.KeepsLimits t := by
  unfold execSaveComplete at h
  split at h
  · cases h
    exact .refl s
  · split at h <;> cases h
    exact State.keepsLimits_completeSave ‹_› _

theorem execMiss_keepsLimits {s t : State} {p : PortIx} {first : Bool} (h : execMiss p first s = .next t) :
    s.KeepsLimits t := by
  unfold execMiss at h
  split at h <;> cases h
  · exact s.keepsLimits_miss p first
  · exact .refl s

/-- A command keeps every record in its ranges and the answers in order. -/
theorem exec_keepsLimits {c : Instr} {s t : State} (h : exec c s = .next t) : s.KeepsLimits t := by
  cases c with
  | coldReset left => exact execColdReset_keepsLimits h
  | loadEnd answers => exact execLoadEnd_keepsLimits h
  | advance => cases h; exact (s.calm_setTime _).keeps
  | ppsOutFire => cases h; exact (s.calm_setTime _).keeps
  | holdoverExpiry => cases h; exact s.calm_judgeHoldover.keeps
  | ppsEdge => cases h; exact s.calm_ppsEdge.keeps
  | setTime d => cases h; exact s.keepsLimits_calmDirective d 13 15 fun u => u.calm_ownSetTime d
  | readTime d => cases h; exact s.keepsLimits_openDirective d 1 0 State.Calm.refl
  | laneByteTaken r => cases h; exact (s.calm_modTx r id).keeps
  | transmitEnd r => exact (execTransmitEnd_calm h).keeps
  | frameStart r first => exact (execFrameStart_calm h).keeps
  | lengthLimitEnd r => exact (execLengthLimitEnd_calm h).keeps
  | frameEnd r rest => exact (execFrameEnd_calm h).keeps
  | losAssert r => cases h; exact (s.calm_losAssert r).keeps
  | losRelease r => cases h; exact (s.calm_losRelease r).keeps
  | laneReport r record => cases h; exact (s.calm_laneReport r record).keeps
  | silenceExpiry r => cases h; exact (s.calm_judgeSilence r).keeps
  | probeRequest r => exact (execProbeRequest_calm h).keeps
  | probeTimeout r => exact (execProbeTimeout_calm h).keeps
  | testRequest r => exact (execTestRequest_calm h).keeps
  | offer r => cases h; exact (s.calm_offer r).keeps
  | sendStart p => exact (execSendStart_calm h).keeps
  | sendEnd p status body crc => exact (execSendEnd_calm h).keeps
  | outboundTurn p => exact execOutboundTurn_keepsLimits h
  | outboundFrameEnd p => exact execOutboundFrameEnd_keepsLimits h
  | linkDown p => exact execLinkDown_keepsLimits h
  | linkUp p => exact (execLinkUp_calm h).keeps
  | badInboundEnvelope p => exact (execBadInboundEnvelope_calm h).keeps
  | unknownDirective p status body crc => exact execUnknownDirective_keepsLimits h
  | readTable d =>
    cases h
    refine s.keepsLimits_openDirective d 2 2 fun u => ?_
    rw [State.ownReadTable_fst]
    exact .refl u
  | watch d => cases h; exact s.keepsLimits_openDirective d 3 2 fun u => u.calm_ownWatch d
  | pause d => cases h; exact s.keepsLimits_ownedDirective d 4 true _
  | resume d => cases h; exact s.keepsLimits_ownedDirective d 5 true _
  | clearCounts d => cases h; exact s.keepsLimits_ownedDirective d 6 false _
  | setIdentity d => cases h; exact s.keepsLimits_calmDirective d 7 3 fun u => u.calm_ownSetIdentity d
  | setPeer d => cases h; exact s.keepsLimits_calmDirective d 8 3 fun u => u.calm_ownSetPeer d
  | setRoute d => cases h; exact s.keepsLimits_calmDirective d 9 7 fun u => u.calm_ownSetRoute d
  | setLane d => cases h; exact s.keepsLimits_calmDirective d 10 7 fun u => u.calm_ownSetLane d
  | setHealth d => cases h; exact s.keepsLimits_calmDirective d 11 9 fun u => u.calm_ownSetHealth d
  | setProbe d => cases h; exact s.keepsLimits_calmDirective d 12 4 fun u => u.calm_ownSetProbe d
  | setCalendar d => cases h; exact s.keepsLimits_calmDirective d 14 17 fun u => u.calm_ownSetCalendar d
  | openCircuit d => cases h; exact s.keepsLimits_calmDirective d 15 10 fun u => u.calm_ownOpenCircuit d
  | closeCircuit d => cases h; exact s.keepsLimits_calmDirective d 16 1 fun u => u.calm_ownCloseCircuit d
  | forceRoute d => cases h; exact s.keepsLimits_calmDirective d 17 2 fun u => u.calm_ownForceRoute d
  | releaseRoute d => cases h; exact s.keepsLimits_calmDirective d 18 1 fun u => u.calm_ownReleaseRoute d
  | testRoute d => cases h; exact s.keepsLimits_calmDirective d 19 1 fun u => u.calm_ownTestRoute d
  | saveProfile d => cases h; exact s.keepsLimits_operatorDirective d 20 0 fun _ hrun _ => State.sound_ownSaveProfile d hrun
  | saveComplete result => exact execSaveComplete_keepsLimits h
  | restart d => cases h; exact s.keepsLimits_operatorDirective d 21 0 fun _ _ hsave => State.sound_ownRestart d hsave
  | miss p first => exact execMiss_keepsLimits h

/-- What is taken when no command waits comes into a port's receiver, which holds nothing that is bounded or answered. -/
theorem State.calm_takeIn (s : State) : s.Calm s.takeIn := by
  obtain ⟨-, -, hlanes, hprobes, hhealth, -, -, -, htx, hscore, -, hprofile, -⟩ := s.takeIn_leaves
  have hport (p : PortIx) := s.takeIn_port p
  refine ⟨fun ⟨hl, hpr, hh, ht, hs, hports⟩ => ?_, fun p => ?_, by rw [hprofile], by rw [hprofile], by rw [hprofile]⟩
  · rw [State.RecordsBounded, hlanes, hprobes, hhealth, htx, hscore]
    refine ⟨hl, hpr, hh, ht, hs, fun p => ?_⟩
    have hbounded := hports p
    rw [← hport p] at hbounded
    exact hbounded
  · exact ⟨(congrArg Port.answers (hport p) :), (congrArg Port.saveOwed (hport p) :)⟩

/-- Settles O55: an operation that adds to a queue, a ring or a table finds room in it or drops its oldest, and an answer joins
where fewer than 16 wait, or is the one that a SAVE or a RESTART owes. -/
theorem boundsAndAnswersKept : Obligations.BoundsAndAnswersKept := by
  intro s t h
  have hkeeps : s.KeepsLimits t := by
    rcases step_cases h with ⟨-, rfl⟩ | ⟨c, rest, -, hc⟩
    · exact s.calm_takeIn.keeps
    · have htaken : s.Calm { s with pending := rest } := .of_frame rfl rfl rfl rfl rfl rfl rfl
      exact htaken.keeps.trans (exec_keepsLimits hc)
  obtain ⟨hbounds, hanswers⟩ := hkeeps
  exact ⟨fun hs => t.recordsBounded_iff.1 (hbounds (s.recordsBounded_iff.2 hs)), hanswers⟩

end Sys2Proof.Machine
end

