-- ==== Sys2Proof/Proofs/Settled.lean ====
section
/-! SUPPORT. Which records a route keeps in each state (R37, R53, R54, R65, R67, R129), and that the moves of one event keep every
route so. -/

namespace Sys2Proof.Machine

/-! ### The records of a route in a state -/

/-- The records of a route as its state `state` asks: in DISABLED no schedule, sample, outstanding record, pattern error, PROBE or
ECHO (R53, R54), elsewhere the PROBE schedule running (R37), and the TEST schedule and entry in PROVING alone (R65, R67). -/
structure QuietIn (state : RouteState) (h : Health) (x : Probe) (t : Tx) : Prop where
  idle : state = .disabled →
    x.due = none ∧ x.outstanding = [] ∧ x.ring = [] ∧ x.errorsToTell = 0 ∧ t.probeEntry = false ∧ t.echoes = []
  runs : state ≠ .disabled → x.due.isSome = true
  tests : state = .proving ↔ h.testDue.isSome = true
  entry : state ≠ .proving → t.testEntry = false

/-- The records of a route fit its own state, and its queue is empty off UP and FADING (R129). -/
structure SettledIn (h : Health) (x : Probe) (t : Tx) : Prop where
  quiet : QuietIn h.state h x t
  empty : h.state.carries = false → t.queue = []

/-- A route's records fit its state. -/
def State.SettledRoute (s : State) (r : RouteIx) : Prop := SettledIn s.health[r] s.probes[r] s.tx[r]

/-- Every route's records fit its state. -/
def State.Settled (s : State) : Prop := ∀ r : RouteIx, s.SettledRoute r

theorem State.settled_iff (s : State) : s.Settled ↔ (∀ r : RouteIx, s.QuietRoute r) ∧ s.EmptyOffRoute := by
  constructor
  · intro h
    refine ⟨fun r => ?_, fun r => (h r).empty⟩
    obtain ⟨hidle, hruns, htests, hentry⟩ := (h r).quiet
    exact ⟨hidle, hruns, htests, hentry⟩
  · rintro ⟨hquiet, hempty⟩ r
    obtain ⟨hidle, hruns, htests, hentry⟩ := hquiet r
    exact ⟨⟨hidle, hruns, htests, hentry⟩, hempty r⟩

/-- The records of a route, its waiting queue apart, decide whether it is quiet. -/
theorem QuietIn.of_queueless {state : RouteState} {h : Health} {x : Probe} {t t' : Tx} (hquiet : QuietIn state h x t)
    (htx : t'.queueless = t.queueless) : QuietIn state h x t' := by
  obtain ⟨hidle, hruns, htests, hentry⟩ := hquiet
  have hprobe : t'.probeEntry = t.probeEntry := (congrArg Tx.probeEntry htx :)
  have hechoes : t'.echoes = t.echoes := (congrArg Tx.echoes htx :)
  have htest : t'.testEntry = t.testEntry := (congrArg Tx.testEntry htx :)
  exact ⟨by rw [hprobe, hechoes]; exact hidle, hruns, htests, by rw [htest]; exact hentry⟩

/-! ### One change (R65) -/

/-- A route's PROBE schedule and pattern errors to report, and whether a PROBE waits and which ECHOs do. -/
def State.exchangeRecords (s : State) (r : RouteIx) : (Option Ticks × Nat) × (Bool × List EchoEntry) :=
  ((s.probes[r].due, s.probes[r].errorsToTell), (s.tx[r].probeEntry, s.tx[r].echoes))

/-- Entering DISABLED clears them, leaving it starts the PROBE schedule with a request, and any other change leaves them
(R37, R54). -/
theorem State.exchangeRecords_settle (s : State) (r : RouteIx) {old new : RouteState} (hne : old ≠ new) :
    (s.settle r old new).exchangeRecords r =
      if new = .disabled then ((none, 0), (false, []))
      else if old = .disabled then ((some s.nextDue, s.probes[r].errorsToTell), (true, s.tx[r].echoes))
      else s.exchangeRecords r := by
  have hleave (u : State) : (u.leaveProving r).exchangeRecords r = u.exchangeRecords r := by
    simp [State.exchangeRecords, State.leaveProving]
  have henter (u : State) : (u.enterProving r).exchangeRecords r = u.exchangeRecords r := by
    rw [State.exchangeRecords, State.enterProving, State.requestTest]
    split <;> simp [State.exchangeRecords]
  have hflush (u : State) : (u.flush r).exchangeRecords r = u.exchangeRecords r := by
    simp [State.exchangeRecords, State.flush]
  have hdisable (u : State) : (u.disableEffects r).exchangeRecords r = ((none, 0), (false, [])) := by
    simp [State.exchangeRecords, State.disableEffects]
  have hstart (u : State) :
      (u.startProbes r).exchangeRecords r = ((some u.nextDue, u.probes[r].errorsToTell), (true, u.tx[r].echoes)) := by
    rw [State.exchangeRecords, State.startProbes, State.requestProbe]
    split
    · rename_i hwaits
      simpa [State.nextDue, State.probeTicks] using hwaits
    · simp [State.nextDue, State.probeTicks]
  have hentered (u : State) (hu : u = if new = .proving then (if old = .proving then s.leaveProving r else s).enterProving r
      else if old = .proving then s.leaveProving r else s) :
      u.exchangeRecords r = s.exchangeRecords r ∧ u.nextDue = s.nextDue := by
    subst hu
    refine ⟨by simp only [apply_ite (fun u : State => u.exchangeRecords r), hleave, henter, ite_self], ?_⟩
    simp [State.nextDue, State.probeTicks, apply_ite State.cfg, apply_ite State.time]
  rw [State.settle]
  generalize (if new = .proving then (if old = .proving then s.leaveProving r else s).enterProving r
      else if old = .proving then s.leaveProving r else s) = u at hentered ⊢
  obtain ⟨hview, hdue⟩ := hentered u rfl
  by_cases hnew : new = .disabled
  · have hold : old ≠ .disabled := fun e => hne (e.trans hnew.symm)
    simp only [hnew, hold, or_true, if_true, if_false, hdisable]
  · have hflushed : (if new = .down ∨ new = .disabled then u.flush r else u).exchangeRecords r = u.exchangeRecords r := by
      simp only [apply_ite (fun u : State => u.exchangeRecords r), hflush, ite_self]
    have hdue' : (if new = .down ∨ new = .disabled then u.flush r else u).nextDue = s.nextDue := by
      rw [apply_ite State.nextDue, ← hdue]
      simp [State.nextDue, State.probeTicks]
    simp only [hnew, if_false]
    simp only [hnew] at hflushed hdue'
    split
    · rw [hstart, hdue']
      have hrecords := hflushed.trans hview
      simp only [State.exchangeRecords, Prod.mk.injEq] at hrecords
      obtain ⟨⟨-, htell⟩, -, hechoes⟩ := hrecords
      rw [htell, hechoes]
    · exact hflushed.trans hview

theorem State.exchangeRecords_consequences (s : State) (r : RouteIx) {old new : RouteState} (hne : old ≠ new) :
    (s.consequences r old new).exchangeRecords r =
      if new = .disabled then ((none, 0), (false, []))
      else if old = .disabled then ((some s.nextDue, s.probes[r].errorsToTell), (true, s.tx[r].echoes))
      else s.exchangeRecords r := by
  have hsteer (u : State) (q : RouteIx) : (u.resteer q).exchangeRecords r = u.exchangeRecords r := by
    have hprobe : (u.resteer q).tx[r].probeEntry = u.tx[r].probeEntry := (congrArg Tx.probeEntry (u.entries_resteer q r) :)
    have hechoes : (u.resteer q).tx[r].echoes = u.tx[r].echoes := (congrArg Tx.echoes (u.entries_resteer q r) :)
    simp only [State.exchangeRecords, State.resteer_leaves, hprobe, hechoes]
  exact (State.consequences_proj (fun u => u.exchangeRecords r) (by intros; rfl) hsteer (by intros; rfl) ..).trans
    (s.exchangeRecords_settle r hne)

/-- A change leaves the route's records as its new state asks, when they were as its old state asked. -/
theorem State.quietIn_consequences {s : State} {r : RouteIx} {old new : RouteState} (hne : old ≠ new)
    (h : QuietIn old s.health[r] s.probes[r] s.tx[r]) :
    QuietIn new (s.consequences r old new).health[r] (s.consequences r old new).probes[r]
      (s.consequences r old new).tx[r] := by
  have hprove := congrArg Prod.snd (s.proveRecords_consequences r old new)
  have hprobe := congrArg Prod.fst (s.probeRecords_consequences r old new)
  have hexchange := s.exchangeRecords_consequences r hne
  simp only [State.proveRecords, apply_ite Prod.snd] at hprove
  simp only [State.probeRecords, apply_ite Prod.fst] at hprobe
  simp only [State.exchangeRecords] at hexchange
  generalize (s.consequences r old new).health[r] = h', (s.consequences r old new).probes[r] = x',
    (s.consequences r old new).tx[r] = t' at *
  obtain ⟨hidle, hruns, htests, hentry⟩ := h
  refine ⟨fun hnew => ?_, fun hnew => ?_, ?_, fun hnew => ?_⟩
  · rw [if_pos hnew] at hexchange
    rw [if_pos (.inr hnew)] at hprobe
    simp only [Prod.mk.injEq] at hexchange hprobe
    obtain ⟨⟨hdue, htell⟩, hentry', hechoes⟩ := hexchange
    obtain ⟨hring, houtstanding⟩ := hprobe
    exact ⟨hdue, houtstanding, hring, htell, hentry', hechoes⟩
  · rw [if_neg hnew] at hexchange
    split at hexchange <;> simp only [Prod.mk.injEq] at hexchange <;> rw [hexchange.1.1]
    · rfl
    · exact hruns ‹_›
  · by_cases hnew : new = .proving
    · rw [if_pos hnew, Prod.mk.injEq] at hprove
      rw [hprove.1]
      exact ⟨fun _ => rfl, fun _ => hnew⟩
    · rw [if_neg hnew] at hprove
      have hstopped : h'.testDue = none := by
        split at hprove <;> simp only [Prod.mk.injEq] at hprove <;> rw [hprove.1]
        rename_i hold
        exact Option.not_isSome_iff_eq_none.1 fun hsome => hold (htests.2 hsome)
      rw [hstopped]
      exact ⟨fun e => absurd e hnew, fun e => by cases e⟩
  · rw [if_neg hnew] at hprove
    split at hprove <;> simp only [Prod.mk.injEq] at hprove <;> rw [hprove.2]
    exact hentry ‹_›

/-! ### The moves of one event (R76) -/

/-- A series of changes, each to another state, leaves the route's records as its last state asks. -/
theorem State.quietIn_moveConsequences {s : State} {r : RouteIx} {old : RouteState} {via : List RouteState}
    (hchain : (old :: via).IsChain (· ≠ ·)) (h : QuietIn old s.health[r] s.probes[r] s.tx[r]) :
    QuietIn (via.getLastD old) (s.moveConsequences r old via).health[r] (s.moveConsequences r old via).probes[r]
      (s.moveConsequences r old via).tx[r] := by
  induction via generalizing s old with
  | nil => exact h
  | cons new via ih =>
    rw [List.isChain_cons_cons] at hchain
    rw [List.getLastD_cons]
    exact ih hchain.2 (State.quietIn_consequences hchain.1 h)

/-- A route whose states, from the one it stands in through those of its moves, change each time, ends with its records as its
state asks. -/
theorem State.settledRoute_applyMoves {moves : List Move} (h : Ordered moves) {s : State} {q : RouteIx}
    (hchain : (s.health[q].state :: viaOf moves q).IsChain (· ≠ ·)) (hq : s.SettledRoute q) :
    (s.applyMoves moves).SettledRoute q := by
  obtain ⟨hquiet, hempty⟩ := hq
  obtain ⟨u, hu, -, hqueue, hsame, -, hcopies⟩ := State.applyMoves_route h s q
  have hstate := (congrArg Prod.fst (s.core_applyMoves h q)).trans (Health.through_state ..)
  dsimp only [Health.core] at hstate
  simp only [State.routeRecords, Prod.mk.injEq] at hu hsame
  obtain ⟨huhealth, huprobe, hutx⟩ := hu
  obtain ⟨hhealth, hprobe, htx⟩ := hsame
  generalize viaOf moves q = via at *
  constructor
  · have hustart : QuietIn s.health[q].state u.health[q] u.probes[q] u.tx[q] := by
      rw [huprobe]
      refine QuietIn.of_queueless ?_ hutx
      have htestDue : u.health[q].testDue = s.health[q].testDue := by
        rw [huhealth, Health.through]
        split <;> rfl
      obtain ⟨hidle, hruns, htests, hentry⟩ := hquiet
      exact ⟨hidle, hruns, by rw [htestDue]; exact htests, hentry⟩
    rw [hstate, hhealth, hprobe]
    exact (State.quietIn_moveConsequences hchain hustart).of_queueless htx
  · intro hleft
    have hends : (via.getLastD s.health[q].state).carries = false := by rw [← hstate]; exact hleft
    have hustate : u.health[q].state.carries = false := by rw [huhealth, Health.through_state]; exact hends
    have hstays : (u.moveConsequences q s.health[q].state via).health[q].state = u.health[q].state :=
      congrArg Prod.fst (u.core_moveConsequences q q s.health[q].state via)
    rw [hcopies (by rw [hstays]; exact hustate)]
    refine u.queue_of_left q hustate (fun hold => ?_) hends
    rw [hqueue (by rw [Health.through_state]; exact hends)]
    exact hempty hold

theorem State.settled_applyMoves {moves : List Move} (h : Ordered moves) {s : State}
    (hchain : ∀ q : RouteIx, (s.health[q].state :: viaOf moves q).IsChain (· ≠ ·)) (hs : s.Settled) :
    (s.applyMoves moves).Settled := fun q => State.settledRoute_applyMoves h (hchain q) (hs q)

end Sys2Proof.Machine
end

