-- ==== Sys2Proof/Proofs/Steady.lean ====
section
/-! SUPPORT. Operations that move no setting and no force, return no DISABLED route, and leave every route's records as its state
asks (R37, R53, R54, R60, R65, R67, R114, R129). -/

namespace Sys2Proof.Machine

/-! ### Steady operations -/

/-- `t` has the settings, the load state and the forced routes of `s`, and every route DISABLED in `s` is so in `t`. -/
structure State.SteadyFrame (s t : State) : Prop where
  cfg : t.cfg = s.cfg
  load : t.profile.load = s.profile.load
  forced : ∀ p : PeerIx, t.peers[p].forced = s.peers[p].forced
  stays : ∀ r : RouteIx, s.health[r].state = .disabled → t.health[r].state = .disabled

/-- From a state whose routes' records fit their states, `t` keeps what `SteadyFrame` names and that the records fit. -/
structure State.Steady (s t : State) : Prop where
  keeps : s.Settled → s.SteadyFrame t ∧ t.Settled

theorem State.SteadyFrame.refl (s : State) : s.SteadyFrame s := ⟨rfl, rfl, fun _ => rfl, fun _ => id⟩

theorem State.SteadyFrame.trans {s t u : State} (h : s.SteadyFrame t) (h' : t.SteadyFrame u) : s.SteadyFrame u where
  cfg := h'.cfg.trans h.cfg
  load := h'.load.trans h.load
  forced p := (h'.forced p).trans (h.forced p)
  stays r := h'.stays r ∘ h.stays r

theorem State.Steady.refl (s : State) : s.Steady s := ⟨fun hs => ⟨.refl s, hs⟩⟩

theorem State.Steady.trans {s t u : State} (h : s.Steady t) (h' : t.Steady u) : s.Steady u where
  keeps hs :=
    let ⟨hframe, ht⟩ := h.keeps hs
    let ⟨hframe', hu⟩ := h'.keeps ht
    ⟨hframe.trans hframe', hu⟩

/-- What is steady from a state whose records fit is steady. -/
theorem State.Steady.of_settled {s t : State} (h : s.Settled → s.Steady t) : s.Steady t := ⟨fun hs => (h hs).keeps hs⟩

/-- What touches no setting, no peer's selection, no health, probe or transmit record, and not the load state. -/
theorem State.Steady.of_frame {s t : State} (hcfg : t.cfg = s.cfg) (hload : t.profile.load = s.profile.load)
    (hpeers : t.peers = s.peers) (hhealth : t.health = s.health) (hprobes : t.probes = s.probes) (htx : t.tx = s.tx) :
    s.Steady t := by
  refine ⟨fun hs => ⟨⟨hcfg, hload, fun p => by rw [hpeers], fun r => by rw [hhealth]; exact id⟩, fun r => ?_⟩⟩
  rw [State.SettledRoute, hhealth, hprobes, htx]
  exact hs r

theorem State.Steady.foldl {α : Type} {f : State → α → State} (h : ∀ (s : State) (a : α), s.Steady (f s a)) (l : List α)
    (s : State) : s.Steady (l.foldl f s) := by
  induction l generalizing s with
  | nil => exact .refl s
  | cons a l ih => exact (h s a).trans (ih _)

theorem State.steady_forRoutes (s : State) {f : RouteIx → State → State} (h : ∀ r s, State.Steady s (f r s)) :
    s.Steady (s.forRoutes f) := State.Steady.foldl (fun s r => h r s) _ s

/-! ### One record changed -/

/-- What of a probe record its route's state decides. -/
def Probe.holding (x : Probe) : Option Ticks × List Outstanding × List Sample × Nat :=
  (x.due, x.outstanding, x.ring, x.errorsToTell)

/-- What of a transmit record its route's state decides. -/
def Tx.waiting (t : Tx) : List Copy × Bool × List EchoEntry × Bool := (t.queue, t.probeEntry, t.echoes, t.testEntry)

theorem SettledIn.of_probe {h : Health} {x x' : Probe} {t : Tx} (hs : SettledIn h x t)
    (hdue : x'.due.isSome = x.due.isSome)
    (hidle : h.state = .disabled → x.outstanding = [] → x.ring = [] → x.errorsToTell = 0 →
      x'.outstanding = [] ∧ x'.ring = [] ∧ x'.errorsToTell = 0) : SettledIn h x' t := by
  obtain ⟨⟨hidle', hruns, htests, hentry⟩, hempty⟩ := hs
  refine ⟨⟨fun hstate => ?_, fun hstate => hdue ▸ hruns hstate, htests, hentry⟩, hempty⟩
  obtain ⟨hstopped, houtstanding, hring, herrors, hprobe, hechoes⟩ := hidle' hstate
  obtain ⟨houtstanding', hring', herrors'⟩ := hidle hstate houtstanding hring herrors
  refine ⟨?_, houtstanding', hring', herrors', hprobe, hechoes⟩
  rw [hstopped] at hdue
  exact Option.not_isSome_iff_eq_none.1 (by rw [hdue]; decide)

theorem SettledIn.of_tx {h : Health} {x : Probe} {t t' : Tx} (hs : SettledIn h x t)
    (hqueue : h.state.carries = false → t.queue = [] → t'.queue = [])
    (hidle : h.state = .disabled → t.probeEntry = false → t.echoes = [] → t'.probeEntry = false ∧ t'.echoes = [])
    (htest : h.state ≠ .proving → t.testEntry = false → t'.testEntry = false) : SettledIn h x t' := by
  obtain ⟨⟨hidle', hruns, htests, hentry⟩, hempty⟩ := hs
  refine ⟨⟨fun hstate => ?_, hruns, htests, fun hstate => htest hstate (hentry hstate)⟩,
    fun hleft => hqueue hleft (hempty hleft)⟩
  obtain ⟨hstopped, houtstanding, hring, herrors, hprobe, hechoes⟩ := hidle' hstate
  exact ⟨hstopped, houtstanding, hring, herrors, hidle hstate hprobe hechoes⟩

theorem SettledIn.of_health {h h' : Health} {x : Probe} {t : Tx} (hs : SettledIn h x t) (hstate : h'.state = h.state)
    (hdue : h'.testDue.isSome = h.testDue.isSome) : SettledIn h' x t := by
  obtain ⟨⟨hidle, hruns, htests, hentry⟩, hempty⟩ := hs
  constructor
  · rw [hstate]
    exact ⟨hidle, hruns, by rw [hdue]; exact htests, hentry⟩
  · rw [hstate]
    exact hempty

theorem State.steady_modProbe_of (s : State) (r : RouteIx) {f : Probe → Probe}
    (h : s.SettledRoute r → SettledIn s.health[r] (f s.probes[r]) s.tx[r]) : s.Steady (s.modProbe r f) := by
  refine ⟨fun hs => ⟨⟨rfl, rfl, fun _ => rfl, fun _ => id⟩, fun q => ?_⟩⟩
  rw [State.SettledRoute, State.modProbe_get]
  split
  · rename_i e
    subst e
    exact h (hs q)
  · exact hs q

theorem State.steady_modTx_of (s : State) (r : RouteIx) {f : Tx → Tx}
    (h : s.SettledRoute r → SettledIn s.health[r] s.probes[r] (f s.tx[r])) : s.Steady (s.modTx r f) := by
  refine ⟨fun hs => ⟨⟨rfl, rfl, fun _ => rfl, fun _ => id⟩, fun q => ?_⟩⟩
  rw [State.SettledRoute, State.modTx_get]
  split
  · rename_i e
    subst e
    exact h (hs q)
  · exact hs q

theorem State.steady_modProbe (s : State) (r : RouteIx) {f : Probe → Probe} (h : (f s.probes[r]).holding = s.probes[r].holding) :
    s.Steady (s.modProbe r f) := by
  simp only [Probe.holding, Prod.mk.injEq] at h
  obtain ⟨hdue, houtstanding, hring, herrors⟩ := h
  exact s.steady_modProbe_of r fun hs => hs.of_probe (by rw [hdue]) fun _ h1 h2 h3 =>
    ⟨houtstanding.trans h1, hring.trans h2, herrors.trans h3⟩

theorem State.steady_modTx (s : State) (r : RouteIx) {f : Tx → Tx} (h : (f s.tx[r]).waiting = s.tx[r].waiting) :
    s.Steady (s.modTx r f) := by
  simp only [Tx.waiting, Prod.mk.injEq] at h
  obtain ⟨hqueue, hprobe, hechoes, htest⟩ := h
  exact s.steady_modTx_of r fun hs => hs.of_tx (fun _ => hqueue.trans) (fun _ h1 h2 => ⟨hprobe.trans h1, hechoes.trans h2⟩)
    fun _ => htest.trans

theorem State.steady_modHealth (s : State) (r : RouteIx) {f : Health → Health}
    (hstate : (f s.health[r]).state = s.health[r].state)
    (hdue : (f s.health[r]).testDue.isSome = s.health[r].testDue.isSome) : s.Steady (s.modHealth r f) := by
  refine ⟨fun hs => ⟨⟨rfl, rfl, fun _ => rfl, fun q hq => ?_⟩, fun q => ?_⟩⟩
  · rw [State.modHealth_get]
    split
    · rename_i e
      subst e
      exact hstate.trans hq
    · exact hq
  · rw [State.SettledRoute, State.modHealth_get]
    split
    · rename_i e
      subst e
      exact (hs q).of_health hstate hdue
    · exact hs q

theorem State.steady_modLane (s : State) (r : RouteIx) (f : Lane → Lane) : s.Steady (s.modLane r f) :=
  .of_frame rfl rfl rfl rfl rfl rfl

theorem State.steady_setPool (s : State) (p : Pool) : s.Steady (s.setPool p) := .of_frame rfl rfl rfl rfl rfl rfl

theorem State.steady_setTime (s : State) (x : TimeBase) : s.Steady (s.setTime x) := .of_frame rfl rfl rfl rfl rfl rfl

theorem State.steady_modCircuit (s : State) (n : CircIx) (f : Circuit → Circuit) : s.Steady (s.modCircuit n f) :=
  .of_frame rfl rfl rfl rfl rfl rfl

theorem State.steady_modScore (s : State) (r : RouteIx) (f : Score → Score) : s.Steady (s.modScore r f) :=
  .of_frame rfl rfl rfl rfl rfl rfl

theorem State.steady_modSel (s : State) (r : RouteIx) (f : RouteSel → RouteSel) : s.Steady (s.modSel r f) :=
  .of_frame rfl rfl rfl rfl rfl rfl

theorem State.steady_modPort (s : State) (p : PortIx) (f : Port → Port) : s.Steady (s.modPort p f) :=
  .of_frame rfl rfl rfl rfl rfl rfl

theorem State.steady_release (s : State) (k : Nat) : s.Steady (s.release k) := s.steady_setPool _

theorem State.steady_updateFrame (s : State) (k : Nat) (g : Frame → Frame) : s.Steady (s.updateFrame k g) := s.steady_setPool _

theorem State.steady_countDiscard (s : State) (r : RouteIx) (c : Copy) (reason : DiscardReason) :
    s.Steady (s.countDiscard r c reason) := .of_frame (by simp) (by simp) (by simp) (by simp) (by simp) (by simp)

/-- A placement that finds no route counts on the peer, whose forced route stays (R106). -/
theorem State.steady_countNoRoute (s : State) (peer : PeerIx) : s.Steady (s.countNoRoute peer) := by
  refine ⟨fun hs => ⟨⟨rfl, rfl, fun p => ?_, fun _ => id⟩, hs⟩⟩
  rw [State.countNoRoute, State.modPeer_get]
  split
  · rename_i e
    rw [e]
  · rfl

/-! ### Copies that wait (R91, R100, R107, R124, R126) -/

/-- A copy joins the queue of a route in UP or FADING (R100). -/
theorem State.steady_enqueue {s : State} {r : RouteIx} (h : s.health[r].state.carries = true) (c : Copy) :
    s.Steady (s.enqueue r c) :=
  s.steady_modTx_of r fun hs => hs.of_tx (fun hleft => by (rw [h] at hleft; cases hleft)) (fun _ h1 h2 => ⟨h1, h2⟩) fun _ => id

/-- The copies of a placement join the queues of eligible routes (R100, R103, R104). -/
theorem State.steady_place {s s' : State} {n : CircIx} {port : PortIx} {peer : PeerIx} {cls : TrafficClass} {k len : Nat}
    {origin : Ticks} (h : s.place n port peer cls k len origin = some s') : s.Steady s' := by
  unfold State.place at h
  dsimp only at h
  split at h
  · cases h
  · rename_i r hprimary
    cases h
    refine Steady.trans (Steady.trans ?_ (State.steady_updateFrame _ _ _)) (State.steady_modCircuit _ _ _)
    have hfirst (c : Copy) := (State.steady_enqueue (State.mem_eligible (State.primary_mem hprimary)) c).trans
      (State.steady_modSel _ r fun x => { x with primaries := x.primaries + 1 })
    split
    · exact hfirst _
    · rename_i r' hshadow
      have hcarries : s.health[r'].state.carries = true := by
        split at hshadow
        · exact State.mem_eligible (List.mem_filter.1 (leastBy_mem hshadow)).1
        · cases hshadow
      exact ((hfirst _).trans (State.steady_enqueue (by exact hcarries) _)).trans (State.steady_modSel _ _ _)

theorem State.steady_endCurrent (s : State) (r : RouteIx) : s.Steady (s.endCurrent r) := by
  unfold State.endCurrent
  split
  · exact .refl s
  · dsimp only
    split
    · exact s.steady_modTx r (by rfl)
    · exact ((s.steady_modTx r (by rfl)).trans (State.steady_release _ _)).trans (State.steady_modCircuit _ _ _)

theorem State.steady_abandonCurrent (s : State) (r : RouteIx) : s.Steady (s.abandonCurrent r) := by
  unfold State.abandonCurrent
  split
  · exact .refl s
  · exact (s.steady_endCurrent r).trans (State.steady_modTx _ r (by rfl))

theorem State.steady_dropRx (s : State) (r : RouteIx) : s.Steady (s.dropRx r) :=
  .of_frame (by simp) (by simp) (by simp) (by simp) (by simp) (by simp)

theorem State.steady_abandonRx (s : State) (r : RouteIx) : s.Steady (s.abandonRx r) :=
  .of_frame (by simp) (by simp) (by simp) (by simp) (by simp) (by simp)

/-- A copy that leaves a queue (R124, R125). -/
theorem SettledIn.of_queue {h : Health} {x : Probe} {t t' : Tx} (hs : SettledIn h x t) (hqueue : t.queue = [] → t'.queue = [])
    (hsame : t'.queueless.waiting = t.queueless.waiting) : SettledIn h x t' := by
  simp only [Tx.waiting, Tx.queueless, Prod.mk.injEq, true_and] at hsame
  obtain ⟨hprobe, hechoes, htest⟩ := hsame
  exact hs.of_tx (fun _ => hqueue) (fun _ h1 h2 => ⟨hprobe.trans h1, hechoes.trans h2⟩) fun _ => htest.trans

theorem State.steady_expireAtStart (s : State) (r : RouteIx) (c : Copy) : s.Steady (s.expireAtStart r c) :=
  ((s.steady_modTx_of r fun hs => hs.of_queue (fun e => by dsimp only; rw [e]; rfl) rfl).trans
    (State.steady_countDiscard _ r c _)).trans
    (State.steady_release _ _)

theorem State.steady_startCargo (s : State) (r : RouteIx) (c : Copy) (slot : Option (Fin 16)) :
    s.Steady (s.startCargo r c slot) := by
  have hcounted (u : State) : u.Steady (u.countStart c) := .of_frame (by simp) (by simp) (by simp) (by simp) (by simp) (by simp)
  exact (s.steady_modTx_of r fun hs => hs.of_queue (fun e => by dsimp only; rw [e]; rfl) rfl).trans (hcounted _)

theorem State.steady_grantLoop (s : State) (r : RouteIx) (fuel : Nat) : s.Steady (s.grantLoop r fuel) := by
  induction fuel generalizing s with
  | zero => exact .refl s
  | succ fuel ih =>
    unfold State.grantLoop
    split
    · exact .refl s
    · rename_i c slot _
      have hgranted (u : State) (hu : s.Steady u) :
          s.Steady (if u.expired c then (u.expireAtStart r c).grantLoop r fuel else u.startCargo r c slot) := by
        split
        · exact (hu.trans (u.steady_expireAtStart r c)).trans (ih _)
        · exact hu.trans (u.steady_startCargo r c slot)
      cases slot with
      | none => exact hgranted _ (s.steady_modTx r (by rfl))
      | some i => exact hgranted s (.refl s)

/-- The waiting copies of a circuit leave a queue (R85). -/
theorem State.steady_flushRoute (s : State) (n : CircIx) (r : RouteIx) : s.Steady (s.flushRoute n r) := by
  unfold State.flushRoute
  exact (s.steady_modTx_of r fun hs => hs.of_queue (fun e => by dsimp only; rw [e]; rfl) rfl).trans
    (Steady.foldl (fun t c => (t.steady_countDiscard r c _).trans (State.steady_release _ _)) _ _)

theorem State.steady_closeOut (s : State) (n : CircIx) : s.Steady (s.closeOut n) := by
  unfold State.closeOut
  exact Steady.trans (s.steady_forRoutes fun r t => t.steady_flushRoute n r) (State.steady_modCircuit _ n _)

/-! ### Changes of state, schedules and resolutions (R37, R48, R61 to R70) -/

/-- A route not DISABLED makes one change. -/
theorem State.steady_moveRoute {s : State} {r : RouteIx} {new : RouteState} (hne : s.health[r].state ≠ new)
    (hnot : s.health[r].state ≠ .disabled) : s.Steady (s.moveRoute r [new]) := by
  have hordered := ordered_one r [new]
  refine ⟨fun hs =>
    ⟨⟨by simp, by simp, fun p => by simp, fun q hq => ?_⟩, State.settled_applyMoves hordered (fun q => ?_) hs⟩⟩
  · have hstate := ((s.applyMoves_changesMade hordered).1 q).1
    rw [viaOf_one, if_neg fun e : r = q => hnot (by rw [e]; exact hq)] at hstate
    exact hstate.trans hq
  · rw [viaOf_one]
    split
    · rename_i e
      rw [← e]
      exact List.isChain_cons_cons.2 ⟨hne, List.isChain_singleton _⟩
    · exact List.isChain_singleton _

theorem State.steady_evaluate (s : State) (r : RouteIx) : s.Steady (s.evaluate r) := by
  obtain ⟨-, e⟩ | ⟨new, -, e, hne, -, hnot⟩ := s.evaluate_cases r
  · rw [e]
    exact .refl s
  · rw [e]
    exact State.steady_moveRoute hne.symm hnot

theorem State.steady_resolve (s : State) (r : RouteIx) (res : Resolution) : s.Steady (s.resolve r res) :=
  (s.steady_modHealth r (by rfl) (by rfl)).trans (State.steady_evaluate _ r)

theorem State.steady_crcFailure (s : State) (r : RouteIx) : s.Steady (s.crcFailure r) :=
  (s.steady_modHealth r (by rfl) (by rfl)).trans (State.steady_evaluate _ r)

/-- An outstanding record goes (R39, R48). -/
theorem SettledIn.of_erase {h : Health} {x x' : Probe} {t : Tx} (hs : SettledIn h x t) (o : Outstanding)
    (hsame : x'.holding = (x.due, x.outstanding.erase o, x.ring, x.errorsToTell)) : SettledIn h x' t := by
  simp only [Probe.holding, Prod.mk.injEq] at hsame
  obtain ⟨hdue, houtstanding, hring, herrors⟩ := hsame
  exact hs.of_probe (by rw [hdue]) fun _ h1 h2 h3 => ⟨by rw [houtstanding, h1]; rfl, hring.trans h2, herrors.trans h3⟩

theorem State.steady_loseProbe (s : State) (r : RouteIx) (o : Outstanding) : s.Steady (s.loseProbe r o) :=
  (s.steady_modProbe_of r fun hs => hs.of_erase o (by rfl)).trans (State.steady_resolve _ r _)

theorem State.steady_loseDue (s : State) (r : RouteIx) (fuel : Nat) : s.Steady (s.loseDue r fuel) := by
  induction fuel generalizing s with
  | zero => exact .refl s
  | succ fuel ih =>
    unfold State.loseDue
    split
    · exact .refl s
    · exact (s.steady_loseProbe r _).trans (ih _)

theorem State.steady_judgeSilence (s : State) (r : RouteIx) : s.Steady (s.judgeSilence r) := by
  unfold State.judgeSilence
  split
  · exact (s.steady_modLane r _).trans (State.steady_evaluate _ r)
  · exact .refl s

/-- A PROBE is placed on a route that is not DISABLED (R37). -/
theorem State.steady_requestProbe {s : State} {r : RouteIx} (hnot : s.health[r].state ≠ .disabled) :
    s.Steady (s.requestProbe r) := by
  unfold State.requestProbe
  split
  · exact s.steady_modProbe r (by rfl)
  · exact s.steady_modTx_of r fun hs => hs.of_tx (fun _ => id) (fun hstate => absurd hstate hnot) fun _ => id

/-- A TEST is placed on a route in PROVING (R67). -/
theorem State.steady_requestTest {s : State} {r : RouteIx} (hproving : s.health[r].state = .proving) :
    s.Steady (s.requestTest r) := by
  unfold State.requestTest
  split
  · exact s.steady_modHealth r (by rfl) (by rfl)
  · exact s.steady_modTx_of r fun hs => hs.of_tx (fun _ => id) (fun _ h1 h2 => ⟨h1, h2⟩) fun hstate => absurd hproving hstate

/-! ### Offers (R40, R44, R68, R120 to R125) -/

theorem State.steady_startControl (s : State) (r : RouteIx) (kind : TrunkKind) (bytes : List Byte) :
    s.Steady (s.startControl r kind bytes) := s.steady_modTx r rfl

theorem State.steady_sendEcho {s : State} {r : RouteIx} {e : EchoEntry} {rest : List EchoEntry}
    (h : s.tx[r].echoes = e :: rest) : s.Steady (s.sendEcho r e rest) := by
  refine (s.steady_startControl r .echo (s.echoBytes r e)).trans (Steady.trans ?_ (State.steady_modProbe _ r (by rfl)))
  refine State.steady_modTx_of _ r fun hs => hs.of_tx (fun _ => id) (fun _ h1 h2 => ?_) fun _ => id
  rw [State.startControl, State.modTx_get_self] at h2
  exact absurd (h.symm.trans h2) (List.cons_ne_nil _ _)

/-- A PROBE waits on a route that is not DISABLED alone (R54). -/
theorem State.Settled.active_of_probeEntry {s : State} (hs : s.Settled) {r : RouteIx} (h : s.tx[r].probeEntry = true) :
    s.health[r].state ≠ .disabled := fun hstate => by
  obtain ⟨-, -, -, -, hentry, -⟩ := (hs r).quiet.idle hstate
  rw [h] at hentry
  cases hentry

theorem State.steady_sendProbe {s : State} {r : RouteIx} (h : s.tx[r].probeEntry = true) : s.Steady (s.sendProbe r) := by
  refine Steady.of_settled fun hs => ?_
  have hnot := hs.active_of_probeEntry h
  unfold State.sendProbe
  dsimp only
  refine (s.steady_startControl r .probe (s.probeBytes r s.probes[r].nextNumber)).trans
    (Steady.trans (State.steady_modTx_of _ r fun hs => ?_) (State.steady_modProbe_of _ r fun hs => ?_))
  · exact hs.of_tx (fun _ => id) (fun _ _ h2 => ⟨rfl, h2⟩) fun _ => id
  · exact hs.of_probe (by rfl) fun hstate => absurd hstate hnot

theorem State.steady_skipProbe (s : State) (r : RouteIx) : s.Steady (s.skipProbe r) := by
  refine Steady.trans ?_ (State.steady_modProbe _ r (by rfl))
  exact s.steady_modTx_of r fun hs => hs.of_tx (fun _ => id) (fun _ _ h2 => ⟨rfl, h2⟩) fun _ => id

theorem State.steady_sendTest (s : State) (r : RouteIx) : s.Steady (s.sendTest r) := by
  refine (s.steady_startControl r .test (s.testBytes s.health[r].seed)).trans
    (Steady.trans ?_ (State.steady_modHealth _ r (by rfl) (by rfl)))
  exact State.steady_modTx_of _ r fun hs => hs.of_tx (fun _ => id) (fun _ h1 h2 => ⟨h1, h2⟩) fun _ _ => rfl

theorem State.steady_offerTest (s : State) (r : RouteIx) : s.Steady (s.offerTest r) := by
  unfold State.offerTest State.offerCargo
  split
  · exact s.steady_sendTest r
  · split
    · exact s.steady_grantLoop r _
    · exact .refl s

theorem State.steady_offer (s : State) (r : RouteIx) : s.Steady (s.offer r) := by
  unfold State.offer State.offerProbe
  split
  · split
    · exact State.steady_sendEcho ‹_›
    · split
      · split
        · exact State.steady_sendProbe ‹_›
        · exact (s.steady_skipProbe r).trans (State.steady_offerTest _ r)
      · exact s.steady_offerTest r
  · exact .refl s

/-! ### Arrival (R42, R45 to R52, R69, R136 to R152) -/

theorem State.steady_answerProbe {s : State} {r : RouteIx} (hnot : s.health[r].state ≠ .disabled) (n : Byte) (t1 t2 : Stamp) :
    s.Steady (s.answerProbe r n t1 t2) := by
  unfold State.answerProbe
  split
  · refine Steady.trans (s.steady_modTx_of r fun hs => ?_) (State.steady_modProbe_of _ r fun hs => ?_)
    · exact hs.of_tx (fun _ => id) (fun hstate => absurd hstate hnot) fun _ => id
    · exact hs.of_probe rfl fun hstate => absurd hstate hnot
  · exact s.steady_modProbe r (by rfl)

theorem State.steady_viewPeer (s : State) (r : RouteIx) (state errors : Byte) : s.Steady (s.viewPeer r state errors) :=
  s.steady_modProbe r (by rfl)

theorem State.steady_acceptOffset (s : State) (θ : Int) (interval : Nat) : s.Steady (s.acceptOffset θ interval) :=
  .of_frame (by simp) (by simp) (by simp) (by simp) (by simp) (by simp)

theorem State.steady_gateOffset (s : State) (r : RouteIx) (x : Sample) : s.Steady (s.gateOffset r x) := by
  unfold State.gateOffset
  split
  · exact (s.steady_modProbe r (by rfl)).trans (State.steady_acceptOffset _ _ _)
  · exact .refl s

/-- An ECHO is resolved on a route that is not DISABLED (R45, R46, R137). -/
theorem State.steady_resolveEcho {s : State} {r : RouteIx} (hnot : s.health[r].state ≠ .disabled) (n : Byte)
    (t1 t2 t3 t4 : Stamp) (errors state : Byte) : s.Steady (s.resolveEcho r n t1 t2 t3 t4 errors state) := by
  unfold State.resolveEcho
  split
  · exact s.steady_modProbe r (by rfl)
  · split
    · exact ((s.steady_modProbe_of r fun hs => hs.of_erase _ (by rfl)).trans (State.steady_viewPeer _ r _ _)).trans
        (State.steady_resolve _ r _)
    · refine Steady.trans (Steady.trans (Steady.trans (s.steady_modProbe_of r fun hs => ?_) (State.steady_setTime _ _))
        ((State.steady_gateOffset _ r _).trans (State.steady_viewPeer _ r _ _))) (State.steady_resolve _ r _)
      exact hs.of_probe rfl fun hstate => absurd hstate hnot

theorem State.steady_checkTest {s : State} {r : RouteIx} (hnot : s.health[r].state ≠ .disabled) (seed : BitVec 16)
    (bs : List Byte) : s.Steady (s.checkTest r seed bs) := by
  unfold State.checkTest
  dsimp only
  split
  · exact s.steady_modHealth r (by rfl) (by rfl)
  · refine Steady.trans ((s.steady_modHealth r (by rfl) (by rfl)).trans (State.steady_modHealth _ r (by rfl) (by rfl)))
      (State.steady_modProbe_of _ r fun hs => hs.of_probe (by rfl) fun hstate => absurd ?_ hnot)
    simpa using hstate

theorem State.steady_relay (s : State) (n target : CircIx) (port : PortIx) (k len : Nat) (seq : BitVec 16) (origin : Ticks) :
    s.Steady (s.relay n target port k len seq origin) := by
  have hfails (u : State) : u.Steady (u.relayFails n port k seq) :=
    .of_frame (by simp) (by simp) (by simp) (by simp) (by simp) (by simp)
  unfold State.relay
  split
  · exact hfails s
  · split
    · exact (State.steady_place ‹_›).trans (State.steady_modCircuit _ n _)
    · exact (s.steady_countNoRoute _).trans (hfails _)

theorem State.steady_acceptCargo (s : State) (r : RouteIx) (n : CircIx) (port : PortIx) (relay : Option CircIx) (rx : Rx)
    (k len : Nat) (seq : BitVec 16) (verdict : Verdict) : s.Steady (s.acceptCargo r n port relay rx k len seq verdict) := by
  have hdeliver (u : State) : u.Steady (u.deliver n port k seq) :=
    .of_frame (by simp) (by simp) (by simp) (by simp) (by simp) (by simp)
  unfold State.acceptCargo
  cases relay with
  | none => exact ((s.steady_modCircuit n _).trans (State.steady_modScore _ r _)).trans (hdeliver _)
  | some target => exact ((s.steady_modCircuit n _).trans (State.steady_modScore _ r _)).trans (State.steady_relay ..)

theorem State.steady_judgeCargo (s : State) (r : RouteIx) (n : CircIx) (port : PortIx) (relay : Option CircIx) (rx : Rx)
    (k len : Nat) (seq : BitVec 16) : s.Steady (s.judgeCargo r n port relay rx k len seq) := by
  unfold State.judgeCargo
  split
  · exact ((s.steady_release k).trans (State.steady_modScore _ r _)).trans (State.steady_modCircuit _ _ _)
  · exact (s.steady_release k).trans (State.steady_modCircuit _ _ _)
  · exact s.steady_acceptCargo ..

theorem State.steady_cargoArrived (s : State) (r : RouteIx) (rx : Rx) (k : Nat) (bs : List Byte) :
    s.Steady (s.cargoArrived r rx k bs) := by
  unfold State.cargoArrived
  split
  · exact (s.steady_release k).trans (State.steady_modScore _ r _)
  · split
    · exact (s.steady_release k).trans (State.steady_modScore _ r _)
    · exact (s.steady_updateFrame k _).trans (State.steady_judgeCargo ..)

theorem State.steady_dispatch {s : State} {r : RouteIx} (hnot : s.health[r].state ≠ .disabled) (rx : Rx) (kind : TrunkKind)
    (bs : List Byte) : s.Steady (s.dispatch r rx kind bs) := by
  have hdropped (f : Score → Score) : s.Steady ((s.dropRx r).modScore r f) ∧
      ((s.dropRx r).modScore r f).health[r].state ≠ .disabled :=
    ⟨(s.steady_dropRx r).trans (State.steady_modScore _ r f), by simpa using hnot⟩
  cases kind with
  | probe => exact (hdropped _).1.trans (State.steady_answerProbe (hdropped _).2 _ _ _)
  | echo => exact (hdropped _).1.trans (State.steady_resolveEcho (hdropped _).2 _ _ _ _ _ _ _)
  | test => exact (hdropped _).1.trans (State.steady_checkTest (hdropped _).2 _ _)
  | cargo =>
    unfold State.dispatch
    dsimp only
    split
    · exact (s.steady_modLane r _).trans (State.steady_cargoArrived _ r rx _ bs)
    · exact s.steady_dropRx r

theorem State.steady_frameJudged (s : State) (r : RouteIx) (rx : Rx) (bs : List Byte) : s.Steady (s.frameJudged r rx bs) := by
  have hdropped := s.steady_dropRx r
  unfold State.frameJudged
  split
  · exact hdropped
  · rename_i hheard
    rw [not_or] at hheard
    split
    · exact hdropped.trans (State.steady_crcFailure _ r)
    · split
      · exact hdropped.trans (State.steady_modScore _ r _)
      · split
        · exact hdropped.trans (State.steady_modScore _ r _)
        · exact State.steady_dispatch hheard.2 rx _ bs

theorem State.steady_lengthLimit (s : State) (r : RouteIx) (rx : Rx) : s.Steady (s.lengthLimit r rx) := by
  have hended := (s.steady_dropRx r).trans (State.steady_modLane (s.dropRx r) r fun l =>
    { l with counts := { l.counts with oversize := l.counts.oversize + 1 } })
  unfold State.lengthLimit
  dsimp only
  split
  · exact hended
  · exact hended.trans (State.steady_crcFailure _ r)

/-! ### Lanes and SENDs (R25 to R28, R156 to R164) -/

theorem State.steady_losAssert (s : State) (r : RouteIx) : s.Steady (s.losAssert r) := by
  unfold State.losAssert State.losEffects
  dsimp only
  split
  · exact .refl s
  · split
    · exact s.steady_modLane r _
    · exact ((((s.steady_modLane r _).trans (State.steady_abandonRx _ r)).trans (State.steady_abandonCurrent _ r)).trans
        (State.steady_modLane _ r _)).trans (State.steady_evaluate _ r)

theorem State.steady_losRelease (s : State) (r : RouteIx) : s.Steady (s.losRelease r) := by
  unfold State.losRelease
  dsimp only
  split
  · split
    · exact s.steady_modLane r _
    · exact (s.steady_modLane r _).trans (State.steady_evaluate _ r)
  · exact .refl s

theorem State.steady_pushReport (s : State) (r : RouteIx) (rsl : Int) : s.Steady (s.pushReport r rsl) :=
  .of_frame (by simp) (by simp) (by simp) (by simp) (by simp) (by simp)

theorem State.steady_laneReport (s : State) (r : RouteIx) (bs : List Byte) : s.Steady (s.laneReport r bs) := by
  unfold State.laneReport
  split
  · exact s.steady_modLane r _
  · split
    · exact s.steady_modLane r _
    · exact ((s.steady_modLane r _).trans (State.steady_pushReport _ r _)).trans (State.steady_evaluate _ r)

theorem State.steady_sendEnd (s : State) (p : PortIx) (k : Nat) (status : Byte) (body : List Byte) (crc : BitVec 32) :
    s.Steady (s.sendEnd p k status body crc) := by
  have hrefuse (u : State) (reason : RefusalReason) : u.Steady (u.refuseSend p k body reason) :=
    .of_frame (by simp) (by simp) (by simp) (by simp) (by simp) (by simp)
  have hjudge (u : State) : u.Steady (u.judgeSend p k body) := by
    unfold State.judgeSend
    split
    · exact hrefuse u _
    · split
      · exact hrefuse u _
      · split
        · exact hrefuse u _
        · split
          · exact (State.steady_place ‹_›).trans (State.steady_modPort _ p _)
          · exact (u.steady_countNoRoute _).trans (hrefuse _ _)
  unfold State.sendEnd
  dsimp only
  split
  · exact .of_frame (by simp) (by simp) (by simp) (by simp) (by simp) (by simp)
  · exact ((s.steady_modPort p _).trans (State.steady_updateFrame _ k _)).trans (hjudge _)

end Sys2Proof.Machine
end

