-- ==== Sys2Proof/Proofs/RouteLaws.lean ====
section
/-! SUPPORT. The settings of the operator, start-up and RESTART keep the laws of routes (R57, R60, R65, R71 to R77, R112 to R116,
R183 to R189). -/

namespace Sys2Proof.Machine

/-! ### The laws of routes -/

/-- Every route that R60 holds is DISABLED, every route's records fit its state, and the forced routes are sound. -/
def State.RouteLaws (s : State) : Prop := s.HeldDisabled ∧ s.Settled ∧ s.ForceSound

/-- `t` keeps of `s` the laws of routes. -/
def State.KeepsLaws (s t : State) : Prop := s.RouteLaws → t.RouteLaws

theorem State.KeepsLaws.refl (s : State) : s.KeepsLaws s := id

theorem State.KeepsLaws.trans {s t u : State} (h : s.KeepsLaws t) (h' : t.KeepsLaws u) : s.KeepsLaws u := h' ∘ h

theorem State.HeldDisabled.of_steady {s t : State} (h : s.HeldDisabled) (hframe : s.SteadyFrame t) : t.HeldDisabled := by
  intro r hp
  rw [State.permitted_congr hframe.cfg hframe.load] at hp
  exact hframe.stays r (h r hp)

theorem State.ForceSound.of_steady {s t : State} (h : s.ForceSound) (hframe : s.SteadyFrame t) : t.ForceSound := by
  rw [State.ForceSound, hframe.cfg, hframe.load]
  simp only [hframe.forced]
  exact h

theorem State.Steady.keepsLaws {s t : State} (h : s.Steady t) : s.KeepsLaws t := by
  rintro ⟨hheld, hsettled, hforce⟩
  obtain ⟨hframe, hsettled'⟩ := h.keeps hsettled
  exact ⟨hheld.of_steady hframe, hsettled', hforce.of_steady hframe⟩

theorem State.keepsLaws_withPorts (s : State) (v : Vector Port 6) : s.KeepsLaws (s.withPorts v) :=
  Steady.keepsLaws (.of_frame rfl rfl rfl rfl rfl rfl)

/-- New settings that permit the same routes and give them the same peers. -/
theorem State.keepsLaws_setCfg {s : State} {c : Settings} (hpermitted : ∀ r, (s.setCfg c).permitted r = s.permitted r)
    (hpeer : ∀ r : RouteIx, c.routes[r].peer = s.cfg.routes[r].peer) : s.KeepsLaws (s.setCfg c) := by
  rintro ⟨hheld, hsettled, hforce, hloading⟩
  exact ⟨fun r hp => hheld r (by rw [← hpermitted]; exact hp), hsettled, fun p r hf => (hpeer r).trans (hforce p r hf),
    hloading⟩

/-- The forced routes are sound still when neither they, nor the peers of routes, nor the load state have changed. -/
theorem State.forceSound_congr {s t : State} (hpeers : t.peers = s.peers)
    (hroutes : ∀ r : RouteIx, t.cfg.routes[r].peer = s.cfg.routes[r].peer) (hload : t.profile.load = s.profile.load)
    (h : s.ForceSound) : t.ForceSound := by
  rw [State.ForceSound, hpeers, hload]
  simp only [hroutes]
  exact h

/-- The moves of one event leave the laws true: a route that R60 holds ends DISABLED, and each move changes the state. -/
theorem State.routeLaws_applyMoves {moves : List Move} (h : Ordered moves) {s : State}
    (hheld : ∀ r : RouteIx, s.permitted r = false → (viaOf moves r).getLastD s.health[r].state = .disabled)
    (hchain : ∀ r : RouteIx, (s.health[r].state :: viaOf moves r).IsChain (· ≠ ·)) (hsettled : s.Settled)
    (hforce : s.ForceSound) : (s.applyMoves moves).RouteLaws := by
  obtain ⟨hcfg, -, -, -, hprofile, -⟩ := s.applyMoves_leaves moves
  refine ⟨fun r hp => ?_, State.settled_applyMoves h hchain hsettled, ?_⟩
  · rw [State.permitted_congr hcfg (by rw [hprofile])] at hp
    rw [((s.applyMoves_changesMade h).1 r).1]
    exact hheld r hp
  · exact State.forceSound_congr (by simp) (fun r => by simp) (by simp) hforce

theorem isChain_of_viaOf_nil {state : RouteState} {via : List RouteState} (h : via = []) : (state :: via).IsChain (· ≠ ·) := by
  rw [h]
  exact List.isChain_singleton _

theorem isChain_of_viaOf_one {state new : RouteState} {via : List RouteState} (h : via = [new]) (hne : state ≠ new) :
    (state :: via).IsChain (· ≠ ·) := by
  rw [h]
  exact List.isChain_cons_cons.2 ⟨hne, List.isChain_singleton _⟩

/-- One route makes one change, to DISABLED if R60 holds it. -/
theorem State.routeLaws_moveRoute {s : State} {r : RouteIx} {new : RouteState} (hne : s.health[r].state ≠ new)
    (hothers : ∀ q : RouteIx, q ≠ r → s.permitted q = false → s.health[q].state = .disabled)
    (hheld : s.permitted r = false → new = .disabled) (hsettled : s.Settled) (hforce : s.ForceSound) :
    (s.moveRoute r [new]).RouteLaws := by
  refine State.routeLaws_applyMoves (ordered_one r [new]) (fun q => ?_) (fun q => ?_) hsettled hforce <;> by_cases hq : r = q
  · subst hq
    rw [viaOf_one, if_pos rfl]
    exact hheld
  · rw [viaOf_one, if_neg hq]
    exact hothers q (Ne.symm hq)
  · subst hq
    exact isChain_of_viaOf_one ((viaOf_one ..).trans (if_pos rfl)) hne
  · exact isChain_of_viaOf_nil ((viaOf_one ..).trans (if_neg hq))

/-! ### Routes disabled and returned (R60, R65, R71) -/

/-- A route passes to DISABLED: what holds it then need not have held it before. -/
theorem State.routeLaws_disableRoute {s : State} {r : RouteIx}
    (hothers : ∀ q : RouteIx, q ≠ r → s.permitted q = false → s.health[q].state = .disabled) (hsettled : s.Settled)
    (hforce : s.ForceSound) : (s.disableRoute r).RouteLaws := by
  unfold State.disableRoute
  split
  · rename_i hdisabled
    refine ⟨fun q hp => ?_, hsettled, hforce⟩
    by_cases hq : q = r
    · rw [hq]
      exact hdisabled
    · exact hothers q hq hp
  · exact State.routeLaws_moveRoute ‹_› hothers (fun _ => rfl) hsettled hforce

theorem State.keepsLaws_returnRoute (s : State) (r : RouteIx) : s.KeepsLaws (s.returnRoute r) := by
  rintro ⟨hheld, hsettled, hforce⟩
  unfold State.returnRoute
  split
  · rename_i hreturns
    rw [Bool.and_eq_true, beq_iff_eq] at hreturns
    obtain ⟨hpermitted, hdisabled⟩ := hreturns
    refine State.routeLaws_moveRoute (by rw [hdisabled]; decide) (fun q _ => hheld q) (fun hp => ?_) hsettled hforce
    rw [hp] at hpermitted
    cases hpermitted
  · exact ⟨hheld, hsettled, hforce⟩

/-- TEST_ROUTE comes on a route not DISABLED alone (R71). -/
theorem State.steady_testRoute {s : State} {r : RouteIx} (hnot : s.health[r].state ≠ .disabled) : s.Steady (s.testRoute r) := by
  unfold State.testRoute
  split
  · exact s.steady_modHealth r (by rfl) (by rfl)
  · exact State.steady_moveRoute ‹_› hnot

/-! ### Settings of lanes, routes, peers, thresholds and probes (R34, R57, R72 to R77) -/

theorem State.permitted_withLane_other {s : State} {r q : RouteIx} (x : LaneSettings) (hq : q ≠ r) :
    (s.setCfg (s.cfg.withLane r x)).permitted q = s.permitted q := (s.figuredRoute_withLane x hq).1

theorem State.keepsLaws_applyLane (s : State) (r : RouteIx) (x : LaneSettings) : s.KeepsLaws (s.applyLane r x) := by
  unfold State.applyLane
  dsimp only
  split
  · rename_i hsame
    refine KeepsLaws.trans (State.keepsLaws_setCfg (c := s.cfg.withLane r x) (fun q => ?_) fun _ => rfl)
      (State.steady_judgeSilence _ r).keepsLaws
    by_cases hq : q = r
    · subst hq
      simp only [State.permitted, State.setCfg_cfg, Settings.withLane_lanes, if_pos, hsame]
      rfl
    · exact State.permitted_withLane_other x hq
  · rintro ⟨hheld, hsettled, hforce⟩
    have hdisabled : ((s.setCfg (s.cfg.withLane r x)).disableRoute r).RouteLaws := by
      refine State.routeLaws_disableRoute (fun q hq hp => ?_) hsettled hforce
      rw [State.permitted_withLane_other x hq] at hp
      exact hheld q hp
    refine State.keepsLaws_returnRoute _ r (Steady.keepsLaws ?_ hdisabled)
    exact ((State.steady_abandonRx _ r).trans (State.steady_abandonCurrent _ r)).trans (State.steady_modLane _ r _)

/-- A peer's forced route, where it is the route named, is cleared (R114). -/
theorem State.clearForce_forced {s : State} {old p : PeerIx} {r q : RouteIx}
    (h : (s.clearForce old r).peers[p].forced = some q) : s.peers[p].forced = some q ∧ (p = old → q ≠ r) := by
  rw [State.clearForce, State.modPeer_get] at h
  split at h
  · rename_i hp
    subst hp
    dsimp only at h
    split at h
    · cases h
    · rename_i hother
      exact ⟨h, fun _ e => hother (by rw [h, e])⟩
  · rename_i hp
    exact ⟨h, fun e => absurd e hp⟩

theorem State.keepsLaws_changePeer (s : State) (r : RouteIx) (peer : PeerIx) : s.KeepsLaws (s.changePeer r peer) := by
  unfold State.changePeer
  split
  · exact .refl s
  · rintro ⟨hheld, hsettled, hforce⟩
    dsimp only
    obtain ⟨hheld', hsettled', hforce', hloading'⟩ := State.routeLaws_disableRoute (r := r) (fun q _ => hheld q) hsettled hforce
    have hstate := s.state_disableRoute r
    have hpeer : (s.disableRoute r).cfg.routes[r].peer = s.cfg.routes[r].peer := by simp
    generalize s.disableRoute r = u at hheld' hsettled' hforce' hloading' hstate hpeer
    refine ⟨fun q hp => ?_, hsettled', fun p q hf => ?_, fun hload p => ?_⟩
    · by_cases hq : q = r
      · rw [hq]
        exact hstate
      · exact hheld' q ((State.permitted_withRoute (s := u) { u.cfg.routes[r] with peer := peer } hq).symm.trans hp)
    · obtain ⟨hforced, hcleared⟩ := State.clearForce_forced (s := u.setCfg _) hf
      have hq : q ≠ r := fun e => hcleared (by rw [← hforce' p q hforced, e, hpeer]) e
      have hroute : (u.cfg.withRoute r { u.cfg.routes[r] with peer := peer }).routes[q] = u.cfg.routes[q] :=
        (Settings.withRoute_routes ..).trans (if_neg hq)
      exact (congrArg RouteSettings.peer hroute).trans (hforce' p q hforced)
    · cases hf : ((((u.setCfg (u.cfg.withRoute r { u.cfg.routes[r] with peer := peer })).clearForce
          s.cfg.routes[r].peer r).rechoose).peers[p]).forced with
      | none => rfl
      | some q =>
        have hforced := (State.clearForce_forced (s := u.setCfg _) hf).1
        exact absurd hforced (by rw [State.setCfg_peers, hloading' hload p]; exact (Option.some_ne_none q).symm)

theorem State.keepsLaws_applyRoute (s : State) (r : RouteIx) (x : RouteSettings) : s.KeepsLaws (s.applyRoute r x) := by
  unfold State.applyRoute
  dsimp only
  have hasym : s.KeepsLaws (s.setCfg (s.cfg.withRoute r { s.cfg.routes[r] with a := x.a })) := by
    refine State.keepsLaws_setCfg (fun q => ?_) (fun q => Settings.withRoute_peer _ r q rfl)
    by_cases hq : q = r
    · subst hq
      rw [State.permitted_withRoute_self]
      rfl
    · exact State.permitted_withRoute _ hq
  refine (hasym.trans (State.keepsLaws_changePeer _ r x.peer)).trans ?_
  generalize (s.setCfg (s.cfg.withRoute r { s.cfg.routes[r] with a := x.a })).changePeer r x.peer = u
  rintro ⟨hheld, hsettled, hforce⟩
  have hforce' : (u.setCfg (u.cfg.withRoute r { u.cfg.routes[r] with enable := x.enable })).ForceSound :=
    State.forceSound_congr (s := u) rfl (fun q => Settings.withRoute_peer _ r q rfl) rfl hforce
  split
  · rename_i henable
    refine State.keepsLaws_returnRoute _ r ⟨fun q hp => ?_, hsettled, hforce'⟩
    by_cases hq : q = r
    · subst hq
      refine hheld q ?_
      rw [State.permitted_withRoute_self, henable] at hp
      rw [State.permitted]
      cases u.cfg.routes[q].enable with
      | false => rfl
      | true => exact hp
    · exact hheld q ((State.permitted_withRoute _ hq).symm.trans hp)
  · refine State.routeLaws_disableRoute (fun q hq hp => ?_) hsettled hforce'
    exact hheld q ((State.permitted_withRoute _ hq).symm.trans hp)

/-- The states of the table of R75, from the one the route stands in, change each time. -/
theorem peerVia_isChain (old new : PeerSettings) (state : RouteState) (canProve : Bool) :
    (state :: peerVia old new state canProve).IsChain (· ≠ ·) := by
  unfold peerVia
  split
  · split
    · exact List.isChain_singleton _
    · exact isChain_of_viaOf_one rfl ‹_›
  · split
    · rename_i hmoves
      exact isChain_of_viaOf_one rfl (by rw [hmoves.1]; decide)
    · exact List.isChain_singleton _
  · split
    · rename_i hmoves
      exact List.isChain_cons_cons.2 ⟨hmoves.2, isChain_of_viaOf_one rfl (by decide)⟩
    · exact List.isChain_singleton _
  · exact List.isChain_singleton _

/-- SET_PEER comes on a terminal that is RUNNING alone (R167). -/
theorem State.keepsLaws_applyPeer {s : State} (hrun : s.profile.load = .running) (p : PeerIx) (x : PeerSettings) :
    s.KeepsLaws (s.applyPeer p x) := by
  rintro ⟨hheld, hsettled, hforce⟩
  unfold State.applyPeer
  refine State.routeLaws_applyMoves (s.peerMoves_ordered p _ x) (fun r hp => ?_) (fun r => ?_) hsettled hforce
  · rw [State.permitted_withPeer hrun] at hp
    rw [State.viaOf_peerMoves]
    split
    · rename_i hpeer
      rw [if_pos hpeer] at hp
      refine (peerVia_ends (fun hp' => hheld r ?_)).1 hp
      rw [State.permitted_of_running hrun]
      simp only [hpeer]
      exact hp'
    · rename_i hpeer
      rw [if_neg hpeer, ← State.permitted_of_running hrun] at hp
      exact hheld r hp
  · rw [State.viaOf_peerMoves]
    split
    · exact peerVia_isChain ..
    · exact List.isChain_singleton _

theorem State.keepsLaws_applyHealth (s : State) (x : HealthSettings) : s.KeepsLaws (s.applyHealth x) := by
  rintro ⟨hheld, hsettled, hforce⟩
  unfold State.applyHealth
  dsimp only
  refine State.routeLaws_applyMoves (State.healthMoves_ordered _) (fun r hp => ?_) (fun r => ?_) hsettled hforce <;>
    rw [State.viaOf_healthMoves] <;> cases hnew : (s.setCfg { s.cfg with health := x }).evaluation r with
    | none => ?_
    | some new => ?_
  · exact hheld r hp
  · exact absurd (hheld r hp) (evalTarget_some hnew).2.2
  · exact isChain_of_viaOf_nil rfl
  · exact isChain_of_viaOf_one rfl (evalTarget_some hnew).1.symm

theorem State.keepsLaws_applyProbe (s : State) (x : ProbeSettings) : s.KeepsLaws (s.applyProbe x) := by
  have hrestart (tests : Bool) (r : RouteIx) (u : State) : u.Steady (u.restartSchedules tests r) := by
    unfold State.restartSchedules
    refine Steady.trans (u.steady_modProbe_of r fun hs => hs.of_probe ?_ fun _ h1 h2 h3 => ⟨h1, h2, h3⟩)
      (State.steady_modHealth _ r (by rfl) ?_)
    · exact Option.isSome_map
    · dsimp only
      split
      · exact Option.isSome_map
      · rfl
  refine KeepsLaws.trans (State.keepsLaws_setCfg (s := s) (c := { s.cfg with probe := x }) (fun _ => rfl) fun _ => rfl) ?_
  exact ((State.steady_forRoutes _ fun r u => hrestart _ r u).trans
    (State.steady_forRoutes _ fun r u => u.steady_loseDue r _)).keepsLaws

/-! ### Start-up (R183, R185, R189) -/

/-- A terminal with no route forced, every route DISABLED, and the records of its routes blank. -/
theorem State.routeLaws_of_blank {s : State}
    (hhealth : ∀ r : RouteIx, s.health[r].state = .disabled ∧ s.health[r].testDue = none)
    (hprobes : ∀ r : RouteIx, s.probes[r] = Probe.blank) (htx : ∀ r : RouteIx, s.tx[r] = Tx.blank)
    (hforced : ∀ p : PeerIx, s.peers[p].forced = none) : s.RouteLaws := by
  refine ⟨fun r _ => (hhealth r).1, fun r => ?_, fun p r hf => ?_, fun _ => hforced⟩
  · obtain ⟨hstate, hdue⟩ := hhealth r
    rw [State.SettledRoute, hprobes, htx]
    refine ⟨⟨fun _ => ⟨rfl, rfl, rfl, rfl, rfl, rfl⟩, fun hnot => absurd hstate hnot, ?_, fun _ => rfl⟩, fun _ => rfl⟩
    rw [hstate, hdue]
    decide
  · rw [hforced p] at hf
    cases hf

theorem State.routeLaws_restart (s : State) (p : PortIx) (request : Byte) : (s.restart p request).RouteLaws := by
  refine State.routeLaws_of_blank (fun r => ?_) (fun r => ?_) (fun r => ?_) fun q => ?_
  · rw [State.restart_health]
    exact ⟨rfl, rfl⟩
  · have hprobes : (s.restart p request).probes = Vector.replicate 16 Probe.blank := rfl
    rw [hprobes, Fin.getElem_fin, Vector.getElem_replicate]
  · have htx : (s.restart p request).tx = Vector.replicate 16 Tx.blank := rfl
    rw [htx, Fin.getElem_fin, Vector.getElem_replicate]
  · have hpeers : (s.restart p request).peers = Vector.replicate 4 { forced := none, noRoute := 0 } := rfl
    rw [hpeers, Fin.getElem_fin, Vector.getElem_replicate]

theorem State.routeLaws_coldReset (s : State) (m : List Host.Cell) : (s.coldReset m).RouteLaws := by
  have hhealth : (s.coldReset m).health = State.reset.health := rfl
  have hprobes : (s.coldReset m).probes = State.reset.probes := rfl
  have htx : (s.coldReset m).tx = State.reset.tx := rfl
  have hpeers : (s.coldReset m).peers = State.reset.peers := rfl
  refine State.routeLaws_of_blank (fun r => ?_) (fun r => ?_) (fun r => ?_) fun p => ?_
  · rw [hhealth, State.reset_health]
    exact ⟨rfl, rfl⟩
  · rw [hprobes, State.reset_probes]
  · rw [htx, State.reset_tx]
  · rw [hpeers, State.reset_peers]

/-- The effects that come last of a load. -/
theorem State.steady_loadTail (s : State) : s.Steady s.rechoose.judgeHoldover.answerRestart := by
  refine .of_frame (by simp) ?_ (by simp) (by simp) (by simp) (by simp)
  rw [State.answerRestart_load]
  simp

/-- The routes that an image permits pass to PROVING together; all are DISABLED before, and none is forced (R116, R185). -/
theorem State.routeLaws_applyImage {s : State} (i : Image) (hdisabled : ∀ r : RouteIx, s.health[r].state = .disabled)
    (hsettled : s.Settled) (hforced : ∀ p : PeerIx, s.peers[p].forced = none) : (s.applyImage i).RouteLaws := by
  unfold State.applyImage
  have hmoved : ((s.setCfg i.settings).applyMoves (s.setCfg i.settings).loadMoves).RouteLaws := by
    refine State.routeLaws_applyMoves (State.loadMoves_ordered _) (fun r hp => ?_) (fun r => ?_) hsettled
      ⟨fun p r hf => ?_, fun _ => hforced⟩
    · rw [State.viaOf_loadMoves, hp, if_neg (by simp)]
      exact hdisabled r
    · rw [State.viaOf_loadMoves]
      split
      · exact isChain_of_viaOf_one rfl (by rw [State.setCfg_health, hdisabled r]; decide)
      · exact List.isChain_singleton _
    · rw [State.setCfg_peers, hforced p] at hf
      cases hf
  exact Steady.keepsLaws (.of_frame (by simp) (by simp) (by simp) (by simp) (by simp) (by simp)) hmoved

/-- During LOADING every route is DISABLED and none is forced (R60, R116). -/
theorem State.keepsLaws_endLoad {s : State} (hload : s.profile.load = .loading) (m : List Host.Cell) :
    s.KeepsLaws (s.endLoad m) := by
  rintro ⟨hheld, hsettled, -, hloading⟩
  have hforced := hloading hload
  have hdisabled (r : RouteIx) : s.health[r].state = .disabled := by
    refine hheld r ?_
    rw [State.permitted, hload]
    exact Bool.and_false _
  unfold State.endLoad
  split
  · exact (State.steady_loadTail _).keepsLaws (State.routeLaws_applyImage _ hdisabled hsettled hforced)
  · refine (State.steady_loadTail _).keepsLaws ⟨fun r _ => hdisabled r, hsettled, fun p r hf => ?_, fun _ => hforced⟩
    rw [State.setProfile_peers, hforced p] at hf
    cases hf

end Sys2Proof.Machine
end

