-- ==== Sys2Proof/Proofs/RouteLawsKept.lean ====
section
/-! CHECK. Every command keeps the laws of routes (R37, R53, R54, R60, R65, R67, R100, R114, R116, R129). -/

namespace Sys2Proof.Machine

/-! ### Directives (R166 to R168) -/

theorem State.keepsLaws_operatorDirective (s : State) (d : Directive) (name argLen : Nat) {owner : State → Judged}
    (h : ∀ u : State, u.profile.load = .running → u.KeepsLaws (owner u).1) :
    s.KeepsLaws (s.operatorDirective d name argLen owner) :=
  State.operatorDirective_keeps (P := s.KeepsLaws) (fun u v hu => hu.trans (u.keepsLaws_withPorts v))
    (fun u hrun _ hu => hu.trans (h u hrun)) d name argLen (.refl s)

theorem State.keepsLaws_openDirective (s : State) (d : Directive) (name argLen : Nat) {owner : State → Judged}
    (h : ∀ u : State, u.KeepsLaws (owner u).1) : s.KeepsLaws (s.openDirective d name argLen owner) :=
  State.openDirective_keeps (P := s.KeepsLaws) (fun u v hu => hu.trans (u.keepsLaws_withPorts v))
    (fun u _ hu => hu.trans (h u)) d name argLen (.refl s)

theorem State.keepsLaws_ownedDirective (s : State) (d : Directive) (name : Nat) (outOnly : Bool)
    (effect : Circuit → Circuit) : s.KeepsLaws (s.ownedDirective d name outOnly effect) :=
  State.ownedDirective_keeps (P := s.KeepsLaws) (fun u v hu => hu.trans (u.keepsLaws_withPorts v))
    (fun u n _ _ _ _ _ hu => hu.trans (u.steady_modCircuit n effect).keepsLaws) d name (.refl s)

theorem State.keepsLaws_ownSetTime (s : State) (d : Directive) : s.KeepsLaws (s.ownSetTime d).1 := by
  unfold State.ownSetTime
  split
  · exact .refl s
  · rename_i x _
    rw [State.reply_fst]
    have hset : s.KeepsLaws (s.setCfg { s.cfg with time := x }) := State.keepsLaws_setCfg (fun _ => rfl) fun _ => rfl
    refine hset.trans (State.Steady.keepsLaws ?_)
    exact .of_frame (by simp [State.applyTime]) (by simp [State.applyTime]) (by simp [State.applyTime])
      (by simp [State.applyTime]) (by simp [State.applyTime]) (by simp [State.applyTime])

theorem State.steady_ownWatch (s : State) (d : Directive) : s.Steady (s.ownWatch d).1 := by
  unfold State.ownWatch
  split
  · exact .refl s
  · exact .of_frame rfl rfl rfl rfl rfl rfl

theorem State.keepsLaws_ownSetIdentity (s : State) (d : Directive) : s.KeepsLaws (s.ownSetIdentity d).1 := by
  simp only [State.ownSetIdentity]
  split
  · exact .refl s
  · rw [State.reply_fst]
    exact State.keepsLaws_setCfg (fun _ => rfl) fun _ => rfl

theorem State.keepsLaws_ownSetPeer {s : State} (hrun : s.profile.load = .running) (d : Directive) :
    s.KeepsLaws (s.ownSetPeer d).1 := by
  unfold State.ownSetPeer
  split
  · split
    · exact .refl s
    · rw [State.reply_fst]
      exact State.keepsLaws_applyPeer hrun _ _
  · exact .refl s

theorem State.keepsLaws_ownSetRoute (s : State) (d : Directive) : s.KeepsLaws (s.ownSetRoute d).1 := by
  unfold State.ownSetRoute
  split
  · rw [State.reply_fst]
    exact s.keepsLaws_applyRoute _ _
  · exact .refl s

theorem State.keepsLaws_ownSetLane (s : State) (d : Directive) : s.KeepsLaws (s.ownSetLane d).1 := by
  unfold State.ownSetLane
  split
  · rw [State.reply_fst]
    exact s.keepsLaws_applyLane _ _
  · exact .refl s

theorem State.keepsLaws_ownSetHealth (s : State) (d : Directive) : s.KeepsLaws (s.ownSetHealth d).1 := by
  unfold State.ownSetHealth
  split
  · exact .refl s
  · rw [State.reply_fst]
    exact s.keepsLaws_applyHealth _

theorem State.keepsLaws_ownSetProbe (s : State) (d : Directive) : s.KeepsLaws (s.ownSetProbe d).1 := by
  unfold State.ownSetProbe
  split
  · exact .refl s
  · rw [State.reply_fst]
    exact s.keepsLaws_applyProbe _

theorem State.keepsLaws_ownSetCalendar (s : State) (d : Directive) : s.KeepsLaws (s.ownSetCalendar d).1 := by
  unfold State.ownSetCalendar
  split
  · rename_i r x _ _
    rw [State.reply_fst]
    have hset : s.KeepsLaws (s.setCfg (s.cfg.withCalendar r x)) := State.keepsLaws_setCfg (fun _ => rfl) fun _ => rfl
    exact hset.trans (State.steady_modTx _ r (by rfl)).keepsLaws
  · exact .refl s

theorem State.steady_ownOpenCircuit (s : State) (d : Directive) : s.Steady (s.ownOpenCircuit d).1 := by
  unfold State.ownOpenCircuit
  split
  · exact .refl s
  · split
    · exact .refl s
    · split
      · exact .refl s
      · split
        · exact .refl s
        · rw [State.reply_fst]
          exact s.steady_modCircuit _ _

theorem State.steady_ownCloseCircuit (s : State) (d : Directive) : s.Steady (s.ownCloseCircuit d).1 := by
  unfold State.ownCloseCircuit
  split
  · exact .refl s
  · split
    · exact .refl s
    · split
      · exact .refl s
      · exact .refl s
      · exact s.steady_closeOut _
      · exact .of_frame (by simp) (by simp) (by simp) (by simp) (by simp) (by simp)

/-- FORCE_ROUTE forces a route of the peer it names (R112), and comes on a terminal that is RUNNING alone (R167). -/
theorem State.keepsLaws_ownForceRoute {s : State} (hrun : s.profile.load = .running) (d : Directive) :
    s.KeepsLaws (s.ownForceRoute d).1 := by
  unfold State.ownForceRoute
  split
  · rename_i p r _ _
    split
    · rename_i hpeer
      rintro ⟨hheld, hsettled, hforce, -⟩
      refine ⟨hheld, hsettled, fun q r' hf => ?_, fun hload => absurd (hrun.symm.trans hload) (by decide)⟩
      rw [State.reply_fst, State.modPeer_get] at hf
      split at hf
      · rename_i hq
        cases hf
        exact hpeer.trans hq.symm
      · exact hforce q r' hf
    · exact .refl s
  · exact .refl s

/-- RELEASE_ROUTE clears a force (R113). -/
theorem State.keepsLaws_ownReleaseRoute (s : State) (d : Directive) : s.KeepsLaws (s.ownReleaseRoute d).1 := by
  unfold State.ownReleaseRoute
  split
  · exact .refl s
  · rename_i p _
    rintro ⟨hheld, hsettled, hforce, hloading⟩
    refine ⟨hheld, hsettled, fun q r' hf => ?_, fun hload q => ?_⟩
    · rw [State.reply_fst, State.modPeer_get] at hf
      split at hf
      · cases hf
      · exact hforce q r' hf
    · rw [State.reply_fst, State.modPeer_get]
      split
      · rfl
      · exact hloading hload q

theorem State.steady_ownTestRoute (s : State) (d : Directive) : s.Steady (s.ownTestRoute d).1 := by
  unfold State.ownTestRoute
  split
  · exact .refl s
  · split
    · exact .refl s
    · exact State.steady_testRoute ‹_›

/-! ### The time base, the tenant links and the profile unit -/

theorem State.steady_ppsEdge (s : State) : s.Steady s.ppsEdge := by
  unfold State.ppsEdge
  dsimp only
  split
  · exact s.steady_setTime _
  · split
    · exact (s.steady_setTime _).trans (State.steady_acceptOffset _ _ _)
    · exact s.steady_setTime _

theorem State.steady_linkDown (s : State) (p : PortIx) : s.Steady (s.linkDown p) :=
  .of_frame (by simp) (s.linkDown_load p) (by simp) (by simp) (by simp) (by simp)

theorem State.steady_miss (s : State) (p : PortIx) (first : Bool) : s.Steady (s.miss p first) := by
  unfold State.miss
  dsimp only
  generalize (if first then 1 else s.ports[p].misses + 1) = n
  split
  · exact s.steady_linkDown p
  · exact .of_frame rfl rfl rfl rfl rfl rfl

theorem Profile.endSave_load (x : Profile) (failure : Option FlashLeft) : (x.endSave failure).load = x.load := by
  cases failure <;> rfl

theorem State.steady_completeSave (s : State) (job : SaveJob) (failure : Option FlashLeft) :
    s.Steady (s.completeSave job failure) := by
  have hprofile : (s.completeSave job failure).profile = s.profile.endSave failure := by simp [State.completeSave]
  refine .of_frame (by simp) ?_ (by simp) (by simp) (by simp) (by simp)
  rw [hprofile, Profile.endSave_load]

/-! ### Every command -/

theorem execColdReset_keepsLaws {s t : State} {left : FlashLeft} (h : execColdReset left s = .next t) : s.KeepsLaws t := by
  unfold execColdReset at h
  split at h
  · cases h
    exact fun _ => s.routeLaws_coldReset _
  · split at h <;> cases h
    exact fun _ => s.routeLaws_coldReset _

theorem execLoadEnd_keepsLaws {s t : State} {answers : Bool} (h : execLoadEnd answers s = .next t) : s.KeepsLaws t := by
  unfold execLoadEnd at h
  split at h <;> cases h
  · exact State.keepsLaws_endLoad ‹_› _
  · exact .refl s

theorem execTransmitEnd_steady {s t : State} {r : RouteIx} (h : execTransmitEnd r s = .next t) : s.Steady t := by
  unfold execTransmitEnd at h
  split at h
  · cases h
    exact .refl s
  · split at h <;> cases h
    · exact s.steady_endCurrent r
    · exact .refl s

theorem execFrameStart_steady {s t : State} {r : RouteIx} {first : Byte} (h : execFrameStart r first s = .next t) :
    s.Steady t := by
  unfold execFrameStart at h
  split at h <;> cases h
  · exact .of_frame (by simp) (by simp) (by simp) (by simp) (by simp) (by simp)
  · exact .refl s

theorem execLengthLimitEnd_steady {s t : State} {r : RouteIx} (h : execLengthLimitEnd r s = .next t) : s.Steady t := by
  unfold execLengthLimitEnd at h
  split at h <;> cases h
  · exact .refl s
  · exact s.steady_lengthLimit r _

theorem execFrameEnd_steady {s t : State} {r : RouteIx} {rest : List Byte} (h : execFrameEnd r rest s = .next t) :
    s.Steady t := by
  unfold execFrameEnd at h
  split at h
  · cases h
    exact .refl s
  · split at h <;> cases h
    · exact s.steady_lengthLimit r _
    · exact s.steady_frameJudged r _ _

/-- A PROBE schedule runs on a route that is not DISABLED alone (R54). -/
theorem State.Settled.active_of_due {s : State} (hs : s.Settled) {r : RouteIx} {due : Ticks} (h : s.probes[r].due = some due) :
    s.health[r].state ≠ .disabled := fun hstate => by
  have hstopped := ((hs r).quiet.idle hstate).1
  rw [h] at hstopped
  cases hstopped

theorem execProbeRequest_steady {s t : State} {r : RouteIx} (h : execProbeRequest r s = .next t) : s.Steady t := by
  unfold execProbeRequest at h
  split at h
  · cases h
    exact .refl s
  · rename_i due hdue
    split at h <;> cases h
    · refine State.Steady.of_settled fun hs => ?_
      have hnot := hs.active_of_due hdue
      refine (State.steady_requestProbe hnot).trans (State.steady_modProbe_of _ r fun hu => ?_)
      refine hu.of_probe ?_ fun _ h1 h2 h3 => ⟨h1, h2, h3⟩
      exact (hu.quiet.runs (by simpa using hnot)).symm
    · exact .refl s

theorem execProbeTimeout_steady {s t : State} {r : RouteIx} (h : execProbeTimeout r s = .next t) : s.Steady t := by
  unfold execProbeTimeout at h
  split at h <;> cases h
  · exact .refl s
  · exact s.steady_loseProbe r _

/-- A request leaves the TEST schedule of its route (R67). -/
theorem State.requestTest_testDue (s : State) (r : RouteIx) : (s.requestTest r).health[r].testDue = s.health[r].testDue := by
  unfold State.requestTest
  split
  · rw [State.modHealth_get_self]
  · rfl

/-- The TEST schedule runs in PROVING alone (R67). -/
theorem execTestRequest_steady {s t : State} {r : RouteIx} (h : execTestRequest r s = .next t) : s.Steady t := by
  unfold execTestRequest at h
  split at h
  · cases h
    exact .refl s
  · rename_i due hdue
    split at h <;> cases h
    · refine State.Steady.of_settled fun hs => ?_
      have hproving := (hs r).quiet.tests.2 (by rw [hdue]; rfl)
      refine ((State.steady_requestTest hproving).trans (State.steady_modHealth _ r (by rfl) ?_)).trans
        (State.steady_evaluate _ r)
      rw [State.requestTest_testDue, hdue]
      rfl
    · exact .refl s

theorem execSendStart_steady {s t : State} {p : PortIx} (h : execSendStart p s = .next t) : s.Steady t := by
  unfold execSendStart at h
  split at h <;> cases h
  · exact .of_frame (by simp) (by simp) (by simp) (by simp) (by simp) (by simp)
  · exact .refl s

theorem execSendEnd_steady {s t : State} {p : PortIx} {status : Byte} {body : List Byte} {crc : BitVec 32}
    (h : execSendEnd p status body crc s = .next t) : s.Steady t := by
  unfold execSendEnd at h
  split at h <;> cases h
  · exact .refl s
  · exact s.steady_modPort p _
  · exact s.steady_sendEnd p _ status body crc

theorem execOutboundTurn_steady {s t : State} {p : PortIx} (h : execOutboundTurn p s = .next t) : s.Steady t := by
  unfold execOutboundTurn at h
  split at h <;> cases h
  · exact .of_frame (by simp) (by simp) (by simp) (by simp) (by simp) (by simp)
  · exact .refl s

theorem execOutboundFrameEnd_steady {s t : State} {p : PortIx} (h : execOutboundFrameEnd p s = .next t) : s.Steady t := by
  unfold execOutboundFrameEnd at h
  split at h <;> cases h
  · exact .refl s
  · exact .of_frame (by simp) (by simp) (by simp) (by simp) (by simp) (by simp)

theorem execLinkDown_steady {s t : State} {p : PortIx} (h : execLinkDown p s = .next t) : s.Steady t := by
  unfold execLinkDown at h
  split at h <;> cases h
  · exact s.steady_linkDown p
  · exact .refl s

theorem execLinkUp_steady {s t : State} {p : PortIx} (h : execLinkUp p s = .next t) : s.Steady t := by
  unfold execLinkUp at h
  split at h <;> cases h
  · exact s.steady_modPort p _
  · exact .refl s

theorem execBadInboundEnvelope_steady {s t : State} {p : PortIx} (h : execBadInboundEnvelope p s = .next t) : s.Steady t := by
  unfold execBadInboundEnvelope at h
  split at h <;> cases h
  · exact .of_frame (by simp) (by simp) (by simp) (by simp) (by simp) (by simp)
  · exact .refl s

theorem execUnknownDirective_keepsLaws {s t : State} {p : PortIx} {status : Byte} {body : List Byte} {crc : BitVec 32}
    (h : execUnknownDirective p status body crc s = .next t) : s.KeepsLaws t := by
  unfold execUnknownDirective at h
  split at h <;> cases h
  obtain ⟨v, e⟩ := s.unknownDirective_withPorts p (body.getD 1 0) (crc == crc32 (covered 0xA2 status body))
  rw [e]
  exact s.keepsLaws_withPorts v

theorem execSaveComplete_steady {s t : State} {result : SaveResult} (h : execSaveComplete result s = .next t) :
    s.Steady t := by
  unfold execSaveComplete at h
  split at h
  · cases h
    exact .refl s
  · split at h <;> cases h
    exact s.steady_completeSave _ _

theorem execMiss_steady {s t : State} {p : PortIx} {first : Bool} (h : execMiss p first s = .next t) : s.Steady t := by
  unfold execMiss at h
  split at h <;> cases h
  · exact s.steady_miss p first
  · exact .refl s

/-- A command keeps the laws of routes. -/
theorem exec_keepsLaws {c : Instr} {s t : State} (h : exec c s = .next t) : s.KeepsLaws t := by
  cases c with
  | coldReset left => exact execColdReset_keepsLaws h
  | loadEnd answers => exact execLoadEnd_keepsLaws h
  | advance => cases h; exact (s.steady_setTime _).keepsLaws
  | ppsOutFire => cases h; exact (s.steady_setTime _).keepsLaws
  | holdoverExpiry => cases h; exact State.Steady.keepsLaws (.of_frame (by simp) (by simp) (by simp) (by simp) (by simp) (by simp))
  | ppsEdge => cases h; exact s.steady_ppsEdge.keepsLaws
  | setTime d => cases h; exact s.keepsLaws_operatorDirective d 13 15 fun u _ => u.keepsLaws_ownSetTime d
  | readTime d => cases h; exact s.keepsLaws_openDirective d 1 0 State.KeepsLaws.refl
  | laneByteTaken r => cases h; exact (s.steady_modTx r (by rfl)).keepsLaws
  | transmitEnd r => exact (execTransmitEnd_steady h).keepsLaws
  | frameStart r first => exact (execFrameStart_steady h).keepsLaws
  | lengthLimitEnd r => exact (execLengthLimitEnd_steady h).keepsLaws
  | frameEnd r rest => exact (execFrameEnd_steady h).keepsLaws
  | losAssert r => cases h; exact (s.steady_losAssert r).keepsLaws
  | losRelease r => cases h; exact (s.steady_losRelease r).keepsLaws
  | laneReport r record => cases h; exact (s.steady_laneReport r record).keepsLaws
  | silenceExpiry r => cases h; exact (s.steady_judgeSilence r).keepsLaws
  | probeRequest r => exact (execProbeRequest_steady h).keepsLaws
  | probeTimeout r => exact (execProbeTimeout_steady h).keepsLaws
  | testRequest r => exact (execTestRequest_steady h).keepsLaws
  | offer r => cases h; exact (s.steady_offer r).keepsLaws
  | sendStart p => exact (execSendStart_steady h).keepsLaws
  | sendEnd p status body crc => exact (execSendEnd_steady h).keepsLaws
  | outboundTurn p => exact (execOutboundTurn_steady h).keepsLaws
  | outboundFrameEnd p => exact (execOutboundFrameEnd_steady h).keepsLaws
  | linkDown p => exact (execLinkDown_steady h).keepsLaws
  | linkUp p => exact (execLinkUp_steady h).keepsLaws
  | badInboundEnvelope p => exact (execBadInboundEnvelope_steady h).keepsLaws
  | unknownDirective p status body crc => exact execUnknownDirective_keepsLaws h
  | readTable d =>
    cases h
    refine s.keepsLaws_openDirective d 2 2 fun u => ?_
    rw [State.ownReadTable_fst]
    exact .refl u
  | watch d => cases h; exact s.keepsLaws_openDirective d 3 2 fun u => (u.steady_ownWatch d).keepsLaws
  | pause d => cases h; exact s.keepsLaws_ownedDirective d 4 true _
  | resume d => cases h; exact s.keepsLaws_ownedDirective d 5 true _
  | clearCounts d => cases h; exact s.keepsLaws_ownedDirective d 6 false _
  | setIdentity d => cases h; exact s.keepsLaws_operatorDirective d 7 3 fun u _ => u.keepsLaws_ownSetIdentity d
  | setPeer d => cases h; exact s.keepsLaws_operatorDirective d 8 3 fun _ hrun => State.keepsLaws_ownSetPeer hrun d
  | setRoute d => cases h; exact s.keepsLaws_operatorDirective d 9 7 fun u _ => u.keepsLaws_ownSetRoute d
  | setLane d => cases h; exact s.keepsLaws_operatorDirective d 10 7 fun u _ => u.keepsLaws_ownSetLane d
  | setHealth d => cases h; exact s.keepsLaws_operatorDirective d 11 9 fun u _ => u.keepsLaws_ownSetHealth d
  | setProbe d => cases h; exact s.keepsLaws_operatorDirective d 12 4 fun u _ => u.keepsLaws_ownSetProbe d
  | setCalendar d => cases h; exact s.keepsLaws_operatorDirective d 14 17 fun u _ => u.keepsLaws_ownSetCalendar d
  | openCircuit d => cases h; exact s.keepsLaws_operatorDirective d 15 10 fun u _ => (u.steady_ownOpenCircuit d).keepsLaws
  | closeCircuit d => cases h; exact s.keepsLaws_operatorDirective d 16 1 fun u _ => (u.steady_ownCloseCircuit d).keepsLaws
  | forceRoute d => cases h; exact s.keepsLaws_operatorDirective d 17 2 fun _ hrun => State.keepsLaws_ownForceRoute hrun d
  | releaseRoute d => cases h; exact s.keepsLaws_operatorDirective d 18 1 fun u _ => u.keepsLaws_ownReleaseRoute d
  | testRoute d => cases h; exact s.keepsLaws_operatorDirective d 19 1 fun u _ => (u.steady_ownTestRoute d).keepsLaws
  | saveProfile d =>
    cases h
    exact s.keepsLaws_operatorDirective d 20 0 fun u _ => State.Steady.keepsLaws (.of_frame rfl rfl rfl rfl rfl rfl)
  | saveComplete result => exact (execSaveComplete_steady h).keepsLaws
  | restart d => cases h; exact s.keepsLaws_operatorDirective d 21 0 fun u _ _ => u.routeLaws_restart d.port d.request
  | miss p first => exact (execMiss_steady h).keepsLaws

/-- Settles O56: a change of route state sets what its new state asks of the route's records and re-steers what waits when the
route leaves UP and FADING, nothing else fills the records of a route whose state forbids it, and a route that R60 comes to hold
is disabled by the directive that changes the setting. -/
theorem routeLawsKept : Obligations.RouteLawsKept := by
  intro s t h hheld hquiet hempty hforce
  have hlaws : s.RouteLaws := ⟨hheld, s.settled_iff.2 ⟨hquiet, hempty⟩, hforce⟩
  have hkept : t.RouteLaws := by
    rcases step_cases h with ⟨-, rfl⟩ | ⟨c, rest, -, hc⟩
    · exact State.Steady.keepsLaws (.of_frame (by simp) (by simp) (by simp) (by simp) (by simp) (by simp)) hlaws
    · refine exec_keepsLaws hc (State.Steady.keepsLaws (s := s) ?_ hlaws)
      exact .of_frame rfl rfl rfl rfl rfl rfl
  obtain ⟨hheld', hsettled', hforce'⟩ := hkept
  obtain ⟨hquiet', hempty'⟩ := t.settled_iff.1 hsettled'
  exact ⟨hheld', hquiet', hempty', hforce'⟩

end Sys2Proof.Machine
end

