-- ==== Sys2Proof/Proofs/Requests.lean ====
section
/-! CHECK. The requests of the PROBE and TEST schedules (R37, R54, R64 to R67). -/

namespace Sys2Proof.Machine

theorem modProbe_of_same {s : State} {r : RouteIx} {f : Probe → Probe} (h : f s.probes[r] = s.probes[r]) :
    s.modProbe r f = s := by
  rw [State.modProbe, h]
  exact congrArg (fun probes => { s with probes := probes }) (Vector.set_getElem_self _)

theorem modHealth_of_same {s : State} {r : RouteIx} {f : Health → Health} (h : f s.health[r] = s.health[r]) :
    s.modHealth r f = s := by
  rw [State.modHealth, h]
  exact congrArg (fun health => { s with health := health }) (Vector.set_getElem_self _)

/-! ### A request (R37, R67) -/

/-- A schedule comes to its request when one interval has passed since the one before fell due. -/
theorem dueReached_iff (now due : Ticks) {iv : Nat} (h : iv < 2 ^ 64) :
    dueReached now due iv = true ↔ (BitVec.ofNat 64 iv).toNat ≤ (now - (due - BitVec.ofNat 64 iv)).toNat := by
  rw [dueReached, decide_eq_true_iff, ticksSince, BitVec.toNat_ofNat, Nat.mod_eq_of_lt h]

/-- A PROBE request leaves the entry taken, and counts a skip where it was already. -/
theorem State.requestProbe_eq (s : State) (r : RouteIx) :
    s.requestProbe r =
      (s.modTx r fun t => { t with probeEntry := true }).modProbe r fun x =>
        { x with counts := { x.counts with
          replacedSkips := x.counts.replacedSkips + (if s.tx[r].probeEntry then 1 else 0) } } := by
  unfold State.requestProbe
  split
  · next hentry => rw [modTx_of_same (by rw [← hentry])]
  · exact (modProbe_of_same (by simp)).symm

/-- A TEST request leaves the entry taken, and counts a skip where it was already. -/
theorem State.requestTest_eq (s : State) (r : RouteIx) :
    s.requestTest r =
      (s.modTx r fun t => { t with testEntry := true }).modHealth r fun h =>
        { h with counts := { h.counts with testSkips := h.counts.testSkips + (if s.tx[r].testEntry then 1 else 0) } } := by
  unfold State.requestTest
  split
  · next hentry => rw [modTx_of_same (by rw [← hentry])]
  · exact (modHealth_of_same (by simp)).symm

/-- A TEST request of a proving route, before the route is evaluated (R67). -/
def State.testRequested (s : State) (r : RouteIx) (due : Ticks) : State :=
  (s.requestTest r).modHealth r fun h => { h with testDue := some due }

theorem State.testRequested_eq (s : State) (r : RouteIx) (due : Ticks) :
    s.testRequested r due =
      { s with
        tx := s.tx.set r { s.tx[r] with testEntry := true }
        health := s.health.set r
          { s.health[r] with
            testDue := some due
            counts := { s.health[r].counts with
              testSkips := s.health[r].counts.testSkips + (if s.tx[r].testEntry then 1 else 0) } } } := by
  rw [State.testRequested, State.requestTest_eq]
  simp [State.modHealth, State.modTx]

theorem State.readies_testRequested (s : State) (r : RouteIx) (due : Ticks) : s.Readies (s.testRequested r due) r := by
  rw [State.testRequested, State.requestTest_eq]
  exact ((s.readies_modTx r _).trans (State.readies_modHealth _ r rfl)).trans (State.readies_modHealth _ r rfl)

theorem State.evaluation_testRequested (s : State) (r : RouteIx) (due : Ticks) :
    (s.testRequested r due).evaluation r = s.evaluation r := by
  rw [State.testRequested_eq]
  simp [State.evaluation, evalTarget]

/-! ### The commands -/

theorem execProbeRequest_eq {s : State} {r : RouteIx} {due : Ticks} (hdue : s.probes[r].due = some due)
    (hlt : s.cfg.probe.interval * 125000 < 2 ^ 64) :
    exec (.probeRequest r) s =
      if (BitVec.ofNat 64 (s.cfg.probe.interval * 125000)).toNat ≤
          (s.time.et - (due - BitVec.ofNat 64 (s.cfg.probe.interval * 125000))).toNat then
        .next ((s.requestProbe r).modProbe r fun x =>
          { x with due := some (due + BitVec.ofNat 64 (s.cfg.probe.interval * 125000)) })
      else .next s := by
  refine Eq.trans (show _ = execProbeRequest r s from rfl) ?_
  rw [execProbeRequest, hdue]
  simp only [State.probeTicks, Config.ticksPerMs, dueReached_iff _ _ hlt]

theorem execTestRequest_eq {s : State} {r : RouteIx} {due : Ticks} (hdue : s.health[r].testDue = some due)
    (hlt : s.cfg.probe.interval * 125000 < 2 ^ 64) :
    exec (.testRequest r) s =
      if (BitVec.ofNat 64 (s.cfg.probe.interval * 125000)).toNat ≤
          (s.time.et - (due - BitVec.ofNat 64 (s.cfg.probe.interval * 125000))).toNat then
        .next ((s.testRequested r (due + BitVec.ofNat 64 (s.cfg.probe.interval * 125000))).evaluate r)
      else .next s := by
  refine Eq.trans (show _ = execTestRequest r s from rfl) ?_
  rw [execTestRequest, hdue]
  simp only [State.probeTicks, Config.ticksPerMs, dueReached_iff _ _ hlt]
  rfl

/-- A transition of a proving route ends its TEST schedule and withdraws its TEST (R65). -/
theorem State.evaluate_leaves_proving {v : State} {r : RouteIx} {new : RouteState} (hnew : v.evaluation r = some new)
    (hproving : v.health[r].state = .proving) :
    (v.evaluate r).health[r].testDue = none ∧ (v.evaluate r).tx[r].testEntry = false := by
  obtain ⟨hne, -⟩ := evalTarget_some hnew
  have hstate : (v.evaluate r).health[r].state = new := by rw [v.evaluate_state r, hnew]; rfl
  obtain ⟨-, ⟨hmade, -⟩, -⟩ := v.evaluate_routeFrame r
  obtain ⟨-, -, -, -, hleft, -⟩ := hmade r
  have hvia : v.oneChange (v.evaluate r) r = [new] := by rw [State.oneChange, hstate, if_neg hne]
  rw [hvia] at hleft
  refine hleft hproving (List.cons_ne_nil _ _) fun h => hne ?_
  rw [hproving]
  exact Option.some.inj h

/-- Settles O14: a request is one update of the entry and of the schedule, and TEST_REQUEST evaluates the route after it. -/
theorem scheduledRequests : Obligations.ScheduledRequests := by
  intro s r
  refine ⟨fun h => ?_, fun h => ?_, ?_⟩
  · exact (show _ = execProbeRequest r s from rfl).trans (by rw [execProbeRequest, h])
  · exact (show _ = execTestRequest r s from rfl).trans (by rw [execTestRequest, h])
  rintro due iv rfl hlt
  refine ⟨fun hdue => ⟨fun hearly => ?_, fun hlate => ?_⟩,
    fun hdue => ⟨fun hearly => ?_, fun hlate => ⟨fun hnone => ?_, ?_⟩⟩⟩
  · rw [execProbeRequest_eq hdue hlt, if_neg (Nat.not_le.2 hearly)]
  · rw [execProbeRequest_eq hdue hlt, if_pos hlate, State.requestProbe_eq]
    simp [State.modProbe, State.modTx]
  · rw [execTestRequest_eq hdue hlt, if_neg (Nat.not_le.2 hearly)]
  · rw [execTestRequest_eq hdue hlt, if_pos hlate, State.evaluate, State.evaluation_testRequested, hnone,
      State.testRequested_eq]
  · intro new hnew hproving
    rw [execTestRequest_eq hdue hlt, if_pos hlate]
    have hready := s.readies_testRequested r (due + BitVec.ofNat 64 (s.cfg.probe.interval * 125000))
    have hframe := hready.evaluate (by rw [State.testRequested_eq]) (by rw [State.testRequested_eq])
      (fun p => by rw [State.testRequested_eq])
    rw [← s.evaluation_testRequested r (due + BitVec.ofNat 64 (s.cfg.probe.interval * 125000))] at hnew
    obtain ⟨hdue', hentry⟩ := State.evaluate_leaves_proving hnew ((hready.state_eq r).trans hproving)
    exact ⟨_, rfl, by rw [State.evaluate_state, hnew]; rfl, hdue', hentry, hframe⟩

end Sys2Proof.Machine
end

