-- ==== Sys2Proof/Proofs/ProbeTimeout.lean ====
section
/-! CHECK. A PROBE_TIMEOUT: the oldest record that has reached the timeout is LOST (R39, R48, R61, R64 to R66, R70). -/

namespace Sys2Proof.Machine

/-! ### Which record is LOST (R39) -/

theorem State.timedOut_eq_none_iff (s : State) (r : RouteIx) :
    s.timedOut r = none ↔
      ∀ o ∈ s.probes[r].outstanding, (s.time.et - o.sentAt).toNat < s.cfg.probe.timeout * 125000 := by
  simp only [State.timedOut, List.find?_eq_none, decide_eq_true_eq, Nat.not_le]
  rfl

theorem State.timedOut_eq_some_iff (s : State) (r : RouteIx) (o : Outstanding) :
    s.timedOut r = some o ↔
      s.cfg.probe.timeout * 125000 ≤ (s.time.et - o.sentAt).toNat ∧
      ∃ before after, s.probes[r].outstanding = before ++ o :: after ∧
        ∀ x ∈ before, (s.time.et - x.sentAt).toNat < s.cfg.probe.timeout * 125000 := by
  simp only [State.timedOut, List.find?_eq_some_iff_append, decide_eq_true_eq, Bool.not_eq_true',
    decide_eq_false_iff_not, Nat.not_le]
  rfl

theorem execProbeTimeout_of_none {s : State} {r : RouteIx} (h : s.timedOut r = none) : exec (.probeTimeout r) s = .next s :=
  (show _ = execProbeTimeout r s from rfl).trans (by rw [execProbeTimeout, h])

theorem execProbeTimeout_of_some {s : State} {r : RouteIx} {o : Outstanding} (h : s.timedOut r = some o) :
    exec (.probeTimeout r) s = .next (s.loseProbe r o) :=
  (show _ = execProbeTimeout r s from rfl).trans (by rw [execProbeTimeout, h])

/-! ### The record LOST (R48, R61, R70) -/

/-- The health of a route one of whose PROBEs is LOST (R61, R70). -/
def Health.lost (h : Health) : Health :=
  { h with error := min 255 (h.error + 8), good := if h.state = .proving then 0 else h.good }

/-- The probe record of a route that has lost `o` (R39, R48). -/
def Probe.lose (x : Probe) (o : Outstanding) : Probe :=
  { x with outstanding := x.outstanding.erase o, counts := { x.counts with lost := x.counts.lost + 1 } }

theorem moveError_lost (error : Nat) : moveError error Resolution.lost.errorChange = min 255 (error + 8) := by
  rw [moveError, Resolution.errorChange]
  omega

theorem State.loseProbe_eq (s : State) (r : RouteIx) (o : Outstanding) :
    s.loseProbe r o = ((s.modProbe r (Probe.lose · o)).modHealth r Health.lost).evaluate r := by
  rw [State.loseProbe, State.resolve]
  simp only [moveError_lost]
  rfl

theorem erase_of_first {α : Type} [DecidableEq α] {before after : List α} {o : α} (h : o ∉ before) :
    (before ++ o :: after).erase o = before ++ after := by
  rw [List.erase_append_right _ h, List.erase_cons_head]

theorem State.readies_modProbe (s : State) (r : RouteIx) (f : Probe → Probe) : s.Readies (s.modProbe r f) r :=
  { State.Readies.refl s r with probes := fun q hq => s.modProbe_get_other r q f hq }

theorem State.evaluation_lost (s : State) (r : RouteIx) (o : Outstanding) :
    ((s.modProbe r (Probe.lose · o)).modHealth r Health.lost).evaluation r =
      evalTarget s.cfg.health s.cfg.lanes[r].type s.lanes[r] s.health[r].lost := by
  rw [State.evaluation, State.modHealth_get_self]
  rfl

theorem State.readies_lost (s : State) (r : RouteIx) (o : Outstanding) :
    s.Readies ((s.modProbe r (Probe.lose · o)).modHealth r Health.lost) r :=
  (s.readies_modProbe r _).trans (State.readies_modHealth _ r rfl)

theorem State.loseProbe_routeFrame (s : State) (r : RouteIx) (o : Outstanding) : s.RouteFrame (s.loseProbe r o) r := by
  rw [State.loseProbe_eq]
  exact (s.readies_lost r o).evaluate rfl rfl fun _ => rfl

/-- A record LOST goes from its route's records, and with it all others when the route falls DOWN (R48, R53). -/
theorem State.probe_loseProbe (s : State) (r : RouteIx) (o : Outstanding) :
    (s.loseProbe r o).probes[r] = s.probes[r].lose o ∨
    (s.loseProbe r o).probes[r] = { s.probes[r].lose o with ring := [], outstanding := [] } := by
  rw [State.loseProbe_eq, State.evaluate_probe, State.modHealth_probes, State.modProbe_get_self]
  split
  · exact .inr rfl
  · exact .inl rfl

/-- Settles O15: the record is the first that has reached the timeout, and what follows its removal is one evaluation. -/
theorem probeTimeoutLosesOldest : Obligations.ProbeTimeoutLosesOldest := by
  intro s r
  refine ⟨fun hnone => execProbeTimeout_of_none ((s.timedOut_eq_none_iff r).2 hnone), ?_⟩
  rintro before after o h hout hbefore ho rfl
  have hfirst : o ∉ before := fun hmem => Nat.not_le.2 (hbefore o hmem) ho
  refine ⟨_, execProbeTimeout_of_some ((s.timedOut_eq_some_iff r o).2 ⟨ho, before, after, hout, hbefore⟩), ?_⟩
  have heval : _ = evalTarget s.cfg.health s.cfg.lanes[r].type s.lanes[r] s.health[r].lost := s.evaluation_lost r o
  refine ⟨?_, ?_, s.loseProbe_routeFrame r o, fun hstays => ?_⟩
  · rcases s.probe_loseProbe r o with h | h <;> rw [h] <;> rfl
  · rw [State.loseProbe_eq, State.evaluate_state, heval, (s.readies_lost r o).state_eq]
    rfl
  · rw [State.loseProbe_eq, State.evaluate, heval.trans hstays]
    show (s.modProbe r (Probe.lose · o)).modHealth r Health.lost = _
    rw [← erase_of_first hfirst, ← hout]
    rfl

end Sys2Proof.Machine
end

