-- ==== Sys2Proof/Proofs/ProbesAndTests.lean ====
section
/-! CHECK. A PROBE received is answered, and a TEST received is checked (R42, R43, R69, R137, R139, R195, R196). -/

namespace Sys2Proof.Machine

/-! ### The frame -/

theorem dropRx_of_buffer {s : State} {r : RouteIx} {rx : Rx} (hrx : s.lanes[r].rx = some rx) (hstore : rx.store = .buffer) :
    s.dropRx r = s.modLane r fun l => { l with rx := none } := by
  simp only [State.dropRx, hrx, hstore]

section
variable {s : State} {r : RouteIx} {rx : Rx} {rest : List Byte}

/-- A frame that passes the checks of R137 goes to the owner of its kind. -/
theorem execFrameEnd_of_kind {kind : TrunkKind} (hrx : s.lanes[r].rx = some rx) (hstore : rx.store = .buffer)
    (hstate : s.health[r].state ≠ .disabled) (hlength : (rx.first :: rest).length ≤ 1532)
    (hgood : frameCrcGood (rx.first :: rest) = true) (hkind : frameKind (rx.first :: rest) = some kind)
    (hid : (rx.first :: rest).getD 1 0 = s.cfg.peers[s.cfg.routes[r].peer].termId) :
    exec (.frameEnd r rest) s = .next (s.dispatch r rx kind (rx.first :: rest)) := by
  have hshort : ¬ Config.trunkMax < (rx.first :: rest).length := Nat.not_lt.2 hlength
  have hreceived : ¬ (rx.store = .unreceived ∨ s.health[r].state = .disabled) := by
    rw [hstore]
    exact fun h => h.elim (fun e => by cases e) hstate
  refine Eq.trans (show _ = execFrameEnd r rest s from rfl) ?_
  rw [execFrameEnd, hrx]
  simp only [hshort, if_false, State.frameJudged, hreceived, hgood, Bool.not_true, Bool.false_eq_true, hkind, hid, ne_eq,
    not_true_eq_false]

/-- The bytes behind which a PROBE's CRC stands (R195). -/
def probeBody (id number : Byte) (t1 : Stamp) : List Byte := [2, id, number] ++ bytesOf 8 t1.toNat

theorem length_probeBody (id number : Byte) (t1 : Stamp) : (probeBody id number t1).length = 11 := by simp [probeBody]

theorem execFrameEnd_of_probe {number : Byte} {t1 : Stamp} (hrx : s.lanes[r].rx = some rx) (hstore : rx.store = .buffer)
    (hstate : s.health[r].state ≠ .disabled)
    (hbytes : rx.first :: rest = withCrc (probeBody s.cfg.peers[s.cfg.routes[r].peer].termId number t1)) :
    exec (.frameEnd r rest) s = .next
      (((s.modLane r fun l => { l with rx := none }).modScore r fun x => { x with probes := x.probes + 1 }).answerProbe r number t1
        rx.stamp) := by
  have hlength : (rx.first :: rest).length = 15 := by rw [hbytes]; simp [withCrc, length_probeBody]
  have hfield : field (rx.first :: rest) 0 1 = 2 := by rw [hbytes, field_one]; rfl
  have hgood : frameCrcGood (rx.first :: rest) = true := by
    rw [hbytes] at hfield ⊢
    exact withCrc_good (by simp [length_probeBody]) (by rw [hfield]; decide)
  have hkind : frameKind (rx.first :: rest) = some .probe := by rw [frameKind, hfield]; exact if_pos hlength
  have ht1 : BitVec.ofNat 64 (field (rx.first :: rest) 3 8) = t1 := by
    rw [hbytes, field_of_take (v := t1.toNat) rfl t1.isLt, BitVec.ofNat_toNat, BitVec.setWidth_eq]
  have hnumber : (rx.first :: rest).getD 2 0 = number := by rw [hbytes]; rfl
  have hid : (rx.first :: rest).getD 1 0 = s.cfg.peers[s.cfg.routes[r].peer].termId := by
    generalize s.cfg.peers[s.cfg.routes[r].peer].termId = id at hbytes ⊢
    rw [hbytes]
    rfl
  rw [execFrameEnd_of_kind hrx hstore hstate (by rw [hlength]; decide) hgood hkind hid]
  simp only [State.dispatch, dropRx_of_buffer hrx hstore, hnumber, ht1]

/-- A TEST of the seed `seed`, followed by the pattern bytes `received` (R195). -/
def testFrame (id : Byte) (seed : BitVec 16) (received : List Byte) : List Byte :=
  withCrc ([4, id] ++ bytesOf 2 seed.toNat) ++ received

theorem execFrameEnd_of_test {seed : BitVec 16} {received : List Byte} (hrx : s.lanes[r].rx = some rx)
    (hstore : rx.store = .buffer) (hstate : s.health[r].state ≠ .disabled) (hreceived : received.length ≤ 1524)
    (hbytes : rx.first :: rest = testFrame s.cfg.peers[s.cfg.routes[r].peer].termId seed received) :
    exec (.frameEnd r rest) s = .next
      (((s.modLane r fun l => { l with rx := none }).modScore r fun x => { x with tests := x.tests + 1 }).checkTest r seed
        received) := by
  generalize hid : s.cfg.peers[s.cfg.routes[r].peer].termId = id at hbytes
  have hlength : (rx.first :: rest).length = received.length + 8 := by
    rw [hbytes]
    simp [testFrame, withCrc]
    omega
  have hfield : field (rx.first :: rest) 0 1 = 4 := by rw [hbytes, field_one]; rfl
  have hcrc : field (rx.first :: rest) 4 4 = (crc32 ((rx.first :: rest).take 4)).toNat := by
    rw [hbytes]
    exact field_of_take (v := (crc32 ([4, id] ++ bytesOf 2 seed.toNat)).toNat) rfl (BitVec.isLt _)
  have hgood : frameCrcGood (rx.first :: rest) = true := by
    rw [frameCrcGood, if_pos (hfield.trans (by rfl)), hlength, hcrc]
    simp
  have hkind : frameKind (rx.first :: rest) = some .test := by simp only [frameKind, hfield]
  have hseed : BitVec.ofNat 16 (field (rx.first :: rest) 2 2) = seed := by
    rw [hbytes, field_of_take (v := seed.toNat) rfl seed.isLt, BitVec.ofNat_toNat, BitVec.setWidth_eq]
  have hpattern : (rx.first :: rest).drop 8 = received := by rw [hbytes]; rfl
  rw [execFrameEnd_of_kind hrx hstore hstate (by omega) hgood hkind (by rw [hid, hbytes]; rfl)]
  simp only [State.dispatch, dropRx_of_buffer hrx hstore, hpattern, hseed]

end

/-! ### The answer and the check -/

/-- Settles O18: the frame passes the checks of R137; a PROBE's case turns on the four ECHO entries, a TEST's on its pattern. -/
theorem probesAnsweredTestsChecked : Obligations.ProbesAnsweredTestsChecked := by
  intro s r rx rest hrx hstore hstate
  refine ⟨fun number t1 hbytes => ⟨fun hroom => ?_, fun hfull => ?_⟩, fun seed received hreceived hbytes =>
    ⟨fun hmatch => ?_, fun hmatch => ?_⟩⟩
  · rw [execFrameEnd_of_probe hrx hstore hstate hbytes, State.answerProbe]
    exact congrArg _ (if_pos hroom)
  · rw [execFrameEnd_of_probe hrx hstore hstate hbytes, State.answerProbe]
    exact congrArg _ (if_neg (Nat.not_lt.2 hfull))
  · rw [execFrameEnd_of_test hrx hstore hstate hreceived hbytes, State.checkTest]
    exact congrArg _ (if_pos hmatch)
  · rw [execFrameEnd_of_test hrx hstore hstate hreceived hbytes, State.checkTest]
    refine congrArg _ ((if_neg hmatch).trans ?_)
    simp [State.modHealth, State.modProbe, State.modLane, State.modScore]

end Sys2Proof.Machine
end

