-- ==== Sys2Proof/Proofs/Overlay.lean ====
section
/-! SUPPORT. What the operations on routes do not look at: when the schedules fall due, and what a directive leaves at its port
(R57, R65, R66, R128, R166). -/

namespace Sys2Proof.Machine

/-! ### Overlays -/

/-- A change of the ETs at which the schedules fall due, and of the ports. -/
structure Overlay where
  due : RouteIx → Option Ticks → Option Ticks
  testDue : RouteIx → Option Ticks → Option Ticks
  port : PortIx → Port → Port

def Probe.redue (x : Probe) (f : Option Ticks → Option Ticks) : Probe := { x with due := f x.due }

def Health.redue (h : Health) (f : Option Ticks → Option Ticks) : Health := { h with testDue := f h.testDue }

/-- The state with the change made. -/
def Overlay.on (o : Overlay) (s : State) : State :=
  { s with
    probes := Vector.ofFn fun q => s.probes[q].redue (o.due q)
    health := Vector.ofFn fun q => s.health[q].redue (o.testDue q)
    ports := Vector.ofFn fun p => o.port p s.ports[p] }

/-- The change keeps a schedule that is stopped and one that falls due at `next`, and at a port what a notice looks at. -/
structure Overlay.Fits (o : Overlay) (next : Ticks) : Prop where
  stopped : ∀ q, o.due q none = none
  started : ∀ q, o.due q (some next) = some next
  testStopped : ∀ q, o.testDue q none = none
  testStarted : ∀ q, o.testDue q (some next) = some next
  record : ∀ p x (n : Notice), o.port p (x.record n) = (o.port p x).record n

section
variable (o : Overlay) (s : State)

theorem Overlay.on_probe (q : RouteIx) : (o.on s).probes[q] = s.probes[q].redue (o.due q) := by
  simp [Overlay.on]

theorem Overlay.on_health (q : RouteIx) : (o.on s).health[q] = s.health[q].redue (o.testDue q) := by
  simp [Overlay.on]

theorem Overlay.on_port (p : PortIx) : (o.on s).ports[p] = o.port p s.ports[p] := by
  simp [Overlay.on]

theorem Overlay.on_state (q : RouteIx) : (o.on s).health[q].state = s.health[q].state := by
  rw [o.on_health]; rfl

theorem Overlay.on_m (q : RouteIx) : (o.on s).probes[q].m = s.probes[q].m := by
  rw [o.on_probe]; rfl

theorem Overlay.on_modTx (r : RouteIx) (f : Tx → Tx) : o.on (s.modTx r f) = (o.on s).modTx r f := rfl

theorem Overlay.on_modSel (r : RouteIx) (f : RouteSel → RouteSel) : o.on (s.modSel r f) = (o.on s).modSel r f := rfl

theorem Overlay.on_release (k : Nat) : o.on (s.release k) = (o.on s).release k := rfl

theorem Overlay.on_modCircuit (n : CircIx) (f : Circuit → Circuit) : o.on (s.modCircuit n f) = (o.on s).modCircuit n f := rfl

variable {o}

/-- A vector changed at one place and then at each: the new value there is changed too. -/
theorem ofFn_set {α β : Type} {n : Nat} (g : Fin n → α → β) (v : Vector α n) (r : Fin n) (a : α) :
    (Vector.ofFn fun q => g q (v.set r a)[q]) = (Vector.ofFn fun q => g q v[q]).set r (g r a) := by
  ext i hi
  simp only [Vector.getElem_ofFn, Fin.getElem_fin, Vector.getElem_set]
  by_cases h : r.val = i
  · subst h
    simp
  · simp [h]

theorem Overlay.on_modProbe {r : RouteIx} {f : Probe → Probe}
    (h : (f s.probes[r]).redue (o.due r) = f (s.probes[r].redue (o.due r))) : o.on (s.modProbe r f) = (o.on s).modProbe r f := by
  have hprobes := ofFn_set (fun q (x : Probe) => x.redue (o.due q)) s.probes r (f s.probes[r])
  rw [h, ← o.on_probe] at hprobes
  exact congrArg (fun probes => { o.on s with probes := probes }) hprobes

theorem Overlay.on_modHealth {r : RouteIx} {f : Health → Health}
    (h : (f s.health[r]).redue (o.testDue r) = f (s.health[r].redue (o.testDue r))) :
    o.on (s.modHealth r f) = (o.on s).modHealth r f := by
  have hhealth := ofFn_set (fun q (x : Health) => x.redue (o.testDue q)) s.health r (f s.health[r])
  rw [h, ← o.on_health] at hhealth
  exact congrArg (fun health => { o.on s with health := health }) hhealth

theorem Overlay.on_rechoose : o.on s.rechoose = (o.on s).rechoose := by
  have hroute : (o.on s).bestTimeRoute = s.bestTimeRoute :=
    State.bestTimeRoute_congr (by
      simp only [State.routeView, Prod.mk.injEq]
      refine ⟨rfl, rfl, funext fun q => ?_⟩
      rw [o.on_state, o.on_probe]
      rfl)
  rw [State.rechoose, State.rechoose, hroute]
  rfl

/-! ### The schedules (R37, R53, R54, R65, R67) -/

theorem Overlay.on_requestProbe (r : RouteIx) : o.on (s.requestProbe r) = (o.on s).requestProbe r := by
  rw [State.requestProbe_eq, State.requestProbe_eq]
  exact Overlay.on_modProbe _ rfl

theorem Overlay.on_requestTest (r : RouteIx) : o.on (s.requestTest r) = (o.on s).requestTest r := by
  rw [State.requestTest_eq, State.requestTest_eq]
  exact Overlay.on_modHealth _ rfl

/-! ### Re-steering (R110, R128) -/

theorem Overlay.on_resteerTarget (r : RouteIx) (c : Copy) : (o.on s).resteerTarget r c = s.resteerTarget r c := by
  have hopen (q : RouteIx) : (o.on s).open_ q = s.open_ q := by
    rw [State.open_, State.open_, o.on_state]
    rfl
  have heligible (peer : PeerIx) : (o.on s).eligible peer = s.eligible peer := by
    simp only [State.eligible, hopen]
    rfl
  have harrival (len : Nat) : (o.on s).expectedArrival len = s.expectedArrival len := by
    funext q
    simp only [State.expectedArrival, State.forward, o.on_m]
    rfl
  have hprimary (peer : PeerIx) (len : Nat) (routes : List RouteIx) :
      (o.on s).primary peer len routes = s.primary peer len routes := by
    simp only [State.primary, harrival]
    rfl
  simp only [State.resteerTarget, heligible, hprimary]
  rfl

/-! ### Notices and re-steered copies -/

variable {n : Ticks} (ho : o.Fits n)
include ho

theorem Overlay.Fits.on_raiseAt (p : PortIx) (notice : Notice) : o.on (s.raiseAt p notice) = (o.on s).raiseAt p notice := by
  have hports := ofFn_set o.port s.ports p (s.ports[p].record notice)
  rw [ho.record, ← o.on_port] at hports
  exact congrArg (fun ports => { o.on s with ports := ports }) hports

theorem Overlay.Fits.on_raiseAll (notice : Notice) : o.on (s.raiseAll notice) = (o.on s).raiseAll notice := by
  have hports : (Vector.ofFn fun p => o.port p (Vector.ofFn fun p => s.ports[p].record notice)[p]) =
      Vector.ofFn fun p => ((Vector.ofFn fun p => o.port p s.ports[p])[p]).record notice := by
    ext p hp
    simp [ho.record]
  exact congrArg (fun ports => { o.on s with ports := ports }) hports

theorem Overlay.Fits.on_countDiscard (r : RouteIx) (c : Copy) (reason : DiscardReason) :
    o.on (s.countDiscard r c reason) = (o.on s).countDiscard r c reason := by
  unfold State.countDiscard
  rw [apply_ite o.on]
  refine if_congr (Iff.of_eq rfl) ?_ rfl
  exact ho.on_raiseAt _ _ _

theorem Overlay.Fits.on_resteerCopy (r : RouteIx) (c : Copy) : o.on (s.resteerCopy r c) = (o.on s).resteerCopy r c := by
  have hheld : (o.on s).heldElsewhere r c.slot = s.heldElsewhere r c.slot := rfl
  have hexpired : (o.on s).expired c = s.expired c := rfl
  rw [State.resteerCopy, State.resteerCopy, o.on_resteerTarget, hheld, hexpired]
  split
  · rfl
  · split
    · rw [o.on_modTx, o.on_release, ho.on_countDiscard]
    · cases s.resteerTarget r c with
      | none => exact (o.on_modTx _ r _).trans (by rw [o.on_release, ho.on_countDiscard])
      | some q => exact (o.on_modTx _ r _).trans (by rw [o.on_modSel, State.enqueue, o.on_modTx]; rfl)

end

end Sys2Proof.Machine
end

