-- ==== Sys2Proof/Proofs/OverlaidMoves.lean ====
section
/-! SUPPORT. A change of route state, and what a directive's effects on routes make of the state in which the directive was taken:
neither looks at when the schedules fall due, nor at what the directive left at its port (R57, R64 to R66, R128, R166). -/

namespace Sys2Proof.Machine

/-! ### A change of route state (R65) -/

section
variable {o : Overlay} {s : State}

theorem Overlay.Fits.on_resteer {n : Ticks} (ho : o.Fits n) (s : State) (r : RouteIx) :
    o.on (s.resteer r) = (o.on s).resteer r := by
  have hfold (queue : List Copy) (u : State) :
      o.on (queue.foldl (fun s c => s.resteerCopy r c) u) = queue.foldl (fun s c => s.resteerCopy r c) (o.on u) := by
    induction queue generalizing u with
    | nil => rfl
    | cons c queue ih => rw [List.foldl_cons, List.foldl_cons, ih, ho.on_resteerCopy]
  exact hfold s.tx[r].queue (s.modTx r fun t => { t with queue := [] })

theorem Overlay.Fits.on_leaveProving {n : Ticks} (ho : o.Fits n) (s : State) (r : RouteIx) :
    o.on (s.leaveProving r) = (o.on s).leaveProving r := by
  rw [State.leaveProving, o.on_modTx, Overlay.on_modHealth s (congrArg (fun due => { s.health[r] with testDue := due })
    (ho.testStopped r))]
  rfl

theorem Overlay.Fits.on_enterProving (ho : o.Fits s.nextDue) (r : RouteIx) : o.on (s.enterProving r) = (o.on s).enterProving r := by
  rw [State.enterProving, Overlay.on_modHealth (s.requestTest r) (congrArg
    (fun due => { (s.requestTest r).health[r] with error := 0, good := 0, testDue := due }) (ho.testStarted r)),
    Overlay.on_requestTest]
  rfl

theorem Overlay.Fits.on_disableEffects {n : Ticks} (ho : o.Fits n) (s : State) (r : RouteIx) :
    o.on (s.disableEffects r) = (o.on s).disableEffects r := by
  rw [State.disableEffects, o.on_modTx, Overlay.on_modProbe s (congrArg
    (fun due => { s.probes[r] with due := due, errorsToTell := 0 }) (ho.stopped r))]
  rfl

theorem Overlay.Fits.on_startProbes (ho : o.Fits s.nextDue) (r : RouteIx) : o.on (s.startProbes r) = (o.on s).startProbes r := by
  rw [State.startProbes, Overlay.on_modProbe (s.requestProbe r) (congrArg
    (fun due => { (s.requestProbe r).probes[r] with due := due }) (ho.started r)),
    Overlay.on_requestProbe]
  rfl

theorem Overlay.on_flush (s : State) (r : RouteIx) : o.on (s.flush r) = (o.on s).flush r := Overlay.on_modProbe s rfl

theorem Overlay.on_recordChange (s : State) (r : RouteIx) (new : RouteState) :
    o.on (s.recordChange r new) = (o.on s).recordChange r new := Overlay.on_modHealth s rfl

theorem State.nextDue_congr {s u : State} (hcfg : u.cfg = s.cfg) (htime : u.time = s.time) : u.nextDue = s.nextDue := by
  rw [State.nextDue, State.nextDue, State.probeTicks, State.probeTicks, hcfg, htime]

/-- A step of a change that one case of it takes and another does not. -/
theorem Overlay.on_ite {p : Prop} [Decidable p] (f : State → State) {u u' : State} (hu : o.on u = u')
    (h : o.on (f u) = f (o.on u)) : o.on (if p then f u else u) = if p then f u' else u' := by
  rw [← hu, ← h]
  exact apply_ite o.on p _ _

theorem Overlay.Fits.on_settle (ho : o.Fits s.nextDue) (r : RouteIx) (old new : RouteState) :
    o.on (s.settle r old new) = (o.on s).settle r old new := by
  have hfits {u : State} (hcfg : u.cfg = s.cfg) (htime : u.time = s.time) : o.Fits u.nextDue := by
    rw [State.nextDue_congr hcfg htime]
    exact ho
  have hleave := Overlay.on_ite (p := old = .proving) (fun u => u.leaveProving r) (u := s) rfl (ho.on_leaveProving s r)
  have henter := Overlay.on_ite (p := new = .proving) (fun u => u.enterProving r) hleave
    (Overlay.Fits.on_enterProving (hfits (by simp [apply_ite State.cfg]) (by simp [apply_ite State.time])) r)
  have hflush := Overlay.on_ite (p := new = .down ∨ new = .disabled) (fun u => u.flush r) henter (Overlay.on_flush _ r)
  have hdisable := Overlay.on_ite (p := new = .disabled) (fun u => u.disableEffects r) hflush (ho.on_disableEffects _ r)
  exact Overlay.on_ite (p := old = .disabled) (fun u => u.startProbes r) hdisable
    (Overlay.Fits.on_startProbes (hfits (by simp [apply_ite State.cfg]) (by simp [apply_ite State.time])) r)

theorem Overlay.Fits.on_consequences (ho : o.Fits s.nextDue) (r : RouteIx) (old new : RouteState) :
    o.on (s.consequences r old new) = (o.on s).consequences r old new := by
  rw [State.consequences_eq, State.consequences_eq, ho.on_raiseAll, apply_ite o.on, ho.on_resteer,
    Overlay.on_rechoose, ho.on_settle]

theorem Overlay.Fits.on_moveRoute (ho : o.Fits s.nextDue) (r : RouteIx) (new : RouteState) :
    o.on (s.moveRoute r [new]) = (o.on s).moveRoute r [new] := by
  have hmove (u : State) : u.moveRoute r [new] = (u.recordChange r new).consequences r u.health[r].state new := rfl
  have hfits : o.Fits (s.recordChange r new).nextDue := ho
  rw [hmove, hmove, hfits.on_consequences, Overlay.on_recordChange, o.on_state]

theorem evalTarget_redue (h : HealthSettings) (ty : LaneType) (l : Lane) (x : Health) (f : Option Ticks → Option Ticks) :
    evalTarget h ty l (x.redue f) = evalTarget h ty l x := by
  unfold evalTarget
  rfl

theorem Overlay.Fits.on_evaluate (ho : o.Fits s.nextDue) (r : RouteIx) : o.on (s.evaluate r) = (o.on s).evaluate r := by
  have heval : (o.on s).evaluation r = s.evaluation r := by
    exact (congrArg _ (o.on_health s r)).trans (evalTarget_redue ..)
  rw [State.evaluate, State.evaluate, heval]
  cases s.evaluation r with
  | none => rfl
  | some new => exact ho.on_moveRoute r new

theorem Overlay.Fits.on_loseProbe (ho : o.Fits s.nextDue) (r : RouteIx) (x : Outstanding) :
    o.on (s.loseProbe r x) = (o.on s).loseProbe r x := by
  rw [State.loseProbe_eq, State.loseProbe_eq,
    Overlay.Fits.on_evaluate (s := (s.modProbe r (Probe.lose · x)).modHealth r Health.lost) ho,
    Overlay.on_modHealth (s.modProbe r (Probe.lose · x)) rfl, Overlay.on_modProbe s rfl]

end

/-! ### A directive taken (R166) -/

/-- What a directive taken leaves at its port. -/
def takenOverlay (d : Directive) : Overlay where
  due _ x := x
  testDue _ x := x
  port p x := if p = d.port then x.noted d.request else x

theorem takenOverlay_fits (d : Directive) (n : Ticks) : (takenOverlay d).Fits n where
  stopped _ := rfl
  started _ := rfl
  testStopped _ := rfl
  testStarted _ := rfl
  record p x notice := by
    show (if p = d.port then _ else _) = (if p = d.port then x.noted d.request else x).record notice
    split
    · rw [Port.record_noted]
    · rfl

theorem takenOverlay_on (d : Directive) (s : State) : (takenOverlay d).on s = s.taken d := by
  have hprobes : (Vector.ofFn fun q : RouteIx => s.probes[q].redue ((takenOverlay d).due q)) = s.probes := by
    ext i hi
    simp [Probe.redue, takenOverlay]
  have hhealth : (Vector.ofFn fun q : RouteIx => s.health[q].redue ((takenOverlay d).testDue q)) = s.health := by
    ext i hi
    simp [Health.redue, takenOverlay]
  have hports : (Vector.ofFn fun p : PortIx => (takenOverlay d).port p s.ports[p]) = (s.taken d).ports := by
    ext p hp
    simpa [takenOverlay] using ((s.taken_spec d).2 ⟨p, hp⟩).symm
  rw [Overlay.on, hprobes, hhealth, hports]
  rfl

theorem State.moveRoute_taken (s : State) (d : Directive) (r : RouteIx) (new : RouteState) :
    (s.taken d).moveRoute r [new] = (s.moveRoute r [new]).taken d := by
  rw [← takenOverlay_on d, ← takenOverlay_on d, (takenOverlay_fits d _).on_moveRoute]

theorem State.loseProbe_taken (s : State) (d : Directive) (r : RouteIx) (x : Outstanding) :
    (s.taken d).loseProbe r x = (s.loseProbe r x).taken d := by
  rw [← takenOverlay_on d, ← takenOverlay_on d, (takenOverlay_fits d _).on_loseProbe]

end Sys2Proof.Machine
end

