-- ==== Sys2Proof/Proofs/TestRoute.lean ====
section
/-! CHECK. TEST_ROUTE: a route enters PROVING and its waiting copies are re-steered (R37, R65, R67, R71, R91, R92, R100, R103, R110,
R115, R124, R128). -/

namespace Sys2Proof.Machine

/-! ### Into PROVING (R65, R67) -/

/-- The health of a route that enters PROVING from another state. -/
def State.provingHealth (s : State) (r : RouteIx) : Health :=
  { s.health[r] with
    state := .proving, error := 0, good := 0, lastChange := some s.time.et
    testDue := some (s.time.et + BitVec.ofNat 64 (s.cfg.probe.interval * 125000))
    counts :=
      { s.health[r].counts with
        changes := s.health[r].counts.changes + 1
        testSkips := s.health[r].counts.testSkips + (if s.tx[r].testEntry then 1 else 0) } }

/-- The state once a route has entered PROVING, its waiting copies not yet re-steered and no notice raised. -/
def State.toProving (s : State) (r : RouteIx) : State :=
  { s with
    health := s.health.set r (s.provingHealth r)
    tx := s.tx.set r { s.tx[r] with testEntry := true }
    time := { s.time with timeRoute := State.bestTimeRoute { s with health := s.health.set r (s.provingHealth r) } } }

theorem State.settle_proving {s : State} {r : RouteIx} (hdisabled : s.health[r].state ≠ .disabled)
    (hproving : s.health[r].state ≠ .proving) :
    ((s.recordChange r .proving).settle r s.health[r].state .proving).rechoose = s.toProving r := by
  have hentered : (s.recordChange r .proving).settle r s.health[r].state .proving =
      { s with
        health := s.health.set r (s.provingHealth r)
        tx := s.tx.set r { s.tx[r] with testEntry := true } } := by
    simp only [State.settle, hdisabled, hproving, if_false, if_true, or_self, reduceCtorEq]
    simp [State.enterProving, State.requestTest_eq, State.recordChange, State.modHealth, State.modTx, State.provingHealth,
      State.nextDue, State.probeTicks, Config.ticksPerMs]
  rw [hentered, State.rechoose]
  exact congrArg (fun route => { s.toProving r with time := { s.time with timeRoute := route } })
    (State.bestTimeRoute_congr (State.routeView_congr rfl rfl rfl))

theorem State.testRoute_eq {s : State} {r : RouteIx} (hdisabled : s.health[r].state ≠ .disabled)
    (hproving : s.health[r].state ≠ .proving) :
    s.testRoute r =
      (if s.health[r].state.carries = true then (s.toProving r).resteer r else s.toProving r).raiseAll
        (.routeState r s.health[r].state .proving) := by
  rw [State.testRoute, if_neg hproving]
  refine (State.consequences_eq (s.recordChange r .proving) r s.health[r].state .proving).trans ?_
  have hleaves : (s.health[r].state.carries && !RouteState.proving.carries) = s.health[r].state.carries := Bool.and_true _
  rw [State.settle_proving hdisabled hproving, hleaves]

theorem State.testRoute_of_empty {s : State} {r : RouteIx} (hdisabled : s.health[r].state ≠ .disabled)
    (hproving : s.health[r].state ≠ .proving) (hempty : s.health[r].state.carries = true → s.tx[r].queue = []) :
    s.testRoute r = (s.toProving r).raiseAll (.routeState r s.health[r].state .proving) := by
  rw [State.testRoute_eq hdisabled hproving]
  split
  · next hcarries =>
    have hqueue : (s.toProving r).tx[r].queue = [] := by
      rw [← hempty hcarries]
      simp [State.toProving]
    rw [State.resteer_of_empty hqueue, modTx_of_same (by rw [← hqueue])]
  · rfl

theorem State.testRoute_of_not_proving {s : State} {r : RouteIx} (h : s.health[r].state ≠ .proving) :
    s.testRoute r = s.moveRoute r [.proving] := if_neg h

/-! ### The directive (R71) -/

theorem State.testRoute_taken (s : State) (d : Directive) (r : RouteIx) : (s.taken d).testRoute r = (s.testRoute r).taken d := by
  have hstate : (s.taken d).health[r].state = s.health[r].state := rfl
  rw [State.testRoute, State.testRoute, hstate]
  split
  · rfl
  · exact s.moveRoute_taken d r .proving

section
variable {s : State} {d : Directive} {r : RouteIx} (hauth : s.Authorised d 19 1) (hargs : d.args = [BitVec.ofNat 8 r.val])
include hauth hargs

theorem execTestRoute_eq :
    exec (.testRoute d) s =
      if s.health[r].state = .disabled then .next (s.answered d .badArg []) else .next ((s.testRoute r).answered d .done []) := by
  have hindex : index? 16 (field d.args 0 1) = some r := by
    have hbyte : field d.args 0 1 = r.val := by
      rw [hargs, field_one]
      exact Nat.mod_eq_of_lt (by omega)
    rw [hbyte, index_val]
  have hstate : (s.taken d).health[r].state = s.health[r].state := rfl
  show Host.Outcome.next (s.operatorDirective d 19 1 (State.ownTestRoute d)) = _
  rw [State.operatorDirective_of_authorised hauth, State.ownTestRoute, hindex]
  dsimp only
  rw [hstate, State.testRoute_taken]
  split <;> rfl

theorem execTestRoute_of_usable (h : s.health[r].state ≠ .disabled) :
    exec (.testRoute d) s = .next ((s.testRoute r).answered d .done []) := by
  rw [execTestRoute_eq hauth hargs, if_neg h]

end

theorem execTestRoute_of_wild {s : State} {d : Directive} (hauth : s.Authorised d 19 1) (hwild : 15 < (d.args.getD 0 0).toNat) :
    exec (.testRoute d) s = .next (s.answered d .badArg []) := by
  have hindex : index? 16 (field d.args 0 1) = none := by
    rw [field_one]
    exact dif_neg (by omega)
  show Host.Outcome.next (s.operatorDirective d 19 1 (State.ownTestRoute d)) = _
  rw [State.operatorDirective_of_authorised hauth, State.ownTestRoute, hindex]
  rfl

/-- What entering PROVING by TEST_ROUTE shows and leaves. -/
theorem testRoute_shows {s : State} {r : RouteIx} (d : Directive) (hdisabled : s.health[r].state ≠ .disabled)
    (hproving : s.health[r].state ≠ .proving) {t : State} (ht : t = (s.testRoute r).answered d .done []) :
    t.health[r].state = .proving ∧ t.health[r].error = 0 ∧ t.health[r].good = 0 ∧
    t.health[r].testDue = some (s.time.et + BitVec.ofNat 64 (s.cfg.probe.interval * 125000)) ∧
    t.tx[r].testEntry = true ∧ t.probes[r] = s.probes[r] ∧ t.lanes = s.lanes ∧ t.cfg = s.cfg ∧ t.peers = s.peers ∧
    ((s.health[r].state = .up ∨ s.health[r].state = .fading) → t.tx[r].queue = []) ∧
    s.RoutesFrame t (fun q => q = r) ∧ s.Answers t d .done [] := by
  obtain ⟨u, hu⟩ : ∃ u, u = s.taken d := ⟨_, rfl⟩
  have hmoved : t = (u.moveRoute r [.proving]).answer d.port { request := d.request, status := .done, results := [] } := by
    rw [ht, hu, State.moveRoute_taken, State.testRoute, if_neg hproving]
    rfl
  have hhealth : u.health = s.health := by rw [hu]; rfl
  have hne : .proving ≠ u.health[r].state := by rw [hhealth]; exact Ne.symm hproving
  have hstate := u.state_moveRoute r .proving
  obtain ⟨hframe, ⟨hmade, -⟩, hcfg, hpeers, hports⟩ := u.moveRoute_routeFrame hne
  have hvia : u.oneChange (u.moveRoute r [.proving]) r = [.proving] := by rw [State.oneChange, hstate, if_neg hne]
  obtain ⟨-, -, -, hentered, -, -, hleft⟩ := hmade r
  rw [hvia] at hentered
  obtain ⟨herror, hgood, hentry, hdue⟩ := hentered rfl
  rw [hcfg] at hdue
  have hprobes : (u.moveRoute r [.proving]).probes = u.probes := by
    rw [← State.testRoute_of_not_proving (Ne.symm hne), State.testRoute_eq (by rw [hhealth]; exact hdisabled) (Ne.symm hne)]
    split
    · simp
      rfl
    · rfl
  have hlanes : (u.moveRoute r [.proving]).lanes = u.lanes := by simp
  have hframe' : s.RoutesFrame (u.moveRoute r [.proving]) (fun q => q = r) := by
    rw [hu] at hframe ⊢
    exact (readies_taken s d r).routesFrame hframe
  have hanswers : s.Answers t d .done [] := by
    rw [hmoved, hu]
    exact answers_of_recordless fun p => (congrArg Port.recordless (hu ▸ hports p) :)
  subst hmoved hu
  exact ⟨hstate, herror, hgood, hdue, hentry, congrArg (fun probes : Vector Probe 16 => probes[r]) hprobes, hlanes, hcfg, hpeers,
    fun h => hleft ((RouteState.carries_iff _).2 h) (by rw [hstate]; rfl), routesFrame_answer hframe' _ _, hanswers⟩

/-! ### One waiting copy (R110, R128) -/

theorem mem_eligible_iff (s : State) (peer : PeerIx) (r : RouteIx) : r ∈ s.eligible peer ↔ s.Eligible peer r := by
  simp only [State.eligible, State.open_, List.mem_filter, List.mem_finRange, true_and, Bool.and_eq_true, decide_eq_true_eq,
    RouteState.carries_iff, bne_iff_ne, Config.queueMax, and_assoc]
  exact and_congr_right fun _ => and_left_comm

theorem resteerTarget_eq_some_iff {s : State} {c : Copy} {peer : PeerIx} (hpeer : s.copyPeer c = some peer) (r q : RouteIx) :
    s.resteerTarget r c = some q ↔ s.ResteersTo peer c.len r q := by
  have hmem (x : RouteIx) : x ∈ ((s.eligible peer).filter fun q => decide (q ≠ r)) ↔ s.Eligible peer x ∧ x ≠ r := by
    rw [List.mem_filter, mem_eligible_iff, decide_eq_true_iff]
  have hsorted : ((s.eligible peer).filter fun q => decide (q ≠ r)).Pairwise (· < ·) :=
    (pairwise_lt_filter_finRange 16 _).filter _
  have hleast : leastBy (s.expectedArrival c.len) ((s.eligible peer).filter fun q => decide (q ≠ r)) = some q ↔
      LeastRoute (fun x => s.Eligible peer x ∧ x ≠ r) (s.expectedArrival c.len) q := by
    rw [leastBy_eq_some_iff hsorted]
    simp only [hmem]
  rw [State.resteerTarget, hpeer]
  dsimp only [State.primary]
  rw [State.ResteersTo]
  cases hforced : s.peers[peer].forced with
  | none =>
    dsimp only
    rw [hleast]
    simp
  | some f =>
    dsimp only
    by_cases hf : s.Eligible peer f ∧ f ≠ r
    · rw [if_pos ((hmem f).2 hf)]
      refine ⟨fun e => .inl ⟨e, Option.some.inj e ▸ hf.2, Option.some.inj e ▸ hf.1⟩, ?_⟩
      rintro (⟨e, -⟩ | ⟨hnot, -⟩)
      · exact e
      · exact ((hnot f rfl).elim hf.2 (fun h => h hf.1)).elim
    · rw [if_neg (fun h => hf ((hmem f).1 h)), hleast]
      refine ⟨fun h => .inr ⟨fun g hg => ?_, h⟩, ?_⟩
      · obtain rfl : f = g := Option.some.inj hg
        rw [or_iff_not_imp_left]
        exact fun hne h => hf ⟨h, hne⟩
      · rintro (⟨e, hne, h⟩ | ⟨-, h⟩)
        · obtain rfl : f = q := Option.some.inj e
          exact absurd ⟨h, hne⟩ hf
        · exact h

theorem leastBy_congr {α : Type} {f g : α → Nat} {l : List α} (h : ∀ x ∈ l, f x = g x) : leastBy f l = leastBy g l := by
  induction l with
  | nil => rfl
  | cons x l ih =>
    rw [leastBy, leastBy, ih fun y hy => h y (List.mem_cons_of_mem x hy)]
    cases hleast : leastBy g l with
    | none => rfl
    | some y =>
      dsimp only
      rw [h x (List.mem_cons_self ..), h y (List.mem_cons_of_mem x (leastBy_mem hleast))]

/-- What a re-steer finds rests on nothing of the route that the copy leaves but its settings. -/
theorem resteerTarget_congr {s u : State} {r : RouteIx} (c : Copy) (hcfg : u.cfg = s.cfg) (hpeers : u.peers = s.peers)
    (hlanes : u.lanes = s.lanes) (hprobes : u.probes = s.probes) (hcircuits : u.circuits = s.circuits)
    (hhealth : ∀ q, q ≠ r → u.health[q] = s.health[q]) (htx : ∀ q, q ≠ r → u.tx[q] = s.tx[q]) :
    u.resteerTarget r c = s.resteerTarget r c := by
  have hopen (q : RouteIx) (hq : q ≠ r) : u.open_ q = s.open_ q := by
    rw [State.open_, State.open_, hcfg, hhealth q hq, htx q hq]
  have hroutes (peer : PeerIx) : ((u.eligible peer).filter fun q => decide (q ≠ r)) =
      (s.eligible peer).filter fun q => decide (q ≠ r) := by
    rw [State.eligible, State.eligible, List.filter_filter, List.filter_filter, hcfg]
    refine List.filter_congr fun q _ => ?_
    by_cases hq : q = r
    · simp [hq]
    · rw [hopen q hq]
  have harrival (len : Nat) (q : RouteIx) (hq : q ≠ r) : u.expectedArrival len q = s.expectedArrival len q := by
    rw [State.expectedArrival, State.expectedArrival, State.forward, State.forward, hcfg, hlanes, hprobes, htx q hq]
  have hleast (peer : PeerIx) (len : Nat) : leastBy (u.expectedArrival len) ((s.eligible peer).filter fun q => decide (q ≠ r)) =
      leastBy (s.expectedArrival len) ((s.eligible peer).filter fun q => decide (q ≠ r)) :=
    leastBy_congr fun q hq => harrival len q (of_decide_eq_true (List.mem_filter.1 hq).2)
  simp only [State.resteerTarget, State.copyPeer, State.primary, hcircuits, hpeers, hroutes, hleast]

/-! ### Re-steering one copy before the others (R110, R128) -/

/-- The state in which the waiting copies of a route that enters PROVING are re-steered, in turn. -/
def State.steering (s : State) (r : RouteIx) : State := (s.toProving r).modTx r fun t => { t with queue := [] }

theorem State.steering_eq (s : State) (r : RouteIx) :
    s.steering r =
      { s with
        health := s.health.set r (s.provingHealth r)
        tx := s.tx.set r { s.tx[r] with queue := [], testEntry := true }
        time := { s.time with timeRoute := State.bestTimeRoute { s with health := s.health.set r (s.provingHealth r) } } } := by
  rw [State.steering, State.toProving]
  simp [State.modTx]

theorem State.testRoute_of_carries {s : State} {r : RouteIx} (h : s.health[r].state.carries = true) :
    s.testRoute r = (s.tx[r].queue.foldl (fun s c => s.resteerCopy r c) (s.steering r)).raiseAll
      (.routeState r s.health[r].state .proving) := by
  have hstate := (RouteState.carries_iff _).1 h
  have hqueue : (s.toProving r).tx[r].queue = s.tx[r].queue := by simp [State.toProving]
  rw [State.testRoute_eq (by rcases hstate with e | e <;> rw [e] <;> decide) (by rcases hstate with e | e <;> rw [e] <;> decide),
    if_pos h, State.resteer, hqueue]
  rfl

section
variable {s : State} {r : RouteIx} {c : Copy}

theorem heldElsewhere_steering (k : Nat) : (s.steering r).heldElsewhere r k = s.heldElsewhere r k :=
  (heldElsewhere_modTx (s.toProving r) r _ k).trans (heldElsewhere_modTx s r (fun t => { t with testEntry := true }) k)

theorem resteerTarget_steering : (s.steering r).resteerTarget r c = s.resteerTarget r c := by
  rw [State.steering_eq]
  refine resteerTarget_congr c rfl rfl rfl rfl rfl (fun q hq => ?_) fun q hq => ?_
  · exact s.modHealth_get_other r q (fun _ => s.provingHealth r) hq
  · exact s.modTx_get_other r q (fun t => { t with queue := [], testEntry := true }) hq

theorem steering_tx : (s.steering r).tx = s.tx.set r { s.tx[r] with queue := [], testEntry := true } := by
  rw [State.steering_eq]

theorem steering_leaves :
    (s.steering r).circuits = s.circuits ∧ (s.steering r).sel = s.sel ∧ (s.steering r).pool = s.pool ∧
    (s.steering r).ports = s.ports := ⟨rfl, rfl, rfl, rfl⟩

/-- The state in which a copy has left route `r`, entered into PROVING. -/
theorem steering_of_outcome (tx : Vector Tx 16) (pool : Pool) (circuits : Vector Circuit 64) (sel : Vector RouteSel 16)
    (ports : Vector Port 6) (hentry : tx[r].testEntry = s.tx[r].testEntry) :
    State.steering { s with tx := tx, pool := pool, circuits := circuits, sel := sel, ports := ports } r =
      { s.steering r with
        tx := tx.set r { tx[r] with queue := [], testEntry := true }
        pool := pool, circuits := circuits, sel := sel, ports := ports } := by
  obtain ⟨s', hs'⟩ : ∃ s', s' = { s with tx := tx, pool := pool, circuits := circuits, sel := sel, ports := ports } :=
    ⟨_, rfl⟩
  rw [← hs']
  have hproving : s'.provingHealth r = s.provingHealth r := by
    rw [hs', State.provingHealth, State.provingHealth]
    dsimp only
    rw [hentry]
  have hroute : State.bestTimeRoute { s' with health := s'.health.set r (s'.provingHealth r) } =
      State.bestTimeRoute { s with health := s.health.set r (s.provingHealth r) } :=
    State.bestTimeRoute_congr (State.routeView_congr (by rw [hs']) (by rw [hproving, hs']) (by rw [hs']))
  rw [State.steering_eq, State.steering_eq, hroute, hproving, hs']

/-- The directive does what it does on the state in which the copy at the head has been re-steered. -/
theorem testRoute_after_copy {rest : List Copy} (hcarries : s.health[r].state.carries = true) (hqueue : s.tx[r].queue = c :: rest)
    {tx : Vector Tx 16} {pool : Pool} {circuits : Vector Circuit 64} {sel : Vector RouteSel 16} {ports : Vector Port 6}
    (hrest : tx[r].queue = rest) (hentry : tx[r].testEntry = s.tx[r].testEntry)
    (hcopy : (s.steering r).resteerCopy r c =
      { s.steering r with
        tx := tx.set r { tx[r] with queue := [], testEntry := true }
        pool := pool, circuits := circuits, sel := sel, ports := ports }) :
    s.testRoute r = State.testRoute { s with tx := tx, pool := pool, circuits := circuits, sel := sel, ports := ports } r := by
  rw [State.testRoute_of_carries hcarries, hqueue, List.foldl_cons, hcopy,
    ← steering_of_outcome tx pool circuits sel ports hentry, ← hrest]
  exact (State.testRoute_of_carries
    (s := { s with tx := tx, pool := pool, circuits := circuits, sel := sel, ports := ports }) hcarries).symm

/-- A copy discarded whose frame no other route holds (R91, R92). -/
theorem countDiscard_of_frame {f : Frame} (hframe : s.pool.frame c.slot = some f) (hlast : ¬ s.HeldOnOther r c.slot)
    (reason : DiscardReason) :
    s.countDiscard r c reason =
      { s with
        circuits :=
          if f.started then s.circuits
          else s.circuits.set c.circuit
            { s.circuits[c.circuit] with
              out := { s.circuits[c.circuit].out.discard reason with held := s.circuits[c.circuit].out.held - 1 } }
        ports :=
          if f.started then s.ports
          else s.ports.set c.port (s.ports[c.port].record (.circuitDiscard c.circuit reason c.seq)) } := by
  cases hstarted : f.started with
  | true => exact countDiscard_of_not_last reason hframe (.inl hstarted)
  | false => exact countDiscard_of_last reason hframe hstarted hlast

/-- A place of a vector set again after another place. -/
theorem set_again_after {α : Type} {n i j : Nat} {hi : i < n} {hj : j < n} (v : Vector α n) (hne : j ≠ i) (a b a' : α) :
    ((v.set i a hi).set j b hj).set i a' hi = (v.set i a' hi).set j b hj := by
  rw [Vector.set_comm _ _ hne, Vector.set_set]

/-! The four cases of R128, from the state `s` in which the copy waits at the head to the state that its outcome alone gives. -/

section
variable {rest : List Copy} (hcarries : s.health[r].state.carries = true) (hqueue : s.tx[r].queue = c :: rest)
include hcarries hqueue

theorem testRoute_released (hheld : s.heldElsewhere r c.slot = true) :
    s.testRoute r = State.testRoute
      { s with
        pool := s.pool.release c.slot
        tx := s.tx.set r
          { s.tx[r] with
            queue := rest
            counts := { s.tx[r].counts with releasedResteer := s.tx[r].counts.releasedResteer + 1 } } } r := by
  refine testRoute_after_copy hcarries hqueue (by simp) (by simp) ?_
  rw [State.resteerCopy, heldElsewhere_steering, if_pos hheld, State.modTx, State.release, State.setPool]
  simp [steering_tx, steering_leaves]

theorem testRoute_resteered {q : RouteIx} (hfree : s.heldElsewhere r c.slot = false) (hfresh : s.expired c = false)
    (hne : q ≠ r) (htarget : s.resteerTarget r c = some q) :
    s.testRoute r = State.testRoute
      { s with
        sel := s.sel.set q { s.sel[q] with resteeredIn := s.sel[q].resteeredIn + 1 }
        tx := (s.tx.set r
          { s.tx[r] with
            queue := rest
            counts := { s.tx[r].counts with resteeredOut := s.tx[r].counts.resteeredOut + 1 } }).set q
          { s.tx[q] with queue := s.tx[q].queue ++ [c] } } r := by
  have hval : q.val ≠ r.val := fun h => hne (Fin.ext h)
  have hfresh' : (s.steering r).expired c = false := hfresh
  refine testRoute_after_copy hcarries hqueue (by simp [hval]) (by simp [hval]) ?_
  rw [State.resteerCopy, heldElsewhere_steering, hfree, hfresh', resteerTarget_steering, htarget]
  simp [State.modTx, State.modSel, State.enqueue, steering_tx, steering_leaves, hval, hval.symm, set_again_after _ hval]

/-- A copy discarded for the reason given, which `count` counts on the route. -/
theorem testRoute_discarded {f : Frame} (hframe : s.pool.frame c.slot = some f) (hlast : ¬ s.HeldOnOther r c.slot)
    (reason : DiscardReason) (count : TxCounts → TxCounts)
    (hcopy : (s.steering r).resteerCopy r c =
      (((s.steering r).countDiscard r c reason).release c.slot).modTx r fun t => { t with counts := count t.counts }) :
    s.testRoute r = State.testRoute
      { s with
        pool := s.pool.release c.slot
        tx := s.tx.set r { s.tx[r] with queue := rest, counts := count s.tx[r].counts }
        circuits :=
          if f.started then s.circuits
          else s.circuits.set c.circuit
            { s.circuits[c.circuit] with
              out := { s.circuits[c.circuit].out.discard reason with held := s.circuits[c.circuit].out.held - 1 } }
        ports :=
          if f.started then s.ports
          else s.ports.set c.port (s.ports[c.port].record (.circuitDiscard c.circuit reason c.seq)) } r := by
  have hlast' : ¬ (s.steering r).HeldOnOther r c.slot := by
    rw [← heldElsewhere_iff, heldElsewhere_steering, heldElsewhere_iff]
    exact hlast
  refine testRoute_after_copy hcarries hqueue (by simp) (by simp) ?_
  rw [hcopy, countDiscard_of_frame (s := s.steering r) hframe hlast', State.modTx, State.release, State.setPool]
  simp [steering_tx, steering_leaves]

end

end

/-! ### The directive, a copy re-steered first -/

/-- Whether a directive is authorised rests on the settings, the profile unit, and at its port on nothing that a notice changes. -/
theorem authorised_of_recordless {s s' : State} {d : Directive} {name argLen : Nat} (h : s.Authorised d name argLen)
    (hcfg : s'.cfg = s.cfg) (hprofile : s'.profile = s.profile)
    (hports : ∀ p : PortIx, s'.ports[p].recordless = s.ports[p].recordless) : s'.Authorised d name argLen := by
  have hup : s'.ports[d.port].up = s.ports[d.port].up := (congrArg Port.up (hports d.port) :)
  have hanswers : s'.ports[d.port].answers = s.ports[d.port].answers := (congrArg Port.answers (hports d.port) :)
  unfold State.Authorised State.Reaches State.Takes
  rw [hup, hanswers, hprofile, hcfg]
  exact h

/-- A port at which a discard may have been told of. -/
theorem recordless_told (s : State) (b : Bool) (p q : PortIx) (n : Notice) :
    (if b = true then s.ports else s.ports.set q (s.ports[q].record n))[p].recordless = s.ports[p].recordless := by
  cases b with
  | true => rfl
  | false =>
    show (s.modPort q fun x => x.record n).ports[p].recordless = _
    rw [State.modPort_get]
    split
    · next h => rw [h, Port.recordless_record]
    · rfl

/-- Settles O24: TEST_ROUTE makes one change of state, and each copy re-steered first leaves the directive the same work. -/
theorem testRouteProves : Obligations.TestRouteProves := by
  refine ⟨fun s d r hauth hargs => ⟨fun hdisabled => ?_, fun hproving => ?_, fun hdisabled hproving => ?_, ?_, ?_⟩,
    fun s d hauth hwild => execTestRoute_of_wild hauth hwild⟩
  · rw [execTestRoute_eq hauth hargs, if_pos hdisabled]
  · rw [execTestRoute_of_usable hauth hargs (by rw [hproving]; decide), State.testRoute, if_pos hproving]
    rfl
  · exact ⟨_, execTestRoute_of_usable hauth hargs hdisabled, testRoute_shows d hdisabled hproving rfl⟩
  · rintro health hcase rfl
    have hdisabled : s.health[r].state ≠ .disabled := by
      rcases hcase with h | ⟨h | h, -⟩ <;> rw [h] <;> decide
    have hproving : s.health[r].state ≠ .proving := by
      rcases hcase with h | ⟨h | h, -⟩ <;> rw [h] <;> decide
    rw [execTestRoute_of_usable hauth hargs hdisabled, State.testRoute_of_empty hdisabled hproving]
    · rfl
    · intro hcarries
      rcases hcase with h | ⟨-, hqueue⟩
      · rw [h] at hcarries
        cases hcarries
      · exact hqueue
  · intro c rest f port peer far cls maxAge hstate hqueue hframe hdefn
    have hcarries := (RouteState.carries_iff _).2 hstate
    have hexec {s' : State} (hauth' : s'.Authorised d 19 1) (hhealth : s'.health = s.health)
        (hsame : s.testRoute r = s'.testRoute r) : exec (.testRoute d) s = exec (.testRoute d) s' := by
      have hdisabled : s.health[r].state ≠ .disabled := by rcases hstate with h | h <;> rw [h] <;> decide
      rw [execTestRoute_of_usable hauth hargs hdisabled, execTestRoute_of_usable hauth' hargs (by rw [hhealth]; exact hdisabled),
        hsame]
    have hfree (h : ¬ s.HeldOnOther r c.slot) : s.heldElsewhere r c.slot = false :=
      Bool.eq_false_iff.2 (mt (heldElsewhere_iff s r c.slot).1 h)
    have hage : s.expired c = true ↔ maxAge * 1000 ≤ (s.time.et - c.origin).toNat * 8 := by
      rw [State.expired, decide_eq_true_iff, State.maxAge, hdefn]
      rfl
    have hpeer : s.copyPeer c = some peer := by
      rw [State.copyPeer, hdefn]
      rfl
    have hfresh (h : (s.time.et - c.origin).toNat * 8 < maxAge * 1000) : s.expired c = false :=
      Bool.eq_false_iff.2 (mt hage.1 (Nat.not_le.2 h))
    refine ⟨fun hheld => ?_, fun hlast hyoung q htarget => ?_, fun hlast hold => ?_, fun hlast hyoung hnowhere => ?_⟩
    · exact hexec hauth rfl (testRoute_released hcarries hqueue ((heldElsewhere_iff s r c.slot).2 hheld))
    · have hne : q ≠ r := by
        rcases htarget with ⟨-, hne, -⟩ | ⟨-, ⟨-, hne⟩, -⟩ <;> exact hne
      exact hexec hauth rfl (testRoute_resteered hcarries hqueue (hfree hlast) (hfresh hyoung) hne
        ((resteerTarget_eq_some_iff hpeer r q).2 htarget))
    · refine hexec (authorised_of_recordless hauth rfl rfl fun p => recordless_told ..) rfl (testRoute_discarded hcarries
        hqueue hframe hlast .expired
        (fun x => { x with expiredResteer := x.expiredResteer + 1 }) ?_)
      have hexpired : (s.steering r).expired c = true := hage.2 hold
      rw [State.resteerCopy, heldElsewhere_steering, hfree hlast, hexpired]
      rfl
    · have htarget : s.resteerTarget r c = none :=
        Option.eq_none_iff_forall_ne_some.2 fun q h => hnowhere q ((resteerTarget_eq_some_iff hpeer r q).1 h)
      refine hexec (authorised_of_recordless hauth rfl rfl fun p => recordless_told ..) rfl (testRoute_discarded hcarries
        hqueue hframe hlast .noRoute
        (fun x => { x with noRouteResteer := x.noRouteResteer + 1 }) ?_)
      have hyoung' : (s.steering r).expired c = false := hfresh hyoung
      rw [State.resteerCopy, heldElsewhere_steering, hfree hlast, hyoung', resteerTarget_steering, htarget]
      rfl

end Sys2Proof.Machine
end

