-- ==== Sys2Proof/Proofs/LostRecords.lean ====
section
/-! SUPPORT. The records that SET_PROBE's new timeout makes LOST, route by route, the oldest first (R39, R48, R57). -/

namespace Sys2Proof.Machine

/-! ### One record LOST -/

section
variable (s : State) (r : RouteIx) (o : Outstanding)

theorem State.loseProbe_nextDue : (s.loseProbe r o).nextDue = s.nextDue := by
  obtain ⟨⟨-, -, -, htime, -⟩, -, hcfg, -⟩ := s.loseProbe_routeFrame r o
  have het : (s.loseProbe r o).time.et = s.time.et := (congrArg TimeBase.et htime :)
  rw [State.nextDue, State.nextDue, State.probeTicks, State.probeTicks, hcfg, het]

theorem State.loseProbe_due (q : RouteIx) : (s.loseProbe r o).probes[q].due = s.probes[q].due := by
  by_cases hq : q = r
  · subst hq
    rcases s.probe_loseProbe q o with h | h <;> rw [h] <;> rfl
  · obtain ⟨⟨hother, -⟩, -⟩ := s.loseProbe_routeFrame r o
    obtain ⟨-, hprobe, -⟩ := hother q hq
    rw [hprobe]

theorem State.loseProbe_timedOut {q : RouteIx} (hq : q ≠ r) : (s.loseProbe r o).timedOut q = s.timedOut q := by
  obtain ⟨⟨hother, -, -, htime, -⟩, -, hcfg, -⟩ := s.loseProbe_routeFrame r o
  have het : (s.loseProbe r o).time.et = s.time.et := (congrArg TimeBase.et htime :)
  obtain ⟨-, hprobe, -⟩ := hother q hq
  rw [State.timedOut, State.timedOut, hprobe, hcfg, het]

theorem State.loseProbe_fewer {o : Outstanding} (h : s.timedOut r = some o) :
    (s.loseProbe r o).probes[r].outstanding.length < s.probes[r].outstanding.length := by
  have hmem : o ∈ s.probes[r].outstanding := List.mem_of_find?_eq_some h
  rcases s.probe_loseProbe r o with e | e
  · rw [e]
    show (s.probes[r].outstanding.erase o).length < _
    rw [List.length_erase_of_mem hmem]
    have := List.length_pos_of_mem hmem
    omega
  · rw [e]
    exact List.length_pos_of_mem hmem

end

/-! ### The records of one route LOST in turn -/

theorem State.loseDue_of_none {s : State} {r : RouteIx} (h : s.timedOut r = none) (fuel : Nat) : s.loseDue r fuel = s := by
  cases fuel with
  | zero => rfl
  | succ n => rw [State.loseDue, h]

theorem State.loseDue_succ {s : State} {r : RouteIx} {o : Outstanding} (h : s.timedOut r = some o) (fuel : Nat) :
    s.loseDue r (fuel + 1) = (s.loseProbe r o).loseDue r fuel := by
  rw [State.loseDue, h]

theorem State.timedOut_of_empty {s : State} {r : RouteIx} (h : s.probes[r].outstanding.length = 0) : s.timedOut r = none := by
  rw [State.timedOut, List.length_eq_zero_iff.1 h]
  rfl

/-- What each record LOST leaves, the records of a route LOST in turn leave. -/
theorem State.loseDue_induct {motive : State → Prop} (r : RouteIx)
    (h : ∀ u o, motive u → motive (u.loseProbe r o)) (s : State) (fuel : Nat) (h0 : motive s) : motive (s.loseDue r fuel) := by
  induction fuel generalizing s with
  | zero => exact h0
  | succ n ih =>
    cases hout : s.timedOut r with
    | none => rw [State.loseDue_of_none hout]; exact h0
    | some o => rw [State.loseDue_succ hout]; exact ih _ (h s o h0)

/-- As many losses as there are records leave none that has reached the timeout. -/
theorem State.loseDue_timedOut {s : State} {r : RouteIx} {fuel : Nat} (h : s.probes[r].outstanding.length ≤ fuel) :
    (s.loseDue r fuel).timedOut r = none := by
  induction fuel generalizing s with
  | zero => exact State.timedOut_of_empty (Nat.le_zero.1 h)
  | succ n ih =>
    cases hout : s.timedOut r with
    | none => rw [State.loseDue_of_none hout, hout]
    | some o =>
      have := s.loseProbe_fewer r hout
      rw [State.loseDue_succ hout]
      exact ih (by omega)

/-- More losses allowed than there are records lose no more. -/
theorem State.loseDue_enough {s : State} {r : RouteIx} {m n : Nat} (hm : s.probes[r].outstanding.length ≤ m)
    (hn : s.probes[r].outstanding.length ≤ n) : s.loseDue r m = s.loseDue r n := by
  induction m generalizing s n with
  | zero => exact (State.loseDue_of_none (State.timedOut_of_empty (Nat.le_zero.1 hm)) n).symm
  | succ m ih =>
    cases hout : s.timedOut r with
    | none => rw [State.loseDue_of_none hout, State.loseDue_of_none hout]
    | some o =>
      have hfewer := s.loseProbe_fewer r hout
      obtain ⟨k, rfl⟩ : ∃ k, n = k + 1 := ⟨n - 1, by omega⟩
      rw [State.loseDue_succ hout, State.loseDue_succ hout]
      exact ih (by omega) (by omega)

/-! ### The records of every route -/

/-- Every record that has reached the timeout LOST, route by route, the oldest of a route first. -/
def State.loseAll (s : State) : State := s.forRoutes fun r s => s.loseDue r s.probes[r].outstanding.length

theorem State.loseAll_induct {motive : State → Prop} (h : ∀ u r o, motive u → motive (u.loseProbe r o)) (s : State)
    (h0 : motive s) : motive s.loseAll :=
  State.forRoutes_induct s _ h0 fun r u hu => State.loseDue_induct r (fun v o => h v r o) u _ hu

theorem State.loseDue_keeps_timedOut {s : State} {q : RouteIx} (h : s.timedOut q = none) (r : RouteIx) (fuel : Nat) :
    (s.loseDue r fuel).timedOut q = none := by
  by_cases hq : q = r
  · subst hq
    rw [State.loseDue_of_none h, h]
  · exact State.loseDue_induct (motive := fun u => u.timedOut q = none) r
      (fun u o hu => (u.loseProbe_timedOut r o hq).trans hu) s fuel h

theorem State.loseAll_timedOut (s : State) (q : RouteIx) : s.loseAll.timedOut q = none := by
  have hfold (routes : List RouteIx) (u : State) (h : q ∈ routes ∨ u.timedOut q = none) :
      (routes.foldl (fun s r => s.loseDue r s.probes[r].outstanding.length) u).timedOut q = none := by
    induction routes generalizing u with
    | nil => exact h.resolve_left List.not_mem_nil
    | cons r routes ih =>
      rw [List.foldl_cons]
      refine ih _ ?_
      rcases h with h | h
      · rcases List.mem_cons.1 h with rfl | h
        · exact .inr (State.loseDue_timedOut (Nat.le_refl _))
        · exact .inl h
      · exact .inr (State.loseDue_keeps_timedOut h r _)
  exact hfold _ s (.inl (List.mem_finRange q))

theorem State.loseDue_foldl_of_none {routes : List RouteIx} {s : State} (h : ∀ q ∈ routes, s.timedOut q = none) :
    routes.foldl (fun s r => s.loseDue r s.probes[r].outstanding.length) s = s := by
  induction routes with
  | nil => rfl
  | cons r routes ih =>
    rw [List.foldl_cons, State.loseDue_of_none (h r (List.mem_cons_self ..))]
    exact ih fun q hq => h q (List.mem_cons_of_mem r hq)

theorem State.loseAll_of_none {s : State} (h : ∀ q, s.timedOut q = none) : s.loseAll = s :=
  State.loseDue_foldl_of_none fun q _ => h q

/-- What the losses leave, of which routes move (R65). -/
theorem State.loseAll_leaves (s : State) :
    s.loseAll.cfg = s.cfg ∧ s.loseAll.time.et = s.time.et ∧ (∀ q : RouteIx, s.loseAll.probes[q].due = s.probes[q].due) ∧
    ∀ p : PortIx, s.loseAll.ports[p].recordless = s.ports[p].recordless := by
  refine State.loseAll_induct (motive := fun u => u.cfg = s.cfg ∧ u.time.et = s.time.et ∧
    (∀ q : RouteIx, u.probes[q].due = s.probes[q].due) ∧ ∀ p : PortIx, u.ports[p].recordless = s.ports[p].recordless)
    (fun u r o hu => ?_) s ⟨rfl, rfl, fun _ => rfl, fun _ => rfl⟩
  obtain ⟨hcfg, het, hdue, hports⟩ := hu
  obtain ⟨⟨-, -, -, htime, -⟩, -, hcfg', -, hports'⟩ := u.loseProbe_routeFrame r o
  exact ⟨hcfg'.trans hcfg, (congrArg TimeBase.et htime :).trans het, fun q => (u.loseProbe_due r o q).trans (hdue q),
    fun p => (congrArg Port.recordless (hports' p) :).trans (hports p)⟩

/-- The first route with a record that has reached the timeout loses its oldest, and the rest follow. -/
theorem State.loseAll_of_first {s : State} {r : RouteIx} {o : Outstanding} (hout : s.timedOut r = some o)
    (hbefore : ∀ q : RouteIx, q < r → s.timedOut q = none) : s.loseAll = (s.loseProbe r o).loseAll := by
  obtain ⟨before, after, hsplit⟩ := List.append_of_mem (List.mem_finRange r)
  have hsorted : (before ++ r :: after).Pairwise (· < ·) := hsplit ▸ List.pairwise_lt_finRange 16
  obtain ⟨-, -, hacross⟩ := List.pairwise_append.1 hsorted
  have hlt (q : RouteIx) (hq : q ∈ before) : q < r := hacross q hq r (List.mem_cons_self ..)
  have hfewer := s.loseProbe_fewer r hout
  have hsame : s.loseDue r s.probes[r].outstanding.length =
      (s.loseProbe r o).loseDue r (s.loseProbe r o).probes[r].outstanding.length := by
    rw [State.loseDue_enough (Nat.le_refl _) (Nat.le_succ _), State.loseDue_succ hout]
    exact State.loseDue_enough (Nat.le_of_lt hfewer) (Nat.le_refl _)
  have hafter (q : RouteIx) (hq : q ∈ before) : (s.loseProbe r o).timedOut q = none := by
    rw [s.loseProbe_timedOut r o (Fin.ne_of_lt (hlt q hq))]
    exact hbefore q (hlt q hq)
  rw [State.loseAll, State.loseAll, State.forRoutes, State.forRoutes, hsplit, List.foldl_append, List.foldl_append,
    List.foldl_cons, List.foldl_cons, State.loseDue_foldl_of_none fun q hq => hbefore q (hlt q hq),
    State.loseDue_foldl_of_none hafter, hsame]

/-! ### Losses and what they do not look at -/

theorem Overlay.on_timedOut (o : Overlay) (s : State) (r : RouteIx) : (o.on s).timedOut r = s.timedOut r := by
  rw [State.timedOut, State.timedOut, o.on_probe]
  rfl

theorem Overlay.Fits.on_loseDue {o : Overlay} {s : State} (ho : o.Fits s.nextDue) (r : RouteIx) (fuel : Nat) :
    o.on (s.loseDue r fuel) = (o.on s).loseDue r fuel := by
  induction fuel generalizing s with
  | zero => rfl
  | succ n ih =>
    cases hout : s.timedOut r with
    | none => rw [State.loseDue_of_none hout, State.loseDue_of_none ((o.on_timedOut s r).trans hout)]
    | some x =>
      rw [State.loseDue_succ hout, State.loseDue_succ ((o.on_timedOut s r).trans hout),
        ih (by rw [State.loseProbe_nextDue]; exact ho), ho.on_loseProbe]

theorem Overlay.Fits.on_loseAll {o : Overlay} {s : State} (ho : o.Fits s.nextDue) : o.on s.loseAll = (o.on s).loseAll := by
  have hfold (routes : List RouteIx) (u : State) (hu : u.nextDue = s.nextDue) :
      o.on (routes.foldl (fun s r => s.loseDue r s.probes[r].outstanding.length) u) =
        routes.foldl (fun s r => s.loseDue r s.probes[r].outstanding.length) (o.on u) := by
    induction routes generalizing u with
    | nil => rfl
    | cons r routes ih =>
      have hfits : o.Fits u.nextDue := by rw [hu]; exact ho
      have hlength : (o.on u).probes[r].outstanding.length = u.probes[r].outstanding.length := by rw [o.on_probe]; rfl
      rw [List.foldl_cons, List.foldl_cons, hlength, ← hfits.on_loseDue]
      exact ih _ (State.loseDue_induct (motive := fun v => v.nextDue = s.nextDue) r
        (fun v x hv => (v.loseProbe_nextDue r x).trans hv) u _ hu)
  exact hfold _ s rfl

end Sys2Proof.Machine
end

