-- ==== Sys2Proof/Proofs/SetProbe.lean ====
section
/-! CHECK. SET_PROBE: the settings replaced, the schedules restarted and the records timed out (R48, R56, R57, R67). -/

namespace Sys2Proof.Machine

/-! ### The arguments of SET_PROBE (R56, R193) -/

theorem probeArgs_probeRecord {x : ProbeSettings} (hinterval : x.interval < 256) (htimeout : x.timeout < 256)
    (hgate : x.gate < 65536) : probeArgs? (probeRecord x) = if x.ok then some x else none := by
  have h0 : field (probeRecord x) 0 1 = x.interval := field_of_take rfl hinterval
  have h1 : field (probeRecord x) 1 1 = x.timeout := field_of_take rfl htimeout
  have h2 : field (probeRecord x) 2 2 = x.gate := field_of_take rfl hgate
  rw [probeArgs?, h0, h1, h2]

/-! ### The schedules restarted (R57, R67) -/

/-- Every running PROBE schedule falls due at `next`, and with `tests` every running TEST schedule too. -/
def restartOverlay (next : Ticks) (tests : Bool) : Overlay where
  due _ x := x.map fun _ => next
  testDue _ x := if tests then x.map fun _ => next else x
  port _ x := x

theorem restartOverlay_fits (next : Ticks) (tests : Bool) : (restartOverlay next tests).Fits next where
  stopped _ := rfl
  started _ := rfl
  testStopped _ := by cases tests <;> rfl
  testStarted _ := by cases tests <;> rfl
  record _ _ _ := rfl

theorem restartOverlay_on (next : Ticks) (tests : Bool) (s : State) :
    (restartOverlay next tests).on s =
      { s with
        probes := Vector.ofFn fun r => { s.probes[r] with due := s.probes[r].due.map fun _ => next }
        health := Vector.ofFn fun r =>
          { s.health[r] with testDue := if tests then s.health[r].testDue.map fun _ => next else s.health[r].testDue } } := by
  have hports : (Vector.ofFn fun p : PortIx => s.ports[p]) = s.ports := by
    ext p hp
    simp
  exact congrArg (fun ports => { (restartOverlay next tests).on s with ports := ports }) hports

theorem restartSchedules_self (s : State) (tests : Bool) (r : RouteIx) :
    (s.restartSchedules tests r).probes[r] = s.probes[r].redue ((restartOverlay s.nextDue tests).due r) ∧
    (s.restartSchedules tests r).health[r] = s.health[r].redue ((restartOverlay s.nextDue tests).testDue r) := by
  rw [State.restartSchedules, State.modHealth_probes]
  exact ⟨s.modProbe_get_self r _, State.modHealth_get_self _ r _⟩

theorem restartSchedules_other (s : State) (tests : Bool) {r q : RouteIx} (h : q ≠ r) :
    (s.restartSchedules tests r).probes[q] = s.probes[q] ∧ (s.restartSchedules tests r).health[q] = s.health[q] := by
  rw [State.restartSchedules, State.modHealth_probes]
  exact ⟨s.modProbe_get_other r q _ h, State.modHealth_get_other _ r q _ h⟩

/-- Restarting each route's schedules in turn restarts them all. -/
theorem restart_all (s : State) (tests : Bool) :
    (s.forRoutes fun r s => s.restartSchedules tests r) = (restartOverlay s.nextDue tests).on s := by
  have hroute (q : RouteIx) := foldl_each (fun (u : State) q => ((u.probes[q], u.health[q]), u.nextDue))
    (fun u q => u.restartSchedules tests q)
    (fun q (x : (Probe × Health) × Ticks) =>
      ((x.1.1.redue ((restartOverlay x.2 tests).due q), x.1.2.redue ((restartOverlay x.2 tests).testDue q)), x.2))
    (fun u q => Prod.ext (Prod.ext (restartSchedules_self u tests q).1 (restartSchedules_self u tests q).2) rfl)
    (fun u r q hq => Prod.ext (Prod.ext (restartSchedules_other u tests hq).1 (restartSchedules_other u tests hq).2) rfl)
    (List.nodup_finRange 16) s q
  simp only [List.mem_finRange, if_true, Prod.mk.injEq] at hroute
  have hrest := forRoutes_leaves (fun u : State => { u with probes := s.probes, health := s.health })
    (fun r s => s.restartSchedules tests r) (fun _ _ => rfl) s
  change ∀ q : RouteIx, (((s.forRoutes fun r s => s.restartSchedules tests r).probes[q] = _ ∧
    (s.forRoutes fun r s => s.restartSchedules tests r).health[q] = _) ∧ _) at hroute
  generalize (s.forRoutes fun r s => s.restartSchedules tests r) = u at hroute hrest ⊢
  have hprobes : u.probes = ((restartOverlay s.nextDue tests).on s).probes :=
    Vector.ext fun i hi => (hroute ⟨i, hi⟩).1.1.trans ((restartOverlay s.nextDue tests).on_probe s ⟨i, hi⟩).symm
  have hhealth : u.health = ((restartOverlay s.nextDue tests).on s).health :=
    Vector.ext fun i hi => (hroute ⟨i, hi⟩).1.2.trans ((restartOverlay s.nextDue tests).on_health s ⟨i, hi⟩).symm
  calc u = { ({ u with probes := s.probes, health := s.health } : State) with probes := u.probes, health := u.health } := rfl
    _ = { s with probes := u.probes, health := u.health } := by rw [hrest]
    _ = (restartOverlay s.nextDue tests).on s := by
      rw [hprobes, hhealth, restartOverlay_on]

/-- The state with the probe settings replaced (R57). -/
def State.withProbe (s : State) (x : ProbeSettings) : State := { s with cfg := { s.cfg with probe := x } }

theorem State.applyProbe_eq (s : State) (x : ProbeSettings) :
    s.applyProbe x =
      (restartOverlay (s.time.et + BitVec.ofNat 64 (x.interval * 125000)) (decide (s.cfg.probe.interval ≠ x.interval))).on
        (s.withProbe x).loseAll := by
  have hdue : s.time.et + BitVec.ofNat 64 (x.interval * 125000) = (s.withProbe x).nextDue := rfl
  rw [hdue, (restartOverlay_fits (s.withProbe x).nextDue _).on_loseAll, ← restart_all]
  rfl

theorem State.applyProbe_taken (s : State) (d : Directive) (x : ProbeSettings) :
    (s.taken d).applyProbe x = (s.applyProbe x).taken d := by
  have hcfg : (s.taken d).withProbe x = (takenOverlay d).on (s.withProbe x) := by
    rw [takenOverlay_on]
    rfl
  have het : (s.taken d).time.et = s.time.et := rfl
  have hsame : (s.taken d).cfg = s.cfg := rfl
  rw [State.applyProbe_eq, State.applyProbe_eq, hcfg, ← (takenOverlay_fits d _).on_loseAll, takenOverlay_on, restartOverlay_on,
    restartOverlay_on, het, hsame]
  generalize (s.withProbe x).loseAll = u
  rw [State.taken_eq, State.taken_eq]
  rfl

/-! ### The directive (R56, R57) -/

section
variable {s : State} {d : Directive} {x : ProbeSettings} (hauth : s.Authorised d 12 4) (hargs : d.args = probeRecord x)
  (hinterval : x.interval < 256) (htimeout : x.timeout < 256) (hgate : x.gate < 65536)
include hauth hargs hinterval htimeout hgate

theorem execSetProbe_eq :
    exec (.setProbe d) s =
      if x.ok then .next ((s.applyProbe x).answered d .done []) else .next (s.answered d .badArg []) := by
  show Host.Outcome.next (s.operatorDirective d 12 4 (State.ownSetProbe d)) = _
  rw [State.operatorDirective_of_authorised hauth, State.ownSetProbe, hargs, probeArgs_probeRecord hinterval htimeout hgate]
  by_cases hok : x.ok = true
  · rw [if_pos hok, if_pos hok]
    dsimp only
    rw [State.applyProbe_taken]
    rfl
  · rw [if_neg hok, if_neg hok]
    rfl

end

/-- What a directive's answer leaves of its effects. -/
theorem State.answered_leaves (s : State) (d : Directive) (status : Status) (results : List Byte) :
    (s.answered d status results).cfg = s.cfg ∧ (s.answered d status results).probes = s.probes := ⟨rfl, rfl⟩

theorem State.recordless_applyProbe (s : State) (x : ProbeSettings) (p : PortIx) :
    (s.applyProbe x).ports[p].recordless = s.ports[p].recordless := by
  obtain ⟨-, -, -, hkept⟩ := (s.withProbe x).loseAll_leaves
  have hports : (s.withProbe x).loseAll.ports[p].recordless = s.ports[p].recordless := hkept p
  rw [State.applyProbe_eq, restartOverlay_on]
  generalize (s.withProbe x).loseAll = u at hports ⊢
  exact hports

theorem answers_applyProbe (s : State) (d : Directive) (x : ProbeSettings) :
    s.Answers ((s.applyProbe x).answered d .done []) d .done [] := by
  rw [State.answered, ← State.applyProbe_taken]
  exact answers_of_recordless (t := (s.taken d).applyProbe x) fun p => (s.taken d).recordless_applyProbe x p

theorem applyProbe_due (s : State) (x : ProbeSettings) (r : RouteIx) :
    (s.applyProbe x).probes[r].due =
      s.probes[r].due.map fun _ => s.time.et + BitVec.ofNat 64 (x.interval * 125000) := by
  obtain ⟨-, -, hkept, -⟩ := (s.withProbe x).loseAll_leaves
  have hdue : (s.withProbe x).loseAll.probes[r].due = s.probes[r].due := hkept r
  rw [State.applyProbe_eq, Overlay.on_probe, Probe.redue, hdue]
  rfl

theorem applyProbe_outstanding (s : State) (x : ProbeSettings) (r : RouteIx) :
    ∀ o ∈ (s.applyProbe x).probes[r].outstanding, (s.time.et - o.sentAt).toNat < x.timeout * 125000 := by
  have hnone := (State.timedOut_eq_none_iff _ r).1 ((s.withProbe x).loseAll_timedOut r)
  obtain ⟨hcfg, hkept, -⟩ := (s.withProbe x).loseAll_leaves
  have hsettings : (s.withProbe x).loseAll.cfg.probe.timeout = x.timeout := by rw [hcfg]; rfl
  have het : (s.withProbe x).loseAll.time.et = s.time.et := hkept
  rw [hsettings, het] at hnone
  rw [State.applyProbe_eq, Overlay.on_probe, Probe.redue]
  generalize (s.withProbe x).loseAll = u at hnone ⊢
  exact hnone

/-- Once the oldest due record of the first route with one is LOST under the new settings, SET_PROBE has the same left to do. -/
theorem applyProbe_after_loss {s : State} {x : ProbeSettings} {r : RouteIx} {o : Outstanding}
    (hout : (s.withProbe x).timedOut r = some o) (hbefore : ∀ q : RouteIx, q < r → (s.withProbe x).timedOut q = none) :
    s.applyProbe x = State.applyProbe { (s.withProbe x).loseProbe r o with cfg := s.cfg } x := by
  obtain ⟨⟨-, -, -, htime, -⟩, -, hcfg, -⟩ := (s.withProbe x).loseProbe_routeFrame r o
  have hloses := State.loseAll_of_first hout hbefore
  generalize (s.withProbe x).loseProbe r o = u at htime hcfg hloses
  have het : u.time.et = s.time.et := (congrArg TimeBase.et htime :)
  have hsame : State.withProbe { u with cfg := s.cfg } x = u :=
    (congrArg (fun cfg => { u with cfg := cfg }) hcfg).symm
  rw [State.applyProbe_eq, State.applyProbe_eq, hloses, hsame]
  dsimp only
  rw [het]

theorem applyProbe_of_none {s : State} {x : ProbeSettings} (h : ∀ q : RouteIx, (s.withProbe x).timedOut q = none) :
    s.applyProbe x =
      { s with
        cfg := { s.cfg with probe := x }
        probes := Vector.ofFn fun r =>
          { s.probes[r] with due := s.probes[r].due.map fun _ => s.time.et + BitVec.ofNat 64 (x.interval * 125000) }
        health := Vector.ofFn fun r =>
          { s.health[r] with
            testDue :=
              if x.interval = s.cfg.probe.interval then s.health[r].testDue
              else s.health[r].testDue.map fun _ => s.time.et + BitVec.ofNat 64 (x.interval * 125000) } } := by
  rw [State.applyProbe_eq, State.loseAll_of_none h, restartOverlay_on, State.withProbe]
  by_cases hsame : x.interval = s.cfg.probe.interval
  · simp [hsame]
  · simp [hsame, Ne.symm hsame]

/-- Settles O16: restarting the schedules and losing the due records stand in either order, and the losses come one by one. -/
theorem setProbeTakesEffect : Obligations.SetProbeTakesEffect := by
  intro s d x hauth hargs hinterval htimeout hgate
  have hexec {u : State} (hu : u.Authorised d 12 4) := execSetProbe_eq hu hargs hinterval htimeout hgate
  refine ⟨fun hbad => ?_, fun hok => ⟨?_, ?_, fun hnone => ?_⟩⟩
  · rw [hexec hauth, hbad]
    rfl
  · refine ⟨_, (hexec hauth).trans (if_pos hok), ?_, answers_applyProbe s d x, ?_⟩
    · rw [(State.answered_leaves _ _ _ _).1]
      exact s.applyProbe_cfg x
    · rw [(State.answered_leaves _ _ _ _).2]
      exact ⟨applyProbe_due s x, applyProbe_outstanding s x⟩
  · rintro r s' ⟨o, ho, hage⟩ hbefore htimeouts
    have hearlier (q : RouteIx) (hq : q < r) : (s.withProbe x).timedOut q = none :=
      (State.timedOut_eq_none_iff _ q).2 (hbefore q hq)
    cases hout : (s.withProbe x).timedOut r with
    | none => exact absurd hage (Nat.not_le.2 ((State.timedOut_eq_none_iff _ r).1 hout o ho))
    | some first =>
      obtain rfl : (s.withProbe x).loseProbe r first = s' :=
        Host.Outcome.next.inj ((execProbeTimeout_of_some hout).symm.trans htimeouts)
      obtain ⟨⟨-, -, -, -, -, hprofile, -⟩, -, -, -, hports⟩ := (s.withProbe x).loseProbe_routeFrame r first
      have hauth' : State.Authorised { (s.withProbe x).loseProbe r first with cfg := s.cfg } d 12 4 :=
        authorised_of_recordless hauth rfl hprofile fun p => (congrArg Port.recordless (hports p) :)
      rw [hexec hauth, if_pos hok, applyProbe_after_loss hout hearlier]
      exact ((hexec hauth').trans (if_pos hok)).symm
  · have hstays (q : RouteIx) : (s.withProbe x).timedOut q = none := ((s.withProbe x).timedOut_eq_none_iff q).2 (hnone q)
    rw [hexec hauth, if_pos hok, applyProbe_of_none hstays]

end Sys2Proof.Machine
end
